-- ==== Sys2Proof/Word.lean ====
section
/-! DEFINITION. The word types of the hardware (R9, R11): bytes, 16-bit words and 32-bit longwords. -/

namespace Sys2Proof

/-- 8 bits: the unit of memory (R240). -/
abbrev Byte := BitVec 8

/-- 16 bits: an opcode word, an extension word, the status register (R9). -/
abbrev HWord := BitVec 16

/-- 32 bits: a data or address register, the program counter, an address (R9). -/
abbrev Long := BitVec 32

end Sys2Proof
end

