-- ==== Sys2Proof/Config.lean ====
section
/-! DEFINITION. What is fixed when the processor state is constructed (R8, R10, R201, R202, R213): the model, the
exception mode, the address mask and the structure of the memory regions; and the free values, the model's form of
the spec's `draw()` (R17). -/

namespace Sys2Proof

/-- The chip variant, MODEL (R8). -/
inductive Model where
  | mc68000 | mc68010 | mc68020 | mc68030 | mc68040
  deriving DecidableEq, Repr

/-- is000 of R8. -/
def Model.is000 : Model → Bool
  | .mc68000 => true
  | .mc68010 | .mc68020 | .mc68030 | .mc68040 => false

/-- is010plus of R8. -/
def Model.is010plus (m : Model) : Bool := !m.is000

/-- is020plus of R8. -/
def Model.is020plus : Model → Bool
  | .mc68000 | .mc68010 => false
  | .mc68020 | .mc68030 | .mc68040 => true

/-- EXCEPTION_MODE (R10, D2): whether an exception enters the guest's handler or halts. -/
inductive ExceptionMode where
  | vector | halt
  deriving DecidableEq, Repr

/-- The kinds of memory access (R205). -/
inductive AccessKind where
  | read | write | execute
  deriving DecidableEq, Repr

/-- One line of a region's access policy: it DENIES every access it matches; `none` matches every value.
A policy (R213, D7: a total predicate of function code, kind, offset and length) is a list of such lines, and allows
an access that none of them denies; the list is plain data, and every such predicate can be written as one. DESIGN CHOICE
(log entry 6). -/
structure DenyRule where
  fc   : Option (BitVec 3)
  kind : Option AccessKind
  len  : Option Nat
  /-- the offsets `lo ≤ off < hi` -/
  lo   : Nat
  hi   : Nat
  deriving DecidableEq, Repr

/-- The structure of a memory region (R201): immutable for the run (R202). Its bytes stand in the state's memory. -/
structure Region where
  start  : Nat
  size   : Nat
  lowmem : Bool
  policy : List DenyRule
  deriving DecidableEq, Repr

/-- The construction-time parameters (R10): they never change during a run (R8, R202, R1401). -/
structure Config where
  model         : Model
  exceptionMode : ExceptionMode
  addressMask   : BitVec 32
  regions       : List Region
  deriving DecidableEq, Repr

/-- A region as R201 bounds it: 0 < size ≤ 2^32 − start. -/
def Region.ok (r : Region) : Bool :=
  decide (0 < r.size) && decide (r.start + r.size ≤ 2 ^ 32)

/-- Every region is as R201 bounds it. -/
def Config.ok (c : Config) : Bool := c.regions.all Region.ok

/-- FREE VALUE (log entry 3): the k-th drawn bit of a run, `draw()` of R17. It has no body: nothing can be proved of it. -/
opaque Config.freeBit : Nat → Bool

/-- FREE VALUE (log entry 3): the k-th drawn byte of a run. -/
opaque Config.freeByte : Nat → BitVec 8

/-- FREE VALUE (log entry 3): the k-th drawn longword of a run. -/
opaque Config.freeLong : Nat → BitVec 32

end Sys2Proof
end

