-- ==== Sys2Proof/Syntax.lean ====
section
/-! DEFINITION. The instructions as syntax: one constructor of `Instr` per row of spec/opcode_table.json, in the
table's order, each carrying its opcode fields and the values of its extension words (R311, R313, R410). -/

namespace Sys2Proof

/-- A register field (R315): D0–D7 or A0–A7. -/
abbrev Reg := Fin 8

/-- A 4-bit register designation A/D:reg (R315): R[k] is D[k] for k < 8 and A[k−8] otherwise (R14). -/
abbrev RegR := Fin 16

/-- Operation sizes (R13). -/
inductive Size where
  | b | w | l
  deriving DecidableEq, Repr

/-- The sizes of the rows with a one-bit size field (R312). -/
inductive SizeWL where
  | w | l
  deriving DecidableEq, Repr

def SizeWL.toSize : SizeWL → Size
  | .w => .w
  | .l => .l

/-- The 16 conditions, in the order of their codes (R330). -/
inductive Cond where
  | t | f | hi | ls | cc | cs | ne | eq | vc | vs | pl | mi | ge | lt | gt | le
  deriving DecidableEq, Repr

/-- An immediate value with its size (R313, R413). -/
inductive Imm where
  | b (v : BitVec 8)
  | w (v : BitVec 16)
  | l (v : BitVec 32)
  deriving DecidableEq, Repr

def Imm.size : Imm → Size
  | .b _ => .b
  | .w _ => .w
  | .l _ => .l

/-- The extension word of an indexed mode (R415). `scale` and `full` are bits 10–9 and 8, which MC68000 and MC68010
ignore (R416). -/
structure IndexExt where
  xn    : RegR
  long  : Bool
  scale : BitVec 2
  full  : Bool
  disp  : BitVec 8
  deriving DecidableEq, Repr

/-- The 12 addressing modes with their extension words (R410). -/
inductive EA where
  /-- `Dn` -/
  | dn (n : Reg)
  /-- `An` -/
  | an (n : Reg)
  /-- `(An)` -/
  | ind (n : Reg)
  /-- `(An)+` -/
  | postinc (n : Reg)
  /-- `-(An)` -/
  | predec (n : Reg)
  /-- `(d16,An)` -/
  | disp (n : Reg) (d : BitVec 16)
  /-- `(d8,An,Xn)` -/
  | index (n : Reg) (x : IndexExt)
  /-- `(xxx).W` -/
  | absW (a : BitVec 16)
  /-- `(xxx).L` -/
  | absL (a : BitVec 32)
  /-- `(d16,PC)` -/
  | pcDisp (d : BitVec 16)
  /-- `(d8,PC,Xn)` -/
  | pcIndex (x : IndexExt)
  /-- `#imm` -/
  | imm (v : Imm)
  deriving DecidableEq, Repr

/-- A branch displacement (R1100): in the opcode word, or in a displacement word when the opcode's 8 bits are 0. -/
inductive BranchDisp where
  | short (d : BitVec 8)
  | word (d : BitVec 16)
  deriving DecidableEq, Repr

/-- The count of a register shift (R800): a 3-bit field in which 0 means 8, or a data register. -/
inductive ShiftCount where
  | imm (q : BitVec 3)
  | reg (n : Reg)
  deriving DecidableEq, Repr

/-- The instructions: one constructor per row of spec/opcode_table.json, in decode order (R320).
`ea6` is the six bits 5–0 of a row whose EA field takes every value. -/
inductive Instr where
  -- rows 1–8
  | oriToCcr (imm : BitVec 8)
  | oriToSr (imm : BitVec 16)
  | andiToCcr (imm : BitVec 8)
  | andiToSr (imm : BitVec 16)
  | eoriToCcr (imm : BitVec 8)
  | eoriToSr (imm : BitVec 16)
  | cas2W
  | cas2L
  -- rows 9–18
  | movepToReg (sz : SizeWL) (ay : Reg) (d : BitVec 16) (dx : Reg)
  | movepToMem (sz : SizeWL) (dx : Reg) (ay : Reg) (d : BitVec 16)
  | btstDn (dn : Reg) (ea : EA)
  | bchgDn (dn : Reg) (ea : EA)
  | bclrDn (dn : Reg) (ea : EA)
  | bsetDn (dn : Reg) (ea : EA)
  | btstImm (bit : BitVec 8) (ea : EA)
  | bchgImm (bit : BitVec 8) (ea : EA)
  | bclrImm (bit : BitVec 8) (ea : EA)
  | bsetImm (bit : BitVec 8) (ea : EA)
  -- rows 19–29
  | ori (imm : Imm) (ea : EA)
  | andi (imm : Imm) (ea : EA)
  | subi (imm : Imm) (ea : EA)
  | addi (imm : Imm) (ea : EA)
  | eori (imm : Imm) (ea : EA)
  | cmpi (imm : Imm) (ea : EA)
  | cmpiPcRel (sz : Size) (indexed : Bool)
  | moves (sz : Size) (toMem : Bool) (rn : RegR) (ea : EA)
  | cmp2Chk2 (size2 : BitVec 2) (ea6 : BitVec 6)
  | rtmCallm (bits : BitVec 6)
  | cas (size2 : BitVec 2) (ea6 : BitVec 6)
  -- rows 30–31
  | movea (sz : SizeWL) (ea : EA) (an : Reg)
  | move (sz : Size) (src dst : EA)
  -- rows 32–49
  | illegal
  | reset
  | nop
  | stop (imm : BitVec 16)
  | rte
  | rtd (d : BitVec 16)
  | rts
  | trapv
  | rtr
  | movecFrom (c : BitVec 12) (rn : RegR)
  | movecTo (rn : RegR) (c : BitVec 12)
  | trap (v : BitVec 4)
  | link (an : Reg) (d : BitVec 16)
  | unlk (an : Reg)
  | moveToUsp (an : Reg)
  | moveFromUsp (an : Reg)
  | jsr (ea : EA)
  | jmp (ea : EA)
  -- rows 50–61
  | swap (dn : Reg)
  | bkpt (v : Fin 8)
  | linkL (an : Reg)
  | extW (dn : Reg)
  | extL (dn : Reg)
  | extbL (dn : Reg)
  | nbcd (ea : EA)
  | pea (ea : EA)
  | movemToMem (sz : SizeWL) (mask : BitVec 16) (ea : EA)
  | movemToReg (sz : SizeWL) (ea : EA) (mask : BitVec 16)
  | mulL (ea6 : BitVec 6)
  | divL (ea6 : BitVec 6)
  -- rows 62–75
  | moveFromSr (ea : EA)
  | negx (sz : Size) (ea : EA)
  | moveFromCcr (ea : EA)
  | clr (sz : Size) (ea : EA)
  | moveToCcr (ea : EA)
  | neg (sz : Size) (ea : EA)
  | moveToSr (ea : EA)
  | notEa (sz : Size) (ea : EA)
  | tas (ea : EA)
  | tst (sz : Size) (ea : EA)
  | tst020 (sz : Size) (ea6 : BitVec 6)
  | chkW (ea : EA) (dn : Reg)
  | chkL (dn : Reg) (ea6 : BitVec 6)
  | lea (ea : EA) (an : Reg)
  -- rows 76–85
  | dbcc (cond : Cond) (dn : Reg) (d : BitVec 16)
  | trapcc (cond : Cond) (opmode : BitVec 3)
  | scc (cond : Cond) (ea : EA)
  | addq (sz : Size) (q : BitVec 3) (ea : EA)
  | subq (sz : Size) (q : BitVec 3) (ea : EA)
  | bccL (cond : Cond)
  | bra (d : BranchDisp)
  | bsr (d : BranchDisp)
  | bcc (cond : Cond) (d : BranchDisp)
  | moveq (imm : BitVec 8) (dn : Reg)
  -- rows 86–99
  | sbcdReg (dy dx : Reg)
  | sbcdMem (ay ax : Reg)
  | pack (rx : Reg) (rm : Bool) (ry : Reg)
  | unpk (rx : Reg) (rm : Bool) (ry : Reg)
  | divuW (ea : EA) (dn : Reg)
  | divsW (ea : EA) (dn : Reg)
  | orEaDn (sz : Size) (ea : EA) (dn : Reg)
  | orDnEa (sz : Size) (dn : Reg) (ea : EA)
  | subxReg (sz : Size) (dy dx : Reg)
  | subxMem (sz : Size) (ay ax : Reg)
  | suba (sz : SizeWL) (ea : EA) (an : Reg)
  | subEaDn (sz : Size) (ea : EA) (dn : Reg)
  | subDnEa (sz : Size) (dn : Reg) (ea : EA)
  | lineA (bits : BitVec 12)
  -- rows 100–117
  | cmpm (sz : Size) (ay ax : Reg)
  | cmpa (sz : SizeWL) (ea : EA) (an : Reg)
  | eorDnEa (sz : Size) (dn : Reg) (ea : EA)
  | cmpEaDn (sz : Size) (ea : EA) (dn : Reg)
  | abcdReg (dy dx : Reg)
  | abcdMem (ay ax : Reg)
  | exgDD (dx dy : Reg)
  | exgAA (ax ay : Reg)
  | exgDA (dx ay : Reg)
  | muluW (ea : EA) (dn : Reg)
  | mulsW (ea : EA) (dn : Reg)
  | andEaDn (sz : Size) (ea : EA) (dn : Reg)
  | andDnEa (sz : Size) (dn : Reg) (ea : EA)
  | addxReg (sz : Size) (dy dx : Reg)
  | addxMem (sz : Size) (ay ax : Reg)
  | adda (sz : SizeWL) (ea : EA) (an : Reg)
  | addEaDn (sz : Size) (ea : EA) (dn : Reg)
  | addDnEa (sz : Size) (dn : Reg) (ea : EA)
  -- rows 118–135
  | bitField (ty : BitVec 3) (ea6 : BitVec 6)
  | asrMem (ea : EA)
  | aslMem (ea : EA)
  | lsrMem (ea : EA)
  | lslMem (ea : EA)
  | roxrMem (ea : EA)
  | roxlMem (ea : EA)
  | rorMem (ea : EA)
  | rolMem (ea : EA)
  | asrReg (sz : Size) (c : ShiftCount) (dy : Reg)
  | aslReg (sz : Size) (c : ShiftCount) (dy : Reg)
  | lsrReg (sz : Size) (c : ShiftCount) (dy : Reg)
  | lslReg (sz : Size) (c : ShiftCount) (dy : Reg)
  | roxrReg (sz : Size) (c : ShiftCount) (dy : Reg)
  | roxlReg (sz : Size) (c : ShiftCount) (dy : Reg)
  | rorReg (sz : Size) (c : ShiftCount) (dy : Reg)
  | rolReg (sz : Size) (c : ShiftCount) (dy : Reg)
  | lineF (bits : BitVec 12)
  deriving DecidableEq, Repr

end Sys2Proof
end

