-- ==== Sys2Proof/Machine/Classes.lean ====
section
/-! DEFINITION. The tables over operand syntax that the decoder, the well-formedness check and the meanings share:
sizes (R13), extension words (R313, R412, R415), EA classes (R411) and condition codes (R330). -/

namespace Sys2Proof

/-- bytes(sz) of R13. -/
def Size.bytes : Size → Nat
  | .b => 1
  | .w => 2
  | .l => 4

/-- w(sz) of R13. -/
def Size.width : Size → Nat
  | .b => 8
  | .w => 16
  | .l => 32

/-- The extension words of an immediate (R313): a byte stands in the low half of its word, a longword's high half comes first. -/
def Imm.exts : Imm → List HWord
  | .b v => [0#8 ++ v]
  | .w v => [v]
  | .l v => [v.extractLsb' 16 16, v.extractLsb' 0 16]

/-- The value of an immediate, in the low bits of a longword (R413). -/
def Imm.value : Imm → Long
  | .b v => v.setWidth 32
  | .w v => v.setWidth 32
  | .l v => v

/-- The extension word of an indexed mode (R415). -/
def IndexExt.word (x : IndexExt) : HWord :=
  BitVec.ofFin (w := 4) x.xn ++ BitVec.ofBool x.long ++ x.scale ++ BitVec.ofBool x.full ++ x.disp

/-- The indexed mode's fields, read from its extension word (R415). -/
def IndexExt.ofWord (w : HWord) : IndexExt where
  xn    := (w.extractLsb' 12 4).toFin
  long  := w.getLsbD 11
  scale := w.extractLsb' 9 2
  full  := w.getLsbD 8
  disp  := w.extractLsb' 0 8

/-- The extension words of an EA (R412). -/
def EA.exts : EA → List HWord
  | .dn _ | .an _ | .ind _ | .postinc _ | .predec _ => []
  | .disp _ d => [d]
  | .index _ x => [x.word]
  | .absW a => [a]
  | .absL a => [a.extractLsb' 16 16, a.extractLsb' 0 16]
  | .pcDisp d => [d]
  | .pcIndex x => [x.word]
  | .imm v => v.exts

/-- An immediate operand has the operation's size; the other modes have no size of their own (R412). -/
def EA.sizeOk (sz : Size) : EA → Bool
  | .imm v => v.size == sz
  | .dn _ | .an _ | .ind _ | .postinc _ | .predec _ | .disp _ _ | .index _ _ | .absW _ | .absL _ | .pcDisp _
  | .pcIndex _ => true

/-- The EA classes of R411. -/
inductive EAClass where
  | all | allNoAnByte | data | dataNoImm | dataAlterable | alterableNoAnByte | memoryAlterable | control
  | controlAlterableOrPredec | controlOrPostinc | pcRel | tst020
  deriving DecidableEq, Repr

/-- data_alterable of R411. -/
def EA.isDataAlterable : EA → Bool
  | .dn _ | .ind _ | .postinc _ | .predec _ | .disp _ _ | .index _ _ | .absW _ | .absL _ => true
  | .an _ | .pcDisp _ | .pcIndex _ | .imm _ => false

/-- memory_alterable of R411. -/
def EA.isMemoryAlterable : EA → Bool
  | .ind _ | .postinc _ | .predec _ | .disp _ _ | .index _ _ | .absW _ | .absL _ => true
  | .dn _ | .an _ | .pcDisp _ | .pcIndex _ | .imm _ => false

/-- control of R411. -/
def EA.isControl : EA → Bool
  | .ind _ | .disp _ _ | .index _ _ | .absW _ | .absL _ | .pcDisp _ | .pcIndex _ => true
  | .dn _ | .an _ | .postinc _ | .predec _ | .imm _ => false

def EA.isAn : EA → Bool
  | .an _ => true
  | .dn _ | .ind _ | .postinc _ | .predec _ | .disp _ _ | .index _ _ | .absW _ | .absL _ | .pcDisp _ | .pcIndex _
  | .imm _ => false

def EA.isImm : EA → Bool
  | .imm _ => true
  | .dn _ | .an _ | .ind _ | .postinc _ | .predec _ | .disp _ _ | .index _ _ | .absW _ | .absL _ | .pcDisp _
  | .pcIndex _ => false

def EA.isPredec : EA → Bool
  | .predec _ => true
  | .dn _ | .an _ | .ind _ | .postinc _ | .disp _ _ | .index _ _ | .absW _ | .absL _ | .pcDisp _ | .pcIndex _
  | .imm _ => false

def EA.isPostinc : EA → Bool
  | .postinc _ => true
  | .dn _ | .an _ | .ind _ | .predec _ | .disp _ _ | .index _ _ | .absW _ | .absL _ | .pcDisp _ | .pcIndex _
  | .imm _ => false

/-- The PC-relative modes, whose operands are read from program space (R206). -/
def EA.isPcRel : EA → Bool
  | .pcDisp _ | .pcIndex _ => true
  | .dn _ | .an _ | .ind _ | .postinc _ | .predec _ | .disp _ _ | .index _ _ | .absW _ | .absL _ | .imm _ => false

/-- Membership of an EA in a class at an operation size (R411). -/
def EA.inClass (e : EA) (sz : Size) : EAClass → Bool
  | .all => true
  | .allNoAnByte => !(e.isAn && sz == .b)
  | .data => !e.isAn
  | .dataNoImm => !e.isAn && !e.isImm
  | .dataAlterable => e.isDataAlterable
  | .alterableNoAnByte => e.isDataAlterable || (e.isAn && sz != .b)
  | .memoryAlterable => e.isMemoryAlterable
  | .control => e.isControl
  | .controlAlterableOrPredec => (e.isControl && !e.isPcRel) || e.isPredec
  | .controlOrPostinc => e.isControl || e.isPostinc
  | .pcRel => e.isPcRel
  | .tst020 => (e.isAn && sz != .b) || e.isPcRel || e.isImm

/-- The 4-bit code of a condition (R330). -/
def Cond.code : Cond → BitVec 4
  | .t => 0 | .f => 1 | .hi => 2 | .ls => 3 | .cc => 4 | .cs => 5 | .ne => 6 | .eq => 7
  | .vc => 8 | .vs => 9 | .pl => 10 | .mi => 11 | .ge => 12 | .lt => 13 | .gt => 14 | .le => 15

/-- The condition of a 4-bit code (R330). -/
def Cond.ofCode (c : BitVec 4) : Cond :=
  match c.toNat with
  | 0 => .t | 1 => .f | 2 => .hi | 3 => .ls | 4 => .cc | 5 => .cs | 6 => .ne | 7 => .eq
  | 8 => .vc | 9 => .vs | 10 => .pl | 11 => .mi | 12 => .ge | 13 => .lt | 14 => .gt | _ => .le

/-- The 2-bit size field, bits 7–6 (R312). -/
def Size.code : Size → BitVec 2
  | .b => 0
  | .w => 1
  | .l => 2

/-- The MOVE size field, bits 13–12 (R312). -/
def Size.moveCode : Size → BitVec 2
  | .b => 1
  | .w => 3
  | .l => 2

/-- A one-bit size field with 0 = W and 1 = L (R312). -/
def SizeWL.bit : SizeWL → Bool
  | .w => false
  | .l => true

def SizeWL.ofBit : Bool → SizeWL
  | false => .w
  | true => .l

end Sys2Proof
end

