-- ==== Sys2Proof/WellFormed.lean ====
section
/-! DEFINITION. Which terms of `Instr` are instructions: those that some sequence of words encodes (R303, R311, R411).
An operand field of a type with no spare values needs no check; what is checked is each row's EA class, the size of an
immediate, and the field values a row's constraints shut out. -/

namespace Sys2Proof

/-- An operand EA is in its row's class, and an immediate in it has the operation's size. -/
def EA.fits (e : EA) (sz : Size) (c : EAClass) : Bool := e.inClass sz c && e.sizeOk sz

/-- The branch formats: an 8-bit displacement of 0 announces a displacement word (R310). -/
def BranchDisp.ok : BranchDisp → Bool
  | .short d => d != 0
  | .word _ => true

/-- The mode/register fields of the classes pcrel and tst020 (R411), for the rows that keep them as bits. -/
def tst020Field (sz : Size) (ea6 : BitVec 6) : Bool :=
  (ea6.extractLsb' 3 3 == 1#3 && sz != .b) || ea6 == 0b111010#6 || ea6 == 0b111011#6 || ea6 == 0b111100#6

/-- Each row's operand checks (R303, R311, R411). -/
def Instr.wellFormed : Instr → Bool
  | .oriToCcr _ | .oriToSr _ | .andiToCcr _ | .andiToSr _ | .eoriToCcr _ | .eoriToSr _ | .cas2W | .cas2L => true
  | .movepToReg _ _ _ _ | .movepToMem _ _ _ _ => true
  | .btstDn _ ea => ea.fits .b .data
  | .bchgDn _ ea | .bclrDn _ ea | .bsetDn _ ea => ea.fits .b .dataAlterable
  | .btstImm _ ea => ea.fits .b .dataNoImm
  | .bchgImm _ ea | .bclrImm _ ea | .bsetImm _ ea => ea.fits .b .dataAlterable
  | .ori v ea | .andi v ea | .subi v ea | .addi v ea | .eori v ea | .cmpi v ea => ea.fits v.size .dataAlterable
  | .cmpiPcRel _ _ => true
  | .moves sz _ _ ea => ea.fits sz .memoryAlterable
  | .cmp2Chk2 size2 _ => size2 != 3
  | .rtmCallm _ => true
  -- size2 ≠ 00, and the two words of CAS2 are rows of their own, earlier in the table
  | .cas size2 ea6 => size2 != 0 && !(ea6 == 0b111100#6 && (size2 == 2 || size2 == 3))
  | .movea sz ea _ => ea.fits sz.toSize .all
  | .move sz src dst => src.fits sz .allNoAnByte && dst.fits sz .dataAlterable
  | .illegal | .reset | .nop | .stop _ | .rte | .rtd _ | .rts | .trapv | .rtr => true
  | .movecFrom _ _ | .movecTo _ _ | .trap _ | .link _ _ | .unlk _ | .moveToUsp _ | .moveFromUsp _ => true
  | .jsr ea | .jmp ea | .pea ea | .lea ea _ => ea.fits .l .control
  | .swap _ | .bkpt _ | .linkL _ | .extW _ | .extL _ | .extbL _ => true
  | .nbcd ea | .tas ea | .scc _ ea => ea.fits .b .dataAlterable
  | .movemToMem sz _ ea => ea.fits sz.toSize .controlAlterableOrPredec
  | .movemToReg sz ea _ => ea.fits sz.toSize .controlOrPostinc
  | .mulL _ | .divL _ | .chkL _ _ => true
  | .moveFromSr ea | .moveFromCcr ea => ea.fits .w .dataAlterable
  | .negx sz ea | .clr sz ea | .neg sz ea | .notEa sz ea | .tst sz ea => ea.fits sz .dataAlterable
  | .moveToCcr ea | .moveToSr ea | .chkW ea _ => ea.fits .w .data
  | .tst020 sz ea6 => tst020Field sz ea6
  | .dbcc _ _ _ => true
  | .trapcc _ opmode => opmode == 2 || opmode == 3 || opmode == 4
  | .addq sz _ ea | .subq sz _ ea => ea.fits sz .alterableNoAnByte
  | .bccL _ | .moveq _ _ => true
  | .bra d | .bsr d => d.ok
  | .bcc cond d => d.ok && cond != .t && cond != .f
  | .sbcdReg _ _ | .sbcdMem _ _ | .pack _ _ _ | .unpk _ _ _ => true
  | .divuW ea _ | .divsW ea _ | .muluW ea _ | .mulsW ea _ => ea.fits .w .data
  | .orEaDn sz ea _ | .andEaDn sz ea _ => ea.fits sz .data
  | .orDnEa sz _ ea | .andDnEa sz _ ea | .addDnEa sz _ ea | .subDnEa sz _ ea => ea.fits sz .memoryAlterable
  | .subxReg _ _ _ | .subxMem _ _ _ | .addxReg _ _ _ | .addxMem _ _ _ | .cmpm _ _ _ => true
  | .suba sz ea _ | .adda sz ea _ | .cmpa sz ea _ => ea.fits sz.toSize .all
  | .subEaDn sz ea _ | .addEaDn sz ea _ | .cmpEaDn sz ea _ => ea.fits sz .allNoAnByte
  | .lineA _ | .lineF _ => true
  | .eorDnEa sz _ ea => ea.fits sz .dataAlterable
  | .abcdReg _ _ | .abcdMem _ _ | .exgDD _ _ | .exgAA _ _ | .exgDA _ _ | .bitField _ _ => true
  | .asrMem ea | .aslMem ea | .lsrMem ea | .lslMem ea | .roxrMem ea | .roxlMem ea | .rorMem ea | .rolMem ea =>
    ea.fits .w .memoryAlterable
  | .asrReg _ _ _ | .aslReg _ _ _ | .lsrReg _ _ _ | .lslReg _ _ _ => true
  | .roxrReg _ _ _ | .roxlReg _ _ _ | .rorReg _ _ _ | .rolReg _ _ _ => true

end Sys2Proof
end

