-- ==== Sys2Proof/Decode.lean ====
section
/-! DEFINITION. The decoder, total on any bytes and rejecting by name (R303, R320, R340–R346), and after it the encoder,
both written from the encoding column of the opcode table (R311, R312, R313, R314, R320). Every opcode word is read as the six
fields 15–12, 11–9, 8, 7–6, 5–3, 2–0, into which every format of R311 falls. -/

namespace Sys2Proof

/-! ## The table's columns -/

/-- The `models` column of the opcode table (R303). -/
inductive RowModels where
  | all | from010 | from020
  deriving DecidableEq, Repr

/-- The `privileged` column of the opcode table (R302). -/
inductive RowPrivilege where
  | never | always | exceptMC68000
  deriving DecidableEq, Repr

/-- The `models` and `privileged` columns of an instruction's row (R320, R346). -/
def Instr.columns : Instr → RowModels × RowPrivilege
  | .oriToCcr _ | .andiToCcr _ | .eoriToCcr _ => (.all, .never)
  | .oriToSr _ | .andiToSr _ | .eoriToSr _ => (.all, .always)
  | .cas2W | .cas2L => (.from020, .never)
  | .movepToReg _ _ _ _ | .movepToMem _ _ _ _ => (.all, .never)
  | .btstDn _ _ | .bchgDn _ _ | .bclrDn _ _ | .bsetDn _ _ => (.all, .never)
  | .btstImm _ _ | .bchgImm _ _ | .bclrImm _ _ | .bsetImm _ _ => (.all, .never)
  | .ori _ _ | .andi _ _ | .subi _ _ | .addi _ _ | .eori _ _ | .cmpi _ _ => (.all, .never)
  | .cmpiPcRel _ _ => (.from020, .never)
  | .moves _ _ _ _ => (.from010, .always)
  | .cmp2Chk2 _ _ | .rtmCallm _ | .cas _ _ => (.from020, .never)
  | .movea _ _ _ | .move _ _ _ => (.all, .never)
  | .illegal | .nop | .rts | .trapv | .rtr => (.all, .never)
  | .reset | .stop _ | .rte => (.all, .always)
  | .rtd _ => (.from010, .never)
  | .movecFrom _ _ | .movecTo _ _ => (.from010, .always)
  | .trap _ | .link _ _ | .unlk _ => (.all, .never)
  | .moveToUsp _ | .moveFromUsp _ => (.all, .always)
  | .jsr _ | .jmp _ | .swap _ | .bkpt _ => (.all, .never)
  | .linkL _ | .extbL _ => (.from020, .never)
  | .extW _ | .extL _ | .nbcd _ | .pea _ => (.all, .never)
  | .movemToMem _ _ _ | .movemToReg _ _ _ => (.all, .never)
  | .mulL _ | .divL _ => (.from020, .never)
  | .moveFromSr _ => (.all, .exceptMC68000)
  | .negx _ _ | .clr _ _ | .neg _ _ | .notEa _ _ | .tst _ _ => (.all, .never)
  | .moveFromCcr _ => (.from010, .never)
  | .moveToCcr _ | .tas _ | .chkW _ _ | .lea _ _ => (.all, .never)
  | .moveToSr _ => (.all, .always)
  | .tst020 _ _ | .chkL _ _ => (.from020, .never)
  | .dbcc _ _ _ | .scc _ _ => (.all, .never)
  | .trapcc _ _ => (.from020, .never)
  | .addq _ _ _ | .subq _ _ _ => (.all, .never)
  | .bccL _ => (.from020, .never)
  | .bra _ | .bsr _ | .bcc _ _ | .moveq _ _ => (.all, .never)
  | .sbcdReg _ _ | .sbcdMem _ _ => (.all, .never)
  | .pack _ _ _ | .unpk _ _ _ => (.from020, .never)
  | .divuW _ _ | .divsW _ _ | .orEaDn _ _ _ | .orDnEa _ _ _ => (.all, .never)
  | .subxReg _ _ _ | .subxMem _ _ _ | .suba _ _ _ | .subEaDn _ _ _ | .subDnEa _ _ _ => (.all, .never)
  | .lineA _ => (.all, .never)
  | .cmpm _ _ _ | .cmpa _ _ _ | .eorDnEa _ _ _ | .cmpEaDn _ _ _ => (.all, .never)
  | .abcdReg _ _ | .abcdMem _ _ | .exgDD _ _ | .exgAA _ _ | .exgDA _ _ => (.all, .never)
  | .muluW _ _ | .mulsW _ _ | .andEaDn _ _ _ | .andDnEa _ _ _ => (.all, .never)
  | .addxReg _ _ _ | .addxMem _ _ _ | .adda _ _ _ | .addEaDn _ _ _ | .addDnEa _ _ _ => (.all, .never)
  | .bitField _ _ => (.from020, .never)
  | .asrMem _ | .aslMem _ | .lsrMem _ | .lslMem _ | .roxrMem _ | .roxlMem _ | .rorMem _ | .rolMem _ => (.all, .never)
  | .asrReg _ _ _ | .aslReg _ _ _ | .lsrReg _ _ _ | .lslReg _ _ _ => (.all, .never)
  | .roxrReg _ _ _ | .roxlReg _ _ _ | .rorReg _ _ _ | .rolReg _ _ _ => (.all, .never)
  | .lineF _ => (.all, .never)

/-- A row is active on a model when its `models` column contains it (R303). -/
def RowModels.contain (r : RowModels) (m : Model) : Bool :=
  match r with
  | .all => true
  | .from010 => m.is010plus
  | .from020 => m.is020plus

/-- Privileged(row, MODEL) of R306. -/
def RowPrivilege.holdsOn (p : RowPrivilege) (m : Model) : Bool :=
  match p with
  | .never => false
  | .always => true
  | .exceptMC68000 => !m.is000

/-! ## The decoder -/

/-- Why a word is no instruction of the model (R340): no row takes it, or the row that takes it is not active on the
model; and, for a list of bytes, that it holds no opcode word. -/
inductive DecodeError where
  | unassigned
  | notOnThisModel
  | truncated
  deriving DecidableEq, Repr

/-- The k-th extension word; a word that is not given reads as 0. -/
def extWord (ws : List HWord) (k : Nat) : HWord := ws.getD k 0

/-- Two extension words, the first being the high half (R231). -/
def extLong (ws : List HWord) : Long := extWord ws 0 ++ extWord ws 1

/-- The immediate of a size, read from extension words (R313). -/
def decodeImm (sz : Size) (ws : List HWord) : Imm :=
  match sz with
  | .b => .b ((extWord ws 0).extractLsb' 0 8)
  | .w => .w (extWord ws 0)
  | .l => .l (extLong ws)

/-- The EA of a mode/register pair at an operation size, with its extension words (R410); none for the pairs that are
no EA. -/
def decodeEA (mode reg : BitVec 3) (sz : Size) (ws : List HWord) : Option EA :=
  let n : Reg := reg.toFin
  match mode.toNat with
  | 0 => some (.dn n)
  | 1 => some (.an n)
  | 2 => some (.ind n)
  | 3 => some (.postinc n)
  | 4 => some (.predec n)
  | 5 => some (.disp n (extWord ws 0))
  | 6 => some (.index n (IndexExt.ofWord (extWord ws 0)))
  | _ =>
    match reg.toNat with
    | 0 => some (.absW (extWord ws 0))
    | 1 => some (.absL (extLong ws))
    | 2 => some (.pcDisp (extWord ws 0))
    | 3 => some (.pcIndex (IndexExt.ofWord (extWord ws 0)))
    | 4 => some (.imm (decodeImm sz ws))
    | _ => none

/-- A row whose EA field must lie in a class (R303, R411). -/
def eaRow (c : EAClass) (sz : Size) (mode reg : BitVec 3) (ws : List HWord) (k : EA → Instr) : Option Instr :=
  match decodeEA mode reg sz ws with
  | some e => if e.inClass sz c then some (k e) else none
  | none => none

/-- The size of a 2-bit size field (R312); 11 is none. -/
def decodeSize (ss : BitVec 2) : Option Size :=
  match ss.toNat with
  | 0 => some .b
  | 1 => some .w
  | 2 => some .l
  | _ => none

/-- The three immediate-to-memory forms of line 0 share one shape: imm.size, then the EA (rows 19–24). -/
def immRow (sz : Size) (mode reg : BitVec 3) (ws : List HWord) (k : Imm → EA → Instr) : Option Instr :=
  let v := decodeImm sz ws
  eaRow .dataAlterable sz mode reg (ws.drop v.exts.length) (k v)

/-- Rows 1–29 with bit 8 clear. -/
def decodeLine0Static (r : BitVec 3) (ss : BitVec 2) (mode reg : BitVec 3) (ws : List HWord) : Option Instr :=
  let ea6 := mode ++ reg
  let b8 := (extWord ws 0).extractLsb' 0 8
  match r.toNat with
  | 0 =>
    if ss = 0 ∧ ea6 = 0b111100#6 then some (.oriToCcr b8)
    else if ss = 1 ∧ ea6 = 0b111100#6 then some (.oriToSr (extWord ws 0))
    else match decodeSize ss with
      | some sz => immRow sz mode reg ws .ori
      | none => some (.cmp2Chk2 0 ea6)
  | 1 =>
    if ss = 0 ∧ ea6 = 0b111100#6 then some (.andiToCcr b8)
    else if ss = 1 ∧ ea6 = 0b111100#6 then some (.andiToSr (extWord ws 0))
    else match decodeSize ss with
      | some sz => immRow sz mode reg ws .andi
      | none => some (.cmp2Chk2 1 ea6)
  | 2 =>
    match decodeSize ss with
    | some sz => immRow sz mode reg ws .subi
    | none => some (.cmp2Chk2 2 ea6)
  | 3 =>
    match decodeSize ss with
    | some sz => immRow sz mode reg ws .addi
    | none => some (.rtmCallm ea6)
  | 4 =>
    match ss.toNat with
    | 0 => eaRow .dataNoImm .b mode reg (ws.drop 1) (.btstImm b8)
    | 1 => eaRow .dataAlterable .b mode reg (ws.drop 1) (.bchgImm b8)
    | 2 => eaRow .dataAlterable .b mode reg (ws.drop 1) (.bclrImm b8)
    | _ => eaRow .dataAlterable .b mode reg (ws.drop 1) (.bsetImm b8)
  | 5 =>
    if ss = 0 ∧ ea6 = 0b111100#6 then some (.eoriToCcr b8)
    else if ss = 1 ∧ ea6 = 0b111100#6 then some (.eoriToSr (extWord ws 0))
    else match decodeSize ss with
      | some sz => immRow sz mode reg ws .eori
      | none => some (.cas 1 ea6)
  | 6 =>
    match decodeSize ss with
    | some sz =>
      if ea6 = 0b111010#6 then some (.cmpiPcRel sz false)
      else if ea6 = 0b111011#6 then some (.cmpiPcRel sz true)
      else immRow sz mode reg ws .cmpi
    | none => if ea6 = 0b111100#6 then some .cas2W else some (.cas 2 ea6)
  | _ =>
    match decodeSize ss with
    | some sz =>
      let w := extWord ws 0
      eaRow .memoryAlterable sz mode reg (ws.drop 1) (.moves sz (w.getLsbD 11) (w.extractLsb' 12 4).toFin)
    | none => if ea6 = 0b111100#6 then some .cas2L else some (.cas 3 ea6)

/-- Line 0000: bit manipulation, MOVEP, immediate operations, MOVES (rows 1–29). -/
def decodeLine0 (r : BitVec 3) (b : Bool) (ss : BitVec 2) (mode reg : BitVec 3) (ws : List HWord) : Option Instr :=
  if b then
    if mode = 1 then
      let sz := SizeWL.ofBit (ss.getLsbD 0)
      if ss.getLsbD 1 then some (.movepToMem sz r.toFin reg.toFin (extWord ws 0))
      else some (.movepToReg sz reg.toFin (extWord ws 0) r.toFin)
    else
      match ss.toNat with
      | 0 => eaRow .data .b mode reg ws (.btstDn r.toFin)
      | 1 => eaRow .dataAlterable .b mode reg ws (.bchgDn r.toFin)
      | 2 => eaRow .dataAlterable .b mode reg ws (.bclrDn r.toFin)
      | _ => eaRow .dataAlterable .b mode reg ws (.bsetDn r.toFin)
  else decodeLine0Static r ss mode reg ws

/-- Lines 0001, 0010, 0011: MOVE and MOVEA (rows 30, 31); `dr` and `dm` are the destination fields 11–9 and 8–6. -/
def decodeMove (sz : Size) (dr dm mode reg : BitVec 3) (ws : List HWord) : Option Instr :=
  match decodeEA mode reg sz ws with
  | none => none
  | some src =>
    if dm = 1 then
      match sz with
      | .b => none
      | .w => some (.movea .w src dr.toFin)
      | .l => some (.movea .l src dr.toFin)
    else if src.inClass sz .allNoAnByte then
      eaRow .dataAlterable sz dm dr (ws.drop src.exts.length) (.move sz src)
    else none

/-- 0100 111 0 01: the control words 0x4E40–0x4E7F (rows 33–47). -/
def decodeControl (mode reg : BitVec 3) (ws : List HWord) : Option Instr :=
  match mode.toNat with
  | 0 | 1 => some (.trap (mode.extractLsb' 0 1 ++ reg))
  | 2 => some (.link reg.toFin (extWord ws 0))
  | 3 => some (.unlk reg.toFin)
  | 4 => some (.moveToUsp reg.toFin)
  | 5 => some (.moveFromUsp reg.toFin)
  | 6 =>
    match reg.toNat with
    | 0 => some .reset
    | 1 => some .nop
    | 2 => some (.stop (extWord ws 0))
    | 3 => some .rte
    | 4 => some (.rtd (extWord ws 0))
    | 5 => some .rts
    | 6 => some .trapv
    | _ => some .rtr
  | _ =>
    let w := extWord ws 0
    match reg.toNat with
    | 2 => some (.movecFrom (w.extractLsb' 0 12) (w.extractLsb' 12 4).toFin)
    | 3 => some (.movecTo (w.extractLsb' 12 4).toFin (w.extractLsb' 0 12))
    | _ => none

/-- 0100 100 0: NBCD, SWAP, BKPT, PEA, EXT, MOVEM to memory, LINK.L (rows 50–58). -/
def decodeLine4Misc (ss : BitVec 2) (mode reg : BitVec 3) (ws : List HWord) : Option Instr :=
  let mask := extWord ws 0
  match ss.toNat with
  | 0 => if mode = 1 then some (.linkL reg.toFin) else eaRow .dataAlterable .b mode reg ws .nbcd
  | 1 =>
    if mode = 0 then some (.swap reg.toFin)
    else if mode = 1 then some (.bkpt reg.toFin)
    else eaRow .control .l mode reg ws .pea
  | 2 =>
    if mode = 0 then some (.extW reg.toFin)
    else eaRow .controlAlterableOrPredec .w mode reg (ws.drop 1) (.movemToMem .w mask)
  | _ =>
    if mode = 0 then some (.extL reg.toFin)
    else eaRow .controlAlterableOrPredec .l mode reg (ws.drop 1) (.movemToMem .l mask)

/-- Line 0100: miscellaneous (rows 32–75). -/
def decodeLine4 (r : BitVec 3) (b : Bool) (ss : BitVec 2) (mode reg : BitVec 3) (ws : List HWord) : Option Instr :=
  let ea6 := mode ++ reg
  if b then
    match ss.toNat with
    | 0 => some (.chkL r.toFin ea6)
    | 1 => none
    | 2 => eaRow .data .w mode reg ws (fun e => .chkW e r.toFin)
    | _ =>
      if r = 4 ∧ mode = 0 then some (.extbL reg.toFin)
      else eaRow .control .l mode reg ws (fun e => .lea e r.toFin)
  else
    match r.toNat with
    | 0 =>
      match decodeSize ss with
      | some sz => eaRow .dataAlterable sz mode reg ws (.negx sz)
      | none => eaRow .dataAlterable .w mode reg ws .moveFromSr
    | 1 =>
      match decodeSize ss with
      | some sz => eaRow .dataAlterable sz mode reg ws (.clr sz)
      | none => eaRow .dataAlterable .w mode reg ws .moveFromCcr
    | 2 =>
      match decodeSize ss with
      | some sz => eaRow .dataAlterable sz mode reg ws (.neg sz)
      | none => eaRow .data .w mode reg ws .moveToCcr
    | 3 =>
      match decodeSize ss with
      | some sz => eaRow .dataAlterable sz mode reg ws (.notEa sz)
      | none => eaRow .data .w mode reg ws .moveToSr
    | 4 => decodeLine4Misc ss mode reg ws
    | 5 =>
      match decodeSize ss with
      | some sz =>
        match eaRow .dataAlterable sz mode reg ws (.tst sz) with
        | some i => some i
        | none => eaRow .tst020 sz mode reg ws (fun _ => .tst020 sz ea6)
      | none => if ea6 = 0b111100#6 then some .illegal else eaRow .dataAlterable .b mode reg ws .tas
    | 6 =>
      match ss.toNat with
      | 0 => some (.mulL ea6)
      | 1 => some (.divL ea6)
      | 2 => eaRow .controlOrPostinc .w mode reg (ws.drop 1) (fun e => .movemToReg .w e (extWord ws 0))
      | _ => eaRow .controlOrPostinc .l mode reg (ws.drop 1) (fun e => .movemToReg .l e (extWord ws 0))
    | _ =>
      match ss.toNat with
      | 0 => none
      | 1 => decodeControl mode reg ws
      | 2 => eaRow .control .l mode reg ws .jsr
      | _ => eaRow .control .l mode reg ws .jmp

/-- Line 0101: ADDQ, SUBQ, Scc, DBcc, TRAPcc (rows 76–80). -/
def decodeLine5 (r : BitVec 3) (b : Bool) (ss : BitVec 2) (mode reg : BitVec 3) (ws : List HWord) : Option Instr :=
  match decodeSize ss with
  | some sz => eaRow .alterableNoAnByte sz mode reg ws (if b then .subq sz r else .addq sz r)
  | none =>
    let cond := Cond.ofCode (r ++ BitVec.ofBool b)
    if mode = 1 then some (.dbcc cond reg.toFin (extWord ws 0))
    else if mode = 7 ∧ (reg = 2 ∨ reg = 3 ∨ reg = 4) then some (.trapcc cond reg)
    else eaRow .dataAlterable .b mode reg ws (.scc cond)

/-- The displacement of the BRANCH format (R310, R1100). -/
def decodeBranchDisp (d8 : BitVec 8) (ws : List HWord) : BranchDisp :=
  if d8 = 0 then .word (extWord ws 0) else .short d8

/-- Line 0110: the branches (rows 81–84); `inactive = skip` for row 81 below MC68020 (R345). -/
def decodeLine6 (m : Model) (cc : BitVec 4) (d8 : BitVec 8) (ws : List HWord) : Option Instr :=
  let cond := Cond.ofCode cc
  if d8 = 0xFF ∧ m.is020plus then some (.bccL cond)
  else
    let d := decodeBranchDisp d8 ws
    match cc.toNat with
    | 0 => some (.bra d)
    | 1 => some (.bsr d)
    | _ => some (.bcc cond d)

/-- Line 1000: OR, DIVU, DIVS, SBCD, PACK, UNPK (rows 86–93). -/
def decodeLine8 (r : BitVec 3) (b : Bool) (ss : BitVec 2) (mode reg : BitVec 3) (ws : List HWord) : Option Instr :=
  match decodeSize ss with
  | none =>
    if b then eaRow .data .w mode reg ws (fun e => .divsW e r.toFin)
    else eaRow .data .w mode reg ws (fun e => .divuW e r.toFin)
  | some sz =>
    if b then
      if mode = 0 then
        match sz with
        | .b => some (.sbcdReg reg.toFin r.toFin)
        | .w => some (.pack r.toFin false reg.toFin)
        | .l => some (.unpk r.toFin false reg.toFin)
      else if mode = 1 then
        match sz with
        | .b => some (.sbcdMem reg.toFin r.toFin)
        | .w => some (.pack r.toFin true reg.toFin)
        | .l => some (.unpk r.toFin true reg.toFin)
      else eaRow .memoryAlterable sz mode reg ws (.orDnEa sz r.toFin)
    else eaRow .data sz mode reg ws (fun e => .orEaDn sz e r.toFin)

/-- Line 1001: SUB, SUBA, SUBX (rows 94–98). -/
def decodeLine9 (r : BitVec 3) (b : Bool) (ss : BitVec 2) (mode reg : BitVec 3) (ws : List HWord) : Option Instr :=
  match decodeSize ss with
  | none => eaRow .all (SizeWL.ofBit b).toSize mode reg ws (fun e => .suba (SizeWL.ofBit b) e r.toFin)
  | some sz =>
    if b then
      if mode = 0 then some (.subxReg sz reg.toFin r.toFin)
      else if mode = 1 then some (.subxMem sz reg.toFin r.toFin)
      else eaRow .memoryAlterable sz mode reg ws (.subDnEa sz r.toFin)
    else eaRow .allNoAnByte sz mode reg ws (fun e => .subEaDn sz e r.toFin)

/-- Line 1011: CMP, CMPA, CMPM, EOR (rows 100–103). -/
def decodeLineB (r : BitVec 3) (b : Bool) (ss : BitVec 2) (mode reg : BitVec 3) (ws : List HWord) : Option Instr :=
  match decodeSize ss with
  | none => eaRow .all (SizeWL.ofBit b).toSize mode reg ws (fun e => .cmpa (SizeWL.ofBit b) e r.toFin)
  | some sz =>
    if b then
      if mode = 1 then some (.cmpm sz reg.toFin r.toFin)
      else eaRow .dataAlterable sz mode reg ws (.eorDnEa sz r.toFin)
    else eaRow .allNoAnByte sz mode reg ws (fun e => .cmpEaDn sz e r.toFin)

/-- Line 1100: AND, MULU, MULS, ABCD, EXG (rows 104–112). -/
def decodeLineC (r : BitVec 3) (b : Bool) (ss : BitVec 2) (mode reg : BitVec 3) (ws : List HWord) : Option Instr :=
  match decodeSize ss with
  | none =>
    if b then eaRow .data .w mode reg ws (fun e => .mulsW e r.toFin)
    else eaRow .data .w mode reg ws (fun e => .muluW e r.toFin)
  | some sz =>
    if b then
      if mode = 0 then
        match sz with
        | .b => some (.abcdReg reg.toFin r.toFin)
        | .w => some (.exgDD r.toFin reg.toFin)
        | .l => none
      else if mode = 1 then
        match sz with
        | .b => some (.abcdMem reg.toFin r.toFin)
        | .w => some (.exgAA r.toFin reg.toFin)
        | .l => some (.exgDA r.toFin reg.toFin)
      else eaRow .memoryAlterable sz mode reg ws (.andDnEa sz r.toFin)
    else eaRow .data sz mode reg ws (fun e => .andEaDn sz e r.toFin)

/-- Line 1101: ADD, ADDA, ADDX (rows 113–117). -/
def decodeLineD (r : BitVec 3) (b : Bool) (ss : BitVec 2) (mode reg : BitVec 3) (ws : List HWord) : Option Instr :=
  match decodeSize ss with
  | none => eaRow .all (SizeWL.ofBit b).toSize mode reg ws (fun e => .adda (SizeWL.ofBit b) e r.toFin)
  | some sz =>
    if b then
      if mode = 0 then some (.addxReg sz reg.toFin r.toFin)
      else if mode = 1 then some (.addxMem sz reg.toFin r.toFin)
      else eaRow .memoryAlterable sz mode reg ws (.addDnEa sz r.toFin)
    else eaRow .allNoAnByte sz mode reg ws (fun e => .addEaDn sz e r.toFin)

/-- Line 1110: shifts and rotates, bit fields (rows 118–134). -/
def decodeLineE (r : BitVec 3) (b : Bool) (ss : BitVec 2) (mode reg : BitVec 3) (ws : List HWord) : Option Instr :=
  match decodeSize ss with
  | none =>
    match r.toNat with
    | 0 => eaRow .memoryAlterable .w mode reg ws (if b then .aslMem else .asrMem)
    | 1 => eaRow .memoryAlterable .w mode reg ws (if b then .lslMem else .lsrMem)
    | 2 => eaRow .memoryAlterable .w mode reg ws (if b then .roxlMem else .roxrMem)
    | 3 => eaRow .memoryAlterable .w mode reg ws (if b then .rolMem else .rorMem)
    | _ => some (.bitField (r.extractLsb' 0 2 ++ BitVec.ofBool b) (mode ++ reg))
  | some sz =>
    let c : ShiftCount := if mode.getLsbD 2 then .reg r.toFin else .imm r
    match (mode.extractLsb' 0 2).toNat with
    | 0 => some (if b then .aslReg sz c reg.toFin else .asrReg sz c reg.toFin)
    | 1 => some (if b then .lslReg sz c reg.toFin else .lsrReg sz c reg.toFin)
    | 2 => some (if b then .roxlReg sz c reg.toFin else .roxrReg sz c reg.toFin)
    | _ => some (if b then .rolReg sz c reg.toFin else .rorReg sz c reg.toFin)

/-- The row that takes an opcode word, given its six fields (R303, R321). -/
def decodeFields (m : Model) (line : BitVec 4) (r : BitVec 3) (b : Bool) (ss : BitVec 2) (mode reg : BitVec 3)
    (ws : List HWord) : Option Instr :=
  match line.toNat with
  | 0 => decodeLine0 r b ss mode reg ws
  | 1 => decodeMove .b r (BitVec.ofBool b ++ ss) mode reg ws
  | 2 => decodeMove .l r (BitVec.ofBool b ++ ss) mode reg ws
  | 3 => decodeMove .w r (BitVec.ofBool b ++ ss) mode reg ws
  | 4 => decodeLine4 r b ss mode reg ws
  | 5 => decodeLine5 r b ss mode reg ws
  | 6 => decodeLine6 m (r ++ BitVec.ofBool b) (ss ++ mode ++ reg) ws
  | 7 => if b then none else some (.moveq (ss ++ mode ++ reg) r.toFin)
  | 8 => decodeLine8 r b ss mode reg ws
  | 9 => decodeLine9 r b ss mode reg ws
  | 10 => some (.lineA (r ++ BitVec.ofBool b ++ ss ++ mode ++ reg))
  | 11 => decodeLineB r b ss mode reg ws
  | 12 => decodeLineC r b ss mode reg ws
  | 13 => decodeLineD r b ss mode reg ws
  | 14 => decodeLineE r b ss mode reg ws
  | _ => some (.lineF (r ++ BitVec.ofBool b ++ ss ++ mode ++ reg))

/-- Decode(IR, MODEL) of R303, with the values of the extension words `ws` put into the instruction; extension words
that are not given read as 0. Which row is taken, and so the instruction's length, depends on `ir` and `m` alone. -/
def decode (m : Model) (ir : HWord) (ws : List HWord) : Except DecodeError Instr :=
  match decodeFields m (ir.extractLsb' 12 4) (ir.extractLsb' 9 3) (ir.getLsbD 8) (ir.extractLsb' 6 2)
      (ir.extractLsb' 3 3) (ir.extractLsb' 0 3) ws with
  | none => .error .unassigned
  | some i => if i.columns.1.contain m then .ok i else .error .notOnThisModel

/-- The words of a list of bytes, big-endian (R231); a last odd byte is dropped. -/
def wordsOfBytes : List Byte → List HWord
  | hi :: lo :: rest => (hi ++ lo) :: wordsOfBytes rest
  | _ => []

/-- The bytes of a list of words, big-endian (R231). -/
def bytesOfWords : List HWord → List Byte
  | [] => []
  | w :: rest => w.extractLsb' 8 8 :: w.extractLsb' 0 8 :: bytesOfWords rest

/-- The decoder on bytes as they lie in memory. -/
def decodeBytes (m : Model) (bs : List Byte) : Except DecodeError Instr :=
  match wordsOfBytes bs with
  | [] => .error .truncated
  | ir :: ws => decode m ir ws

/-- The longest instruction, in words (R310). -/
def maxWords : Nat := 5

/-- The words of an instruction given as ONE number whose bit 0 is the least significant bit of the first word, with
the bits from `nbits` up read as 0. -/
def wordsOfNumber (nbits w : Nat) : List HWord :=
  (List.range maxWords).map fun k => BitVec.ofNat 16 ((w % 2 ^ nbits) / 2 ^ (16 * k))

/-- The instruction the decoder reads from the word(s) `w`, laid out in memory as the hardware stores them. The decoder
is that of MC68020, on which every row of the table is active (R303, R320). DESIGN CHOICE (log entry 20). -/
def decodeTableWord (nbits w : Nat) : Option Instr :=
  match decodeBytes .mc68020 (bytesOfWords (wordsOfNumber nbits w)) with
  | .ok i => some i
  | .error _ => none

/-! ## The encoder -/

/-- An opcode word from its six fields. -/
def opWord (line : BitVec 4) (r : BitVec 3) (b : Bool) (ss : BitVec 2) (mode reg : BitVec 3) : HWord :=
  line ++ r ++ BitVec.ofBool b ++ ss ++ mode ++ reg

/-- A register number as a 3-bit field (R315). -/
def Reg.field (n : Reg) : BitVec 3 := BitVec.ofFin (w := 3) n

/-- The mode field of an EA (R410). -/
def EA.mode : EA → BitVec 3
  | .dn _ => 0 | .an _ => 1 | .ind _ => 2 | .postinc _ => 3 | .predec _ => 4 | .disp _ _ => 5 | .index _ _ => 6
  | .absW _ | .absL _ | .pcDisp _ | .pcIndex _ | .imm _ => 7

/-- The register field of an EA (R410). -/
def EA.reg : EA → BitVec 3
  | .dn n | .an n | .ind n | .postinc n | .predec n | .disp n _ | .index n _ => Reg.field n
  | .absW _ => 0 | .absL _ => 1 | .pcDisp _ => 2 | .pcIndex _ => 3 | .imm _ => 4

/-- An opcode word whose last six bits are an EA field. -/
def eaWord (line : BitVec 4) (r : BitVec 3) (b : Bool) (ss : BitVec 2) (e : EA) : HWord :=
  opWord line r b ss e.mode e.reg

/-- An opcode word whose last six bits are given whole. -/
def ea6Word (line : BitVec 4) (r : BitVec 3) (b : Bool) (ss : BitVec 2) (ea6 : BitVec 6) : HWord :=
  opWord line r b ss (ea6.extractLsb' 3 3) (ea6.extractLsb' 0 3)

/-- A word of line 1010 or 1111 (format LINE). -/
def lineWord (line : BitVec 4) (bits : BitVec 12) : HWord := line ++ bits

/-- An opcode word of the BRANCH format. -/
def branchWord (cc : BitVec 4) (d8 : BitVec 8) : HWord := 6#4 ++ cc ++ d8

/-- The opcode's 8-bit displacement field (R310). -/
def BranchDisp.field : BranchDisp → BitVec 8
  | .short d => d
  | .word _ => 0

/-- The displacement word, present when the opcode's field is 0 (R310). -/
def BranchDisp.exts : BranchDisp → List HWord
  | .short _ => []
  | .word d => [d]

/-- An opcode word of the SHIFT-REG format: `ty` is bits 4–3. -/
def shiftRegWord (left : Bool) (ty : BitVec 2) (sz : Size) (c : ShiftCount) (dy : Reg) : HWord :=
  match c with
  | .imm q => opWord 14 q left sz.code (0#1 ++ ty) (Reg.field dy)
  | .reg n => opWord 14 (Reg.field n) left sz.code (1#1 ++ ty) (Reg.field dy)

/-- A condition's field split into bits 11–9 and 8. -/
def Cond.high (c : Cond) : BitVec 3 := c.code.extractLsb' 1 3
def Cond.low (c : Cond) : Bool := c.code.getLsbD 0

/-- The opcode word of an instruction (R311, R320). -/
def Instr.opcode : Instr → HWord
  | .oriToCcr _ => 0x003C
  | .oriToSr _ => 0x007C
  | .andiToCcr _ => 0x023C
  | .andiToSr _ => 0x027C
  | .eoriToCcr _ => 0x0A3C
  | .eoriToSr _ => 0x0A7C
  | .cas2W => 0x0CFC
  | .cas2L => 0x0EFC
  | .movepToReg sz ay _ dx => opWord 0 (Reg.field dx) true (0#1 ++ BitVec.ofBool sz.bit) 1 (Reg.field ay)
  | .movepToMem sz dx ay _ => opWord 0 (Reg.field dx) true (1#1 ++ BitVec.ofBool sz.bit) 1 (Reg.field ay)
  | .btstDn dn e => eaWord 0 (Reg.field dn) true 0 e
  | .bchgDn dn e => eaWord 0 (Reg.field dn) true 1 e
  | .bclrDn dn e => eaWord 0 (Reg.field dn) true 2 e
  | .bsetDn dn e => eaWord 0 (Reg.field dn) true 3 e
  | .btstImm _ e => eaWord 0 4 false 0 e
  | .bchgImm _ e => eaWord 0 4 false 1 e
  | .bclrImm _ e => eaWord 0 4 false 2 e
  | .bsetImm _ e => eaWord 0 4 false 3 e
  | .ori v e => eaWord 0 0 false v.size.code e
  | .andi v e => eaWord 0 1 false v.size.code e
  | .subi v e => eaWord 0 2 false v.size.code e
  | .addi v e => eaWord 0 3 false v.size.code e
  | .eori v e => eaWord 0 5 false v.size.code e
  | .cmpi v e => eaWord 0 6 false v.size.code e
  | .cmpiPcRel sz indexed => opWord 0 6 false sz.code 7 (if indexed then 3 else 2)
  | .moves sz _ _ e => eaWord 0 7 false sz.code e
  | .cmp2Chk2 size2 ea6 => ea6Word 0 (0#1 ++ size2) false 3 ea6
  | .rtmCallm bits => ea6Word 0 3 false 3 bits
  | .cas size2 ea6 => ea6Word 0 (1#1 ++ size2) false 3 ea6
  | .movea sz e an => eaWord (match sz with | .w => 3 | .l => 2) (Reg.field an) false 1 e
  | .move sz src dst =>
    opWord (0#2 ++ sz.moveCode) dst.reg (dst.mode.getLsbD 2) (dst.mode.extractLsb' 0 2) src.mode src.reg
  | .illegal => 0x4AFC
  | .reset => 0x4E70
  | .nop => 0x4E71
  | .stop _ => 0x4E72
  | .rte => 0x4E73
  | .rtd _ => 0x4E74
  | .rts => 0x4E75
  | .trapv => 0x4E76
  | .rtr => 0x4E77
  | .movecFrom _ _ => 0x4E7A
  | .movecTo _ _ => 0x4E7B
  | .trap v => opWord 4 7 false 1 (0#2 ++ v.extractLsb' 3 1) (v.extractLsb' 0 3)
  | .link an _ => opWord 4 7 false 1 2 (Reg.field an)
  | .unlk an => opWord 4 7 false 1 3 (Reg.field an)
  | .moveToUsp an => opWord 4 7 false 1 4 (Reg.field an)
  | .moveFromUsp an => opWord 4 7 false 1 5 (Reg.field an)
  | .jsr e => eaWord 4 7 false 2 e
  | .jmp e => eaWord 4 7 false 3 e
  | .swap dn => opWord 4 4 false 1 0 (Reg.field dn)
  | .bkpt v => opWord 4 4 false 1 1 (Reg.field v)
  | .linkL an => opWord 4 4 false 0 1 (Reg.field an)
  | .extW dn => opWord 4 4 false 2 0 (Reg.field dn)
  | .extL dn => opWord 4 4 false 3 0 (Reg.field dn)
  | .extbL dn => opWord 4 4 true 3 0 (Reg.field dn)
  | .nbcd e => eaWord 4 4 false 0 e
  | .pea e => eaWord 4 4 false 1 e
  | .movemToMem sz _ e => eaWord 4 4 false (1#1 ++ BitVec.ofBool sz.bit) e
  | .movemToReg sz e _ => eaWord 4 6 false (1#1 ++ BitVec.ofBool sz.bit) e
  | .mulL ea6 => ea6Word 4 6 false 0 ea6
  | .divL ea6 => ea6Word 4 6 false 1 ea6
  | .moveFromSr e => eaWord 4 0 false 3 e
  | .negx sz e => eaWord 4 0 false sz.code e
  | .moveFromCcr e => eaWord 4 1 false 3 e
  | .clr sz e => eaWord 4 1 false sz.code e
  | .moveToCcr e => eaWord 4 2 false 3 e
  | .neg sz e => eaWord 4 2 false sz.code e
  | .moveToSr e => eaWord 4 3 false 3 e
  | .notEa sz e => eaWord 4 3 false sz.code e
  | .tas e => eaWord 4 5 false 3 e
  | .tst sz e => eaWord 4 5 false sz.code e
  | .tst020 sz ea6 => ea6Word 4 5 false sz.code ea6
  | .chkW e dn => eaWord 4 (Reg.field dn) true 2 e
  | .chkL dn ea6 => ea6Word 4 (Reg.field dn) true 0 ea6
  | .lea e an => eaWord 4 (Reg.field an) true 3 e
  | .dbcc cond dn _ => opWord 5 cond.high cond.low 3 1 (Reg.field dn)
  | .trapcc cond opmode => opWord 5 cond.high cond.low 3 7 opmode
  | .scc cond e => eaWord 5 cond.high cond.low 3 e
  | .addq sz q e => eaWord 5 q false sz.code e
  | .subq sz q e => eaWord 5 q true sz.code e
  | .bccL cond => branchWord cond.code 0xFF
  | .bra d => branchWord 0 d.field
  | .bsr d => branchWord 1 d.field
  | .bcc cond d => branchWord cond.code d.field
  | .moveq v dn => opWord 7 (Reg.field dn) false (v.extractLsb' 6 2) (v.extractLsb' 3 3) (v.extractLsb' 0 3)
  | .sbcdReg dy dx => opWord 8 (Reg.field dx) true 0 0 (Reg.field dy)
  | .sbcdMem ay ax => opWord 8 (Reg.field ax) true 0 1 (Reg.field ay)
  | .pack rx rm ry => opWord 8 (Reg.field rx) true 1 (0#2 ++ BitVec.ofBool rm) (Reg.field ry)
  | .unpk rx rm ry => opWord 8 (Reg.field rx) true 2 (0#2 ++ BitVec.ofBool rm) (Reg.field ry)
  | .divuW e dn => eaWord 8 (Reg.field dn) false 3 e
  | .divsW e dn => eaWord 8 (Reg.field dn) true 3 e
  | .orEaDn sz e dn => eaWord 8 (Reg.field dn) false sz.code e
  | .orDnEa sz dn e => eaWord 8 (Reg.field dn) true sz.code e
  | .subxReg sz dy dx => opWord 9 (Reg.field dx) true sz.code 0 (Reg.field dy)
  | .subxMem sz ay ax => opWord 9 (Reg.field ax) true sz.code 1 (Reg.field ay)
  | .suba sz e an => eaWord 9 (Reg.field an) sz.bit 3 e
  | .subEaDn sz e dn => eaWord 9 (Reg.field dn) false sz.code e
  | .subDnEa sz dn e => eaWord 9 (Reg.field dn) true sz.code e
  | .lineA bits => lineWord 10 bits
  | .cmpm sz ay ax => opWord 11 (Reg.field ax) true sz.code 1 (Reg.field ay)
  | .cmpa sz e an => eaWord 11 (Reg.field an) sz.bit 3 e
  | .eorDnEa sz dn e => eaWord 11 (Reg.field dn) true sz.code e
  | .cmpEaDn sz e dn => eaWord 11 (Reg.field dn) false sz.code e
  | .abcdReg dy dx => opWord 12 (Reg.field dx) true 0 0 (Reg.field dy)
  | .abcdMem ay ax => opWord 12 (Reg.field ax) true 0 1 (Reg.field ay)
  | .exgDD dx dy => opWord 12 (Reg.field dx) true 1 0 (Reg.field dy)
  | .exgAA ax ay => opWord 12 (Reg.field ax) true 1 1 (Reg.field ay)
  | .exgDA dx ay => opWord 12 (Reg.field dx) true 2 1 (Reg.field ay)
  | .muluW e dn => eaWord 12 (Reg.field dn) false 3 e
  | .mulsW e dn => eaWord 12 (Reg.field dn) true 3 e
  | .andEaDn sz e dn => eaWord 12 (Reg.field dn) false sz.code e
  | .andDnEa sz dn e => eaWord 12 (Reg.field dn) true sz.code e
  | .addxReg sz dy dx => opWord 13 (Reg.field dx) true sz.code 0 (Reg.field dy)
  | .addxMem sz ay ax => opWord 13 (Reg.field ax) true sz.code 1 (Reg.field ay)
  | .adda sz e an => eaWord 13 (Reg.field an) sz.bit 3 e
  | .addEaDn sz e dn => eaWord 13 (Reg.field dn) false sz.code e
  | .addDnEa sz dn e => eaWord 13 (Reg.field dn) true sz.code e
  | .bitField ty ea6 => ea6Word 14 (1#1 ++ ty.extractLsb' 1 2) (ty.getLsbD 0) 3 ea6
  | .asrMem e => eaWord 14 0 false 3 e
  | .aslMem e => eaWord 14 0 true 3 e
  | .lsrMem e => eaWord 14 1 false 3 e
  | .lslMem e => eaWord 14 1 true 3 e
  | .roxrMem e => eaWord 14 2 false 3 e
  | .roxlMem e => eaWord 14 2 true 3 e
  | .rorMem e => eaWord 14 3 false 3 e
  | .rolMem e => eaWord 14 3 true 3 e
  | .asrReg sz c dy => shiftRegWord false 0 sz c dy
  | .aslReg sz c dy => shiftRegWord true 0 sz c dy
  | .lsrReg sz c dy => shiftRegWord false 1 sz c dy
  | .lslReg sz c dy => shiftRegWord true 1 sz c dy
  | .roxrReg sz c dy => shiftRegWord false 2 sz c dy
  | .roxlReg sz c dy => shiftRegWord true 2 sz c dy
  | .rorReg sz c dy => shiftRegWord false 3 sz c dy
  | .rolReg sz c dy => shiftRegWord true 3 sz c dy
  | .lineF bits => lineWord 15 bits

/-- The extension word of MOVEC (R313). -/
def movecExt (rn : RegR) (c : BitVec 12) : HWord := BitVec.ofFin (w := 4) rn ++ c

/-- The extension word of MOVES (R313); its bits 10–0 are ignored (R347) and written as 0. -/
def movesExt (toMem : Bool) (rn : RegR) : HWord := BitVec.ofFin (w := 4) rn ++ BitVec.ofBool toMem ++ 0#11

/-- The extension words of an instruction, in the order of its row's `ext` list (R305, R313, R402). -/
def Instr.exts : Instr → List HWord
  | .oriToCcr v | .andiToCcr v | .eoriToCcr v => [0#8 ++ v]
  | .oriToSr v | .andiToSr v | .eoriToSr v => [v]
  | .cas2W | .cas2L => []
  | .movepToReg _ _ d _ | .movepToMem _ _ _ d => [d]
  | .btstDn _ e | .bchgDn _ e | .bclrDn _ e | .bsetDn _ e => e.exts
  | .btstImm n e | .bchgImm n e | .bclrImm n e | .bsetImm n e => (0#8 ++ n) :: e.exts
  | .ori v e | .andi v e | .subi v e | .addi v e | .eori v e | .cmpi v e => v.exts ++ e.exts
  | .cmpiPcRel _ _ => []
  | .moves _ toMem rn e => movesExt toMem rn :: e.exts
  | .cmp2Chk2 _ _ | .rtmCallm _ | .cas _ _ => []
  | .movea _ e _ => e.exts
  | .move _ src dst => src.exts ++ dst.exts
  | .illegal | .reset | .nop | .rte | .rts | .trapv | .rtr => []
  | .stop v => [v]
  | .rtd d => [d]
  | .movecFrom c rn | .movecTo rn c => [movecExt rn c]
  | .trap _ | .unlk _ | .moveToUsp _ | .moveFromUsp _ => []
  | .link _ d => [d]
  | .jsr e | .jmp e | .nbcd e | .pea e | .lea e _ => e.exts
  | .swap _ | .bkpt _ | .linkL _ | .extW _ | .extL _ | .extbL _ => []
  | .movemToMem _ mask e | .movemToReg _ e mask => mask :: e.exts
  | .mulL _ | .divL _ => []
  | .moveFromSr e | .moveFromCcr e | .moveToCcr e | .moveToSr e | .tas e | .chkW e _ => e.exts
  | .negx _ e | .clr _ e | .neg _ e | .notEa _ e | .tst _ e => e.exts
  | .tst020 _ _ | .chkL _ _ => []
  | .dbcc _ _ d => [d]
  | .trapcc _ _ | .bccL _ | .moveq _ _ => []
  | .scc _ e | .addq _ _ e | .subq _ _ e => e.exts
  | .bra d | .bsr d | .bcc _ d => d.exts
  | .sbcdReg _ _ | .sbcdMem _ _ | .pack _ _ _ | .unpk _ _ _ => []
  | .divuW e _ | .divsW e _ | .muluW e _ | .mulsW e _ => e.exts
  | .orEaDn _ e _ | .orDnEa _ _ e | .subEaDn _ e _ | .subDnEa _ _ e => e.exts
  | .subxReg _ _ _ | .subxMem _ _ _ | .addxReg _ _ _ | .addxMem _ _ _ | .cmpm _ _ _ => []
  | .suba _ e _ | .adda _ e _ | .cmpa _ e _ => e.exts
  | .lineA _ | .lineF _ => []
  | .eorDnEa _ _ e | .cmpEaDn _ e _ | .andEaDn _ e _ | .andDnEa _ _ e | .addEaDn _ e _ | .addDnEa _ _ e => e.exts
  | .abcdReg _ _ | .abcdMem _ _ | .exgDD _ _ | .exgAA _ _ | .exgDA _ _ | .bitField _ _ => []
  | .asrMem e | .aslMem e | .lsrMem e | .lslMem e | .roxrMem e | .roxlMem e | .rorMem e | .rolMem e => e.exts
  | .asrReg _ _ _ | .aslReg _ _ _ | .lsrReg _ _ _ | .lslReg _ _ _ => []
  | .roxrReg _ _ _ | .roxlReg _ _ _ | .rorReg _ _ _ | .rolReg _ _ _ => []

/-- The words of an instruction: its opcode word, then its extension words. -/
def encode (i : Instr) : List HWord := i.opcode :: i.exts

/-- An instruction's length in words (R310). -/
def Instr.words (i : Instr) : Nat := (encode i).length

/-- The words of `i` decode to `i` on the model: its row is active there, and, on MC68020 and later, row 81 does not take
the branch words whose 8-bit displacement is 0xFF (R345); below MC68020 row 81 takes no word. -/
def Instr.decodesOn (m : Model) (i : Instr) : Bool :=
  i.columns.1.contain m &&
    match i with
    | .bra (.short d) | .bsr (.short d) | .bcc _ (.short d) => !(d == 0xFF && m.is020plus)
    | _ => true

end Sys2Proof
end

