-- ==== Sys2Proof/Machine/Bits.lean ====
section
/-! DEFINITION. Operand values and their sizes (R11, R13, R14): a value of size sz is a longword whose bits above w(sz)
are 0. -/

namespace Sys2Proof.Machine

/-- mask_w of R13. -/
def sizeMask : Size → Long
  | .b => 0x000000FF
  | .w => 0x0000FFFF
  | .l => 0xFFFFFFFF

/-- trunc_w(v) of R11: the low w(sz) bits of a longword. -/
def truncTo (sz : Size) (v : Long) : Long := v &&& sizeMask sz

/-- The register value after a write of size sz: the low w(sz) bits replaced, the other bits kept (SetD of R14). -/
def mergeLow (sz : Size) (old v : Long) : Long := (old &&& ~~~sizeMask sz) ||| truncTo sz v

/-- msb_w(v) of R13. -/
def msb (sz : Size) (v : Long) : Bool := v.getLsbD (sz.width - 1)

/-- sext_w(v) of R11: the low w(sz) bits, sign-extended to 32 bits. -/
def signExtendFrom (sz : Size) (v : Long) : Long :=
  match sz with
  | .b => (v.setWidth 8).signExtend 32
  | .w => (v.setWidth 16).signExtend 32
  | .l => v

/-- sext_16 of a word (R11). -/
def sext16 (w : HWord) : Long := w.signExtend 32

/-- sext_8 of a byte (R11). -/
def sext8 (b : Byte) : Long := b.signExtend 32

/-- signed_16 of the low word of a longword (R11). -/
def signed16 (v : Long) : Int := (v.setWidth 16).toInt

end Sys2Proof.Machine
end

