-- ==== Sys2Proof/Machine/Flags.lean ====
section
/-! DEFINITION. The condition codes and every flag computation of the spec (R116, R330, R500, R600, R800, R1000). A flag
computation takes the flags before and answers the flags after, so a flag it does not name is copied. -/

namespace Sys2Proof.Machine

/-- The five condition codes (R116). -/
structure Ccr where
  x : Bool
  n : Bool
  z : Bool
  v : Bool
  c : Bool
  deriving DecidableEq, Repr

/-- The five flags as bits 4–0 of the SR (R110). -/
def Ccr.bits (f : Ccr) : BitVec 5 :=
  BitVec.ofBool f.x ++ BitVec.ofBool f.n ++ BitVec.ofBool f.z ++ BitVec.ofBool f.v ++ BitVec.ofBool f.c

/-- cond(cc) of R330. -/
def condHolds (cond : Cond) (f : Ccr) : Bool :=
  match cond with
  | .t => true
  | .f => false
  | .hi => !f.c && !f.z
  | .ls => f.c || f.z
  | .cc => !f.c
  | .cs => f.c
  | .ne => !f.z
  | .eq => f.z
  | .vc => !f.v
  | .vs => f.v
  | .pl => !f.n
  | .mi => f.n
  | .ge => f.n == f.v
  | .lt => f.n != f.v
  | .gt => !f.z && (f.n == f.v)
  | .le => f.z || (f.n != f.v)

/-- Logic(v, sz) of R500 (d). -/
def logicFlags (sz : Size) (v : Long) (old : Ccr) : Ccr :=
  { old with n := msb sz v, z := truncTo sz v == 0, v := false, c := false }

/-- A result and the flags it leaves. -/
structure Alu where
  r : Long
  f : Ccr
  deriving DecidableEq, Repr

/-- AddF(s, d, x, sz) of R600: C, X, V and N; Z is left to the caller. -/
def addF (sz : Size) (s d : Long) (x : Bool) (old : Ccr) : Alu :=
  let t := d.toNat + s.toNat + x.toNat
  let r := BitVec.ofNat 32 (t % 2 ^ sz.width)
  let c := decide (2 ^ sz.width ≤ t)
  { r := r
    f := { x := c, c := c, v := (msb sz s == msb sz d) && (msb sz r != msb sz d), n := msb sz r, z := old.z } }

/-- SubF(s, d, x, sz) of R600, r = d − s − x: C (unsigned borrow), X, V and N; Z is left to the caller. -/
def subF (sz : Size) (s d : Long) (x : Bool) (old : Ccr) : Alu :=
  let r := BitVec.ofInt 32 (((d.toNat : Int) - s.toNat - x.toNat) % 2 ^ sz.width)
  let c := decide (d.toNat < s.toNat + x.toNat)
  { r := r
    f := { x := c, c := c, v := (msb sz s != msb sz d) && (msb sz r != msb sz d), n := msb sz r, z := old.z } }

/-- Z ← (r = 0), the ordinary forms (R600). -/
def Alu.zOrdinary (a : Alu) : Alu := { a with f := { a.f with z := a.r == 0 } }

/-- if r ≠ 0 then Z ← 0, the extended forms (R600). -/
def Alu.zSticky (a : Alu) : Alu := { a with f := { a.f with z := a.f.z && a.r == 0 } }

/-- ADD, ADDI, ADDQ (R601, R602, R604, R605). -/
def addOp (sz : Size) (s d : Long) (old : Ccr) : Alu := (addF sz s d false old).zOrdinary

/-- SUB, SUBI, SUBQ (R608, R609, R611, R612). -/
def subOp (sz : Size) (s d : Long) (old : Ccr) : Alu := (subF sz s d false old).zOrdinary

/-- ADDX (R606, R607). -/
def addxOp (sz : Size) (s d : Long) (old : Ccr) : Alu := (addF sz s d old.x old).zSticky

/-- SUBX (R613, R614). -/
def subxOp (sz : Size) (s d : Long) (old : Ccr) : Alu := (subF sz s d old.x old).zSticky

/-- NEG: 0 − d (R619). -/
def negOp (sz : Size) (d : Long) (old : Ccr) : Alu := (subF sz d 0 false old).zOrdinary

/-- NEGX: 0 − d − X (R620). -/
def negxOp (sz : Size) (d : Long) (old : Ccr) : Alu := (subF sz d 0 old.x old).zSticky

/-- CmpF(s, d, sz) of R600: the flags of d − s, X unchanged. -/
def cmpFlags (sz : Size) (s d : Long) (old : Ccr) : Ccr := { (subOp sz s d old).f with x := old.x }

/-- CLR's flags (R621). -/
def clrFlags (old : Ccr) : Ccr := { old with n := false, z := true, v := false, c := false }

/-! ## Shifts and rotates (R800–R816) -/

/-- The eight shift instructions. -/
inductive ShiftKind where
  | asl | asr | lsl | lsr | rol | ror | roxl | roxr
  deriving DecidableEq, Repr

/-- The instruction writes X (R800–R816: all but ROL and ROR). -/
def ShiftKind.writesX : ShiftKind → Bool
  | .asl | .asr | .lsl | .lsr | .roxl | .roxr => true
  | .rol | .ror => false

/-- ROXL and ROXR (R800: their C is X when the count is 0). -/
def ShiftKind.isRox : ShiftKind → Bool
  | .roxl | .roxr => true
  | .asl | .asr | .lsl | .lsr | .rol | .ror => false

/-- The single step of a shift: the value shifted by one bit, and the bit shifted out (R801–R816). ROR by a multiple of w
leaves C = v[w−1] by this step, where R810's corner case 'as rule R809', read literally, has C = v[0]: the model follows
the step. DESIGN CHOICE (log entry 21). -/
def shiftStep (k : ShiftKind) (sz : Size) (v : Long) (x : Bool) : Long × Bool :=
  let dbl := truncTo sz (v <<< 1)
  let half := v >>> 1
  let top (b : Bool) : Long := if b then 1#32 <<< (sz.width - 1) else 0
  let low (b : Bool) : Long := if b then 1 else 0
  match k with
  | .asl | .lsl => (dbl, msb sz v)
  | .asr => (half ||| top (msb sz v), v.getLsbD 0)
  | .lsr => (half, v.getLsbD 0)
  | .rol => (dbl ||| low (msb sz v), msb sz v)
  | .ror => (half ||| top (v.getLsbD 0), v.getLsbD 0)
  | .roxl => (dbl ||| low x, msb sz v)
  | .roxr => (half ||| top x, v.getLsbD 0)

/-- What the loop of R800 carries from one step to the next. -/
structure ShiftAcc where
  v     : Long
  x     : Bool
  c     : Bool
  vflag : Bool
  deriving DecidableEq, Repr

/-- The loop of Iterate (R800). -/
def shiftLoop (k : ShiftKind) (sz : Size) : Nat → ShiftAcc → ShiftAcc
  | 0, a => a
  | n + 1, a =>
    let r := shiftStep k sz a.v a.x
    shiftLoop k sz n
      { v := r.1
        x := if k.writesX then r.2 else a.x
        c := r.2
        vflag := a.vflag || (msb sz r.1 != msb sz a.v) }

/-- Iterate(step, v, c, sz) of R800. -/
def shiftOp (k : ShiftKind) (sz : Size) (v : Long) (count : Nat) (old : Ccr) : Alu :=
  let a := shiftLoop k sz count { v := v, x := old.x, c := old.c, vflag := false }
  { r := a.v
    f := { x := a.x
           n := msb sz a.v
           z := a.v == 0
           v := (k == .asl) && a.vflag
           c := if count = 0 then k.isRox && old.x else a.c } }

/-! ## Decimal arithmetic (R1000) -/

/-- A byte is valid BCD (R1000). -/
def bcdValid (b : Byte) : Bool := decide (b.toNat / 16 ≤ 9) && decide (b.toNat % 16 ≤ 9)

/-- dec(b) of R1000. -/
def bcdDec (b : Byte) : Nat := 10 * (b.toNat / 16) + b.toNat % 16

/-- bcd(t) of R1000. -/
def bcdOf (t : Nat) : Byte := BitVec.ofNat 8 (16 * (t / 10) + t % 10)

/-- ABCD on valid operands: the result and the decimal carry (R1001). -/
def abcdValue (s d : Byte) (x : Bool) : Byte × Bool :=
  let t := bcdDec d + bcdDec s + x.toNat
  (bcdOf (t % 100), decide (99 < t))

/-- SBCD on valid operands, d − s − X: the result and the decimal borrow (R1003); NBCD is the case d = 0 (R1005). -/
def sbcdValue (s d : Byte) (x : Bool) : Byte × Bool :=
  let t : Int := (bcdDec d : Int) - bcdDec s - x.toNat
  (bcdOf (t % 100).toNat, decide (t < 0))

/-- BcdFlags(r, c) of R1000, with the drawn N and V. -/
def bcdFlags (r : Byte) (c : Bool) (drawnN drawnV : Bool) (old : Ccr) : Ccr :=
  { x := c, c := c, z := old.z && r == 0, n := drawnN, v := drawnV }

end Sys2Proof.Machine
end

