-- ==== Sys2Proof/Machine/Memory.lean ====
section
/-! DEFINITION. The memory subsystem: the bytes of the regions as one canonical list, translation (R210–R214), byte order
(R230, R231).

A byte is stored under a CELL NUMBER: the byte of the region with index k of REGIONS that lies at masked guest address a has
cell number k·2^32 + a (log entry 5). With one region, or with regions that do not overlap, that is one cell per address;
regions that overlap keep their own bytes, as R201 gives each region its own buffer. -/

namespace Sys2Proof.Machine

/-- The contents of memory: (cell number, byte) pairs, cell numbers strictly rising, no byte equal to what an unlisted
cell reads as. -/
abbrev Memory := List Host.Cell

/-- What an unlisted cell reads as. DESIGN CHOICE (log entry 4): the contents are the host's (R201), and the spec gives
none. -/
def unlistedByte : Byte := 0

/-- Read one byte. -/
def Memory.read : Memory → Nat → Byte
  | [], _ => unlistedByte
  | (k, b) :: rest, a => if k = a then b else Memory.read rest a

/-- Put a byte in front unless it is what an unlisted cell reads as. -/
def Memory.cons (a : Nat) (v : Byte) (m : Memory) : Memory :=
  if v = unlistedByte then m else (a, v) :: m

/-- Write one byte, keeping the canonical form. -/
def Memory.write : Memory → Nat → Byte → Memory
  | [], a, v => Memory.cons a v []
  | (k, b) :: rest, a, v =>
    if a < k then Memory.cons a v ((k, b) :: rest)
    else if a = k then Memory.cons a v rest
    else (k, b) :: Memory.write rest a v

/-- Every cell number of the list is above `lo`, they rise strictly, and no byte is the unlisted one. -/
def Memory.wfAbove : Option Nat → Memory → Bool
  | _, [] => true
  | lo, (k, b) :: rest =>
    (match lo with | none => true | some l => decide (l < k)) && b != unlistedByte && Memory.wfAbove (some k) rest

/-- The canonical form. -/
def Memory.wf (m : Memory) : Bool := Memory.wfAbove none m

/-- Read a value of a size, the most significant byte at the lowest cell (R230). -/
def Memory.readSized (m : Memory) (a : Nat) : Size → Long
  | .b => (Memory.read m a).setWidth 32
  | .w => (Memory.read m a ++ Memory.read m (a + 1)).setWidth 32
  | .l => Memory.read m a ++ Memory.read m (a + 1) ++ Memory.read m (a + 2) ++ Memory.read m (a + 3)

/-- Write a value of a size, the most significant byte at the lowest cell (R230). -/
def Memory.writeSized (m : Memory) (a : Nat) (sz : Size) (v : Long) : Memory :=
  match sz with
  | .b => Memory.write m a (v.extractLsb' 0 8)
  | .w => Memory.write (Memory.write m a (v.extractLsb' 8 8)) (a + 1) (v.extractLsb' 0 8)
  | .l =>
    Memory.write (Memory.write (Memory.write (Memory.write m a (v.extractLsb' 24 8)) (a + 1) (v.extractLsb' 16 8))
      (a + 2) (v.extractLsb' 8 8)) (a + 3) (v.extractLsb' 0 8)

/-! ## Translation -/

/-- A policy line matches an access. -/
def denies (d : DenyRule) (fc : BitVec 3) (kind : AccessKind) (off len : Nat) : Bool :=
  (match d.fc with | none => true | some f => f == fc) &&
  (match d.kind with | none => true | some k => k == kind) &&
  (match d.len with | none => true | some n => n == len) &&
  decide (d.lo ≤ off) && decide (off < d.hi)

/-- The region's policy predicate (R213): a region without a policy allows everything. -/
def policyAllows (r : Region) (fc : BitVec 3) (kind : AccessKind) (off len : Nat) : Bool :=
  r.policy.all fun d => !denies d fc kind off len

/-- A function code is a user-mode code when its bit 2 is 0 (R204). -/
def isUserCode (fc : BitVec 3) : Bool := !fc.getLsbD 2

/-- The first region that contains an address, with its index in REGIONS counted from `k` (R202, R210). -/
def findRegion (k : Nat) (a : Nat) : List Region → Option (Nat × Region)
  | [] => none
  | r :: rest => if r.start ≤ a ∧ a < r.start + r.size then some (k, r) else findRegion (k + 1) a rest

/-- The low-memory rule (R212): the first 1024 bytes of such a region admit no user-mode access and no execution. -/
def lowmemDenies (r : Region) (fc : BitVec 3) (kind : AccessKind) (off : Nat) : Bool :=
  r.lowmem && decide (off < 1024) && (isUserCode fc || kind == .execute)

/-- The cell number of the byte at masked address `a` of the region with index `k`. -/
def cellOf (k a : Nat) : Nat := k * 2 ^ 32 + a

/-- The address after ADDRESS_MASK (R210, D5). -/
def maskedAddress (c : Config) (addr : Long) : Nat := (addr &&& c.addressMask).toNat

/-- Translate of R210: the cell number of the access's first byte, or failure. -/
def translate (c : Config) (addr : Long) (len : Nat) (fc : BitVec 3) (kind : AccessKind) : Option Nat :=
  let a := maskedAddress c addr
  match findRegion 0 a c.regions with
  | none => none
  | some (k, r) =>
    let off := a - r.start
    if off + len > r.size then none
    else if lowmemDenies r fc kind off then none
    else if policyAllows r fc kind off len then some (cellOf k a)
    else none

end Sys2Proof.Machine
end

