-- ==== Sys2Proof/Machine/State.lean ====
section
/-! DEFINITION. The processor state (R100): everything the spec gives the machine, as plain data; the reasons a step can
stop without a next state; the state after reset. -/

namespace Sys2Proof.Machine

/-- The processor condition (R140). -/
inductive Condition where
  | startup
  | normal
  | finished
  | halted
  | stopped
  | breakpoint (n : Fin 8)
  deriving DecidableEq, Repr

/-- Why a step ends with no next state although the spec does not refuse it. The bus errors and address errors of the
hardware are NOT here: they lead to a next state whose condition is halted (R1302, R1304; log entry 9). -/
inductive Fault where
  /-- An operand primitive was given an operand the instruction's row does not admit: a write to an immediate or to a
  PC-relative location, or the address of an operand that has none (R418, R419). Raised by `writeLoc`, `addrOf` and
  `memoryAddress`, and only for a term of `Instr` that is not well formed, which no word decodes to (log entry 8). SAFE. -/
  | operandNotInClass
  deriving DecidableEq, Repr

/-- Why the spec gives a step no meaning: the reasons of its own `refuse(reason)` (R12 (d)). All are SAFE: a claim about a
run excludes them (log entry 10). -/
inductive Refusal where
  /-- An instruction that has no meaning in this model yet; raised by `exec`'s own arms. SAFE. -/
  | notModelled (mnemonic : String)
  /-- A step that begins with T1 or T0 set; raised by `executeOne` (R301). SAFE. -/
  | traceNotModelled
  /-- A write of the whole SR with bit 12 set, on MC68020 and later; raised by `setSR` (R112). SAFE. -/
  | masterStackNotModelled
  /-- An encoding that exists on MC68020 and later only, on those models; raised by `runInstr` (R1226, R345). SAFE. -/
  | mc68020InstructionNotModelled
  /-- A line-F word on MC68020 and later; raised by `execLineF` (R1225). SAFE. -/
  | coprocessorSpace
  /-- A full-format extension word on MC68020 and later; raised by `indexValue` (R417). SAFE. -/
  | fullFormatExtension
  /-- MOVEM to -(An) with An in the list, on MC68020 and later; raised by `execMovemToMem` (R504). SAFE. -/
  | movemPredecBaseInList
  /-- MOVEC naming a control register of MC68020 and later; raised by `execMovecFrom` and `execMovecTo` (R122). SAFE. -/
  | controlRegisterNotModelled
  /-- RTE of a frame format the part has and the spec does not build; raised by `execRte` (R1218). SAFE. -/
  | frameFormatNotModelled
  deriving DecidableEq, Repr

/-- The state of one processor and its memory. -/
structure State where
  /-- D0–D7 (R101). -/
  d : Vector (BitVec 32) 8
  /-- A0–A6 (R102); A7 is `usp` or `ssp` (R105). -/
  a : Vector (BitVec 32) 7
  /-- The user stack pointer (R103, R104). -/
  usp : BitVec 32
  /-- The supervisor stack pointer (R103, R104). -/
  ssp : BitVec 32
  /-- The program counter (R107). -/
  pc : BitVec 32
  /-- The status register; its low byte is the CCR (R110, R111). -/
  sr : BitVec 16
  /-- The vector base register, MC68010 and later (R120; log entry 18). -/
  vbr : BitVec 32
  /-- The source function code, MC68010 and later (R121). -/
  sfc : BitVec 3
  /-- The destination function code, MC68010 and later (R121). -/
  dfc : BitVec 3
  /-- The processor condition (R140). -/
  condition : Condition
  /-- The contents of the memory regions (R201). -/
  mem : Memory
  /-- MODEL, EXCEPTION_MODE, ADDRESS_MASK and the structure of REGIONS (R8, R10): never changed by a step. -/
  cfg : Config
  /-- THE MODEL'S OWN FIELD, not the spec's: how many values have been drawn (log entry 3). -/
  draws : Nat
  deriving DecidableEq, Repr

/-- The parameters of `State.reset`. DESIGN CHOICE (log entry 2): the model and mode of the common start state of
95_test_vectors.md, the recommended address mask (D5), and one region that covers the address space. -/
def State.resetConfig : Config where
  model := .mc68010
  exceptionMode := .vector
  addressMask := 0xFFFFFFFF
  regions := [{ start := 0, size := 2 ^ 32, lowmem := false, policy := [] }]

/-- A newly constructed processor state (R1401): condition startup. The registers, unwritten in R160, hold 0 (log entry 1). -/
def State.constructed (cfg : Config) (mem : Memory) : State where
  d := Vector.replicate 8 0
  a := Vector.replicate 7 0
  usp := 0
  ssp := 0
  pc := 0
  sr := 0
  vbr := 0
  sfc := 0
  dfc := 0
  condition := .startup
  mem := mem
  cfg := cfg
  draws := 0

/-- The machine right after reset: the column "after reset sequence" of R160, with no memory listed. SSP and pc are the
longwords at 0 and 4 (R1410), which read as 0; SR[15:8] = 0x27; VBR = 0; the registers R160 leaves unwritten hold 0
(log entry 1). -/
def State.reset : State where
  d := Vector.replicate 8 0
  a := Vector.replicate 7 0
  usp := 0
  ssp := 0
  pc := 0
  sr := 0x2700
  vbr := 0
  sfc := 0
  dfc := 0
  condition := .normal
  mem := []
  cfg := State.resetConfig
  draws := 0

end Sys2Proof.Machine
end

