-- ==== Sys2Proof/Machine/Ops.lean ====
section
/-! DEFINITION. The named operations over registers and memory: register access (R101–R106, R14), the status register
(R110–R112), memory and stack primitives (R15, R16, R206, R220), faults (R1302, R1304), taking an exception (R1310–R1312) and
returning from one (R1218), and the frame every meaning runs in (R300, R306). -/

namespace Sys2Proof.Machine

/-! ## Registers -/

def State.model (s : State) : Model := s.cfg.model

/-- SR.S (R115). -/
def State.supervisor (s : State) : Bool := s.sr.getLsbD 13

/-- SR.T1 or SR.T0 (R113). -/
def State.traced (s : State) : Bool := s.sr.getLsbD 15 || s.sr.getLsbD 14

/-- D[n] (R101). -/
def State.readD (s : State) (n : Reg) : Long := s.d[n]

/-- D[n] ← v, all 32 bits. -/
def State.writeD (s : State) (n : Reg) (v : Long) : State := { s with d := s.d.set n.val v n.isLt }

/-- SetD(n, sz, v) of R14. -/
def State.setD (s : State) (n : Reg) (sz : Size) (v : Long) : State := s.writeD n (mergeLow sz (s.readD n) v)

/-- A[n]; A[7] is the active stack pointer (R105). -/
def State.readA (s : State) (n : Reg) : Long :=
  if h : n.val < 7 then s.a[n.val] else if s.supervisor then s.ssp else s.usp

/-- A[n] ← v, all 32 bits (R102); A[7] is the active stack pointer (R105). -/
def State.writeA (s : State) (n : Reg) (v : Long) : State :=
  if h : n.val < 7 then { s with a := s.a.set n.val v h }
  else if s.supervisor then { s with ssp := v } else { s with usp := v }

/-- The D or A number of a register designation R[k] (R14). -/
def lowReg (k : RegR) : Reg := ⟨k.val % 8, by omega⟩

/-- R[k] (R14). -/
def State.readR (s : State) (k : RegR) : Long :=
  if k.val < 8 then s.readD (lowReg k) else s.readA (lowReg k)

/-- R[k] ← v, all 32 bits (R14). -/
def State.writeR (s : State) (k : RegR) (v : Long) : State :=
  if k.val < 8 then s.writeD (lowReg k) v else s.writeA (lowReg k) v

def State.setPc (s : State) (v : Long) : State := { s with pc := v }
def State.setUsp (s : State) (v : Long) : State := { s with usp := v }
def State.setVbr (s : State) (v : Long) : State := { s with vbr := v }
def State.setSfc (s : State) (v : BitVec 3) : State := { s with sfc := v }
def State.setDfc (s : State) (v : BitVec 3) : State := { s with dfc := v }
def State.setSrBits (s : State) (v : HWord) : State := { s with sr := v }
def State.setMem (s : State) (m : Memory) : State := { s with mem := m }

/-- condition ← c (R142). -/
def State.setCondition (s : State) (c : Condition) : State := { s with condition := c }

/-- One more value has been drawn (log entry 3). -/
def State.countDraw (s : State) : State := { s with draws := s.draws + 1 }

/-- VBR; the constant 0 on MC68000 (R120). -/
def State.vectorBase (s : State) : Long := if s.model.is000 then 0 else s.vbr

/-! ## The status register -/

/-- The flags, SR bits 4–0 (R110). -/
def State.ccr (s : State) : Ccr where
  x := s.sr.getLsbD 4
  n := s.sr.getLsbD 3
  z := s.sr.getLsbD 2
  v := s.sr.getLsbD 1
  c := s.sr.getLsbD 0

/-- Write the five flags; every other bit of the SR is kept (log entry 17). -/
def State.setFlags (s : State) (f : Ccr) : State := s.setSrBits (s.sr.extractLsb' 5 11 ++ f.bits)

/-- SetCCR(v) of R111: SR ← (SR & 0xFF00) | (v & 0x1F). -/
def State.setCCR (s : State) (v : Byte) : State := s.setSrBits ((s.sr &&& 0xFF00) ||| (v.setWidth 16 &&& 0x001F))

/-- The implemented bits of the SR (R112). -/
def srImplemented (m : Model) : HWord := if m.is020plus then 0xE71F else 0xA71F

/-- A write of the whole SR refuses this value: the master stack is not modelled (R112). -/
def srRefused (m : Model) (v : HWord) : Bool := m.is020plus && v.getLsbD 12

/-! ## Steps with early end -/

/-- How a meaning ends before its last line. -/
inductive Stop where
  /-- The step is over in the state reached: a halt, or an exception entered (R1301). -/
  | ended
  | fault (f : Fault)
  | refused (r : Refusal)
  deriving DecidableEq, Repr

/-- A part of a step: it reads and changes the state and may end the step. Effects made before an early end stand (R1303). -/
abbrev Exec (α : Type) : Type := EStateM Stop State α

/-- The outcome of a step. -/
abbrev Out : Type := Host.Outcome State Fault Refusal

/-- Read something of the state. -/
def look {α : Type} (f : State → α) : Exec α := fun s => .ok (f s) s

/-- Change the state. -/
def update (f : State → State) : Exec Unit := fun s => .ok () (f s)

/-- End the step. -/
def stopWith {α : Type} (r : Stop) : Exec α := fun s => .error r s

/-- refuse(reason) of R12 (d). -/
def refuse {α : Type} (r : Refusal) : Exec α := stopWith (.refused r)

/-- condition ← halted, and the step ends (R1302, R1304, R1310). -/
def halt {α : Type} : Exec α := fun s => .error .ended (s.setCondition .halted)

/-- raise BusError (R1302): nothing is transferred, the step ends, the condition is halted. -/
def busError {α : Type} : Exec α := halt

/-- raise AddressError (R1304). -/
def addressError {α : Type} : Exec α := halt

/-- The outcome of a step from the way its meaning ended. -/
def finish (x : Exec Unit) (s : State) : Out :=
  match x s with
  | .ok _ t => .next t
  | .error .ended t => .next t
  | .error (.fault f) _ => .fault f
  | .error (.refused r) _ => .refused r

/-! ## Free values: draw() of R17 (log entry 3) -/

def drawBit : Exec Bool := fun s => .ok (Config.freeBit s.draws) s.countDraw
def drawByte : Exec Byte := fun s => .ok (Config.freeByte s.draws) s.countDraw
def drawLong : Exec Long := fun s => .ok (Config.freeLong s.draws) s.countDraw

/-! ## Register and flag steps -/

def getD (n : Reg) (sz : Size) : Exec Long := look fun s => truncTo sz (s.readD n)
def putD (n : Reg) (sz : Size) (v : Long) : Exec Unit := update fun s => s.setD n sz v
def getA (n : Reg) : Exec Long := look fun s => s.readA n
def putA (n : Reg) (v : Long) : Exec Unit := update fun s => s.writeA n v
def getR (k : RegR) : Exec Long := look fun s => s.readR k
def putR (k : RegR) (v : Long) : Exec Unit := update fun s => s.writeR k v
def getPc : Exec Long := look State.pc
def putPc (v : Long) : Exec Unit := update fun s => s.setPc v
def getFlags : Exec Ccr := look State.ccr
def putFlags (f : Ccr) : Exec Unit := update fun s => s.setFlags f
def getModel : Exec Model := look State.model

/-- SetSR(v) of R112. -/
def setSR (v : HWord) : Exec Unit := do
  let m ← getModel
  if srRefused m v then refuse .masterStackNotModelled
  else update fun s => s.setSrBits (v &&& srImplemented m)

/-! ## Memory -/

/-- DataFC of R203. -/
def State.dataFC (s : State) : BitVec 3 := if s.supervisor then 5 else 1

/-- ProgFC of R203. -/
def State.progFC (s : State) : BitVec 3 := if s.supervisor then 6 else 2

/-- A word or longword at an odd address, on a model that does not allow it (R220). -/
def misaligned (m : Model) (sz : Size) (addr : Long) : Bool :=
  (sz != .b) && addr.getLsbD 0 && !m.is020plus

/-- MemReadFC(addr, bytes(sz), fc, read) of R15: the alignment check (R220), then translation (R210). -/
def memReadFC (addr : Long) (sz : Size) (fc : BitVec 3) : Exec Long := fun s =>
  if misaligned s.model sz addr then addressError s
  else match translate s.cfg addr sz.bytes fc .read with
    | none => busError s
    | some k => .ok (Memory.readSized s.mem k sz) s

/-- MemWriteFC(addr, bytes(sz), fc, v) of R15. -/
def memWriteFC (addr : Long) (sz : Size) (fc : BitVec 3) (v : Long) : Exec Unit := fun s =>
  if misaligned s.model sz addr then addressError s
  else match translate s.cfg addr sz.bytes fc .write with
    | none => busError s
    | some k => .ok () (s.setMem (Memory.writeSized s.mem k sz v))

/-- MemRead(addr, bytes(sz)) of R15: the current data space. -/
def memRead (addr : Long) (sz : Size) : Exec Long := do
  let fc ← look State.dataFC
  memReadFC addr sz fc

/-- MemWrite(addr, bytes(sz), v) of R15. -/
def memWrite (addr : Long) (sz : Size) (v : Long) : Exec Unit := do
  let fc ← look State.dataFC
  memWriteFC addr sz fc v

/-- A number of bytes, as an address increment. -/
def byteCount (sz : Size) : Long := BitVec.ofNat 32 sz.bytes

/-- Push(bytes(sz), v) of R16. -/
def push (sz : Size) (v : Long) : Exec Unit := do
  let sp ← getA 7
  putA 7 (sp - byteCount sz)
  memWrite (sp - byteCount sz) sz v

/-- Pop(bytes(sz)) of R16. -/
def pop (sz : Size) : Exec Long := do
  let sp ← getA 7
  let t ← memRead sp sz
  putA 7 (sp + byteCount sz)
  return t

/-! ## Taking an exception, and the return -/

/-- The address of a vector: VBR + 4·vec mod 2^32 (R1311). -/
def State.vectorAddress (s : State) (vec : Nat) : Long := s.vectorBase + BitVec.ofNat 32 (4 * vec)

/-- The format/vector word of a frame (R1312): the format number in bits 15–12, 4·vec below. -/
def formatWord (format vec : Nat) : Long := BitVec.ofNat 32 (format * 0x1000 + 4 * vec)

/-- The frame of R1310 and R1312 for the model: `p` is the stacked pc, `ia` the instruction address of an Exception2,
`old` the SR before the entry. -/
def pushFrame (vec : Nat) (p : Long) (ia : Option Long) (old : HWord) : Exec Unit := do
  let m ← getModel
  if m.is000 then
    push .l p
    push .w (old.setWidth 32)
  else
    match m.is020plus, ia with
    | true, some a =>
      push .l a
      push .w (formatWord 2 vec)
      push .l p
      push .w (old.setWidth 32)
    | _, _ =>
      push .w (formatWord 0 vec)
      push .l p
      push .w (old.setWidth 32)

/-- TakeException(vec, p, ia) of R1310 up to its last line; it does not end the step itself. -/
def enterException (vec : Nat) (p : Long) (ia : Option Long) : Exec Unit := do
  let mode ← look fun s => s.cfg.exceptionMode
  match mode with
  | .halt => halt
  | .vector =>
    let old ← look State.sr
    setSR ((old ||| 0x2000) &&& 0x3FFF)
    pushFrame vec p ia old
    let v ← look fun s => s.vectorAddress vec
    let h ← memReadFC v .l 5
    putPc h

/-- raise Exception(vec, p) and raise Exception2(vec, p, ia) of R17: take the exception; the step is over. -/
def raise {α : Type} (vec : Nat) (p : Long) (ia : Option Long) : Exec α := do
  enterException vec p ia
  stopWith .ended

/-- What RTE makes of a frame's format number (D33, R1218). -/
inductive FrameFormat where
  | valid (size : Long)
  | refused
  | invalid
  deriving DecidableEq, Repr

/-- FrameFormat(f, MODEL) of R1218, for MC68010 and later. -/
def frameFormat (f : BitVec 4) (m : Model) : FrameFormat :=
  match m with
  | .mc68000 | .mc68010 => if f = 0 then .valid 8 else if f = 8 then .refused else .invalid
  | .mc68020 | .mc68030 =>
    if f = 0 then .valid 8 else if f = 2 then .valid 12
    else if f = 1 ∨ f = 9 ∨ f = 10 ∨ f = 11 then .refused else .invalid
  | .mc68040 =>
    if f = 0 then .valid 8 else if f = 2 then .valid 12
    else if f = 1 ∨ f = 3 ∨ f = 4 ∨ f = 7 then .refused else .invalid

/-- The frame's SR and pc are read at A7, A7 advances by the frame's size, then the SR and the pc are restored (R1218). -/
def restoreFrame (size : Long) : Exec Unit := do
  let sp ← getA 7
  let sr ← memRead sp .w
  let p ← memRead (sp + 2) .l
  putA 7 (sp + size)
  setSR (sr.setWidth 16)
  putPc p

/-- The return from an exception (R1218); `ia` is the address of the RTE. -/
def returnFromException (ia : Long) : Exec Unit := do
  let m ← getModel
  if m.is000 then restoreFrame 6
  else
    let sp ← getA 7
    let fw ← memRead (sp + 6) .w
    match frameFormat (fw.extractLsb' 12 4) m with
    | .valid size => restoreFrame size
    | .refused => refuse .frameFormatNotModelled
    | .invalid => raise 14 ia none

/-! ## The frame of a meaning -/

/-- Decode's verdict on an instruction's row for the model (R303): run it, take the illegal-instruction exception, or
refuse it. Row 81 is skipped below MC68020 (R345), and on MC68020 and later it takes the branch words with an 8-bit
displacement of 0xFF (R1101). Log entries 12 and 13. -/
inductive Verdict where
  | entry | illegal | refused
  deriving DecidableEq, Repr

def rowVerdict (m : Model) (i : Instr) : Verdict :=
  match i with
  | .bccL _ => if m.is020plus then .refused else .entry
  | .bra (.short d) | .bsr (.short d) | .bcc _ (.short d) => if d = 0xFF ∧ m.is020plus then .refused else .entry
  | i =>
    match i.columns.1 with
    | .all => .entry
    | .from010 => if m.is010plus then .entry else .illegal
    | .from020 => if m.is020plus then .refused else .illegal

/-- Privileged(row, MODEL) and SR.S = 0 (R306). -/
def privilegeViolation (i : Instr) (s : State) : Bool := i.columns.2.holdsOn s.model && !s.supervisor

/-- The illegal-instruction exception at the address `ia`, from a state whose pc is past the opcode word (R340, R1227). -/
def illegalInstruction (ia : Long) : Exec Unit := raise 4 ia none

/-- pc_next of R18 for an instruction at `ia`. -/
def pcNext (i : Instr) (ia : Long) : Long := ia + BitVec.ofNat 32 (2 * i.words)

/-- The frame of every meaning, from a state whose pc is IA (R300): the row's verdict, the pc past the instruction's
words, the privilege check, then the handler, which is given IA. -/
def runInstr (i : Instr) (handler : Long → Exec Unit) (s : State) : Out :=
  match rowVerdict s.model i with
  | .illegal => finish (illegalInstruction s.pc) (s.setPc (s.pc + 2))
  | .refused => .refused .mc68020InstructionNotModelled
  | .entry =>
    if privilegeViolation i s then finish (raise 8 s.pc none) (s.setPc (pcNext i s.pc))
    else finish (handler s.pc) (s.setPc (pcNext i s.pc))

end Sys2Proof.Machine
end

