-- ==== Sys2Proof/Machine/Operands.lean ====
section
/-! DEFINITION. The operand primitives of the handlers: every addressing mode (R410–R419), resolved with its register side
effect, read and written; the address of a control operand. `xa` is the address of the EA's first extension word (R401). -/

namespace Sys2Proof.Machine

/-- The address space of a memory operand (R418). -/
inductive Space where
  | data | program
  deriving DecidableEq, Repr

/-- A resolved operand (R418). -/
inductive Loc where
  | regD (n : Reg)
  | regA (n : Reg)
  | mem (a : Long) (sp : Space)
  | imm (v : Long)
  deriving DecidableEq, Repr

/-- step(n, sz) of R414: a byte step of A7 is 2. -/
def eaStep (n : Reg) (sz : Size) : Long := if n = 7 ∧ sz = .b then 2 else byteCount sz

/-- Index(w0) of R415: the index register's word or longword, scaled on MC68020 and later, where the full format is
refused (R416, R417). -/
def indexValue (x : IndexExt) : Exec Long := do
  let r ← getR x.xn
  let m ← getModel
  let v := if x.long then r else signExtendFrom .w r
  if m.is020plus then
    if x.full then refuse .fullFormatExtension else return v <<< x.scale.toNat
  else return v

/-- The register side effect of a postincrement or predecrement operand, and the operand's address. -/
def postincrement (n : Reg) (sz : Size) : Exec Long := do
  let a ← getA n
  putA n (a + eaStep n sz)
  return a

def predecrement (n : Reg) (sz : Size) : Exec Long := do
  let a ← getA n
  putA n (a - eaStep n sz)
  return (a - eaStep n sz)

/-- The address of a control operand, with no side effect (AddrOf of R418). -/
def addrOf (xa : Long) (e : EA) : Exec Long :=
  match e with
  | .ind n => getA n
  | .disp n d => do
    let a ← getA n
    return a + sext16 d
  | .index n x => do
    let a ← getA n
    let i ← indexValue x
    return a + sext8 x.disp + i
  | .absW a => return sext16 a
  | .absL a => return a
  | .pcDisp d => return xa + sext16 d
  | .pcIndex x => do
    let i ← indexValue x
    return xa + sext8 x.disp + i
  | .dn _ | .an _ | .postinc _ | .predec _ | .imm _ => stopWith (.fault .operandNotInClass)

/-- ResolveEA(d, sz) of R418. -/
def resolveEA (xa : Long) (e : EA) (sz : Size) : Exec Loc :=
  match e with
  | .dn n => return .regD n
  | .an n => return .regA n
  | .postinc n => do
    let a ← postincrement n sz
    return .mem a .data
  | .predec n => do
    let a ← predecrement n sz
    return .mem a .data
  | .ind _ | .disp _ _ | .index _ _ | .absW _ | .absL _ => do
    let a ← addrOf xa e
    return .mem a .data
  | .pcDisp _ | .pcIndex _ => do
    let a ← addrOf xa e
    return .mem a .program
  | .imm v => return .imm v.value

/-- Read of a memory operand: the data space, or the program space with kind read (R206, R419). -/
def readMem (a : Long) (sp : Space) (sz : Size) : Exec Long := do
  let fc ← look fun s => match sp with
    | .data => s.dataFC
    | .program => s.progFC
  memReadFC a sz fc

/-- Read(loc, sz) of R419. -/
def readLoc (l : Loc) (sz : Size) : Exec Long :=
  match l with
  | .regD n => getD n sz
  | .regA n => do
    let v ← getA n
    return truncTo sz v
  | .mem a sp => readMem a sp sz
  | .imm v => return v

/-- Write(loc, sz, v) of R419. -/
def writeLoc (l : Loc) (sz : Size) (v : Long) : Exec Unit :=
  match l with
  | .regD n => putD n sz v
  | .regA n => putA n v
  | .mem a .data => memWrite a sz v
  | .mem _ .program => stopWith (.fault .operandNotInClass)
  | .imm _ => stopWith (.fault .operandNotInClass)

/-- ResolveEA then Read: a source operand (R420 (1)). -/
def readEA (xa : Long) (e : EA) (sz : Size) : Exec Long := do
  let l ← resolveEA xa e sz
  readLoc l sz

/-- ResolveEA then Write: a destination that is not read (R420, R423). -/
def writeEA (xa : Long) (e : EA) (sz : Size) (v : Long) : Exec Unit := do
  let l ← resolveEA xa e sz
  writeLoc l sz v

/-- The address of a memory operand that is accessed with a function code of its own (MOVES, R1215). -/
def memoryAddress (xa : Long) (e : EA) (sz : Size) : Exec Long := do
  let l ← resolveEA xa e sz
  match l with
  | .mem a _ => return a
  | .regD _ | .regA _ | .imm _ => stopWith (.fault .operandNotInClass)

/-- The address of the word after the opcode word: `xa` of a row whose first extension words are its EA's. -/
def firstExt (ia : Long) : Long := ia + 2

/-- The address after `n` further extension words. -/
def extAfter (ia : Long) (n : Nat) : Long := ia + 2 + BitVec.ofNat 32 (2 * n)

end Sys2Proof.Machine
end

