-- ==== Sys2Proof/Machine/Arithmetic.lean ====
section
/-! DEFINITION. The meanings of the integer arithmetic instructions (R600–R627). The rules set the flags before they write
the destination (R600–R620: AddF and SubF set flags), so a failing write leaves them set (log entry 11). -/

namespace Sys2Proof.Machine

/-- A two-operand computation: source, destination, flags before. -/
abbrev BinOp : Type := Size → Long → Long → Ccr → Alu

/-- A one-operand computation. -/
abbrev UnOp : Type := Size → Long → Ccr → Alu

/-- The flags of an arithmetic result, then its write to a location. -/
def flagsThenWrite (l : Loc) (sz : Size) (a : Alu) : Exec Unit := do
  putFlags a.f
  writeLoc l sz a.r

/-- Read-modify-write of a destination by a source value (R602, R604, R605, R609, R611, R612). -/
def arithToEA (op : BinOp) (sz : Size) (xa : Long) (ea : EA) (v : Long) : Exec Unit := do
  let l ← resolveEA xa ea sz
  let d ← readLoc l sz
  let f ← getFlags
  flagsThenWrite l sz (op sz v d f)

/-- A computation from an EA source into Dn (R601, R608). -/
def arithToDn (op : BinOp) (sz : Size) (xa : Long) (ea : EA) (dn : Reg) : Exec Unit := do
  let v ← readEA xa ea sz
  let d ← getD dn sz
  let f ← getFlags
  flagsThenWrite (.regD dn) sz (op sz v d f)

/-- A computation from a data register into a memory EA (R602, R609). -/
def arithFromDn (op : BinOp) (sz : Size) (xa : Long) (dn : Reg) (ea : EA) : Exec Unit := do
  let v ← getD dn sz
  arithToEA op sz xa ea v

/-- Read-modify-write of one operand (R619, R620). -/
def arithUnary (op : UnOp) (sz : Size) (xa : Long) (ea : EA) : Exec Unit := do
  let l ← resolveEA xa ea sz
  let d ← readLoc l sz
  let f ← getFlags
  flagsThenWrite l sz (op sz d f)

/-- The register form of the extended operations (R606, R613). -/
def extendedReg (op : BinOp) (sz : Size) (dy dx : Reg) : Exec Unit := do
  let v ← getD dy sz
  let d ← getD dx sz
  let f ← getFlags
  flagsThenWrite (.regD dx) sz (op sz v d f)

/-- The memory form of the extended operations, -(Ay),-(Ax) (R607, R614). -/
def extendedMem (op : BinOp) (sz : Size) (ay ax : Reg) : Exec Unit := do
  let as ← predecrement ay sz
  let v ← readMem as .data sz
  let ad ← predecrement ax sz
  let d ← readMem ad .data sz
  let f ← getFlags
  flagsThenWrite (.mem ad .data) sz (op sz v d f)

/-- The value of an ADDQ/SUBQ data field: 0 means 8 (R314). -/
def quickValue (q : BitVec 3) : Long := if q = 0 then 8 else q.setWidth 32

/-- ADD <ea>,Dn (R601). -/
def execAddEaDn (sz : Size) (ea : EA) (dn : Reg) (s : State) : Out :=
  runInstr (.addEaDn sz ea dn) (fun ia => arithToDn addOp sz (firstExt ia) ea dn) s

/-- ADD Dn,<ea> (R602). -/
def execAddDnEa (sz : Size) (dn : Reg) (ea : EA) (s : State) : Out :=
  runInstr (.addDnEa sz dn ea) (fun ia => arithFromDn addOp sz (firstExt ia) dn ea) s

/-- ADDA (R603). -/
def execAdda (sz : SizeWL) (ea : EA) (an : Reg) (s : State) : Out :=
  runInstr (.adda sz ea an) (fun ia => do
    let v ← readEA (firstExt ia) ea sz.toSize
    let a ← getA an
    putA an (a + signExtendFrom sz.toSize v)) s

/-- ADDI (R604). -/
def execAddi (imm : Imm) (ea : EA) (s : State) : Out :=
  runInstr (.addi imm ea) (fun ia => arithToEA addOp imm.size (extAfter ia imm.exts.length) ea imm.value) s

/-- ADDQ (R605): to An it adds to the whole register and sets no flag. -/
def execAddq (sz : Size) (q : BitVec 3) (ea : EA) (s : State) : Out :=
  runInstr (.addq sz q ea) (fun ia =>
    match ea with
    | .an n => do
      let a ← getA n
      putA n (a + quickValue q)
    | ea => arithToEA addOp sz (firstExt ia) ea (quickValue q)) s

/-- ADDX Dy,Dx (R606). -/
def execAddxReg (sz : Size) (dy dx : Reg) (s : State) : Out :=
  runInstr (.addxReg sz dy dx) (fun _ => extendedReg addxOp sz dy dx) s

/-- ADDX -(Ay),-(Ax) (R607). -/
def execAddxMem (sz : Size) (ay ax : Reg) (s : State) : Out :=
  runInstr (.addxMem sz ay ax) (fun _ => extendedMem addxOp sz ay ax) s

/-- SUB <ea>,Dn (R608). -/
def execSubEaDn (sz : Size) (ea : EA) (dn : Reg) (s : State) : Out :=
  runInstr (.subEaDn sz ea dn) (fun ia => arithToDn subOp sz (firstExt ia) ea dn) s

/-- SUB Dn,<ea> (R609). -/
def execSubDnEa (sz : Size) (dn : Reg) (ea : EA) (s : State) : Out :=
  runInstr (.subDnEa sz dn ea) (fun ia => arithFromDn subOp sz (firstExt ia) dn ea) s

/-- SUBA (R610). -/
def execSuba (sz : SizeWL) (ea : EA) (an : Reg) (s : State) : Out :=
  runInstr (.suba sz ea an) (fun ia => do
    let v ← readEA (firstExt ia) ea sz.toSize
    let a ← getA an
    putA an (a - signExtendFrom sz.toSize v)) s

/-- SUBI (R611). -/
def execSubi (imm : Imm) (ea : EA) (s : State) : Out :=
  runInstr (.subi imm ea) (fun ia => arithToEA subOp imm.size (extAfter ia imm.exts.length) ea imm.value) s

/-- SUBQ (R612): from An it subtracts from the whole register and sets no flag. -/
def execSubq (sz : Size) (q : BitVec 3) (ea : EA) (s : State) : Out :=
  runInstr (.subq sz q ea) (fun ia =>
    match ea with
    | .an n => do
      let a ← getA n
      putA n (a - quickValue q)
    | ea => arithToEA subOp sz (firstExt ia) ea (quickValue q)) s

/-- SUBX Dy,Dx (R613). -/
def execSubxReg (sz : Size) (dy dx : Reg) (s : State) : Out :=
  runInstr (.subxReg sz dy dx) (fun _ => extendedReg subxOp sz dy dx) s

/-- SUBX -(Ay),-(Ax) (R614). -/
def execSubxMem (sz : Size) (ay ax : Reg) (s : State) : Out :=
  runInstr (.subxMem sz ay ax) (fun _ => extendedMem subxOp sz ay ax) s

/-- CMP <ea>,Dn (R615). -/
def execCmpEaDn (sz : Size) (ea : EA) (dn : Reg) (s : State) : Out :=
  runInstr (.cmpEaDn sz ea dn) (fun ia => do
    let v ← readEA (firstExt ia) ea sz
    let d ← getD dn sz
    let f ← getFlags
    putFlags (cmpFlags sz v d f)) s

/-- CMPA (R616): always a 32-bit comparison. -/
def execCmpa (sz : SizeWL) (ea : EA) (an : Reg) (s : State) : Out :=
  runInstr (.cmpa sz ea an) (fun ia => do
    let v ← readEA (firstExt ia) ea sz.toSize
    let d ← getA an
    let f ← getFlags
    putFlags (cmpFlags .l (signExtendFrom sz.toSize v) d f)) s

/-- CMPI (R617). -/
def execCmpi (imm : Imm) (ea : EA) (s : State) : Out :=
  runInstr (.cmpi imm ea) (fun ia => do
    let d ← readEA (extAfter ia imm.exts.length) ea imm.size
    let f ← getFlags
    putFlags (cmpFlags imm.size imm.value d f)) s

/-- CMPM (R618). -/
def execCmpm (sz : Size) (ay ax : Reg) (s : State) : Out :=
  runInstr (.cmpm sz ay ax) (fun _ => do
    let as ← postincrement ay sz
    let v ← readMem as .data sz
    let ad ← postincrement ax sz
    let d ← readMem ad .data sz
    let f ← getFlags
    putFlags (cmpFlags sz v d f)) s

/-- NEG (R619). -/
def execNeg (sz : Size) (ea : EA) (s : State) : Out :=
  runInstr (.neg sz ea) (fun ia => arithUnary negOp sz (firstExt ia) ea) s

/-- NEGX (R620). -/
def execNegx (sz : Size) (ea : EA) (s : State) : Out :=
  runInstr (.negx sz ea) (fun ia => arithUnary negxOp sz (firstExt ia) ea) s

/-- CLR (R621): the destination is not read (D28). -/
def execClr (sz : Size) (ea : EA) (s : State) : Out :=
  runInstr (.clr sz ea) (fun ia => do
    writeEA (firstExt ia) ea sz 0
    let f ← getFlags
    putFlags (clrFlags f)) s

/-- EXT.W (R622). -/
def execExtW (dn : Reg) (s : State) : Out :=
  runInstr (.extW dn) (fun _ => do
    let b ← getD dn .b
    let v := truncTo .w (signExtendFrom .b b)
    putD dn .w v
    let f ← getFlags
    putFlags (logicFlags .w v f)) s

/-- EXT.L (R623). -/
def execExtL (dn : Reg) (s : State) : Out :=
  runInstr (.extL dn) (fun _ => do
    let w ← getD dn .w
    let v := signExtendFrom .w w
    putD dn .l v
    let f ← getFlags
    putFlags (logicFlags .l v f)) s

/-- The unsigned 16 × 16 product (R624). -/
def mulUnsigned (s d : Long) : Long := BitVec.ofNat 32 (d.toNat * s.toNat)

/-- The signed 16 × 16 product mod 2^32 (R625). -/
def mulSigned (s d : Long) : Long := BitVec.ofInt 32 (signed16 d * signed16 s)

/-- A multiplication of the low word of Dn into the whole of Dn (R624, R625). -/
def multiply (op : Long → Long → Long) (xa : Long) (ea : EA) (dn : Reg) : Exec Unit := do
  let v ← readEA xa ea .w
  let d ← getD dn .w
  let r := op v d
  putD dn .l r
  let f ← getFlags
  putFlags (logicFlags .l r f)

/-- MULU.W (R624). -/
def execMuluW (ea : EA) (dn : Reg) (s : State) : Out :=
  runInstr (.muluW ea dn) (fun ia => multiply mulUnsigned (firstExt ia) ea dn) s

/-- MULS.W (R625). -/
def execMulsW (ea : EA) (dn : Reg) (s : State) : Out :=
  runInstr (.mulsW ea dn) (fun ia => multiply mulSigned (firstExt ia) ea dn) s

/-- A quotient and a remainder that fit their 16 bits, or overflow (R626, R627). -/
inductive Division where
  | zeroDivide
  | overflow
  | result (q m : HWord)
  deriving DecidableEq, Repr

/-- The unsigned division of R626. -/
def divUnsigned (s d : Long) : Division :=
  if s = 0 then .zeroDivide
  else
    let q := d.toNat / s.toNat
    let m := d.toNat % s.toNat
    if 0xFFFF < q then .overflow else .result (BitVec.ofNat 16 q) (BitVec.ofNat 16 m)

/-- The signed division of R627: the quotient is truncated toward zero, the remainder has the dividend's sign. -/
def divSigned (s d : Long) : Division :=
  let sv := signed16 s
  let dv := d.toInt
  if sv = 0 then .zeroDivide
  else
    let q := Int.tdiv dv sv
    let m := dv - q * sv
    if q < -32768 ∨ 32767 < q then .overflow else .result (BitVec.ofInt 16 q) (BitVec.ofInt 16 m)

/-- What a division does with its outcome (R626, R627): the flags the ISA leaves undefined are drawn (D37;
log entry 14). -/
def finishDivision (ia : Long) (dn : Reg) (r : Division) : Exec Unit :=
  match r with
  | .zeroDivide => do
    let n ← drawBit
    let z ← drawBit
    let v ← drawBit
    let f ← getFlags
    putFlags { f with n := n, z := z, v := v, c := false }
    let p ← getPc
    raise 5 p (some ia)
  | .overflow => do
    let n ← drawBit
    let z ← drawBit
    let f ← getFlags
    putFlags { f with n := n, z := z, v := true, c := false }
  | .result q m => do
    putD dn .l (m ++ q)
    let f ← getFlags
    putFlags { f with n := q.getLsbD 15, z := q == 0, v := false, c := false }

/-- A division of Dn by a word (R626, R627). -/
def divide (op : Long → Long → Division) (ia : Long) (ea : EA) (dn : Reg) : Exec Unit := do
  let v ← readEA (firstExt ia) ea .w
  let d ← getD dn .l
  finishDivision ia dn (op v d)

/-- DIVU.W (R626). -/
def execDivuW (ea : EA) (dn : Reg) (s : State) : Out :=
  runInstr (.divuW ea dn) (fun ia => divide divUnsigned ia ea dn) s

/-- DIVS.W (R627). -/
def execDivsW (ea : EA) (dn : Reg) (s : State) : Out :=
  runInstr (.divsW ea dn) (fun ia => divide divSigned ia ea dn) s

end Sys2Proof.Machine
end

