-- ==== Sys2Proof/Machine/BitManipulation.lean ====
section
/-! DEFINITION. The meanings of the bit instructions (R900–R908): Z is set from the old bit, then the operand is written. -/

namespace Sys2Proof.Machine

/-- The operand size of a bit instruction (R900): a data register is 32 bits, everything else a byte. -/
def bitSize (ea : EA) : Size :=
  match ea with
  | .dn _ => .l
  | .an _ | .ind _ | .postinc _ | .predec _ | .disp _ _ | .index _ _ | .absW _ | .absL _ | .pcDisp _ | .pcIndex _
  | .imm _ => .b

/-- The bit index: the bit number mod the operand's width (R900). -/
def bitIndex (ea : EA) (b : Long) : Nat := b.toNat % (bitSize ea).width

/-- 2^k. -/
def bitAt (k : Nat) : Long := 1#32 <<< k

def changeBit (v : Long) (k : Nat) : Long := v ^^^ bitAt k
def clearBit (v : Long) (k : Nat) : Long := v &&& ~~~bitAt k
def setBit (v : Long) (k : Nat) : Long := v ||| bitAt k

/-- Z ← NOT v[k], every other flag kept (R900). -/
def bitFlags (v : Long) (k : Nat) (old : Ccr) : Ccr := { old with z := !v.getLsbD k }

/-- BitOp(b, e, none) of R900. -/
def bitTest (xa : Long) (b : Long) (ea : EA) : Exec Unit := do
  let v ← readEA xa ea (bitSize ea)
  let f ← getFlags
  putFlags (bitFlags v (bitIndex ea b) f)

/-- BitOp(b, e, f) of R900. -/
def bitUpdate (op : Long → Nat → Long) (xa : Long) (b : Long) (ea : EA) : Exec Unit := do
  let l ← resolveEA xa ea (bitSize ea)
  let v ← readLoc l (bitSize ea)
  let f ← getFlags
  putFlags (bitFlags v (bitIndex ea b) f)
  writeLoc l (bitSize ea) (op v (bitIndex ea b))

/-- BTST Dn,<ea> (R901). -/
def execBtstDn (dn : Reg) (ea : EA) (s : State) : Out :=
  runInstr (.btstDn dn ea) (fun ia => do
    let b ← getD dn .l
    bitTest (firstExt ia) b ea) s

/-- BTST #n,<ea> (R902). -/
def execBtstImm (bit : BitVec 8) (ea : EA) (s : State) : Out :=
  runInstr (.btstImm bit ea) (fun ia => bitTest (extAfter ia 1) (bit.setWidth 32) ea) s

/-- BCHG Dn,<ea> (R903). -/
def execBchgDn (dn : Reg) (ea : EA) (s : State) : Out :=
  runInstr (.bchgDn dn ea) (fun ia => do
    let b ← getD dn .l
    bitUpdate changeBit (firstExt ia) b ea) s

/-- BCHG #n,<ea> (R904). -/
def execBchgImm (bit : BitVec 8) (ea : EA) (s : State) : Out :=
  runInstr (.bchgImm bit ea) (fun ia => bitUpdate changeBit (extAfter ia 1) (bit.setWidth 32) ea) s

/-- BCLR Dn,<ea> (R905). -/
def execBclrDn (dn : Reg) (ea : EA) (s : State) : Out :=
  runInstr (.bclrDn dn ea) (fun ia => do
    let b ← getD dn .l
    bitUpdate clearBit (firstExt ia) b ea) s

/-- BCLR #n,<ea> (R906). -/
def execBclrImm (bit : BitVec 8) (ea : EA) (s : State) : Out :=
  runInstr (.bclrImm bit ea) (fun ia => bitUpdate clearBit (extAfter ia 1) (bit.setWidth 32) ea) s

/-- BSET Dn,<ea> (R907). -/
def execBsetDn (dn : Reg) (ea : EA) (s : State) : Out :=
  runInstr (.bsetDn dn ea) (fun ia => do
    let b ← getD dn .l
    bitUpdate setBit (firstExt ia) b ea) s

/-- BSET #n,<ea> (R908). -/
def execBsetImm (bit : BitVec 8) (ea : EA) (s : State) : Out :=
  runInstr (.bsetImm bit ea) (fun ia => bitUpdate setBit (extAfter ia 1) (bit.setWidth 32) ea) s

end Sys2Proof.Machine
end

