-- ==== Sys2Proof/Machine/DataMovement.lean ====
section
/-! DEFINITION. The meanings of the data movement instructions (R500–R512). -/

namespace Sys2Proof.Machine

/-- MOVE (R501). -/
def execMove (sz : Size) (src dst : EA) (s : State) : Out :=
  runInstr (.move sz src dst) (fun ia => do
    let v ← readEA (firstExt ia) src sz
    writeEA (extAfter ia src.exts.length) dst sz v
    let f ← getFlags
    putFlags (logicFlags sz v f)) s

/-- MOVEA (R502). -/
def execMovea (sz : SizeWL) (ea : EA) (an : Reg) (s : State) : Out :=
  runInstr (.movea sz ea an) (fun ia => do
    let v ← readEA (firstExt ia) ea sz.toSize
    putA an (signExtendFrom sz.toSize v)) s

/-- MOVEQ (R503). -/
def execMoveq (imm : BitVec 8) (dn : Reg) (s : State) : Out :=
  runInstr (.moveq imm dn) (fun _ => do
    putD dn .l (sext8 imm)
    let f ← getFlags
    putFlags (logicFlags .l (sext8 imm) f)) s

/-- R15 down to R0, the order of a predecrement MOVEM (R504). -/
def movemDown : List RegR := [15, 14, 13, 12, 11, 10, 9, 8, 7, 6, 5, 4, 3, 2, 1, 0]

/-- R0 up to R15, the order of the other MOVEM forms (R504, R505). -/
def movemUp : List RegR := [0, 1, 2, 3, 4, 5, 6, 7, 8, 9, 10, 11, 12, 13, 14, 15]

/-- The predecrement store loop of R504: mask bit 15 − k is register R[k]; answers the final address. -/
def movemStoreDown (sz : Size) (mask : HWord) : List RegR → Long → Exec Long
  | [], a => return a
  | k :: rest, a =>
    if mask.getLsbD (15 - k.val) then do
      let v ← getR k
      memWrite (a - byteCount sz) sz (truncTo sz v)
      movemStoreDown sz mask rest (a - byteCount sz)
    else movemStoreDown sz mask rest a

/-- The control-mode store loop of R504: mask bit k is register R[k]. -/
def movemStoreUp (sz : Size) (mask : HWord) : List RegR → Long → Exec Unit
  | [], _ => return ()
  | k :: rest, a =>
    if mask.getLsbD k.val then do
      let v ← getR k
      memWrite a sz (truncTo sz v)
      movemStoreUp sz mask rest (a + byteCount sz)
    else movemStoreUp sz mask rest a

/-- The load loop of R505: a word is sign-extended to 32 bits; answers the final address. -/
def movemLoad (sz : Size) (sp : Space) (mask : HWord) : List RegR → Long → Exec Long
  | [], a => return a
  | k :: rest, a =>
    if mask.getLsbD k.val then do
      let v ← readMem a sp sz
      putR k (signExtendFrom sz v)
      movemLoad sz sp mask rest (a + byteCount sz)
    else movemLoad sz sp mask rest a

/-- The predecrement form of R504; the form with its base register in the list is refused on MC68020 and later (D26). -/
def movemToPredec (sz : Size) (mask : HWord) (r : Reg) : Exec Unit := do
  let m ← getModel
  if m.is020plus && mask.getLsbD (7 - r.val) then refuse .movemPredecBaseInList
  else do
    let a ← getA r
    let a' ← movemStoreDown sz mask movemDown a
    putA r a'

/-- MOVEM, registers to memory (R504). -/
def execMovemToMem (sz : SizeWL) (mask : BitVec 16) (ea : EA) (s : State) : Out :=
  runInstr (.movemToMem sz mask ea) (fun ia =>
    match ea with
    | .predec r => movemToPredec sz.toSize mask r
    | ea => do
      let a ← addrOf (extAfter ia 1) ea
      movemStoreUp sz.toSize mask movemUp a) s

/-- The postincrement form of R505: the final address wins over a loaded value (D26). -/
def movemFromPostinc (sz : Size) (mask : HWord) (r : Reg) : Exec Unit := do
  let a ← getA r
  let a' ← movemLoad sz .data mask movemUp a
  putA r a'

/-- The control form of R505. -/
def movemFromControl (sz : Size) (mask : HWord) (xa : Long) (ea : EA) : Exec Unit := do
  let a ← addrOf xa ea
  let _ ← movemLoad sz (if ea.isPcRel then .program else .data) mask movemUp a
  return ()

/-- MOVEM, memory to registers (R505). -/
def execMovemToReg (sz : SizeWL) (ea : EA) (mask : BitVec 16) (s : State) : Out :=
  runInstr (.movemToReg sz ea mask) (fun ia =>
    match ea with
    | .postinc r => movemFromPostinc sz.toSize mask r
    | ea => movemFromControl sz.toSize mask (extAfter ia 1) ea) s

/-- The bytes of a MOVEP load, at every second address, most significant first (R506). -/
def movepRead : Nat → Long → Long → Exec Long
  | 0, _, v => return v
  | n + 1, a, v => do
    let b ← memRead a .b
    movepRead n (a + 2) ((v <<< 8) ||| b)

/-- The bytes of a MOVEP store: the low 8·n bits of `v`, most significant first (R507). -/
def movepWrite : Nat → Long → Long → Exec Unit
  | 0, _, _ => return ()
  | n + 1, a, v => do
    memWrite a .b (truncTo .b (v >>> (8 * n)))
    movepWrite n (a + 2) v

/-- MOVEP, memory to register (R506). -/
def execMovepToReg (sz : SizeWL) (ay : Reg) (d : BitVec 16) (dx : Reg) (s : State) : Out :=
  runInstr (.movepToReg sz ay d dx) (fun _ => do
    let a ← getA ay
    let v ← movepRead sz.toSize.bytes (a + sext16 d) 0
    putD dx sz.toSize v) s

/-- MOVEP, register to memory (R507). -/
def execMovepToMem (sz : SizeWL) (dx : Reg) (ay : Reg) (d : BitVec 16) (s : State) : Out :=
  runInstr (.movepToMem sz dx ay d) (fun _ => do
    let a ← getA ay
    let v ← getD dx .l
    movepWrite sz.toSize.bytes (a + sext16 d) v) s

/-- LEA (R508). -/
def execLea (ea : EA) (an : Reg) (s : State) : Out :=
  runInstr (.lea ea an) (fun ia => do
    let a ← addrOf (firstExt ia) ea
    putA an a) s

/-- PEA (R509). -/
def execPea (ea : EA) (s : State) : Out :=
  runInstr (.pea ea) (fun ia => do
    let a ← addrOf (firstExt ia) ea
    push .l a) s

/-- EXG Dx,Dy (R510). -/
def execExgDD (dx dy : Reg) (s : State) : Out :=
  runInstr (.exgDD dx dy) (fun _ => do
    let t ← getD dx .l
    let u ← getD dy .l
    putD dx .l u
    putD dy .l t) s

/-- EXG Ax,Ay (R510). -/
def execExgAA (ax ay : Reg) (s : State) : Out :=
  runInstr (.exgAA ax ay) (fun _ => do
    let t ← getA ax
    let u ← getA ay
    putA ax u
    putA ay t) s

/-- EXG Dx,Ay (R510). -/
def execExgDA (dx ay : Reg) (s : State) : Out :=
  runInstr (.exgDA dx ay) (fun _ => do
    let t ← getD dx .l
    let u ← getA ay
    putD dx .l u
    putA ay t) s

/-- LINK (R511). -/
def execLink (an : Reg) (d : BitVec 16) (s : State) : Out :=
  runInstr (.link an d) (fun _ => do
    let v ← getA an
    push .l v
    let sp ← getA 7
    putA an sp
    let sp' ← getA 7
    putA 7 (sp' + sext16 d)) s

/-- UNLK (R512). -/
def execUnlk (an : Reg) (s : State) : Out :=
  runInstr (.unlk an) (fun _ => do
    let a ← getA an
    putA 7 a
    let v ← pop .l
    putA an v) s

end Sys2Proof.Machine
end

