-- ==== Sys2Proof/Machine/Decimal.lean ====
section
/-! DEFINITION. The meanings of the binary-coded decimal instructions (R1000–R1005). The result is written, then the flags
are set. N and V are drawn; with an operand that is not valid BCD the result and C are drawn too (D37;
log entry 14). -/

namespace Sys2Proof.Machine

/-- A decimal computation on valid operands: source, destination, X; the result and the decimal carry. -/
abbrev BcdOp : Type := Byte → Byte → Bool → Byte × Bool

/-- The result byte and carry of a decimal instruction (R1000): drawn when an operand is not valid BCD. -/
def bcdResult (op : BcdOp) (s d : Byte) (x : Bool) : Exec (Byte × Bool) :=
  if bcdValid s && bcdValid d then return op s d x
  else do
    let r ← drawByte
    let c ← drawBit
    return (r, c)

/-- BcdFlags(r, c) of R1000. -/
def putBcdFlags (r : Byte) (c : Bool) : Exec Unit := do
  let n ← drawBit
  let v ← drawBit
  let f ← getFlags
  putFlags (bcdFlags r c n v f)

/-- A decimal computation whose result goes to a location. -/
def bcdTo (op : BcdOp) (l : Loc) (s d : Long) : Exec Unit := do
  let f ← getFlags
  let rc ← bcdResult op (s.setWidth 8) (d.setWidth 8) f.x
  writeLoc l .b (rc.1.setWidth 32)
  putBcdFlags rc.1 rc.2

/-- The register form Dy,Dx (R1001, R1003). -/
def bcdReg (op : BcdOp) (dy dx : Reg) : Exec Unit := do
  let v ← getD dy .b
  let d ← getD dx .b
  bcdTo op (.regD dx) v d

/-- The memory form -(Ay),-(Ax) (R1002, R1004). -/
def bcdMem (op : BcdOp) (ay ax : Reg) : Exec Unit := do
  let as ← predecrement ay .b
  let v ← readMem as .data .b
  let ad ← predecrement ax .b
  let d ← readMem ad .data .b
  bcdTo op (.mem ad .data) v d

/-- ABCD Dy,Dx (R1001). -/
def execAbcdReg (dy dx : Reg) (s : State) : Out :=
  runInstr (.abcdReg dy dx) (fun _ => bcdReg abcdValue dy dx) s

/-- ABCD -(Ay),-(Ax) (R1002). -/
def execAbcdMem (ay ax : Reg) (s : State) : Out :=
  runInstr (.abcdMem ay ax) (fun _ => bcdMem abcdValue ay ax) s

/-- SBCD Dy,Dx (R1003). -/
def execSbcdReg (dy dx : Reg) (s : State) : Out :=
  runInstr (.sbcdReg dy dx) (fun _ => bcdReg sbcdValue dy dx) s

/-- SBCD -(Ay),-(Ax) (R1004). -/
def execSbcdMem (ay ax : Reg) (s : State) : Out :=
  runInstr (.sbcdMem ay ax) (fun _ => bcdMem sbcdValue ay ax) s

/-- NBCD (R1005): 0 − d − X. -/
def execNbcd (ea : EA) (s : State) : Out :=
  runInstr (.nbcd ea) (fun ia => do
    let l ← resolveEA (firstExt ia) ea .b
    let d ← readLoc l .b
    bcdTo sbcdValue l d 0) s

end Sys2Proof.Machine
end

