-- ==== Sys2Proof/Machine/Logical.lean ====
section
/-! DEFINITION. The meanings of the logical instructions (R700–R709): the result is written, then the flags are set. -/

namespace Sys2Proof.Machine

/-- Write a result to a location, then Logic(r, sz) (R500 (d)). -/
def writeThenLogic (l : Loc) (sz : Size) (r : Long) : Exec Unit := do
  writeLoc l sz r
  let f ← getFlags
  putFlags (logicFlags sz r f)

/-- A bitwise operation from an EA source into Dn (R701, R704). -/
def logicToDn (op : Long → Long → Long) (sz : Size) (xa : Long) (ea : EA) (dn : Reg) : Exec Unit := do
  let v ← readEA xa ea sz
  let d ← getD dn sz
  writeThenLogic (.regD dn) sz (op d v)

/-- A bitwise operation of a source value into an EA (R703, R706, R708). -/
def logicToEA (op : Long → Long → Long) (sz : Size) (xa : Long) (ea : EA) (v : Long) : Exec Unit := do
  let l ← resolveEA xa ea sz
  let d ← readLoc l sz
  writeThenLogic l sz (op d v)

/-- A bitwise operation from a data register into an EA (R702, R705, R707). -/
def logicFromDn (op : Long → Long → Long) (sz : Size) (xa : Long) (dn : Reg) (ea : EA) : Exec Unit := do
  let v ← getD dn sz
  logicToEA op sz xa ea v

/-- AND <ea>,Dn (R701). -/
def execAndEaDn (sz : Size) (ea : EA) (dn : Reg) (s : State) : Out :=
  runInstr (.andEaDn sz ea dn) (fun ia => logicToDn (· &&& ·) sz (firstExt ia) ea dn) s

/-- AND Dn,<ea> (R702). -/
def execAndDnEa (sz : Size) (dn : Reg) (ea : EA) (s : State) : Out :=
  runInstr (.andDnEa sz dn ea) (fun ia => logicFromDn (· &&& ·) sz (firstExt ia) dn ea) s

/-- ANDI (R703). -/
def execAndi (imm : Imm) (ea : EA) (s : State) : Out :=
  runInstr (.andi imm ea) (fun ia => logicToEA (· &&& ·) imm.size (extAfter ia imm.exts.length) ea imm.value) s

/-- OR <ea>,Dn (R704). -/
def execOrEaDn (sz : Size) (ea : EA) (dn : Reg) (s : State) : Out :=
  runInstr (.orEaDn sz ea dn) (fun ia => logicToDn (· ||| ·) sz (firstExt ia) ea dn) s

/-- OR Dn,<ea> (R705). -/
def execOrDnEa (sz : Size) (dn : Reg) (ea : EA) (s : State) : Out :=
  runInstr (.orDnEa sz dn ea) (fun ia => logicFromDn (· ||| ·) sz (firstExt ia) dn ea) s

/-- ORI (R706). -/
def execOri (imm : Imm) (ea : EA) (s : State) : Out :=
  runInstr (.ori imm ea) (fun ia => logicToEA (· ||| ·) imm.size (extAfter ia imm.exts.length) ea imm.value) s

/-- EOR Dn,<ea> (R707). -/
def execEorDnEa (sz : Size) (dn : Reg) (ea : EA) (s : State) : Out :=
  runInstr (.eorDnEa sz dn ea) (fun ia => logicFromDn (· ^^^ ·) sz (firstExt ia) dn ea) s

/-- EORI (R708). -/
def execEori (imm : Imm) (ea : EA) (s : State) : Out :=
  runInstr (.eori imm ea) (fun ia => logicToEA (· ^^^ ·) imm.size (extAfter ia imm.exts.length) ea imm.value) s

/-- NOT (R709). -/
def execNotEa (sz : Size) (ea : EA) (s : State) : Out :=
  runInstr (.notEa sz ea) (fun ia => do
    let l ← resolveEA (firstExt ia) ea sz
    let d ← readLoc l sz
    writeThenLogic l sz (truncTo sz (~~~d))) s

end Sys2Proof.Machine
end

