-- ==== Sys2Proof/Machine/ProgramControl.lean ====
section
/-! DEFINITION. The meanings of the program control instructions (R1100–R1113). -/

namespace Sys2Proof.Machine

/-- BranchDisp(IR, op) of R1100. -/
def branchOffset (d : BranchDisp) : Long :=
  match d with
  | .short b => sext8 b
  | .word w => sext16 w

/-- A branch target: relative to IA + 2 (R1100). -/
def branchTarget (ia offset : Long) : Long := ia + 2 + offset

/-- Push pc_next and go to a target (R1103, R1107). -/
def callTo (target : Long) : Exec Unit := do
  let p ← getPc
  push .l p
  putPc target

/-- A conditional branch (R1101). -/
def branchIf (cond : Cond) (target : Long) : Exec Unit := do
  let f ← getFlags
  if condHolds cond f then putPc target else return ()

/-- Bcc (R1101). -/
def execBcc (cond : Cond) (d : BranchDisp) (s : State) : Out :=
  runInstr (.bcc cond d) (fun ia => branchIf cond (branchTarget ia (branchOffset d))) s

/-- BRA (R1102). -/
def execBra (d : BranchDisp) (s : State) : Out :=
  runInstr (.bra d) (fun ia => putPc (branchTarget ia (branchOffset d))) s

/-- BSR (R1103). -/
def execBsr (d : BranchDisp) (s : State) : Out :=
  runInstr (.bsr d) (fun ia => callTo (branchTarget ia (branchOffset d))) s

/-- DBcc (R1104). -/
def execDbcc (cond : Cond) (dn : Reg) (d : BitVec 16) (s : State) : Out :=
  runInstr (.dbcc cond dn d) (fun ia => do
    let f ← getFlags
    if condHolds cond f then return ()
    else do
      let w ← getD dn .w
      let c := truncTo .w (w - 1)
      putD dn .w c
      if c = 0xFFFF then return () else putPc (branchTarget ia (sext16 d))) s

/-- Scc (R1105): the destination is not read (D28). -/
def execScc (cond : Cond) (ea : EA) (s : State) : Out :=
  runInstr (.scc cond ea) (fun ia => do
    let l ← resolveEA (firstExt ia) ea .b
    let f ← getFlags
    writeLoc l .b (if condHolds cond f then 0xFF else 0x00)) s

/-- JMP (R1106). -/
def execJmp (ea : EA) (s : State) : Out :=
  runInstr (.jmp ea) (fun ia => do
    let t ← addrOf (firstExt ia) ea
    putPc t) s

/-- JSR (R1107). -/
def execJsr (ea : EA) (s : State) : Out :=
  runInstr (.jsr ea) (fun ia => do
    let t ← addrOf (firstExt ia) ea
    callTo t) s

/-- RTS (R1108). -/
def execRts (s : State) : Out :=
  runInstr .rts (fun _ => do
    let t ← pop .l
    putPc t) s

/-- RTR (R1109). -/
def execRtr (s : State) : Out :=
  runInstr .rtr (fun _ => do
    let c ← pop .w
    update fun s => s.setCCR (c.setWidth 8)
    let t ← pop .l
    putPc t) s

/-- RTD (R1110). -/
def execRtd (d : BitVec 16) (s : State) : Out :=
  runInstr (.rtd d) (fun _ => do
    let t ← pop .l
    let sp ← getA 7
    putA 7 (sp + sext16 d)
    putPc t) s

/-- NOP (R1111). -/
def execNop (s : State) : Out := runInstr .nop (fun _ => return ()) s

/-- TST (R1112). -/
def execTst (sz : Size) (ea : EA) (s : State) : Out :=
  runInstr (.tst sz ea) (fun ia => do
    let v ← readEA (firstExt ia) ea sz
    let f ← getFlags
    putFlags (logicFlags sz v f)) s

/-- TAS (R1113): the flags are set before the write. -/
def execTas (ea : EA) (s : State) : Out :=
  runInstr (.tas ea) (fun ia => do
    let l ← resolveEA (firstExt ia) ea .b
    let v ← readLoc l .b
    let f ← getFlags
    putFlags (logicFlags .b v f)
    writeLoc l .b (v ||| 0x80)) s

end Sys2Proof.Machine
end

