-- ==== Sys2Proof/Machine/Mc68020Forms.lean ====
section
/-! DEFINITION. The meanings of the rows that exist on MC68020 and later only (R1226, R345, D1): on MC68000 and MC68010 they
take the illegal-instruction exception; on MC68020 and later the spec refuses them. `runInstr` does both from the row's
`models` column, and the handler, which no model reaches, refuses as R1226 writes it. -/

namespace Sys2Proof.Machine

/-- The pseudocode of R1226. -/
def refusedForm : Long → Exec Unit := fun _ => refuse .mc68020InstructionNotModelled

def execCas2W (s : State) : Out := runInstr .cas2W refusedForm s
def execCas2L (s : State) : Out := runInstr .cas2L refusedForm s
def execCmpiPcRel (sz : Size) (indexed : Bool) (s : State) : Out := runInstr (.cmpiPcRel sz indexed) refusedForm s
def execCmp2Chk2 (size2 : BitVec 2) (ea6 : BitVec 6) (s : State) : Out := runInstr (.cmp2Chk2 size2 ea6) refusedForm s
def execRtmCallm (bits : BitVec 6) (s : State) : Out := runInstr (.rtmCallm bits) refusedForm s
def execCas (size2 : BitVec 2) (ea6 : BitVec 6) (s : State) : Out := runInstr (.cas size2 ea6) refusedForm s
def execLinkL (an : Reg) (s : State) : Out := runInstr (.linkL an) refusedForm s
def execExtbL (dn : Reg) (s : State) : Out := runInstr (.extbL dn) refusedForm s
def execMulL (ea6 : BitVec 6) (s : State) : Out := runInstr (.mulL ea6) refusedForm s
def execDivL (ea6 : BitVec 6) (s : State) : Out := runInstr (.divL ea6) refusedForm s
def execTst020 (sz : Size) (ea6 : BitVec 6) (s : State) : Out := runInstr (.tst020 sz ea6) refusedForm s
def execChkL (dn : Reg) (ea6 : BitVec 6) (s : State) : Out := runInstr (.chkL dn ea6) refusedForm s
def execTrapcc (cond : Cond) (opmode : BitVec 3) (s : State) : Out := runInstr (.trapcc cond opmode) refusedForm s
def execPack (rx : Reg) (rm : Bool) (ry : Reg) (s : State) : Out := runInstr (.pack rx rm ry) refusedForm s
def execUnpk (rx : Reg) (rm : Bool) (ry : Reg) (s : State) : Out := runInstr (.unpk rx rm ry) refusedForm s
def execBitField (ty : BitVec 3) (ea6 : BitVec 6) (s : State) : Out := runInstr (.bitField ty ea6) refusedForm s

/-- Bcc.L, BRA.L, BSR.L (row 81): below MC68020 the row is skipped, and the word is the branch with the 8-bit
displacement −1 (R345, R1101, D30). -/
def execBccL (cond : Cond) (s : State) : Out :=
  runInstr (.bccL cond) (fun ia =>
    let target := branchTarget ia (sext8 0xFF)
    match cond with
    | .t => putPc target
    | .f => callTo target
    | cond => branchIf cond target) s

end Sys2Proof.Machine
end

