-- ==== Sys2Proof/Machine/ShiftRotate.lean ====
section
/-! DEFINITION. The meanings of the shift and rotate instructions (R800–R817). Iterate sets the flags before the result is
written (R800), so a failing write leaves them set (log entry 11). -/

namespace Sys2Proof.Machine

/-- The count of a register shift (R800): 1–8 from the opcode, or Dx mod 64. -/
def shiftCount (c : ShiftCount) (s : State) : Nat :=
  match c with
  | .imm q => if q = 0 then 8 else q.toNat
  | .reg n => (s.readD n).toNat % 64

/-- ShiftReg of R800. -/
def shiftReg (k : ShiftKind) (sz : Size) (c : ShiftCount) (dy : Reg) : Exec Unit := do
  let n ← look (shiftCount c)
  let v ← getD dy sz
  let f ← getFlags
  let a := shiftOp k sz v n f
  putFlags a.f
  putD dy sz a.r

/-- ShiftMem of R800: a word, by one. -/
def shiftMem (k : ShiftKind) (xa : Long) (ea : EA) : Exec Unit := do
  let l ← resolveEA xa ea .w
  let v ← readLoc l .w
  let f ← getFlags
  let a := shiftOp k .w v 1 f
  putFlags a.f
  writeLoc l .w a.r

/-- ASL, register (R801). -/
def execAslReg (sz : Size) (c : ShiftCount) (dy : Reg) (s : State) : Out :=
  runInstr (.aslReg sz c dy) (fun _ => shiftReg .asl sz c dy) s

/-- ASR, register (R802). -/
def execAsrReg (sz : Size) (c : ShiftCount) (dy : Reg) (s : State) : Out :=
  runInstr (.asrReg sz c dy) (fun _ => shiftReg .asr sz c dy) s

/-- ASL, memory (R803). -/
def execAslMem (ea : EA) (s : State) : Out :=
  runInstr (.aslMem ea) (fun ia => shiftMem .asl (firstExt ia) ea) s

/-- ASR, memory (R804). -/
def execAsrMem (ea : EA) (s : State) : Out :=
  runInstr (.asrMem ea) (fun ia => shiftMem .asr (firstExt ia) ea) s

/-- LSL, register (R805). -/
def execLslReg (sz : Size) (c : ShiftCount) (dy : Reg) (s : State) : Out :=
  runInstr (.lslReg sz c dy) (fun _ => shiftReg .lsl sz c dy) s

/-- LSR, register (R806). -/
def execLsrReg (sz : Size) (c : ShiftCount) (dy : Reg) (s : State) : Out :=
  runInstr (.lsrReg sz c dy) (fun _ => shiftReg .lsr sz c dy) s

/-- LSL, memory (R807). -/
def execLslMem (ea : EA) (s : State) : Out :=
  runInstr (.lslMem ea) (fun ia => shiftMem .lsl (firstExt ia) ea) s

/-- LSR, memory (R808). -/
def execLsrMem (ea : EA) (s : State) : Out :=
  runInstr (.lsrMem ea) (fun ia => shiftMem .lsr (firstExt ia) ea) s

/-- ROL, register (R809). -/
def execRolReg (sz : Size) (c : ShiftCount) (dy : Reg) (s : State) : Out :=
  runInstr (.rolReg sz c dy) (fun _ => shiftReg .rol sz c dy) s

/-- ROR, register (R810). -/
def execRorReg (sz : Size) (c : ShiftCount) (dy : Reg) (s : State) : Out :=
  runInstr (.rorReg sz c dy) (fun _ => shiftReg .ror sz c dy) s

/-- ROL, memory (R811). -/
def execRolMem (ea : EA) (s : State) : Out :=
  runInstr (.rolMem ea) (fun ia => shiftMem .rol (firstExt ia) ea) s

/-- ROR, memory (R812). -/
def execRorMem (ea : EA) (s : State) : Out :=
  runInstr (.rorMem ea) (fun ia => shiftMem .ror (firstExt ia) ea) s

/-- ROXL, register (R813). -/
def execRoxlReg (sz : Size) (c : ShiftCount) (dy : Reg) (s : State) : Out :=
  runInstr (.roxlReg sz c dy) (fun _ => shiftReg .roxl sz c dy) s

/-- ROXR, register (R814). -/
def execRoxrReg (sz : Size) (c : ShiftCount) (dy : Reg) (s : State) : Out :=
  runInstr (.roxrReg sz c dy) (fun _ => shiftReg .roxr sz c dy) s

/-- ROXL, memory (R815). -/
def execRoxlMem (ea : EA) (s : State) : Out :=
  runInstr (.roxlMem ea) (fun ia => shiftMem .roxl (firstExt ia) ea) s

/-- ROXR, memory (R816). -/
def execRoxrMem (ea : EA) (s : State) : Out :=
  runInstr (.roxrMem ea) (fun ia => shiftMem .roxr (firstExt ia) ea) s

/-- The halves of a longword exchanged (R817). -/
def swapHalves (v : Long) : Long := v.extractLsb' 0 16 ++ v.extractLsb' 16 16

/-- SWAP (R817). -/
def execSwap (dn : Reg) (s : State) : Out :=
  runInstr (.swap dn) (fun _ => do
    let d ← getD dn .l
    putD dn .l (swapHalves d)
    let f ← getFlags
    putFlags (logicFlags .l (swapHalves d) f)) s

end Sys2Proof.Machine
end

