-- ==== Sys2Proof/Machine/SystemControl.lean ====
section
/-! DEFINITION. The meanings of the system control, trap and breakpoint instructions (R1200–R1225). -/

namespace Sys2Proof.Machine

/-! ## The condition-code register -/

/-- SetCCR of a value computed from CCR (R1201–R1203). -/
def updateCcr (op : Byte → Byte) : Exec Unit := update fun s => s.setCCR (op (s.sr.extractLsb' 0 8))

/-- ANDI to CCR (R1201). -/
def execAndiToCcr (imm : BitVec 8) (s : State) : Out :=
  runInstr (.andiToCcr imm) (fun _ => updateCcr (· &&& imm)) s

/-- ORI to CCR (R1202). -/
def execOriToCcr (imm : BitVec 8) (s : State) : Out :=
  runInstr (.oriToCcr imm) (fun _ => updateCcr (· ||| imm)) s

/-- EORI to CCR (R1203). -/
def execEoriToCcr (imm : BitVec 8) (s : State) : Out :=
  runInstr (.eoriToCcr imm) (fun _ => updateCcr (· ^^^ imm)) s

/-- MOVE to CCR (R1204). -/
def execMoveToCcr (ea : EA) (s : State) : Out :=
  runInstr (.moveToCcr ea) (fun ia => do
    let v ← readEA (firstExt ia) ea .w
    update fun s => s.setCCR (v.setWidth 8)) s

/-- MOVE from CCR (R1205). -/
def execMoveFromCcr (ea : EA) (s : State) : Out :=
  runInstr (.moveFromCcr ea) (fun ia => do
    let l ← resolveEA (firstExt ia) ea .w
    let sr ← look State.sr
    writeLoc l .w ((sr.extractLsb' 0 8).setWidth 32)) s

/-! ## The status register -/

/-- SetSR of a value computed from the SR (R1206–R1208). -/
def updateSr (op : HWord → HWord) : Exec Unit := do
  let sr ← look State.sr
  setSR (op sr)

/-- ANDI to SR (R1206). -/
def execAndiToSr (imm : BitVec 16) (s : State) : Out :=
  runInstr (.andiToSr imm) (fun _ => updateSr (· &&& imm)) s

/-- ORI to SR (R1207). -/
def execOriToSr (imm : BitVec 16) (s : State) : Out :=
  runInstr (.oriToSr imm) (fun _ => updateSr (· ||| imm)) s

/-- EORI to SR (R1208). -/
def execEoriToSr (imm : BitVec 16) (s : State) : Out :=
  runInstr (.eoriToSr imm) (fun _ => updateSr (· ^^^ imm)) s

/-- MOVE to SR (R1209). -/
def execMoveToSr (ea : EA) (s : State) : Out :=
  runInstr (.moveToSr ea) (fun ia => do
    let v ← readEA (firstExt ia) ea .w
    setSR (v.setWidth 16)) s

/-- MOVE from SR (R1210). -/
def execMoveFromSr (ea : EA) (s : State) : Out :=
  runInstr (.moveFromSr ea) (fun ia => do
    let l ← resolveEA (firstExt ia) ea .w
    let sr ← look State.sr
    writeLoc l .w (sr.setWidth 32)) s

/-- MOVE An,USP (R1211). -/
def execMoveToUsp (an : Reg) (s : State) : Out :=
  runInstr (.moveToUsp an) (fun _ => do
    let a ← getA an
    update fun s => s.setUsp a) s

/-- MOVE USP,An (R1212). -/
def execMoveFromUsp (an : Reg) (s : State) : Out :=
  runInstr (.moveFromUsp an) (fun _ => do
    let u ← look State.usp
    putA an u) s

/-! ## Control registers and alternate spaces -/

/-- The registers MOVEC names, and the numbers it refuses or does not know (R122, D32). -/
inductive ControlReg where
  | sfc | dfc | usp | vbr
  | refused
  | unknown
  deriving DecidableEq, Repr

/-- ControlReg(c, MODEL) of R1213. -/
def controlReg (c : BitVec 12) (m : Model) : ControlReg :=
  if c = 0x000 then .sfc
  else if c = 0x001 then .dfc
  else if c = 0x800 then .usp
  else if c = 0x801 then .vbr
  else if m.is020plus ∧ (c = 0x002 ∨ c = 0x802 ∨ c = 0x803 ∨ c = 0x804) then .refused
  else if m = .mc68040 ∧ ((0x003 ≤ c.toNat ∧ c.toNat ≤ 0x007) ∨ (0x805 ≤ c.toNat ∧ c.toNat ≤ 0x807)) then .refused
  else .unknown

/-- MOVEC Rc,Rn (R1213). -/
def execMovecFrom (c : BitVec 12) (rn : RegR) (s : State) : Out :=
  runInstr (.movecFrom c rn) (fun ia => do
    let m ← getModel
    match controlReg c m with
    | .sfc => update fun s => s.writeR rn (s.sfc.setWidth 32)
    | .dfc => update fun s => s.writeR rn (s.dfc.setWidth 32)
    | .usp => update fun s => s.writeR rn s.usp
    | .vbr => update fun s => s.writeR rn s.vbr
    | .refused => refuse .controlRegisterNotModelled
    | .unknown => raise 4 ia none) s

/-- MOVEC Rn,Rc (R1214). -/
def execMovecTo (rn : RegR) (c : BitVec 12) (s : State) : Out :=
  runInstr (.movecTo rn c) (fun ia => do
    let m ← getModel
    let v ← getR rn
    match controlReg c m with
    | .sfc => update fun s => s.setSfc (v.setWidth 3)
    | .dfc => update fun s => s.setDfc (v.setWidth 3)
    | .usp => update fun s => s.setUsp v
    | .vbr => update fun s => s.setVbr v
    | .refused => refuse .controlRegisterNotModelled
    | .unknown => raise 4 ia none) s

/-- The EA of a MOVES store is (An)+ or -(An) with An the register stored (D44). -/
def movesSameRegister (rn : RegR) (ea : EA) : Bool :=
  match ea with
  | .postinc n | .predec n => rn.val == 8 + n.val
  | .dn _ | .an _ | .ind _ | .disp _ _ | .index _ _ | .absW _ | .absL _ | .pcDisp _ | .pcIndex _ | .imm _ => false

/-- The value a MOVES store writes: the register's, read before the EA's side effect, or a drawn one (D44). -/
def movesValue (sz : Size) (rn : RegR) (ea : EA) : Exec Long :=
  if movesSameRegister rn ea then do
    let v ← drawLong
    return truncTo sz v
  else do
    let v ← getR rn
    return truncTo sz v

/-- MOVES, register to memory, in the DFC space (R1215). -/
def movesStore (sz : Size) (rn : RegR) (xa : Long) (ea : EA) : Exec Unit := do
  let v ← movesValue sz rn ea
  let a ← memoryAddress xa ea sz
  let fc ← look State.dfc
  memWriteFC a sz fc v

/-- MOVES, memory to register, in the SFC space (R1215): a load into An is sign-extended. -/
def movesLoad (sz : Size) (rn : RegR) (xa : Long) (ea : EA) : Exec Unit := do
  let a ← memoryAddress xa ea sz
  let fc ← look State.sfc
  let v ← memReadFC a sz fc
  if rn.val < 8 then putD (lowReg rn) sz v else putR rn (signExtendFrom sz v)

/-- MOVES (R1215). -/
def execMoves (sz : Size) (toMem : Bool) (rn : RegR) (ea : EA) (s : State) : Out :=
  runInstr (.moves sz toMem rn ea) (fun ia =>
    if toMem then movesStore sz rn (extAfter ia 1) ea else movesLoad sz rn (extAfter ia 1) ea) s

/-! ## Processor control -/

/-- RESET (R1216): no effect on the block (D22). -/
def execReset (s : State) : Out := runInstr .reset (fun _ => return ()) s

/-- STOP (R1217). -/
def execStop (imm : BitVec 16) (s : State) : Out :=
  runInstr (.stop imm) (fun _ => do
    setSR imm
    update fun s => s.setCondition .stopped) s

/-- RTE (R1218). -/
def execRte (s : State) : Out := runInstr .rte (fun ia => returnFromException ia) s

/-! ## Traps -/

/-- TRAP (R1219): vector 32 + v, the stacked pc is the next instruction. -/
def execTrap (v : BitVec 4) (s : State) : Out :=
  runInstr (.trap v) (fun _ => do
    let p ← getPc
    raise (32 + v.toNat) p none) s

/-- TRAPV (R1220). -/
def execTrapv (s : State) : Out :=
  runInstr .trapv (fun ia => do
    let f ← getFlags
    let p ← getPc
    if f.v then raise 7 p (some ia) else return ()) s

/-- CHK.W (R1221): Z, V, C are drawn, and N too when Dn is within bounds (D37). -/
def execChkW (ea : EA) (dn : Reg) (s : State) : Out :=
  runInstr (.chkW ea dn) (fun ia => do
    let w ← readEA (firstExt ia) ea .w
    let d ← getD dn .w
    let z ← drawBit
    let v ← drawBit
    let c ← drawBit
    let f ← getFlags
    let p ← getPc
    if signed16 d < 0 then do
      putFlags { f with n := true, z := z, v := v, c := c }
      raise 6 p (some ia)
    else if signed16 w < signed16 d then do
      putFlags { f with n := false, z := z, v := v, c := c }
      raise 6 p (some ia)
    else do
      let n ← drawBit
      putFlags { f with n := n, z := z, v := v, c := c }) s

/-- ILLEGAL (R1222). -/
def execIllegal (s : State) : Out := runInstr .illegal (fun ia => raise 4 ia none) s

/-- BKPT (R1223). -/
def execBkpt (v : Fin 8) (s : State) : Out :=
  runInstr (.bkpt v) (fun _ => update fun s => s.setCondition (.breakpoint v)) s

/-- Line A (R1224). -/
def execLineA (bits : BitVec 12) (s : State) : Out := runInstr (.lineA bits) (fun ia => raise 10 ia none) s

/-- Line F (R1225): refused on MC68020 and later (D31). -/
def execLineF (bits : BitVec 12) (s : State) : Out :=
  runInstr (.lineF bits) (fun ia => do
    let m ← getModel
    if m.is020plus then refuse .coprocessorSpace else raise 11 ia none) s

end Sys2Proof.Machine
end

