-- ==== Sys2Proof/Machine/Dispatch.lean ====
section
/-! DEFINITION. One arm per constructor of `Instr`: the instruction's own meaning (R302). -/

namespace Sys2Proof.Machine

/-- The meaning of an instruction, from a state whose pc is the address of its opcode word. -/
def exec (i : Instr) (s : State) : Host.Outcome State Fault Refusal :=
  match i with
  | .oriToCcr imm => Sys2Proof.Machine.execOriToCcr imm s
  | .oriToSr imm => Sys2Proof.Machine.execOriToSr imm s
  | .andiToCcr imm => Sys2Proof.Machine.execAndiToCcr imm s
  | .andiToSr imm => Sys2Proof.Machine.execAndiToSr imm s
  | .eoriToCcr imm => Sys2Proof.Machine.execEoriToCcr imm s
  | .eoriToSr imm => Sys2Proof.Machine.execEoriToSr imm s
  | .cas2W => Sys2Proof.Machine.execCas2W s
  | .cas2L => Sys2Proof.Machine.execCas2L s
  | .movepToReg sz ay d dx => Sys2Proof.Machine.execMovepToReg sz ay d dx s
  | .movepToMem sz dx ay d => Sys2Proof.Machine.execMovepToMem sz dx ay d s
  | .btstDn dn ea => Sys2Proof.Machine.execBtstDn dn ea s
  | .bchgDn dn ea => Sys2Proof.Machine.execBchgDn dn ea s
  | .bclrDn dn ea => Sys2Proof.Machine.execBclrDn dn ea s
  | .bsetDn dn ea => Sys2Proof.Machine.execBsetDn dn ea s
  | .btstImm bit ea => Sys2Proof.Machine.execBtstImm bit ea s
  | .bchgImm bit ea => Sys2Proof.Machine.execBchgImm bit ea s
  | .bclrImm bit ea => Sys2Proof.Machine.execBclrImm bit ea s
  | .bsetImm bit ea => Sys2Proof.Machine.execBsetImm bit ea s
  | .ori imm ea => Sys2Proof.Machine.execOri imm ea s
  | .andi imm ea => Sys2Proof.Machine.execAndi imm ea s
  | .subi imm ea => Sys2Proof.Machine.execSubi imm ea s
  | .addi imm ea => Sys2Proof.Machine.execAddi imm ea s
  | .eori imm ea => Sys2Proof.Machine.execEori imm ea s
  | .cmpi imm ea => Sys2Proof.Machine.execCmpi imm ea s
  | .cmpiPcRel sz indexed => Sys2Proof.Machine.execCmpiPcRel sz indexed s
  | .moves sz toMem rn ea => Sys2Proof.Machine.execMoves sz toMem rn ea s
  | .cmp2Chk2 size2 ea6 => Sys2Proof.Machine.execCmp2Chk2 size2 ea6 s
  | .rtmCallm bits => Sys2Proof.Machine.execRtmCallm bits s
  | .cas size2 ea6 => Sys2Proof.Machine.execCas size2 ea6 s
  | .movea sz ea an => Sys2Proof.Machine.execMovea sz ea an s
  | .move sz src dst => Sys2Proof.Machine.execMove sz src dst s
  | .illegal => Sys2Proof.Machine.execIllegal s
  | .reset => Sys2Proof.Machine.execReset s
  | .nop => Sys2Proof.Machine.execNop s
  | .stop imm => Sys2Proof.Machine.execStop imm s
  | .rte => Sys2Proof.Machine.execRte s
  | .rtd d => Sys2Proof.Machine.execRtd d s
  | .rts => Sys2Proof.Machine.execRts s
  | .trapv => Sys2Proof.Machine.execTrapv s
  | .rtr => Sys2Proof.Machine.execRtr s
  | .movecFrom c rn => Sys2Proof.Machine.execMovecFrom c rn s
  | .movecTo rn c => Sys2Proof.Machine.execMovecTo rn c s
  | .trap v => Sys2Proof.Machine.execTrap v s
  | .link an d => Sys2Proof.Machine.execLink an d s
  | .unlk an => Sys2Proof.Machine.execUnlk an s
  | .moveToUsp an => Sys2Proof.Machine.execMoveToUsp an s
  | .moveFromUsp an => Sys2Proof.Machine.execMoveFromUsp an s
  | .jsr ea => Sys2Proof.Machine.execJsr ea s
  | .jmp ea => Sys2Proof.Machine.execJmp ea s
  | .swap dn => Sys2Proof.Machine.execSwap dn s
  | .bkpt v => Sys2Proof.Machine.execBkpt v s
  | .linkL an => Sys2Proof.Machine.execLinkL an s
  | .extW dn => Sys2Proof.Machine.execExtW dn s
  | .extL dn => Sys2Proof.Machine.execExtL dn s
  | .extbL dn => Sys2Proof.Machine.execExtbL dn s
  | .nbcd ea => Sys2Proof.Machine.execNbcd ea s
  | .pea ea => Sys2Proof.Machine.execPea ea s
  | .movemToMem sz mask ea => Sys2Proof.Machine.execMovemToMem sz mask ea s
  | .movemToReg sz ea mask => Sys2Proof.Machine.execMovemToReg sz ea mask s
  | .mulL ea6 => Sys2Proof.Machine.execMulL ea6 s
  | .divL ea6 => Sys2Proof.Machine.execDivL ea6 s
  | .moveFromSr ea => Sys2Proof.Machine.execMoveFromSr ea s
  | .negx sz ea => Sys2Proof.Machine.execNegx sz ea s
  | .moveFromCcr ea => Sys2Proof.Machine.execMoveFromCcr ea s
  | .clr sz ea => Sys2Proof.Machine.execClr sz ea s
  | .moveToCcr ea => Sys2Proof.Machine.execMoveToCcr ea s
  | .neg sz ea => Sys2Proof.Machine.execNeg sz ea s
  | .moveToSr ea => Sys2Proof.Machine.execMoveToSr ea s
  | .notEa sz ea => Sys2Proof.Machine.execNotEa sz ea s
  | .tas ea => Sys2Proof.Machine.execTas ea s
  | .tst sz ea => Sys2Proof.Machine.execTst sz ea s
  | .tst020 sz ea6 => Sys2Proof.Machine.execTst020 sz ea6 s
  | .chkW ea dn => Sys2Proof.Machine.execChkW ea dn s
  | .chkL dn ea6 => Sys2Proof.Machine.execChkL dn ea6 s
  | .lea ea an => Sys2Proof.Machine.execLea ea an s
  | .dbcc cond dn d => Sys2Proof.Machine.execDbcc cond dn d s
  | .trapcc cond opmode => Sys2Proof.Machine.execTrapcc cond opmode s
  | .scc cond ea => Sys2Proof.Machine.execScc cond ea s
  | .addq sz q ea => Sys2Proof.Machine.execAddq sz q ea s
  | .subq sz q ea => Sys2Proof.Machine.execSubq sz q ea s
  | .bccL cond => Sys2Proof.Machine.execBccL cond s
  | .bra d => Sys2Proof.Machine.execBra d s
  | .bsr d => Sys2Proof.Machine.execBsr d s
  | .bcc cond d => Sys2Proof.Machine.execBcc cond d s
  | .moveq imm dn => Sys2Proof.Machine.execMoveq imm dn s
  | .sbcdReg dy dx => Sys2Proof.Machine.execSbcdReg dy dx s
  | .sbcdMem ay ax => Sys2Proof.Machine.execSbcdMem ay ax s
  | .pack rx rm ry => Sys2Proof.Machine.execPack rx rm ry s
  | .unpk rx rm ry => Sys2Proof.Machine.execUnpk rx rm ry s
  | .divuW ea dn => Sys2Proof.Machine.execDivuW ea dn s
  | .divsW ea dn => Sys2Proof.Machine.execDivsW ea dn s
  | .orEaDn sz ea dn => Sys2Proof.Machine.execOrEaDn sz ea dn s
  | .orDnEa sz dn ea => Sys2Proof.Machine.execOrDnEa sz dn ea s
  | .subxReg sz dy dx => Sys2Proof.Machine.execSubxReg sz dy dx s
  | .subxMem sz ay ax => Sys2Proof.Machine.execSubxMem sz ay ax s
  | .suba sz ea an => Sys2Proof.Machine.execSuba sz ea an s
  | .subEaDn sz ea dn => Sys2Proof.Machine.execSubEaDn sz ea dn s
  | .subDnEa sz dn ea => Sys2Proof.Machine.execSubDnEa sz dn ea s
  | .lineA bits => Sys2Proof.Machine.execLineA bits s
  | .cmpm sz ay ax => Sys2Proof.Machine.execCmpm sz ay ax s
  | .cmpa sz ea an => Sys2Proof.Machine.execCmpa sz ea an s
  | .eorDnEa sz dn ea => Sys2Proof.Machine.execEorDnEa sz dn ea s
  | .cmpEaDn sz ea dn => Sys2Proof.Machine.execCmpEaDn sz ea dn s
  | .abcdReg dy dx => Sys2Proof.Machine.execAbcdReg dy dx s
  | .abcdMem ay ax => Sys2Proof.Machine.execAbcdMem ay ax s
  | .exgDD dx dy => Sys2Proof.Machine.execExgDD dx dy s
  | .exgAA ax ay => Sys2Proof.Machine.execExgAA ax ay s
  | .exgDA dx ay => Sys2Proof.Machine.execExgDA dx ay s
  | .muluW ea dn => Sys2Proof.Machine.execMuluW ea dn s
  | .mulsW ea dn => Sys2Proof.Machine.execMulsW ea dn s
  | .andEaDn sz ea dn => Sys2Proof.Machine.execAndEaDn sz ea dn s
  | .andDnEa sz dn ea => Sys2Proof.Machine.execAndDnEa sz dn ea s
  | .addxReg sz dy dx => Sys2Proof.Machine.execAddxReg sz dy dx s
  | .addxMem sz ay ax => Sys2Proof.Machine.execAddxMem sz ay ax s
  | .adda sz ea an => Sys2Proof.Machine.execAdda sz ea an s
  | .addEaDn sz ea dn => Sys2Proof.Machine.execAddEaDn sz ea dn s
  | .addDnEa sz dn ea => Sys2Proof.Machine.execAddDnEa sz dn ea s
  | .bitField ty ea6 => Sys2Proof.Machine.execBitField ty ea6 s
  | .asrMem ea => Sys2Proof.Machine.execAsrMem ea s
  | .aslMem ea => Sys2Proof.Machine.execAslMem ea s
  | .lsrMem ea => Sys2Proof.Machine.execLsrMem ea s
  | .lslMem ea => Sys2Proof.Machine.execLslMem ea s
  | .roxrMem ea => Sys2Proof.Machine.execRoxrMem ea s
  | .roxlMem ea => Sys2Proof.Machine.execRoxlMem ea s
  | .rorMem ea => Sys2Proof.Machine.execRorMem ea s
  | .rolMem ea => Sys2Proof.Machine.execRolMem ea s
  | .asrReg sz c dy => Sys2Proof.Machine.execAsrReg sz c dy s
  | .aslReg sz c dy => Sys2Proof.Machine.execAslReg sz c dy s
  | .lsrReg sz c dy => Sys2Proof.Machine.execLsrReg sz c dy s
  | .lslReg sz c dy => Sys2Proof.Machine.execLslReg sz c dy s
  | .roxrReg sz c dy => Sys2Proof.Machine.execRoxrReg sz c dy s
  | .roxlReg sz c dy => Sys2Proof.Machine.execRoxlReg sz c dy s
  | .rorReg sz c dy => Sys2Proof.Machine.execRorReg sz c dy s
  | .rolReg sz c dy => Sys2Proof.Machine.execRolReg sz c dy s
  | .lineF bits => Sys2Proof.Machine.execLineF bits s

end Sys2Proof.Machine
end

