-- ==== Sys2Proof/Machine/Execute.lean ====
section
/-! DEFINITION. One step's parts: the instruction fetch (R15, R221, R402), the dispatch of one instruction (R300), the reset
sequence (R1410), and the storing of an instruction's words where the next step fetches (log entry 7). -/

namespace Sys2Proof.Machine

/-- FetchWord of R15: program space, kind execute; an odd address is an address error on every model (R221). The pc
advances after a successful read only (R403). -/
def fetchWord : Exec HWord := fun s =>
  if s.pc.getLsbD 0 then addressError s
  else match translate s.cfg s.pc 2 s.progFC .execute with
    | none => busError s
    | some k => .ok ((Memory.readSized s.mem k .w).setWidth 16) (s.setPc (s.pc + 2))

/-- The next `n` words (R402). -/
def fetchWords : Nat → Exec (List HWord)
  | 0 => return []
  | n + 1 => do
    let w ← fetchWord
    let ws ← fetchWords n
    return w :: ws

/-- The opcode word, Decode (R303), and then the extension words of the row it takes (R305); none for an unassigned word,
whose extension words are not fetched (R340). The opcode word alone fixes how many there are (R310; log entry 12). -/
def fetchInstr : Exec (Option Instr) := do
  let m ← getModel
  let ir ← fetchWord
  match decode m ir [] with
  | .error _ => return none
  | .ok i =>
    let ws ← fetchWords (i.words - 1)
    match decode m ir ws with
    | .error _ => return none
    | .ok i => return some i

/-- The outcome of a step that ended before its handler. -/
def stopped (r : Stop) (t : State) : Out := finish (stopWith r) t

/-- ExecuteOne of R300. A meaning starts from the state whose pc is IA, and advances the pc itself (R108). -/
def executeOne (s : State) : Out :=
  if s.traced then .refused .traceNotModelled
  else
    match fetchInstr s with
    | .ok (some i) _ => exec i s
    | .ok none t => finish (illegalInstruction s.pc) t
    | .error r t => stopped r t

/-- SR[15:8] ← 0x27 (R1410). -/
def State.resetStatus (s : State) : State := s.setSrBits (0x2700#16 ||| (s.sr &&& 0x00FF))

/-- SSP ← v (R1410). -/
def State.setSsp (s : State) (v : Long) : State := { s with ssp := v }

/-- ResetSequence of R1410. -/
def resetSequence : Exec Unit := do
  update State.resetStatus
  update fun s => if s.model.is010plus then s.setVbr 0 else s
  let sp ← memReadFC 0 .l 6
  let p ← memReadFC 4 .l 6
  update fun s => s.setSsp sp
  putPc p
  update fun s => s.setCondition .normal

/-- A word is stored at the place the fetch at `addr` reads. -/
def State.storeFetched (s : State) (addr : Long) (w : HWord) : State :=
  match translate s.cfg addr 2 s.progFC .execute with
  | none => s
  | some k => s.setMem (Memory.writeSized s.mem k .w (w.setWidth 32))

/-- Words are stored at the places the fetches from `addr` on read. -/
def State.storeWords (s : State) (addr : Long) : List HWord → State
  | [] => s
  | w :: ws => (s.storeFetched addr w).storeWords (addr + 2) ws

end Sys2Proof.Machine
end

