-- ==== Sys2Proof/Machine/Step.lean ====
section
/-! DEFINITION. The single-step operation (R1402). -/

namespace Sys2Proof.Machine

/-- Step() of R1402. -/
def step (s : State) : Host.Outcome State Fault Refusal :=
  match s.condition with
  | .startup => finish resetSequence s
  | .normal => executeOne s
  | .finished | .halted | .stopped | .breakpoint _ => .next s

/-- The instruction `w`, `nbits` long, stored at the pc, zeros after it, in a processor that is to execute it (R1402: the
condition is normal). Log entry 7. -/
def State.withFetchWord (s : State) (nbits w : Nat) : State :=
  (s.setCondition .normal).storeWords s.pc (wordsOfNumber nbits w)

end Sys2Proof.Machine
end

