-- ==== Sys2Proof/Machine/HostOps.lean ====
section
/-! DEFINITION. The host's other operations, made between steps (R1400–R1407), and several processors over one memory
(R261, R1352). None is part of `step` (log entries 15 and 16). -/

namespace Sys2Proof.Machine

/-- Construct(MODEL, M) of R1401: the regions, their contents and the parameters are the host's. -/
def construct (cfg : Config) (mem : Memory) : State := State.constructed cfg mem

/-- Wake() of R1405. -/
def wake (s : State) : State :=
  match s.condition with
  | .stopped => s.setCondition .normal
  | .startup | .normal | .finished | .halted | .breakpoint _ => s

/-- Resume() of R1406. -/
def resume (s : State) : State :=
  match s.condition with
  | .breakpoint _ => s.setCondition .normal
  | .startup | .normal | .finished | .halted | .stopped => s

/-- The cell of byte `off` of region number `k`, when the region has that byte (R1404). -/
def hostCell (s : State) (k off : Nat) : Option Nat :=
  match s.cfg.regions[k]? with
  | some r => if off < r.size then some (cellOf k (r.start + off)) else none
  | none => none

/-- The host reads a byte of a region's storage (R1404). -/
def hostRead (s : State) (k off : Nat) : Option Byte := (hostCell s k off).map (Memory.read s.mem)

/-- The host writes a byte of a region's storage (R1404). -/
def hostWrite (s : State) (k off : Nat) (v : Byte) : State :=
  match hostCell s k off with
  | some c => s.setMem (Memory.write s.mem c v)
  | none => s

/-- Processors that share one memory subsystem (R261). Each keeps its own registers; `mem` is the memory of all of them. -/
structure Cluster where
  mem  : Memory
  cpus : List State
  deriving DecidableEq, Repr

/-- One whole step of processor `k`: it sees every step run before it (R261). The host serializes the steps. -/
def Cluster.step (c : Cluster) (k : Nat) : Option (Host.Outcome Cluster Fault Refusal) :=
  match c.cpus[k]? with
  | none => none
  | some s =>
    some (match Machine.step (s.setMem c.mem) with
      | .next t => .next { mem := t.mem, cpus := c.cpus.set k t }
      | .fault r => .fault r
      | .refused r => .refused r)

end Sys2Proof.Machine
end

