-- ==== Sys2Proof/Safety.lean ====
section
/-! DEFINITION. What a claim about a state, an instruction or a run may speak of: the invariant of the machine; what of one
state is found unchanged in another; which registers, flags and bytes an instruction may write, as its rule says. -/

namespace Sys2Proof.Machine

/-! ## The invariant -/

/-- The unimplemented bits of the SR read 0 (R110, R112). -/
def State.srLegal (s : State) : Bool := s.sr &&& ~~~srImplemented s.model == 0

/-- A cell number is that of a byte of some region (R201). -/
def cellExists (c : Config) (k : Nat) : Bool :=
  match c.regions[k / 2 ^ 32]? with
  | some r => decide (r.start ≤ k % 2 ^ 32) && decide (k % 2 ^ 32 < r.start + r.size)
  | none => false

/-- Every byte the memory lists is a byte of some region: nothing is stored outside the regions. -/
def State.memoryInRegions (s : State) : Bool := s.mem.all fun c => cellExists s.cfg c.1

/-- What every step keeps: the regions are as R201 bounds them, the memory is in its canonical form and inside the regions,
and the unimplemented bits of the SR are 0. -/
def State.Inv (s : State) : Prop :=
  s.cfg.ok = true ∧ Memory.wf s.mem = true ∧ s.memoryInRegions = true ∧ s.srLegal = true

/-! ## Comparing two states -/

/-- The upper byte of the SR (R111). -/
def State.systemByte (s : State) : BitVec 8 := s.sr.extractLsb' 8 8

/-- The configuration and the control registers VBR, SFC and DFC of `t` are those of `s`. -/
def State.sameControl (s t : State) : Prop := t.cfg = s.cfg ∧ t.vbr = s.vbr ∧ t.sfc = s.sfc ∧ t.dfc = s.dfc

/-- Every byte of memory reads as before. -/
def State.sameMemory (s t : State) : Prop := ∀ c, Memory.read t.mem c = Memory.read s.mem c

/-- Every byte of memory reads as before, but for those of a data access of size `sz` at `addr` (R206, R210). -/
def State.sameMemoryBut (s : State) (addr : Long) (sz : Size) (fc : BitVec 3) (t : State) : Prop :=
  ∀ c, (∀ k, translate s.cfg addr sz.bytes fc .write = some k → c < k ∨ k + sz.bytes ≤ c) →
    Memory.read t.mem c = Memory.read s.mem c

/-- The stack pointer that A7 does not denote (R105). -/
def State.inactiveSp (s : State) : Long := if s.supervisor then s.usp else s.ssp

/-- Every register R[k] outside a list is as before, and the inactive stack pointer. -/
def State.sameRegistersBut (s : State) (ks : List RegR) (t : State) : Prop :=
  (∀ k : RegR, k ∉ ks → t.readR k = s.readR k) ∧ t.inactiveSp = s.inactiveSp

/-- The state in which an instruction's handler runs: the pc is past its words (R300, R402). -/
def State.pastWords (s : State) (i : Instr) : State := s.setPc (pcNext i s.pc)

/-- The words `ws` lie where the state's fetches from `addr` on read them (R231). -/
def State.holdsWords (s : State) (addr : Long) : List HWord → Prop
  | [] => True
  | w :: ws =>
    (∃ k, translate s.cfg addr 2 s.progFC .execute = some k ∧ (Memory.readSized s.mem k .w).setWidth 16 = w) ∧
      s.holdsWords (addr + 2) ws

/-! ## Memory accesses and operands, as functions of the state

What the primitives of R15, R16, R418 and R419 do when nothing stops them, and when nothing stops them. -/

/-- A read at `addr` is neither misaligned nor untranslatable (R210, R220). -/
def State.canRead (s : State) (addr : Long) (sz : Size) (fc : BitVec 3) : Bool :=
  !misaligned s.model sz addr && (translate s.cfg addr sz.bytes fc .read).isSome

/-- A write at `addr` is neither misaligned nor untranslatable (R210, R220). -/
def State.canWrite (s : State) (addr : Long) (sz : Size) (fc : BitVec 3) : Bool :=
  !misaligned s.model sz addr && (translate s.cfg addr sz.bytes fc .write).isSome

/-- What a read at `addr` gives (R15). -/
def State.valueAt (s : State) (addr : Long) (sz : Size) (fc : BitVec 3) : Long :=
  match translate s.cfg addr sz.bytes fc .read with
  | some k => Memory.readSized s.mem k sz
  | none => 0

/-- The state after a write at `addr` (R15). -/
def State.stored (s : State) (addr : Long) (sz : Size) (fc : BitVec 3) (v : Long) : State :=
  match translate s.cfg addr sz.bytes fc .write with
  | some k => s.setMem (Memory.writeSized s.mem k sz v)
  | none => s

/-- A push of the size succeeds (R16). -/
def State.canPush (s : State) (sz : Size) : Bool := s.canWrite (s.readA 7 - byteCount sz) sz s.dataFC

/-- The state after a push (R16). -/
def State.pushed (s : State) (sz : Size) (v : Long) : State :=
  (s.writeA 7 (s.readA 7 - byteCount sz)).stored (s.readA 7 - byteCount sz) sz s.dataFC v

/-- A pop of the size succeeds (R16). -/
def State.canPop (s : State) (sz : Size) : Bool := s.canRead (s.readA 7) sz s.dataFC

/-- What a pop gives, and the state after it (R16). -/
def State.top (s : State) (sz : Size) : Long := s.valueAt (s.readA 7) sz s.dataFC
def State.popped (s : State) (sz : Size) : State := s.writeA 7 (s.readA 7 + byteCount sz)

/-- The value of an index register: a word sign-extended or a longword, scaled on MC68020 and later (R415, R416). -/
def State.indexOf (s : State) (x : IndexExt) : Long :=
  let v := if x.long then s.readR x.xn else signExtendFrom .w (s.readR x.xn)
  if s.model.is020plus then v <<< x.scale.toNat else v

/-- The operand has no full-format extension word on MC68020 and later (R417). -/
def State.resolves (s : State) : EA → Bool
  | .index _ x | .pcIndex x => !(s.model.is020plus && x.full)
  | .dn _ | .an _ | .ind _ | .postinc _ | .predec _ | .disp _ _ | .absW _ | .absL _ | .pcDisp _ | .imm _ => true

/-- The address of a memory operand (R418); 0 for an operand that has none. -/
def State.address (s : State) (xa : Long) (e : EA) (sz : Size) : Long :=
  match e with
  | .ind n | .postinc n => s.readA n
  | .predec n => s.readA n - eaStep n sz
  | .disp n d => s.readA n + sext16 d
  | .index n x => s.readA n + sext8 x.disp + s.indexOf x
  | .absW a => sext16 a
  | .absL a => a
  | .pcDisp d => xa + sext16 d
  | .pcIndex x => xa + sext8 x.disp + s.indexOf x
  | .dn _ | .an _ | .imm _ => 0

/-- What an operand resolves to (R418). -/
def State.location (s : State) (xa : Long) (e : EA) (sz : Size) : Loc :=
  match e with
  | .dn n => .regD n
  | .an n => .regA n
  | .imm v => .imm v.value
  | .pcDisp _ | .pcIndex _ => .mem (s.address xa e sz) .program
  | .ind _ | .postinc _ | .predec _ | .disp _ _ | .index _ _ | .absW _ | .absL _ => .mem (s.address xa e sz) .data

/-- The state after an operand is resolved: (An)+ and -(An) have moved An (R414). -/
def State.afterEA (s : State) (e : EA) (sz : Size) : State :=
  match e with
  | .postinc n => s.writeA n (s.readA n + eaStep n sz)
  | .predec n => s.writeA n (s.readA n - eaStep n sz)
  | .dn _ | .an _ | .ind _ | .disp _ _ | .index _ _ | .absW _ | .absL _ | .pcDisp _ | .pcIndex _ | .imm _ => s

/-- The function code of a space (R203, R206). -/
def State.spaceFC (s : State) : Space → BitVec 3
  | .data => s.dataFC
  | .program => s.progFC

/-- A location can be read, and what a read of it gives (R419). -/
def State.canReadLoc (s : State) (l : Loc) (sz : Size) : Bool :=
  match l with
  | .mem a sp => s.canRead a sz (s.spaceFC sp)
  | .regD _ | .regA _ | .imm _ => true

def State.valueOf (s : State) (l : Loc) (sz : Size) : Long :=
  match l with
  | .regD n => truncTo sz (s.readD n)
  | .regA n => truncTo sz (s.readA n)
  | .mem a sp => s.valueAt a sz (s.spaceFC sp)
  | .imm v => v

/-- A location can be written, and the state after a write of it (R419). -/
def State.canWriteLoc (s : State) (l : Loc) (sz : Size) : Bool :=
  match l with
  | .regD _ | .regA _ => true
  | .mem a .data => s.canWrite a sz s.dataFC
  | .mem _ .program | .imm _ => false

def State.putLoc (s : State) (l : Loc) (sz : Size) (v : Long) : State :=
  match l with
  | .regD n => s.setD n sz v
  | .regA n => s.writeA n v
  | .mem a .data => s.stored a sz s.dataFC v
  | .mem _ .program | .imm _ => s

/-- A source operand can be resolved and read; its value (R420). -/
def State.canReadEA (s : State) (xa : Long) (e : EA) (sz : Size) : Bool :=
  s.resolves e && s.canReadLoc (s.location xa e sz) sz

def State.operand (s : State) (xa : Long) (e : EA) (sz : Size) : Long :=
  (s.afterEA e sz).valueOf (s.location xa e sz) sz

/-- An operand can be resolved and written. -/
def State.canWriteEA (s : State) (xa : Long) (e : EA) (sz : Size) : Bool :=
  s.resolves e && s.canWriteLoc (s.location xa e sz) sz

/-- An operand that is read and then written can be resolved, read and written. -/
def State.canUpdate (s : State) (xa : Long) (e : EA) (sz : Size) : Bool :=
  s.resolves e && s.canReadLoc (s.location xa e sz) sz && s.canWriteLoc (s.location xa e sz) sz

/-- The state after an operand is resolved, a result written to it, and the flags set. -/
def State.updated (s : State) (xa : Long) (e : EA) (sz : Size) (a : Alu) : State :=
  ((s.afterEA e sz).putLoc (s.location xa e sz) sz a.r).setFlags a.f

/-- The state after a result is written to D[n] and the flags set. -/
def State.resultTo (s : State) (n : Reg) (sz : Size) (a : Alu) : State := (s.setD n sz a.r).setFlags a.f

/-- A decimal result and carry, drawn when an operand is not valid BCD (R1000), and the state after the draws. -/
def State.decimal (s : State) (op : BcdOp) (src dst : Byte) : (Byte × Bool) × State :=
  if bcdValid src && bcdValid dst then (op src dst s.ccr.x, s)
  else ((Config.freeByte s.draws, Config.freeBit (s.draws + 1)), s.countDraw.countDraw)

/-- The state after the flags of a decimal result are set; N and V are drawn (R1000). -/
def State.decimalFlags (s : State) (r : Byte × Bool) : State :=
  s.countDraw.countDraw.setFlags (bcdFlags r.1 r.2 (Config.freeBit s.draws) (Config.freeBit (s.draws + 1)) s.ccr)

/-- Registers stored one below the other, the first highest, from just below `a` (R504): the stores succeed, and the state
after them. -/
def State.canStoreDown (s : State) (sz : Size) : List RegR → Long → Bool
  | [], _ => true
  | _ :: ks, a => s.canWrite (a - byteCount sz) sz s.dataFC && s.canStoreDown sz ks (a - byteCount sz)

def State.storedDown (s : State) (sz : Size) : List RegR → Long → State
  | [], _ => s
  | k :: ks, a =>
    (s.stored (a - byteCount sz) sz s.dataFC (truncTo sz (s.readR k))).storedDown sz ks (a - byteCount sz)

/-- Registers stored one above the other, the first lowest, from `a` on (R504). -/
def State.canStoreUp (s : State) (sz : Size) : List RegR → Long → Bool
  | [], _ => true
  | _ :: ks, a => s.canWrite a sz s.dataFC && s.canStoreUp sz ks (a + byteCount sz)

def State.storedUp (s : State) (sz : Size) : List RegR → Long → State
  | [], _ => s
  | k :: ks, a => (s.stored a sz s.dataFC (truncTo sz (s.readR k))).storedUp sz ks (a + byteCount sz)

/-- Registers loaded from memory, the first lowest, from `a` on; words are sign-extended (R505). -/
def State.canLoadUp (s : State) (sz : Size) (sp : Space) : List RegR → Long → Bool
  | [], _ => true
  | _ :: ks, a => s.canRead a sz (s.spaceFC sp) && s.canLoadUp sz sp ks (a + byteCount sz)

def State.loadedUp (s : State) (sz : Size) (sp : Space) : List RegR → Long → State
  | [], _ => s
  | k :: ks, a =>
    (s.writeR k (signExtendFrom sz (s.valueAt a sz (s.spaceFC sp)))).loadedUp sz sp ks (a + byteCount sz)

/-- The registers a MOVEM mask names: bit k is R[k] (R504, R505); in the mask of a predecrement store bit 15 − k is R[k],
and the list runs down (R504). -/
def maskRegs (mask : HWord) : List RegR := movemUp.filter fun k => mask.getLsbD k.val
def maskRegsDown (mask : HWord) : List RegR := movemDown.filter fun k => mask.getLsbD (15 - k.val)

/-! ## Taking an exception, as a function of the state -/

/-- What a frame holds, in the order of its pushes (R1310, R1312): on MC68000 the pc and the SR; on later models the
format/vector word comes first, and on MC68020 and later a format-2 frame begins with the instruction's address. -/
def frameOf (m : Model) (vec : Nat) (p : Long) (ia : Option Long) (old : HWord) : List (Size × Long) :=
  if m.is000 then [(.l, p), (.w, old.setWidth 32)]
  else match m.is020plus, ia with
    | true, some a => [(.l, a), (.w, formatWord 2 vec), (.l, p), (.w, old.setWidth 32)]
    | _, _ => [(.w, formatWord 0 vec), (.l, p), (.w, old.setWidth 32)]

/-- Pushes, one after the other. -/
def State.pushedAll (s : State) (vs : List (Size × Long)) : State := vs.foldl (fun s v => s.pushed v.1 v.2) s

def State.canPushAll (s : State) : List (Size × Long) → Bool
  | [] => true
  | v :: vs => s.canPush v.1 && (s.pushed v.1 v.2).canPushAll vs

/-- The SR of a handler: S set, T1 and T0 clear, the rest kept (R1310, R112). -/
def State.handlerSr (s : State) : HWord := ((s.sr ||| 0x2000) &&& 0x3FFF) &&& srImplemented s.model

/-- The state with the handler's SR, and the frame pushed on the supervisor stack. -/
def State.framed (s : State) (vec : Nat) (p : Long) (ia : Option Long) : State :=
  (s.setSrBits s.handlerSr).pushedAll (frameOf s.model vec p ia s.sr)

/-- TakeException(vec, p, ia) of R1310: the state in which the handler starts. -/
def State.entered (s : State) (vec : Nat) (p : Long) (ia : Option Long) : State :=
  (s.framed vec p ia).setPc ((s.framed vec p ia).valueAt (s.vectorAddress vec) .l 5)

/-- Nothing stops the entry: exceptions vector, the master stack is not asked for, the frame can be written and the vector
read. -/
def State.canEnter (s : State) (vec : Nat) (p : Long) (ia : Option Long) : Bool :=
  s.cfg.exceptionMode == .vector && !srRefused s.model ((s.sr ||| 0x2000) &&& 0x3FFF) &&
    (s.setSrBits s.handlerSr).canPushAll (frameOf s.model vec p ia s.sr) &&
    s.canRead (s.vectorAddress vec) .l 5

/-! ## What an instruction may write -/

end Sys2Proof.Machine

namespace Sys2Proof

open Machine

/-- D[n] and A[n] as register designations (R14). -/
def dataReg (n : Reg) : RegR := ⟨n.val, by omega⟩
def addrReg (n : Reg) : RegR := ⟨8 + n.val, by omega⟩

/-- The registers an addressing mode updates (R414). -/
def EA.updates : EA → List RegR
  | .postinc n | .predec n => [addrReg n]
  | .dn _ | .an _ | .ind _ | .disp _ _ | .index _ _ | .absW _ | .absL _ | .pcDisp _ | .pcIndex _ | .imm _ => []

/-- The registers an operand written to changes: the register it is, or the one its mode updates. -/
def EA.written : EA → List RegR
  | .dn n => [dataReg n]
  | .an n => [addrReg n]
  | .postinc n => [addrReg n]
  | .predec n => [addrReg n]
  | .ind _ | .disp _ _ | .index _ _ | .absW _ | .absL _ | .pcDisp _ | .pcIndex _ | .imm _ => []

/-- The general registers the rule of an instruction lets it write: its destination, the register an addressing mode updates,
the stack pointer of a push or pop. An exception that the instruction takes is not meant. -/
def Instr.writes : Instr → List RegR
  | .oriToCcr _ | .andiToCcr _ | .eoriToCcr _ | .oriToSr _ | .andiToSr _ | .eoriToSr _ => []
  | .cas2W | .cas2L | .cmpiPcRel _ _ | .cmp2Chk2 _ _ | .rtmCallm _ | .cas _ _ => []
  | .movepToReg _ _ _ dx => [dataReg dx]
  | .movepToMem _ _ _ _ => []
  | .btstDn _ e | .btstImm _ e => e.updates
  | .bchgDn _ e | .bclrDn _ e | .bsetDn _ e | .bchgImm _ e | .bclrImm _ e | .bsetImm _ e => e.written
  | .ori _ e | .andi _ e | .subi _ e | .addi _ e | .eori _ e => e.written
  | .cmpi _ e => e.updates
  | .moves _ toMem rn e => if toMem then e.updates else rn :: e.updates
  | .movea _ e an => addrReg an :: e.updates
  | .move _ src dst => src.updates ++ dst.written
  | .illegal | .reset | .nop | .stop _ | .trapv | .trap _ => []
  | .rte | .rtd _ | .rts | .rtr => [addrReg 7]
  | .movecFrom _ rn => [rn]
  | .movecTo _ _ => []
  | .link an _ | .unlk an => [addrReg an, addrReg 7]
  | .moveToUsp _ => []
  | .moveFromUsp an => [addrReg an]
  | .jsr _ | .pea _ | .bsr _ => [addrReg 7]
  | .jmp _ | .bkpt _ | .linkL _ | .extbL _ => []
  | .swap dn | .extW dn | .extL dn => [dataReg dn]
  | .nbcd e => e.written
  | .movemToMem _ _ e => e.updates
  | .movemToReg _ e mask => maskRegs mask ++ e.updates
  | .mulL _ | .divL _ => []
  | .moveFromSr e | .moveFromCcr e => e.written
  | .negx _ e | .clr _ e | .neg _ e | .notEa _ e => e.written
  | .moveToCcr e | .moveToSr e => e.updates
  | .tas e => e.written
  | .tst _ e => e.updates
  | .tst020 _ _ | .chkL _ _ => []
  | .chkW e _ => e.updates
  | .lea _ an => [addrReg an]
  | .dbcc _ dn _ => [dataReg dn]
  | .bccL .f => [addrReg 7]
  | .trapcc _ _ | .bccL _ | .bra _ | .bcc _ _ => []
  | .scc _ e => e.written
  | .addq _ _ e | .subq _ _ e => e.written
  | .moveq _ dn => [dataReg dn]
  | .sbcdReg _ dx | .abcdReg _ dx => [dataReg dx]
  | .sbcdMem ay ax | .abcdMem ay ax => [addrReg ay, addrReg ax]
  | .pack _ _ _ | .unpk _ _ _ => []
  | .divuW e dn | .divsW e dn | .muluW e dn | .mulsW e dn => dataReg dn :: e.updates
  | .orEaDn _ e dn | .andEaDn _ e dn | .addEaDn _ e dn | .subEaDn _ e dn => dataReg dn :: e.updates
  | .orDnEa _ _ e | .andDnEa _ _ e | .addDnEa _ _ e | .subDnEa _ _ e | .eorDnEa _ _ e => e.written
  | .subxReg _ _ dx | .addxReg _ _ dx => [dataReg dx]
  | .subxMem _ ay ax | .addxMem _ ay ax | .cmpm _ ay ax => [addrReg ay, addrReg ax]
  | .suba _ e an | .adda _ e an => addrReg an :: e.updates
  | .lineA _ | .lineF _ | .bitField _ _ => []
  | .cmpa _ e _ | .cmpEaDn _ e _ => e.updates
  | .exgDD dx dy => [dataReg dx, dataReg dy]
  | .exgAA ax ay => [addrReg ax, addrReg ay]
  | .exgDA dx ay => [dataReg dx, addrReg ay]
  | .asrMem e | .aslMem e | .lsrMem e | .lslMem e | .roxrMem e | .roxlMem e | .rorMem e | .rolMem e => e.written
  | .asrReg _ _ dy | .aslReg _ _ dy | .lsrReg _ _ dy | .lslReg _ _ dy => [dataReg dy]
  | .roxrReg _ _ dy | .roxlReg _ _ dy | .rorReg _ _ dy | .rolReg _ _ dy => [dataReg dy]

/-- The instruction takes an exception in its handler, always or on some operands (R1314). -/
def Instr.traps : Instr → Bool
  | .trap _ | .trapv | .chkW _ _ | .divuW _ _ | .divsW _ _ | .illegal | .lineA _ | .lineF _ | .rte => true
  | .movecFrom _ _ | .movecTo _ _ => true
  | _ => false

/-- The instruction writes the whole SR (R112), and with it the A7 alias. -/
def Instr.writesSr : Instr → Bool
  | .oriToSr _ | .andiToSr _ | .eoriToSr _ | .moveToSr _ | .stop _ | .rte => true
  | _ => false

/-- The instruction writes USP by name (R106). -/
def Instr.writesUsp : Instr → Bool
  | .moveToUsp _ | .movecTo _ _ => true
  | _ => false

/-- The instruction leaves every flag as it is: the last row of R117, but for those that take an exception. -/
def Instr.keepsFlags : Instr → Bool
  | .movea _ _ _ | .adda _ _ _ | .suba _ _ _ | .addq _ _ (.an _) | .subq _ _ (.an _) => true
  | .movemToMem _ _ _ | .movemToReg _ _ _ | .movepToReg _ _ _ _ | .movepToMem _ _ _ _ | .lea _ _ | .pea _ => true
  | .exgDD _ _ | .exgAA _ _ | .exgDA _ _ | .link _ _ | .unlk _ => true
  | .bcc _ _ | .bra _ | .bsr _ | .dbcc _ _ _ | .scc _ _ | .jmp _ | .jsr _ | .rts | .rtd _ | .nop => true
  | .moveToUsp _ | .moveFromUsp _ | .moves _ _ _ _ | .moveFromSr _ | .moveFromCcr _ | .reset | .bkpt _ => true
  | _ => false

/-- The destination operand of an instruction that writes an EA it resolves first: the address of the EA's extension words,
the EA, and the operand's size. MOVE, whose source EA is resolved before, is not meant. -/
def Instr.destination (i : Instr) (ia : Long) : Option (Long × EA × Size) :=
  match i with
  | .ori v e | .andi v e | .subi v e | .addi v e | .eori v e => some (extAfter ia v.exts.length, e, v.size)
  | .bchgImm _ e | .bclrImm _ e | .bsetImm _ e => some (extAfter ia 1, e, bitSize e)
  | .bchgDn _ e | .bclrDn _ e | .bsetDn _ e => some (firstExt ia, e, bitSize e)
  | .orDnEa sz _ e | .andDnEa sz _ e | .addDnEa sz _ e | .subDnEa sz _ e | .eorDnEa sz _ e => some (firstExt ia, e, sz)
  | .negx sz e | .clr sz e | .neg sz e | .notEa sz e | .addq sz _ e | .subq sz _ e => some (firstExt ia, e, sz)
  | .nbcd e | .tas e | .scc _ e => some (firstExt ia, e, .b)
  | .moveFromSr e | .moveFromCcr e => some (firstExt ia, e, .w)
  | .asrMem e | .aslMem e | .lsrMem e | .lslMem e | .roxrMem e | .roxlMem e | .rorMem e | .rolMem e =>
    some (firstExt ia, e, .w)
  | _ => none

/-- An operand that is a register. -/
def EA.isRegister : EA → Bool
  | .dn _ | .an _ => true
  | _ => false

/-- The form stores nothing to memory (an exception it takes is not meant). -/
def Instr.storesNothing : Instr → Bool
  | .movepToMem _ _ _ _ | .pea _ | .link _ _ | .bsr _ | .bccL .f | .jsr _ | .movemToMem _ _ _ => false
  | .moves _ toMem _ _ => !toMem
  | .move _ _ dst => dst.isRegister
  | .sbcdMem _ _ | .abcdMem _ _ | .addxMem _ _ _ | .subxMem _ _ _ => false
  | i => match i.destination 0 with
    | some (_, e, _) => e.isRegister
    | none => true

end Sys2Proof

namespace Sys2Proof.Machine

/-! ## Runs -/

/-- A run is safe for `n` steps: no step faults or is refused, and none leaves the condition halted. -/
def safeFor : Nat → State → Prop
  | 0, _ => True
  | n + 1, s => ∃ t, step s = .next t ∧ t.condition ≠ .halted ∧ safeFor n t

end Sys2Proof.Machine
end

