-- ==== Sys2Proof/Certificates/Slice0/Obligations.lean ====
section
/-! DEFINITION. The statements for the provers. -/

open Sys2Proof Sys2Proof.Machine

/-! ## Encoding -/

/-- Every well-formed instruction whose row is active on the model is what its own words decode to, at every value of every
field (R303, R311, R313). -/
def Obligations.EncodingRoundTrips : Prop :=
  ∀ (m : Model) (i : Instr), i.wellFormed = true → i.decodesOn m = true → decode m i.opcode i.exts = .ok i

/-- What a word decodes to is well formed, active on the model, and has that word as its opcode word: no two rows share a
word (R303). Which row takes a word, and how many words the instruction has, follow from the opcode word and the model
alone; an instruction has at most 5 words (R303, R310). -/
def Obligations.DecodedInstructionsAreWellFormed : Prop :=
  ∀ (m : Model) (ir : HWord) (ws ws' : List HWord),
    (∀ i, decode m ir ws = .ok i → i.wellFormed = true ∧ i.decodesOn m = true ∧ i.opcode = ir) ∧
    (match decode m ir ws, decode m ir ws' with
      | .ok i, .ok j => i.words = j.words ∧ 1 ≤ i.words ∧ i.words ≤ 5
      | .error e, .error e' => e = e'
      | _, _ => False)

/-- Words written out from the encodings of R311 and R313 decode to the instructions they stand for: the examples of
41_data_movement.md to 48_system_control.md, one or more of each family. -/
def Obligations.DecodeWords : Prop :=
  ∀ w ∈ [(0x70FF, [], Instr.moveq 0xFF 0), (0x1200, [], .move .b (.dn 0) (.dn 1)), (0xC141, [], .exgDD 0 1),
      (0x4E56, [0xFFF8], .link 6 0xFFF8), (0x48E7, [0x8002], .movemToMem .l 0x8002 (.predec 7)),
      (0x0682, [0x0000, 0x0001], .addi (.l 1) (.dn 2)), (0xD308, [], .addxMem .b 0 1), (0x9041, [], .subEaDn .w (.dn 1) 0),
      (0xC081, [], .andEaDn .l (.dn 1) 0),
      (0xE348, [], .lslReg .w (.imm 1) 0), (0x0880, [0x0003], .bclrImm 3 (.dn 0)), (0xC300, [], .abcdReg 0 1),
      (0x6700, [0x0010], .bcc .eq (.word 0x10)), (0x4E75, [], .rts), (0x4E7B, [0x0801], .movecTo 0 0x801),
      (0x4E45, [], .trap 5), (0x4AFC, [], .illegal), (0xA123, [], .lineA 0x123)],
    decode .mc68010 w.1 w.2.1 = .ok w.2.2

/-! ## Steps -/

/-- A step in condition normal, with no trace bit set and the pc even, whose words decode to an instruction, is that
instruction's meaning in the same state: nothing is added around it (R300, R1402). -/
def Obligations.StepRunsTheDecodedInstruction : Prop :=
  ∀ (s : State) (ir : HWord) (ws : List HWord) (i : Instr), s.condition = .normal → s.traced = false →
    s.pc.getLsbD 0 = false → decode s.model ir ws = .ok i → ws.length + 1 = i.words → s.holdsWords s.pc (ir :: ws) →
    step s = exec i s

/-- A step whose opcode word no row takes raises the illegal-instruction exception, vector 4, with the word's address stacked
and no extension word fetched; under EXCEPTION_MODE = halt it halts (R340). -/
def Obligations.StepOfAnUnassignedWord : Prop :=
  ∀ (s : State) (ir : HWord) (e : DecodeError), s.condition = .normal → s.traced = false → s.pc.getLsbD 0 = false →
    s.holdsWords s.pc [ir] → decode s.model ir [] = .error e →
    ((s.setPc (s.pc + 2)).canEnter 4 s.pc none = true → step s = .next ((s.setPc (s.pc + 2)).entered 4 s.pc none)) ∧
    (s.cfg.exceptionMode = .halt → step s = .next ((s.setPc (s.pc + 2)).setCondition .halted))

/-- Steps that run no instruction: a waiting condition changes nothing; a trace bit refuses the step; an odd pc, or a pc whose
word cannot be fetched, halts with nothing else changed; an extension word that cannot be fetched halts, whatever the
instruction and the mode, with the pc at that word and nothing else changed, so before the privilege check and the handler.
`wake` and `resume` end the two waiting conditions that have an end, and do nothing in the others
(R221, R301, R305, R403, R1302, R1402, R1405, R1406). -/
def Obligations.StepsThatRunNothing : Prop :=
  ∀ (s : State),
    (s.condition ≠ .startup → s.condition ≠ .normal → step s = .next s) ∧
    (s.condition = .normal → s.traced = true → step s = .refused .traceNotModelled) ∧
    (s.condition = .normal → s.traced = false →
      s.pc.getLsbD 0 = true ∨ translate s.cfg s.pc 2 s.progFC .execute = none → step s = .next (s.setCondition .halted)) ∧
    (∀ (ir : HWord) (ws : List HWord) (i : Instr), s.condition = .normal → s.traced = false → s.pc.getLsbD 0 = false →
      s.holdsWords s.pc (ir :: ws) → decode s.model ir [] = .ok i → ws.length + 1 < i.words →
      let failing := s.pc + BitVec.ofNat 32 (2 * (ws.length + 1))
      translate s.cfg failing 2 s.progFC .execute = none →
      step s = .next ((s.setPc failing).setCondition .halted)) ∧
    wake s = (if s.condition = .stopped then s.setCondition .normal else s) ∧
    resume s = (if ∃ n, s.condition = .breakpoint n then s.setCondition .normal else s)

/-- The first step of a processor: the status, VBR on MC68010 and later, then SSP and the pc from the longwords at 0 and 4,
read with function code 6; if either cannot be read the condition is halted and SSP and the pc are as before (R1410). -/
def Obligations.ResetSequenceLoadsTheVectors : Prop :=
  ∀ (s : State), s.condition = .startup →
    let s1 := s.setSrBits (0x2700 ||| (s.sr &&& 0x00FF))
    let s2 := if s.model.is010plus then s1.setVbr 0 else s1
    step s = .next (
      if s.canRead 0 .l 6 && s.canRead 4 .l 6 then
        ((s2.setSsp (s.valueAt 0 .l 6)).setPc (s.valueAt 4 .l 6)).setCondition .normal
      else s2.setCondition .halted)

/-- The state after reset is what the first step makes of a newly constructed processor whose memory lists nothing; the
status is 0x2700. What the registers that R160 leaves unwritten hold there is the model's choice (log entries 1, 2, 4). -/
def Obligations.ResetStateFollowsFromConstruction : Prop :=
  step (construct State.resetConfig []) = .next State.reset ∧ State.reset.sr = 0x2700 ∧ State.reset.vbr = 0 ∧
    State.reset.condition = .normal

/-! ## What every step keeps -/

/-- The invariant holds of `State.reset`. The configuration there, the values of the registers R160 leaves unwritten and the
contents of empty memory are the model's choice (log entries 2, 1 and 4; DESIGN CHOICE). -/
def Obligations.InvariantAtReset : Prop := State.reset.Inv

/-- Every step and host operation keeps the invariant: the regions are as R201 bounds
them, the memory is canonical and inside the regions, and the unimplemented bits of the SR are 0 (R110, R112, R201). -/
def Obligations.StepKeepsTheInvariant : Prop :=
  ∀ (s t : State), s.Inv → (step s = .next t → t.Inv) ∧ (wake s).Inv ∧ (resume s).Inv ∧
    ∀ k off v, (hostWrite s k off v).Inv

/-- No step ends in the model's `Fault`, which is the operand-not-in-class stop of terms that no word decodes to (log entry 8,
DESIGN CHOICE): every word decodes to an instruction whose operands its meaning can access, is refused by name, or takes the
illegal-instruction exception. The bus and address errors that R12 (b) calls faults are not meant: they are next states whose
condition is halted (log entry 9, DEDUCED). -/
def Obligations.StepNeverFaults : Prop := ∀ (s : State) (f : Fault), step s ≠ .fault f

/-- The condition changes only as R141 lists: a step leads from startup to normal or halted, and from normal to normal,
halted, stopped or a breakpoint; every other condition stays. -/
def Obligations.ConditionTransitions : Prop :=
  ∀ (s t : State), step s = .next t →
    (s.condition = .startup → t.condition = .normal ∨ t.condition = .halted) ∧
    (s.condition = .normal →
      t.condition = .normal ∨ t.condition = .halted ∨ t.condition = .stopped ∨ ∃ n, t.condition = .breakpoint n) ∧
    (s.condition ≠ .startup → s.condition ≠ .normal → t.condition = s.condition)

/-- The model, the exception mode, the address mask and the regions never change; of the instructions only MOVEC changes VBR,
SFC and DFC (R8, R120, R121, R202). -/
def Obligations.OnlyMovecWritesControlRegisters : Prop :=
  (∀ (s t : State), step s = .next t → t.cfg = s.cfg) ∧
  (∀ (i : Instr) (s t : State), (∀ rn c, i ≠ .movecTo rn c) → exec i s = .next t → s.sameControl t)

/-- User mode: whatever the instruction, a step leaves VBR, SFC, DFC and the configuration alone, and unless it ends in
supervisor mode it leaves the upper byte of the SR and the supervisor stack
pointer alone (R105, R111, R1340). -/
def Obligations.UserModeIsConfined : Prop :=
  ∀ (s t : State), s.condition = .normal → s.supervisor = false → step s = .next t →
    s.sameControl t ∧ (t.supervisor = false → t.systemByte = s.systemByte ∧ t.ssp = s.ssp)

/-- An instruction is privileged exactly when R1341 lists it (MOVE from SR on MC68010 and later), and a privileged one in user
mode takes exception 8 with its own address stacked, its handler unrun and its extension words fetched (R306, R1342). -/
def Obligations.PrivilegedInstructionsTrapInUserMode : Prop :=
  ∀ (s : State) (i : Instr),
    let listed : Bool := match i with
      | .andiToSr _ | .oriToSr _ | .eoriToSr _ | .moveToSr _ | .moveToUsp _ | .moveFromUsp _ | .movecFrom _ _
      | .movecTo _ _ | .moves _ _ _ _ | .reset | .stop _ | .rte => true
      | .moveFromSr _ => s.model.is010plus
      | _ => false
    rowVerdict s.model i = .entry →
    privilegeViolation i s = (listed && !s.supervisor) ∧
    (listed = true → s.supervisor = false → (s.pastWords i).canEnter 8 s.pc none = true →
      exec i s = .next ((s.pastWords i).entered 8 s.pc none)) ∧
    (listed = true → s.supervisor = false → s.cfg.exceptionMode = .halt →
      exec i s = .next ((s.pastWords i).setCondition .halted))

/-! ## Exceptions -/

/-- Taking an exception: under EXCEPTION_MODE = halt the condition is halted and nothing else changes. Otherwise the handler
starts in supervisor mode with the trace bits clear and the rest of the SR as it was, at the address the vector holds; the
frame (6 bytes on MC68000; 8; 12 with an instruction address on MC68020 and later) is pushed on the supervisor stack; the
other registers and every byte outside the frame are as before. The frame holds the SR before the entry, the stacked pc,
the format and vector, and the instruction address, where each can be read back and distinct addresses are distinct bytes.
An entry that a failing push or vector read stops is halted (R1310–R1312). -/
def Obligations.TakingAnException : Prop :=
  ∀ (s : State) (vec : Nat) (p : Long) (ia : Option Long),
    (s.cfg.exceptionMode = .halt → enterException vec p ia s = .error .ended (s.setCondition .halted)) ∧
    (s.canEnter vec p ia = true → ∃ t,
      let layout : List (Nat × Nat) := if s.model.is000 then [(0, 2), (2, 4)]
        else if s.model.is020plus && ia.isSome then [(0, 2), (2, 4), (6, 2), (8, 4)] else [(0, 2), (2, 4), (6, 2)]
      let size := (layout.map Prod.snd).sum
      enterException vec p ia s = .ok () t ∧
      t.sr = ((s.sr ||| 0x2000) &&& 0x3FFF) &&& srImplemented s.model ∧ t.supervisor = true ∧ t.traced = false ∧
      t.ccr = s.ccr ∧ t.pc = t.valueAt (s.vectorBase + BitVec.ofNat 32 (4 * vec)) .l 5 ∧
      t.ssp = s.ssp - BitVec.ofNat 32 size ∧ t.usp = s.usp ∧ (∀ n, t.readD n = s.readD n) ∧
      (∀ n : Reg, n ≠ 7 → t.readA n = s.readA n) ∧ s.sameControl t ∧ t.condition = s.condition ∧ t.draws = s.draws ∧
      ∀ c, (∀ x ∈ layout, ∀ k, translate s.cfg (t.ssp + BitVec.ofNat 32 x.1) x.2 5 .write = some k → c < k ∨ k + x.2 ≤ c) →
        Memory.read t.mem c = Memory.read s.mem c) ∧
    (s.Inv → s.cfg.addressMask = 0xFFFFFFFF → vec < 256 → s.canEnter vec p ia = true →
      let t := s.entered vec p ia
      let format2 := s.model.is020plus && ia.isSome
      ∀ off sz v,
        ((off, sz, v) : Long × Size × Long) ∈
          [(0, .w, s.sr.setWidth 32), (2, .l, p), (6, .w, (if format2 then 0x2000 else 0) ||| BitVec.ofNat 32 (4 * vec)),
           (8, .l, ia.getD 0)] →
        (off = 6 → s.model.is000 = false) → (off = 8 → format2 = true) → t.canRead (t.ssp + off) sz 5 = true →
        t.valueAt (t.ssp + off) sz 5 = v) ∧
    (s.cfg.exceptionMode = .vector → srRefused s.model ((s.sr ||| 0x2000) &&& 0x3FFF) = false →
      s.canEnter vec p ia = false → ∃ t, enterException vec p ia s = .error .ended t ∧ t.condition = .halted)

/-- RTE undoes an exception's entry: run where the handler starts, it restores the SR, the stacked pc and the supervisor stack
pointer, for every frame the entry builds. The premises are that the frame can be read back and that distinct addresses
are distinct bytes (R1330, R1218). -/
def Obligations.RteUndoesAnEntry : Prop :=
  ∀ (s : State) (vec : Nat) (p : Long) (ia : Option Long), s.Inv → s.cfg.addressMask = 0xFFFFFFFF → vec < 256 →
    s.canEnter vec p ia = true →
    let t := s.entered vec p ia
    (∀ off sz, (off, sz) ∈ [((0 : Long), Size.w), (2, .l), (6, .w)] →
      (s.model.is000 = true → off ≠ 6) → t.canRead (t.ssp + off) sz 5 = true) →
    ∃ u, exec .rte t = .next u ∧ u.sr = s.sr ∧ u.pc = p ∧ u.ssp = s.ssp ∧ u.usp = s.usp ∧
      (∀ n, u.readD n = s.readD n) ∧ u.mem = t.mem ∧ u.condition = s.condition

/-! ## Memory -/

/-- An access reaches the first region that contains its masked address, and succeeds when it fits in that region, the
low-memory rule and the policy allow it; otherwise it fails (R210–R213). It names the region's byte at that address by the
cell number of log entry 5, and the policy predicate has the form of log entry 6 (both DESIGN CHOICE, the model's). -/
def Obligations.TranslationFollowsTheRegions : Prop :=
  ∀ (c : Config) (addr : Long) (len : Nat) (fc : BitVec 3) (kind : AccessKind) (cell : Nat),
    let a := (addr &&& c.addressMask).toNat
    translate c addr len fc kind = some cell ↔
      ∃ before r after, c.regions = before ++ r :: after ∧
        (∀ q ∈ before, ¬(q.start ≤ a ∧ a < q.start + q.size)) ∧ r.start ≤ a ∧ a < r.start + r.size ∧
        a - r.start + len ≤ r.size ∧
        ¬(r.lowmem = true ∧ a - r.start < 1024 ∧ (fc.getLsbD 2 = false ∨ kind = .execute)) ∧
        policyAllows r fc kind (a - r.start) len = true ∧ cell = before.length * 2 ^ 32 + a

/-- A value written reads back at its address, through every function code that may read it, and leaves every byte outside it
as it was. The bytes stand most significant first, for writes and for reads (R230). -/
def Obligations.WrittenValuesReadBack : Prop :=
  ∀ (s : State) (a : Long) (sz : Size) (fc fc' : BitVec 3) (v : Long), s.Inv → s.canWrite a sz fc = true →
    s.sameMemoryBut a sz fc (s.stored a sz fc v) ∧
    (s.canRead a sz fc' = true → (s.stored a sz fc v).valueAt a sz fc' = truncTo sz v) ∧
    (∀ j < sz.bytes, ∀ k, translate s.cfg a sz.bytes fc .write = some k →
      Memory.read (s.stored a sz fc v).mem (k + j) = v.extractLsb' (8 * (sz.bytes - 1 - j)) 8) ∧
    (∀ k, translate s.cfg a sz.bytes fc' .read = some k →
      let b (j : Nat) : Nat := (Memory.read s.mem (k + j)).toNat
      (s.valueAt a sz fc').toNat = match sz with
        | .b => b 0
        | .w => b 0 * 2 ^ 8 + b 1
        | .l => b 0 * 2 ^ 24 + b 1 * 2 ^ 16 + b 2 * 2 ^ 8 + b 3)

/-- An access that cannot be made ends the step with the condition halted and nothing else changed; a word or longword at an
odd address is one on MC68000 and MC68010 only, wherever the address lies (R220, R1302, R1304). -/
def Obligations.FailedAccessesHalt : Prop :=
  ∀ (s : State) (a : Long) (sz : Size) (fc : BitVec 3) (v : Long),
    (s.canRead a sz fc = false → memReadFC a sz fc s = .error .ended (s.setCondition .halted)) ∧
    (s.canWrite a sz fc = false → memWriteFC a sz fc v s = .error .ended (s.setCondition .halted)) ∧
    (s.canRead a sz fc = true → memReadFC a sz fc s = .ok (s.valueAt a sz fc) s) ∧
    (s.canWrite a sz fc = true → memWriteFC a sz fc v s = .ok () (s.stored a sz fc v)) ∧
    (misaligned s.model sz a = true ↔ s.model.is020plus = false ∧ sz ≠ .b ∧ a.toNat % 2 = 1)

/-! ## Registers, the status register, conditions -/

/-- A7 is SSP in supervisor mode and USP in user mode, for reads and for writes, and the other one keeps its value (R105). -/
def Obligations.StackPointerAlias : Prop :=
  ∀ (s : State) (v : Long),
    s.readA 7 = (if s.sr.getLsbD 13 then s.ssp else s.usp) ∧
    (s.sr.getLsbD 13 = true → (s.writeA 7 v).ssp = v ∧ (s.writeA 7 v).usp = s.usp) ∧
    (s.sr.getLsbD 13 = false → (s.writeA 7 v).usp = v ∧ (s.writeA 7 v).ssp = s.ssp) ∧
    (∀ n : Reg, n ≠ 7 → (s.writeA 7 v).readA n = s.readA n) ∧ (s.writeA 7 v).readA 7 = v

/-- SetSR refuses bit 12 on MC68020 and later, and otherwise writes the implemented bits: 0xE71F there, 0xA71F before
(R112). -/
def Obligations.SetSrWritesTheImplementedBits : Prop :=
  ∀ (s : State) (v : HWord),
    let impl : HWord := if s.model.is020plus then 0xE71F else 0xA71F
    (s.model.is020plus = true → v.getLsbD 12 = true → setSR v s = .error (.refused .masterStackNotModelled) s) ∧
    (¬(s.model.is020plus = true ∧ v.getLsbD 12 = true) → setSR v s = .ok () (s.setSrBits (v &&& impl)) ∧
      (s.setSrBits (v &&& impl)).srLegal = true)

/-- The flags are the low five bits of the SR, and SetCCR writes them and clears bits 7–5 (R110, R111). A write of single flags
changes no other bit of the SR, bits 7–5 included: the model's reading (log entry 17, DEDUCED). -/
def Obligations.FlagsAreTheLowBitsOfTheSr : Prop :=
  ∀ (s : State) (v : Byte) (f : Ccr),
    (s.setCCR v).sr = (s.sr &&& 0xFF00) ||| (v.setWidth 16 &&& 0x001F) ∧ (s.setCCR v).systemByte = s.systemByte ∧
    (s.setFlags f).ccr = f ∧ (s.setFlags f).sr &&& 0xFFE0 = s.sr &&& 0xFFE0 ∧
    s.ccr = ⟨s.sr.getLsbD 4, s.sr.getLsbD 3, s.sr.getLsbD 2, s.sr.getLsbD 1, s.sr.getLsbD 0⟩

/-- The sixteen conditions, by their codes; in the branch words the codes 0000 and 0001 are BRA and BSR (R330). -/
def Obligations.ConditionCodes : Prop :=
  ∀ (f : Ccr) (cc : BitVec 4), (condHolds (Cond.ofCode cc) f = true ↔
    match cc.toNat with
    | 0 => True
    | 1 => False
    | 2 => f.c = false ∧ f.z = false
    | 3 => f.c = true ∨ f.z = true
    | 4 => f.c = false
    | 5 => f.c = true
    | 6 => f.z = false
    | 7 => f.z = true
    | 8 => f.v = false
    | 9 => f.v = true
    | 10 => f.n = false
    | 11 => f.n = true
    | 12 => f.n = f.v
    | 13 => f.n ≠ f.v
    | 14 => f.z = false ∧ f.n = f.v
    | _ => f.z = true ∨ f.n ≠ f.v) ∧
    (Cond.ofCode cc).code = cc ∧
    ∀ (m : Model) (d : BitVec 8), d ≠ 0 → d ≠ 0xFF →
      decode m (0x60#8 ++ d) [] = .ok (.bra (.short d)) ∧ decode m (0x61#8 ++ d) [] = .ok (.bsr (.short d)) ∧
      (cc ≠ 0 → cc ≠ 1 → decode m (0x6#4 ++ cc ++ d) [] = .ok (.bcc (Cond.ofCode cc) (.short d)))

/-! ## Arithmetic -/

/-- The additions and subtractions compute the exact sum or difference reduced to the size: C and X say whether the unsigned
result left the size, V whether the signed one did, N is its sign, and Z whether it is 0 (the extended forms keep a clear
Z clear). The overflow formulas of R600 say just this. -/
def Obligations.AdditionAndSubtractionAreExact : Prop :=
  ∀ (sz : Size) (a b : Long) (old : Ccr), a.toNat < 2 ^ sz.width → b.toNat < 2 ^ sz.width →
    ∀ (alu : Alu) (u i : Int) (sticky : Bool),
      let x : Int := if old.x then 1 else 0
      let sa := (signExtendFrom sz a).toInt
      let sb := (signExtendFrom sz b).toInt
      (alu, u, i, sticky) ∈
        [(addOp sz a b old, (b.toNat : Int) + a.toNat, sb + sa, false),
         (addxOp sz a b old, b.toNat + a.toNat + x, sb + sa + x, true),
         (subOp sz a b old, b.toNat - a.toNat, sb - sa, false),
         (subxOp sz a b old, b.toNat - a.toNat - x, sb - sa - x, true),
         (negOp sz b old, -(b.toNat : Int), -sb, false), (negxOp sz b old, -(b.toNat : Int) - x, -sb - x, true)] →
      (alu.r.toNat : Int) = u % 2 ^ sz.width ∧
      (alu.f.c = true ↔ u < 0 ∨ 2 ^ sz.width ≤ u) ∧ alu.f.x = alu.f.c ∧
      (alu.f.v = true ↔ i < -2 ^ (sz.width - 1) ∨ 2 ^ (sz.width - 1) ≤ i) ∧
      (alu.f.n = true ↔ (signExtendFrom sz alu.r).toInt < 0) ∧
      (alu.f.z = true ↔ alu.r = 0 ∧ (sticky = true → old.z = true))

/-- A division that answers a quotient and a remainder answers the right ones: the unsigned by the remainder's range, the
signed by its range and the dividend's sign; it overflows exactly when the quotient does not fit 16 bits, and asks for the
exception exactly when the divisor is 0 (R626, R627). -/
def Obligations.DivisionIsExact : Prop :=
  ∀ (v d : Long), v.toNat < 2 ^ 16 →
    (divUnsigned v d = .zeroDivide ↔ v = 0) ∧
    (∀ q m, divUnsigned v d = .result q m → d.toNat = q.toNat * v.toNat + m.toNat ∧ m.toNat < v.toNat) ∧
    (divUnsigned v d = .overflow ↔ v ≠ 0 ∧ 2 ^ 16 * v.toNat ≤ d.toNat) ∧
    (let sv := (v.setWidth 16).toInt
     (divSigned v d = .zeroDivide ↔ v = 0) ∧
     (∀ q m, divSigned v d = .result q m →
       d.toInt = q.toInt * sv + m.toInt ∧ m.toInt.natAbs < sv.natAbs ∧ (m.toInt ≠ 0 → (m.toInt < 0 ↔ d.toInt < 0))) ∧
     (divSigned v d = .overflow ↔ v ≠ 0 ∧ (d.toInt.tdiv sv < -2 ^ 15 ∨ 2 ^ 15 ≤ d.toInt.tdiv sv)))

/-- The shifts in closed form: to the left, multiplication mod 2^w; to the right, division, unsigned or signed and rounding
down. ASL sets V exactly when the signed product leaves the size. A rotation one way undoes the same rotation the other
way, X included for the rotations through it. A count of 0 clears C, or gives it X for the latter (R800–R816). -/
def Obligations.ShiftsInClosedForm : Prop :=
  ∀ (sz : Size) (v : Long) (n : Nat) (old : Ccr), v.toNat < 2 ^ sz.width →
    let sgn (u : Long) : Int := (signExtendFrom sz u).toInt
    (shiftOp .asl sz v n old).r.toNat = v.toNat * 2 ^ n % 2 ^ sz.width ∧
    (shiftOp .lsl sz v n old).r.toNat = v.toNat * 2 ^ n % 2 ^ sz.width ∧
    (shiftOp .lsr sz v n old).r.toNat = v.toNat / 2 ^ n ∧
    sgn (shiftOp .asr sz v n old).r = sgn v / 2 ^ n ∧
    ((shiftOp .asl sz v n old).f.v = true ↔ sgn v * 2 ^ n < -2 ^ (sz.width - 1) ∨ 2 ^ (sz.width - 1) ≤ sgn v * 2 ^ n) ∧
    (shiftOp .ror sz (shiftOp .rol sz v n old).r n old).r = v ∧
    (let a := shiftOp .roxl sz v n old
     let b := shiftOp .roxr sz a.r n a.f
     b.r = v ∧ b.f.x = old.x) ∧
    (∀ k, (shiftOp k sz v 0 old).f.c = (k.isRox && old.x) ∧ (shiftOp k sz v 0 old).r = v ∧
      (shiftOp k sz v 0 old).f.x = old.x)

/-- Decimal arithmetic on valid operands is arithmetic of two-digit decimal numbers, and its result is valid again
(R1000, R1001, R1003). -/
def Obligations.DecimalArithmeticIsExact : Prop :=
  ∀ (a b : Byte) (x : Bool), bcdValid a = true → bcdValid b = true →
    let digit : Int := if x then 1 else 0
    (let r := abcdValue a b x
     bcdValid r.1 = true ∧ (bcdDec r.1 : Int) = bcdDec b + bcdDec a + digit - (if r.2 then 100 else 0)) ∧
    (let r := sbcdValue a b x
     bcdValid r.1 = true ∧ (bcdDec r.1 : Int) = bcdDec b - bcdDec a - digit + (if r.2 then 100 else 0))

/-! ## What each instruction does when nothing stops it

Each statement concludes that `exec` answers a next state, and gives the whole of that state: what it does not name is as in
the state before, but for the pc, which is past the instruction's words unless the statement says otherwise. -/

/-- MOVE copies its source operand to its destination and sets N and Z from it (R501). The destination is resolved after the
source, so it sees the source's register update (R420). -/
def Obligations.MoveCopiesItsOperand : Prop :=
  ∀ (s : State) (sz : Size) (src dst : EA),
    let s0 := s.pastWords (.move sz src dst)
    let s1 := s0.afterEA src sz
    let v := s0.operand (firstExt s.pc) src sz
    let xa := extAfter s.pc src.exts.length
    s0.canReadEA (firstExt s.pc) src sz = true → s1.canWriteEA xa dst sz = true →
    exec (.move sz src dst) s = .next (s1.updated xa dst sz ⟨v, logicFlags sz v s.ccr⟩)

/-- MOVEA, ADDA and SUBA give An the sign-extended source operand, the sum or the difference, all 32 bits, and set no flag
(R502, R603, R610). An is read after the operand is resolved. -/
def Obligations.AddressRegisterArithmetic : Prop :=
  ∀ (s : State) (sz : SizeWL) (ea : EA) (an : Reg) (i : Instr) (f : Long → Long → Long),
    (i, f) ∈ [(Instr.movea sz ea an, fun _ v => v), (.adda sz ea an, fun a v => a + v), (.suba sz ea an, fun a v => a - v)] →
    let s0 := s.pastWords i
    let s1 := s0.afterEA ea sz.toSize
    s0.canReadEA (firstExt s.pc) ea sz.toSize = true →
    exec i s =
      .next (s1.writeA an (f (s1.readA an) (signExtendFrom sz.toSize (s0.operand (firstExt s.pc) ea sz.toSize))))

/-- MOVEQ gives Dn the sign-extended byte of its opcode, and sets N and Z from it (R503). EXG exchanges two whole registers and
sets no flag (R510). SWAP exchanges the halves of Dn; EXT.W and EXT.L sign-extend its low byte and its low word; N and Z come
from the result, at its size (R817, R622, R623). -/
def Obligations.RegisterMoves : Prop :=
  (∀ (s : State) (imm : BitVec 8) (dn : Reg),
     exec (.moveq imm dn) s =
       .next ((s.pastWords (.moveq imm dn)).resultTo dn .l
         ⟨imm.signExtend 32, logicFlags .l (imm.signExtend 32) s.ccr⟩)) ∧
  (∀ (s : State) (rx ry : Reg),
     exec (.exgDD rx ry) s =
       .next (((s.pastWords (.exgDD rx ry)).writeD rx (s.readD ry)).writeD ry (s.readD rx)) ∧
     exec (.exgAA rx ry) s =
       .next (((s.pastWords (.exgAA rx ry)).writeA rx (s.readA ry)).writeA ry (s.readA rx)) ∧
     exec (.exgDA rx ry) s =
       .next (((s.pastWords (.exgDA rx ry)).writeD rx (s.readA ry)).writeA ry (s.readD rx))) ∧
  (∀ (s : State) (dn : Reg),
     let d := s.readD dn
     let swapped := d.extractLsb' 0 16 ++ d.extractLsb' 16 16
     let extended := truncTo .w ((d.extractLsb' 0 8).signExtend 32)
     let longExtended := (d.extractLsb' 0 16).signExtend 32
     exec (.swap dn) s = .next ((s.pastWords (.swap dn)).resultTo dn .l ⟨swapped, logicFlags .l swapped s.ccr⟩) ∧
     exec (.extW dn) s = .next ((s.pastWords (.extW dn)).resultTo dn .w ⟨extended, logicFlags .w extended s.ccr⟩) ∧
     exec (.extL dn) s = .next ((s.pastWords (.extL dn)).resultTo dn .l ⟨longExtended, logicFlags .l longExtended s.ccr⟩))

/-- ADD and SUB into Dn give Dn the result of the operation on the source operand and Dn, with its flags (R601, R608). ADD, SUB,
ADDI, SUBI, ADDQ and SUBQ to an operand give it the result of the operation on the source value and the operand, with its
flags (R602, R604, R605, R609, R611, R612). ADDQ and SUBQ to An work on the whole register, at every size, and set no flag. -/
def Obligations.AddAndSubtract : Prop :=
  (∀ (s : State) (sz : Size) (ea : EA) (dn : Reg) (i : Instr) (op : BinOp),
     (i, op) ∈ [(Instr.addEaDn sz ea dn, addOp), (.subEaDn sz ea dn, subOp)] →
     let s0 := s.pastWords i
     s0.canReadEA (firstExt s.pc) ea sz = true →
     exec i s = .next ((s0.afterEA ea sz).resultTo dn sz
       (op sz (s0.operand (firstExt s.pc) ea sz) (truncTo sz (s.readD dn)) s.ccr))) ∧
  (∀ (s : State) (sz : Size) (dn : Reg) (imm : Imm) (q : BitVec 3) (ea : EA) (i : Instr) (op : BinOp) (z : Size) (v xa : Long),
     (i, op, z, v, xa) ∈
       [(Instr.addDnEa sz dn ea, addOp, sz, truncTo sz (s.readD dn), firstExt s.pc),
        (.subDnEa sz dn ea, subOp, sz, truncTo sz (s.readD dn), firstExt s.pc),
        (.addi imm ea, addOp, imm.size, imm.value, extAfter s.pc imm.exts.length),
        (.subi imm ea, subOp, imm.size, imm.value, extAfter s.pc imm.exts.length),
        (.addq sz q ea, addOp, sz, if q = 0 then 8 else q.setWidth 32, firstExt s.pc),
        (.subq sz q ea, subOp, sz, if q = 0 then 8 else q.setWidth 32, firstExt s.pc)] →
     ea.isAn = false →
     let s0 := s.pastWords i
     s0.canUpdate xa ea z = true →
     exec i s = .next (s0.updated xa ea z (op z v (s0.operand xa ea z) s.ccr))) ∧
  (∀ (s : State) (sz : Size) (q : BitVec 3) (n : Reg),
     let v : Long := if q = 0 then 8 else q.setWidth 32
     exec (.addq sz q (.an n)) s = .next ((s.pastWords (.addq sz q (.an n))).writeA n (s.readA n + v)) ∧
     exec (.subq sz q (.an n)) s = .next ((s.pastWords (.subq sz q (.an n))).writeA n (s.readA n - v)))

/-- ADDX and SUBX give Dx the result of the operation on Dy, Dx and X; their memory forms resolve and read the source, then
the destination, both by predecrement, and write the destination (R606, R607, R613, R614). -/
def Obligations.ExtendedArithmetic : Prop :=
  ∀ (s : State) (sz : Size) (ry rx : Reg) (op : BinOp) (ir im : Instr),
    (op, ir, im) ∈ [(addxOp, Instr.addxReg sz ry rx, Instr.addxMem sz ry rx), (subxOp, .subxReg sz ry rx, .subxMem sz ry rx)] →
    exec ir s = .next ((s.pastWords ir).resultTo rx sz
      (op sz (truncTo sz (s.readD ry)) (truncTo sz (s.readD rx)) s.ccr)) ∧
    (let s0 := s.pastWords im
     let s1 := s0.afterEA (.predec ry) sz
     s0.canReadEA 0 (.predec ry) sz = true → s1.canUpdate 0 (.predec rx) sz = true →
     exec im s = .next (s1.updated 0 (.predec rx) sz
      (op sz (s0.operand 0 (.predec ry) sz) (s1.operand 0 (.predec rx) sz) s.ccr)))

/-- CMP, CMPI, CMPA and CMPM set the flags of the difference, keep X, and store nothing; CMPA compares 32 bits
(R615–R618). -/
def Obligations.CompareSetsFlags : Prop :=
  ∀ (s : State) (sz : Size) (wl : SizeWL) (imm : Imm) (ea : EA) (rx ry : Reg),
    (let s0 := s.pastWords (.cmpEaDn sz ea rx)
     s0.canReadEA (firstExt s.pc) ea sz = true →
     exec (.cmpEaDn sz ea rx) s = .next ((s0.afterEA ea sz).setFlags
       (cmpFlags sz (s0.operand (firstExt s.pc) ea sz) (truncTo sz (s.readD rx)) s.ccr))) ∧
    (let s0 := s.pastWords (.cmpa wl ea rx)
     let s1 := s0.afterEA ea wl.toSize
     s0.canReadEA (firstExt s.pc) ea wl.toSize = true →
     exec (.cmpa wl ea rx) s = .next (s1.setFlags
       (cmpFlags .l (signExtendFrom wl.toSize (s0.operand (firstExt s.pc) ea wl.toSize)) (s1.readA rx) s.ccr))) ∧
    (let s0 := s.pastWords (.cmpi imm ea)
     let xa := extAfter s.pc imm.exts.length
     s0.canReadEA xa ea imm.size = true →
     exec (.cmpi imm ea) s = .next ((s0.afterEA ea imm.size).setFlags
       (cmpFlags imm.size imm.value (s0.operand xa ea imm.size) s.ccr))) ∧
    (let s0 := s.pastWords (.cmpm sz ry rx)
     let s1 := s0.afterEA (.postinc ry) sz
     s0.canReadEA 0 (.postinc ry) sz = true → s1.canReadEA 0 (.postinc rx) sz = true →
     exec (.cmpm sz ry rx) s = .next ((s1.afterEA (.postinc rx) sz).setFlags
       (cmpFlags sz (s0.operand 0 (.postinc ry) sz) (s1.operand 0 (.postinc rx) sz) s.ccr)))

/-- NEG, NEGX and NOT replace their operand by 0 − it, 0 − it − X and its complement, with the flags of that result; CLR writes 0
without reading (R619–R621, R709). TST sets N and Z from its operand; TAS does so and then sets bit 7 of it (R1112, R1113). -/
def Obligations.UnaryAndTest : Prop :=
  (∀ (s : State) (sz : Size) (ea : EA) (i : Instr) (op : UnOp),
     (i, op) ∈ [(Instr.neg sz ea, negOp), (.negx sz ea, negxOp),
       (.notEa sz ea, fun z d f => ⟨truncTo z (~~~d), logicFlags z (truncTo z (~~~d)) f⟩)] →
     (let s0 := s.pastWords i
      s0.canUpdate (firstExt s.pc) ea sz = true →
      exec i s = .next (s0.updated (firstExt s.pc) ea sz (op sz (s0.operand (firstExt s.pc) ea sz) s.ccr))) ∧
     (let s0 := s.pastWords (.clr sz ea)
      s0.canWriteEA (firstExt s.pc) ea sz = true →
      exec (.clr sz ea) s = .next (s0.updated (firstExt s.pc) ea sz
        ⟨0, { s.ccr with n := false, z := true, v := false, c := false }⟩))) ∧
  (∀ (s : State) (sz : Size) (ea : EA),
     (let s0 := s.pastWords (.tst sz ea)
      s0.canReadEA (firstExt s.pc) ea sz = true →
      exec (.tst sz ea) s = .next ((s0.afterEA ea sz).setFlags (logicFlags sz (s0.operand (firstExt s.pc) ea sz) s.ccr))) ∧
     (let s0 := s.pastWords (.tas ea)
      let v := s0.operand (firstExt s.pc) ea .b
      s0.canUpdate (firstExt s.pc) ea .b = true →
      exec (.tas ea) s = .next (s0.updated (firstExt s.pc) ea .b ⟨v ||| 0x80, logicFlags .b v s.ccr⟩)))

/-- AND, OR and EOR combine bit by bit and set N and Z from the result, V and C to 0 (R701–R708). -/
def Obligations.LogicalOperations : Prop :=
  ∀ (s : State) (sz : Size) (dn : Reg) (imm : Imm) (ea : EA),
    (∀ (i : Instr) (op : Long → Long → Long), (i, op) ∈ [(Instr.andEaDn sz ea dn, (· &&& ·)), (.orEaDn sz ea dn, (· ||| ·))] →
      let s0 := s.pastWords i
      let r := op (truncTo sz (s.readD dn)) (s0.operand (firstExt s.pc) ea sz)
      s0.canReadEA (firstExt s.pc) ea sz = true →
      exec i s = .next ((s0.afterEA ea sz).resultTo dn sz ⟨r, logicFlags sz r s.ccr⟩)) ∧
    (∀ (i : Instr) (op : Long → Long → Long) (z : Size) (v xa : Long),
      (i, op, z, v, xa) ∈
        [(Instr.andDnEa sz dn ea, (· &&& ·), sz, truncTo sz (s.readD dn), firstExt s.pc),
         (.orDnEa sz dn ea, (· ||| ·), sz, truncTo sz (s.readD dn), firstExt s.pc),
         (.eorDnEa sz dn ea, (· ^^^ ·), sz, truncTo sz (s.readD dn), firstExt s.pc),
         (.andi imm ea, (· &&& ·), imm.size, imm.value, extAfter s.pc imm.exts.length),
         (.ori imm ea, (· ||| ·), imm.size, imm.value, extAfter s.pc imm.exts.length),
         (.eori imm ea, (· ^^^ ·), imm.size, imm.value, extAfter s.pc imm.exts.length)] →
      let s0 := s.pastWords i
      let r := op (s0.operand xa ea z) v
      s0.canUpdate xa ea z = true →
      exec i s = .next (s0.updated xa ea z ⟨r, logicFlags z r s.ccr⟩))

/-- MULU and MULS give Dn the 32-bit product of its low word and the source word, unsigned and signed, and set N and Z from
all 32 bits (R624, R625). -/
def Obligations.Multiplication : Prop :=
  ∀ (s : State) (ea : EA) (dn : Reg) (i : Instr) (op : BitVec 16 → BitVec 16 → Long),
    (i, op) ∈ [(Instr.muluW ea dn, fun d v => BitVec.ofNat 32 (d.toNat * v.toNat)),
      (.mulsW ea dn, fun d v => BitVec.ofInt 32 (d.toInt * v.toInt))] →
    let s0 := s.pastWords i
    let r := op ((s.readD dn).setWidth 16) ((s0.operand (firstExt s.pc) ea .w).setWidth 16)
    ea.sizeOk .w = true → s0.canReadEA (firstExt s.pc) ea .w = true →
    exec i s = .next ((s0.afterEA ea .w).resultTo dn .l ⟨r, logicFlags .l r s.ccr⟩)

/-- DIVU and DIVS: a quotient that fits 16 bits goes to the low word of Dn and the remainder to the high word, with N and Z
from the quotient; one that does not fit leaves Dn, sets V, clears C and leaves N and Z drawn; a zero divisor draws N, Z and V,
clears C and takes exception 5 (R626, R627). The counter that names the drawn values, and their order, are the model's choice
(log entries 3 and 14). -/
def Obligations.DivisionCompletes : Prop :=
  ∀ (s : State) (ea : EA) (dn : Reg) (i : Instr) (op : Long → Long → Division),
    (i, op) ∈ [(Instr.divuW ea dn, divUnsigned), (.divsW ea dn, divSigned)] →
    let s0 := s.pastWords i
    let s1 := s0.afterEA ea .w
    let r := op (s0.operand (firstExt s.pc) ea .w) (s.readD dn)
    s0.canReadEA (firstExt s.pc) ea .w = true →
    (∀ q m, r = .result q m →
      exec i s = .next (s1.resultTo dn .l ⟨m ++ q, { s.ccr with n := q.getLsbD 15, z := q == 0, v := false, c := false }⟩)) ∧
    (r = .overflow → exec i s = .next (s1.countDraw.countDraw.setFlags
      { s.ccr with n := Config.freeBit s.draws, z := Config.freeBit (s.draws + 1), v := true, c := false })) ∧
    (r = .zeroDivide →
      let s2 := s1.countDraw.countDraw.countDraw.setFlags { s.ccr with
        n := Config.freeBit s.draws, z := Config.freeBit (s.draws + 1), v := Config.freeBit (s.draws + 2), c := false }
      s2.canEnter 5 s2.pc (some s.pc) = true → exec i s = .next (s2.entered 5 s2.pc (some s.pc)))

/-- The register shifts and rotates give Dy the result of the count's single steps, and set the flags from them; the memory
forms shift a word by one (R800–R816). -/
def Obligations.ShiftsAndRotates : Prop :=
  ∀ (s : State) (sz : Size) (c : ShiftCount) (dy : Reg) (ea : EA) (k : ShiftKind) (ir im : Instr),
    (k, ir, im) ∈
      [(.asl, Instr.aslReg sz c dy, Instr.aslMem ea), (.asr, .asrReg sz c dy, .asrMem ea),
       (.lsl, .lslReg sz c dy, .lslMem ea), (.lsr, .lsrReg sz c dy, .lsrMem ea),
       (.rol, .rolReg sz c dy, .rolMem ea), (.ror, .rorReg sz c dy, .rorMem ea),
       (.roxl, .roxlReg sz c dy, .roxlMem ea), (.roxr, .roxrReg sz c dy, .roxrMem ea)] →
    exec ir s = .next ((s.pastWords ir).resultTo dy sz (shiftOp k sz (truncTo sz (s.readD dy)) (shiftCount c s) s.ccr)) ∧
    (let s0 := s.pastWords im
     s0.canUpdate (firstExt s.pc) ea .w = true →
     exec im s = .next (s0.updated (firstExt s.pc) ea .w
       (shiftOp k .w (s0.operand (firstExt s.pc) ea .w) 1 s.ccr)))

/-- The bit instructions set Z to the complement of the bit and change no other flag; BCHG, BCLR and BSET then invert, clear
and set it. The bit number counts mod 32 in Dn and mod 8 elsewhere, and comes from Dn or from the instruction
(R900–R908). -/
def Obligations.BitInstructions : Prop :=
  ∀ (s : State) (dn : Reg) (n : BitVec 8) (ea : EA),
    let z : Size := match ea with | .dn _ => .l | _ => .b
    let bit (b : Nat) : Nat := match ea with | .dn _ => b % 32 | _ => b % 8
    (∀ (i : Instr) (b : Nat) (xa : Long),
      (i, b, xa) ∈ [(Instr.btstDn dn ea, (s.readD dn).toNat, firstExt s.pc), (.btstImm n ea, n.toNat, extAfter s.pc 1)] →
      let s0 := s.pastWords i
      let v := s0.operand xa ea z
      s0.canReadEA xa ea z = true →
      exec i s = .next ((s0.afterEA ea z).setFlags { s.ccr with z := !v.getLsbD (bit b) })) ∧
    (∀ (i : Instr) (op : Long → Long → Long) (b : Nat) (xa : Long),
      (i, op, b, xa) ∈
        [(Instr.bchgDn dn ea, fun v m => v ^^^ m, (s.readD dn).toNat, firstExt s.pc),
         (.bclrDn dn ea, fun v m => v &&& ~~~m, (s.readD dn).toNat, firstExt s.pc),
         (.bsetDn dn ea, fun v m => v ||| m, (s.readD dn).toNat, firstExt s.pc),
         (.bchgImm n ea, fun v m => v ^^^ m, n.toNat, extAfter s.pc 1),
         (.bclrImm n ea, fun v m => v &&& ~~~m, n.toNat, extAfter s.pc 1),
         (.bsetImm n ea, fun v m => v ||| m, n.toNat, extAfter s.pc 1)] →
      let s0 := s.pastWords i
      let v := s0.operand xa ea z
      s0.canUpdate xa ea z = true →
      exec i s = .next (s0.updated xa ea z
        ⟨op v (1#32 <<< bit b), { s.ccr with z := !v.getLsbD (bit b) }⟩))

/-- ABCD, SBCD and NBCD write the decimal sum, difference and complement, and set the decimal flags; on operands that are not
valid BCD the result and the carry are drawn, and N and V always are (R1001–R1005). The counter that names the drawn values,
and their order, are the model's choice (log entries 3 and 14). -/
def Obligations.DecimalArithmetic : Prop :=
  ∀ (s : State) (ry rx : Reg) (ea : EA) (op : BcdOp) (ir im : Instr),
    (op, ir, im) ∈ [(abcdValue, Instr.abcdReg ry rx, Instr.abcdMem ry rx), (sbcdValue, .sbcdReg ry rx, .sbcdMem ry rx)] →
    (let r := (s.pastWords ir).decimal op ((s.readD ry).setWidth 8) ((s.readD rx).setWidth 8)
     exec ir s = .next ((r.2.setD rx .b (r.1.1.setWidth 32)).decimalFlags r.1)) ∧
    (let s0 := s.pastWords im
     let s1 := s0.afterEA (.predec ry) .b
     let r := (s1.afterEA (.predec rx) .b).decimal op
       ((s0.operand 0 (.predec ry) .b).setWidth 8) ((s1.operand 0 (.predec rx) .b).setWidth 8)
     s0.canReadEA 0 (.predec ry) .b = true → s1.canUpdate 0 (.predec rx) .b = true →
     exec im s = .next ((r.2.putLoc (s1.location 0 (.predec rx) .b) .b (r.1.1.setWidth 32)).decimalFlags r.1)) ∧
    (let s0 := s.pastWords (.nbcd ea)
     let r := (s0.afterEA ea .b).decimal sbcdValue ((s0.operand (firstExt s.pc) ea .b).setWidth 8) 0
     s0.canUpdate (firstExt s.pc) ea .b = true →
     exec (.nbcd ea) s =
       .next ((r.2.putLoc (s0.location (firstExt s.pc) ea .b) .b (r.1.1.setWidth 32)).decimalFlags r.1))

/-- LEA gives An the address of its operand, PEA pushes it, JMP goes there, and JSR goes there after pushing the address of the
next instruction; none reads the operand or sets a flag (R508, R509, R1106, R1107). LINK pushes An, makes it the frame
pointer and moves the stack pointer; UNLK undoes that (R511, R512). -/
def Obligations.AddressesAndFrames : Prop :=
  (∀ (s : State) (ea : EA) (an : Reg), ea.isControl = true → s.resolves ea = true →
     let a := s.address (firstExt s.pc) ea .l
     exec (.lea ea an) s = .next ((s.pastWords (.lea ea an)).writeA an a) ∧
     (s.canPush .l = true → exec (.pea ea) s = .next ((s.pastWords (.pea ea)).pushed .l a)) ∧
     exec (.jmp ea) s = .next ((s.pastWords (.jmp ea)).setPc a) ∧
     (s.canPush .l = true →
       exec (.jsr ea) s = .next (((s.pastWords (.jsr ea)).pushed .l (pcNext (.jsr ea) s.pc)).setPc a))) ∧
  (∀ (s : State) (an : Reg) (d : BitVec 16),
     (let s1 := (s.pastWords (.link an d)).pushed .l (s.readA an)
      let s2 := s1.writeA an (s1.readA 7)
      s.canPush .l = true → exec (.link an d) s = .next (s2.writeA 7 (s2.readA 7 + d.signExtend 32))) ∧
     (let s1 := (s.pastWords (.unlk an)).writeA 7 (s.readA an)
      s1.canPop .l = true → exec (.unlk an) s = .next ((s1.popped .l).writeA an (s1.top .l))))

/-- MOVEM to memory stores the registers of its mask, from the highest down by predecrement, from the lowest up in the other
modes; a predecrement store leaves the address of the last register stored in An (R504). MOVEM from memory loads the
registers of its mask, from the lowest up; a postincrement load leaves the address after the last in An, whatever it loaded
there (R505). A predecrement store with An in its list is refused on MC68020 and later (R504). -/
def Obligations.MovemMovesARegisterList : Prop :=
  (∀ (s : State) (sz : SizeWL) (mask : HWord),
     let n := byteCount sz.toSize
     (∀ r : Reg, (s.model.is020plus && mask.getLsbD (7 - r.val)) = false →
       let s0 := s.pastWords (.movemToMem sz mask (.predec r))
       let ks := maskRegsDown mask
       s0.canStoreDown sz.toSize ks (s.readA r) = true →
       exec (.movemToMem sz mask (.predec r)) s =
         .next ((s0.storedDown sz.toSize ks (s.readA r)).writeA r (s.readA r - BitVec.ofNat 32 ks.length * n))) ∧
     (∀ r : Reg, s.model.is020plus = true → mask.getLsbD (7 - r.val) = true →
       exec (.movemToMem sz mask (.predec r)) s = .refused .movemPredecBaseInList) ∧
     (∀ ea : EA, ea.isControl = true → ea.isPcRel = false →
       let s0 := s.pastWords (.movemToMem sz mask ea)
       let a := s0.address (extAfter s.pc 1) ea sz.toSize
       s0.resolves ea = true → s0.canStoreUp sz.toSize (maskRegs mask) a = true →
       exec (.movemToMem sz mask ea) s = .next (s0.storedUp sz.toSize (maskRegs mask) a))) ∧
  (∀ (s : State) (sz : SizeWL) (mask : HWord),
     let ks := maskRegs mask
     let n := byteCount sz.toSize
     (∀ r : Reg,
       let s0 := s.pastWords (.movemToReg sz (.postinc r) mask)
       s0.canLoadUp sz.toSize .data ks (s.readA r) = true →
       exec (.movemToReg sz (.postinc r) mask) s =
         .next ((s0.loadedUp sz.toSize .data ks (s.readA r)).writeA r (s.readA r + BitVec.ofNat 32 ks.length * n))) ∧
     (∀ ea : EA, ea.isControl = true →
       let s0 := s.pastWords (.movemToReg sz ea mask)
       let a := s0.address (extAfter s.pc 1) ea sz.toSize
       let sp := if ea.isPcRel then Space.program else .data
       s0.resolves ea = true → s0.canLoadUp sz.toSize sp ks a = true →
       exec (.movemToReg sz ea mask) s = .next (s0.loadedUp sz.toSize sp ks a)))

/-- MOVEP moves a register's bytes, the most significant first, to or from every second address (R506, R507). -/
def Obligations.MovepAlternatesBytes : Prop :=
  ∀ (s : State) (rx ry : Reg) (d : BitVec 16),
    let a := s.readA ry + d.signExtend 32
    let fc := s.dataFC
    let byte (k : Nat) := s.valueAt (a + BitVec.ofNat 32 (2 * k)) .b fc
    let v := s.readD rx
    (s.canRead a .b fc = true → s.canRead (a + 2) .b fc = true →
      exec (.movepToReg .w ry d rx) s =
        .next ((s.pastWords (.movepToReg .w ry d rx)).setD rx .w ((byte 0 <<< 8) ||| byte 1))) ∧
    (s.canRead a .b fc = true → s.canRead (a + 2) .b fc = true → s.canRead (a + 4) .b fc = true →
      s.canRead (a + 6) .b fc = true →
      exec (.movepToReg .l ry d rx) s = .next ((s.pastWords (.movepToReg .l ry d rx)).setD rx .l
        ((byte 0 <<< 24) ||| (byte 1 <<< 16) ||| (byte 2 <<< 8) ||| byte 3))) ∧
    (s.canWrite a .b fc = true → s.canWrite (a + 2) .b fc = true →
      exec (.movepToMem .w rx ry d) s = .next (((s.pastWords (.movepToMem .w rx ry d)).stored a .b fc
        ((v.extractLsb' 8 8).setWidth 32)).stored (a + 2) .b fc ((v.extractLsb' 0 8).setWidth 32))) ∧
    (s.canWrite a .b fc = true → s.canWrite (a + 2) .b fc = true → s.canWrite (a + 4) .b fc = true →
      s.canWrite (a + 6) .b fc = true →
      exec (.movepToMem .l rx ry d) s = .next (((((s.pastWords (.movepToMem .l rx ry d)).stored a .b fc
        ((v.extractLsb' 24 8).setWidth 32)).stored (a + 2) .b fc ((v.extractLsb' 16 8).setWidth 32)).stored (a + 4) .b fc
        ((v.extractLsb' 8 8).setWidth 32)).stored (a + 6) .b fc ((v.extractLsb' 0 8).setWidth 32)))

/-- Bcc and BRA go to IA + 2 + displacement, Bcc when its condition holds; BSR also pushes the address of the next instruction.
Below MC68020 an 8-bit displacement of 0xFF is −1 (R1101–R1103, R345); that the constructor of row 81, which no word decodes to
there, runs as that branch is the model's choice (log entry 13, DEDUCED). DBcc: when its condition holds nothing happens; else the low word of Dn counts down, and the branch is taken unless it passes 0 to 0xFFFF.
Scc writes 0xFF or 0. NOP does nothing (R1104, R1105, R1111). -/
def Obligations.BranchesAndConditions : Prop :=
  (∀ (s : State) (cond : Cond) (d : BranchDisp),
     let offset : Long := match d with | .short b => b.signExtend 32 | .word w => w.signExtend 32
     let target := s.pc + 2 + offset
     let odd := s.pc + 2 + 0xFFFFFFFF
     ((∀ b, d = .short b → s.model.is020plus = true → b ≠ 0xFF) →
       exec (.bcc cond d) s =
         .next (if condHolds cond s.ccr then (s.pastWords (.bcc cond d)).setPc target else s.pastWords (.bcc cond d)) ∧
       exec (.bra d) s = .next ((s.pastWords (.bra d)).setPc target) ∧
       (s.canPush .l = true →
         exec (.bsr d) s = .next (((s.pastWords (.bsr d)).pushed .l (pcNext (.bsr d) s.pc)).setPc target))) ∧
     (s.model.is020plus = false →
       (cond ≠ .f → exec (.bccL cond) s =
         .next (if condHolds cond s.ccr then (s.pastWords (.bccL cond)).setPc odd else s.pastWords (.bccL cond))) ∧
       (s.canPush .l = true →
         exec (.bccL .f) s = .next (((s.pastWords (.bccL .f)).pushed .l (pcNext (.bccL .f) s.pc)).setPc odd)))) ∧
  (∀ (s : State) (cond : Cond) (dn : Reg) (d : BitVec 16) (ea : EA),
     (let s0 := s.pastWords (.dbcc cond dn d)
      let count := (s.readD dn).setWidth 16 - 1#16
      exec (.dbcc cond dn d) s = .next (
        if condHolds cond s.ccr then s0
        else if count = 0xFFFF then s0.setD dn .w (count.setWidth 32)
        else (s0.setD dn .w (count.setWidth 32)).setPc (s.pc + 2 + d.signExtend 32))) ∧
     (let s0 := s.pastWords (.scc cond ea)
      s0.canWriteEA (firstExt s.pc) ea .b = true →
      exec (.scc cond ea) s = .next ((s0.afterEA ea .b).putLoc (s0.location (firstExt s.pc) ea .b) .b
        (if condHolds cond s.ccr then 0xFF else 0))) ∧
     exec .nop s = .next (s.pastWords .nop))

/-- RTS pops the pc; RTR pops the CCR and then the pc; RTD pops the pc and moves the stack pointer (R1108–R1110). -/
def Obligations.Returns : Prop :=
  ∀ (s : State) (d : BitVec 16),
    (s.canPop .l = true → exec .rts s = .next (((s.pastWords .rts).popped .l).setPc (s.top .l))) ∧
    (let s1 := ((s.pastWords .rtr).popped .w).setCCR ((s.top .w).setWidth 8)
     s.canPop .w = true → s1.canPop .l = true → exec .rtr s = .next ((s1.popped .l).setPc (s1.top .l))) ∧
    (let s1 := (s.pastWords (.rtd d)).popped .l
     s.model.is010plus = true → s.canPop .l = true →
     exec (.rtd d) s = .next ((s1.writeA 7 (s1.readA 7 + d.signExtend 32)).setPc (s.top .l)))

/-- The CCR: ANDI, ORI and EORI combine it with a byte and MOVE loads it from the low byte of a word, all through SetCCR; MOVE
from CCR, on MC68010 and later, stores it zero-extended to a word (R1201–R1205). -/
def Obligations.CcrInstructions : Prop :=
  ∀ (s : State) (imm : BitVec 8) (ea : EA),
    let ccr := s.sr.extractLsb' 0 8
    exec (.andiToCcr imm) s = .next ((s.pastWords (.andiToCcr imm)).setCCR (ccr &&& imm)) ∧
    exec (.oriToCcr imm) s = .next ((s.pastWords (.oriToCcr imm)).setCCR (ccr ||| imm)) ∧
    exec (.eoriToCcr imm) s = .next ((s.pastWords (.eoriToCcr imm)).setCCR (ccr ^^^ imm)) ∧
    (let s0 := s.pastWords (.moveToCcr ea)
     s0.canReadEA (firstExt s.pc) ea .w = true →
     exec (.moveToCcr ea) s =
       .next ((s0.afterEA ea .w).setCCR ((s0.operand (firstExt s.pc) ea .w).setWidth 8))) ∧
    (let s0 := s.pastWords (.moveFromCcr ea)
     s.model.is010plus = true → s0.canWriteEA (firstExt s.pc) ea .w = true →
     exec (.moveFromCcr ea) s =
       .next ((s0.afterEA ea .w).putLoc (s0.location (firstExt s.pc) ea .w) .w (ccr.setWidth 32)))

/-- The SR, in supervisor mode: ANDI, ORI and EORI combine it with a word, MOVE loads it, and STOP loads it and stops the
processor; the implemented bits are written. MOVE from SR stores it, and on MC68000 needs no privilege (R1206–R1210, R1217).
In supervisor mode MOVE USP moves the user stack pointer to or from An, and RESET has no effect on the processor
(R1211, R1212, R1216). -/
def Obligations.StatusRegisterInstructions : Prop :=
  (∀ (s : State) (imm : BitVec 16) (ea : EA),
     let written (s : State) (v : HWord) := s.setSrBits (v &&& srImplemented s.model)
     (s.supervisor = true →
       (srRefused s.model (s.sr &&& imm) = false →
         exec (.andiToSr imm) s = .next (written (s.pastWords (.andiToSr imm)) (s.sr &&& imm))) ∧
       (srRefused s.model (s.sr ||| imm) = false →
         exec (.oriToSr imm) s = .next (written (s.pastWords (.oriToSr imm)) (s.sr ||| imm))) ∧
       (srRefused s.model (s.sr ^^^ imm) = false →
         exec (.eoriToSr imm) s = .next (written (s.pastWords (.eoriToSr imm)) (s.sr ^^^ imm))) ∧
       (srRefused s.model imm = false →
         exec (.stop imm) s = .next ((written (s.pastWords (.stop imm)) imm).setCondition .stopped)) ∧
       (let s0 := s.pastWords (.moveToSr ea)
        let v := (s0.operand (firstExt s.pc) ea .w).setWidth 16
        s0.canReadEA (firstExt s.pc) ea .w = true → srRefused s.model v = false →
        exec (.moveToSr ea) s = .next (written (s0.afterEA ea .w) v))) ∧
     (let s0 := s.pastWords (.moveFromSr ea)
      (s.model.is010plus = true → s.supervisor = true) → s0.canWriteEA (firstExt s.pc) ea .w = true →
      exec (.moveFromSr ea) s =
        .next ((s0.afterEA ea .w).putLoc (s0.location (firstExt s.pc) ea .w) .w (s.sr.setWidth 32)))) ∧
  (∀ (s : State) (an : Reg), s.supervisor = true →
     exec (.moveToUsp an) s = .next ((s.pastWords (.moveToUsp an)).setUsp (s.readA an)) ∧
     exec (.moveFromUsp an) s = .next ((s.pastWords (.moveFromUsp an)).writeA an s.usp) ∧
     exec .reset s = .next (s.pastWords .reset))

/-- MOVEC, in supervisor mode on MC68010 and later, copies SFC and DFC (zero-extended), USP and VBR to a whole register, and a
register to them (the low three bits to SFC and DFC). The numbers of the registers that MC68020 and later have and the spec
does not model, and on MC68040 its own, are refused; every other number raises the illegal-instruction exception
(R122, R1213, R1214). -/
def Obligations.MovecMovesControlRegisters : Prop :=
  ∀ (s : State) (rn : RegR), s.supervisor = true → s.model.is010plus = true →
    (∀ (c : BitVec 12) (v : Long) (put : State → State),
      (c, v, put) ∈
        [((0x000 : BitVec 12), s.sfc.setWidth 32, fun t => t.setSfc ((s.readR rn).setWidth 3)),
         (0x001, s.dfc.setWidth 32, fun t => t.setDfc ((s.readR rn).setWidth 3)),
         (0x800, s.usp, fun t => t.setUsp (s.readR rn)), (0x801, s.vbr, fun t => t.setVbr (s.readR rn))] →
      exec (.movecFrom c rn) s = .next ((s.pastWords (.movecFrom c rn)).writeR rn v) ∧
      exec (.movecTo rn c) s = .next (put (s.pastWords (.movecTo rn c)))) ∧
    let refusedOn020 : List (BitVec 12) := [0x002, 0x802, 0x803, 0x804]
    let refusedOn040 : List (BitVec 12) := [0x003, 0x004, 0x005, 0x006, 0x007, 0x805, 0x806, 0x807]
    let refused (c : BitVec 12) : Prop :=
      s.model.is020plus = true ∧ c ∈ refusedOn020 ∨ s.model = .mc68040 ∧ c ∈ refusedOn040
    (∀ c : BitVec 12, refused c → exec (.movecFrom c rn) s = .refused .controlRegisterNotModelled ∧
      exec (.movecTo rn c) s = .refused .controlRegisterNotModelled) ∧
    (∀ c : BitVec 12, ¬refused c → c ∉ [(0x000 : BitVec 12), 0x001, 0x800, 0x801] →
      ((s.pastWords (.movecFrom c rn)).canEnter 4 s.pc none = true →
        exec (.movecFrom c rn) s = .next ((s.pastWords (.movecFrom c rn)).entered 4 s.pc none)) ∧
      ((s.pastWords (.movecTo rn c)).canEnter 4 s.pc none = true →
        exec (.movecTo rn c) s = .next ((s.pastWords (.movecTo rn c)).entered 4 s.pc none)))

/-- MOVES, in supervisor mode on MC68010 and later, stores a register in the DFC space and loads one from the SFC space, a
loaded An being sign-extended; a store of the An that its own mode updates stores a drawn value (R1215, D44), named by the
model's own counter (log entry 3, DESIGN CHOICE). -/
def Obligations.MovesUsesTheAlternateSpaces : Prop :=
  ∀ (s : State) (sz : Size) (rn : RegR) (ea : EA), s.supervisor = true → s.model.is010plus = true →
    ea.isMemoryAlterable = true →
    (let s0 := s.pastWords (.moves sz true rn ea)
     let a := s0.address (extAfter s.pc 1) ea sz
     s0.resolves ea = true → s.canWrite a sz s.dfc = true →
     (movesSameRegister rn ea = false →
       exec (.moves sz true rn ea) s = .next ((s0.afterEA ea sz).stored a sz s.dfc (truncTo sz (s.readR rn)))) ∧
     (movesSameRegister rn ea = true →
       exec (.moves sz true rn ea) s =
         .next ((s0.afterEA ea sz).countDraw.stored a sz s.dfc (truncTo sz (Config.freeLong s.draws))))) ∧
    (let s0 := s.pastWords (.moves sz false rn ea)
     let a := s0.address (extAfter s.pc 1) ea sz
     let v := s.valueAt a sz s.sfc
     s0.resolves ea = true → s.canRead a sz s.sfc = true →
     exec (.moves sz false rn ea) s = .next (
       if rn.val < 8 then (s0.afterEA ea sz).setD (lowReg rn) sz v
       else (s0.afterEA ea sz).writeA (lowReg rn) (signExtendFrom sz v)))

/-- RTE, in supervisor mode, reads the SR and the pc of the frame at the stack pointer, passes the frame (6 bytes on MC68000,
8 or 12 by its format later) and restores both; an invalid format raises the format-error exception, and a format of the
part that no rule builds is refused (R1218). -/
def Obligations.RteRestoresItsFrame : Prop :=
  ∀ (s : State), s.supervisor = true →
    let s0 := s.pastWords .rte
    let sr := (s.valueAt (s.readA 7) .w s.dataFC).setWidth 16
    let p := s.valueAt (s.readA 7 + 2) .l s.dataFC
    let format := frameFormat ((s.valueAt (s.readA 7 + 6) .w s.dataFC).extractLsb' 12 4) s.model
    (∀ size : Long,
      s.model.is000 = true ∧ size = 6 ∨
        s.model.is010plus = true ∧ s.canRead (s.readA 7 + 6) .w s.dataFC = true ∧ format = .valid size →
      s.canRead (s.readA 7) .w s.dataFC = true → s.canRead (s.readA 7 + 2) .l s.dataFC = true →
      srRefused s.model sr = false →
      exec .rte s = .next (((s0.writeA 7 (s.readA 7 + size)).setSrBits (sr &&& srImplemented s.model)).setPc p)) ∧
    (s.model.is010plus = true → s.canRead (s.readA 7 + 6) .w s.dataFC = true → format = .invalid →
      s0.canEnter 14 s.pc none = true → exec .rte s = .next (s0.entered 14 s.pc none)) ∧
    (s.model.is010plus = true → s.canRead (s.readA 7 + 6) .w s.dataFC = true → format = .refused →
      exec .rte s = .refused .frameFormatNotModelled)

/-- TRAP, ILLEGAL, line A and, below MC68020, line F take their exception: vector 32 + n with the next instruction's address
stacked, vectors 4, 10 and 11 with their own (R1219, R1222, R1224, R1225). TRAPV goes on when V is 0 and takes exception 7
when it is 1. CHK goes on when 0 ≤ Dn ≤ the operand, as signed words, and takes exception 6 when not, with N set by the side
that failed; the flags left undefined are drawn, named by a counter and in an order that are the model's choice (log entries 3
and 14). BKPT n sets the condition to breakpoint n (R1220, R1221, R1223). -/
def Obligations.TrapsAndChecks : Prop :=
  (∀ (s : State) (v : BitVec 4) (bits : BitVec 12) (i : Instr) (vec : Nat) (p : Long),
     (i, vec, p) ∈ [(Instr.trap v, 32 + v.toNat, pcNext (.trap v) s.pc), (.illegal, 4, s.pc), (.lineA bits, 10, s.pc),
       (.lineF bits, 11, s.pc)] →
     (i = .lineF bits → s.model.is020plus = false) → (s.pastWords i).canEnter vec p none = true →
     exec i s = .next ((s.pastWords i).entered vec p none)) ∧
  (∀ (s : State) (ea : EA) (dn : Reg) (v : Fin 8),
     (let s0 := s.pastWords .trapv
      (s.ccr.v = false → exec .trapv s = .next s0) ∧
      (s.ccr.v = true → s0.canEnter 7 s0.pc (some s.pc) = true → exec .trapv s = .next (s0.entered 7 s0.pc (some s.pc)))) ∧
     (let s0 := s.pastWords (.chkW ea dn)
      let bound := ((s0.operand (firstExt s.pc) ea .w).setWidth 16).toInt
      let d := ((s.readD dn).setWidth 16).toInt
      let s1 := (s0.afterEA ea .w).countDraw.countDraw.countDraw
      let flags (n : Bool) : Ccr := { s.ccr with
        n := n, z := Config.freeBit s.draws, v := Config.freeBit (s.draws + 1), c := Config.freeBit (s.draws + 2) }
      s0.canReadEA (firstExt s.pc) ea .w = true →
      (0 ≤ d → d ≤ bound →
        exec (.chkW ea dn) s = .next (s1.countDraw.setFlags (flags (Config.freeBit (s.draws + 3))))) ∧
      (d < 0 ∨ bound < d →
        let s2 := s1.setFlags (flags (decide (d < 0)))
        s2.canEnter 6 s2.pc (some s.pc) = true → exec (.chkW ea dn) s = .next (s2.entered 6 s2.pc (some s.pc)))) ∧
     exec (.bkpt v) s = .next ((s.pastWords (.bkpt v)).setCondition (.breakpoint v)))

/-- The rows that exist on MC68020 and later only: below MC68020 they take the illegal-instruction exception, with the
instruction's address stacked; on MC68020 and later they are refused by name, as row 81 is (R340, R1226). Line F is refused
there too (R1225), and so is every operand with a full-format extension word, when the handler resolves it: of an instruction
that writes it, of one that reads it, of MOVE on either side, of MOVES, and of one that takes its address (R417). -/
def Obligations.Mc68020Rows : Prop :=
  ∀ (s : State) (sz : Size) (b : Bool) (size2 : BitVec 2) (ea6 : BitVec 6) (ra rb : Reg) (cond : Cond) (b3 : BitVec 3) (i : Instr),
    i ∈ [Instr.cas2W, .cas2L, .cmpiPcRel sz b, .cmp2Chk2 size2 ea6, .rtmCallm ea6, .cas size2 ea6, .linkL ra, .extbL ra,
      .mulL ea6, .divL ea6, .tst020 sz ea6, .chkL ra ea6, .trapcc cond b3, .pack ra b rb, .unpk ra b rb, .bitField b3 ea6] →
    (s.model.is020plus = false → (s.setPc (s.pc + 2)).canEnter 4 s.pc none = true →
      exec i s = .next ((s.setPc (s.pc + 2)).entered 4 s.pc none)) ∧
    (s.model.is020plus = true → exec i s = .refused .mc68020InstructionNotModelled ∧
      exec (.bccL cond) s = .refused .mc68020InstructionNotModelled ∧
      (∀ bits, exec (.lineF bits) s = .refused .coprocessorSpace) ∧
      ∀ (x : IndexExt) (e src : EA) (wl : SizeWL) (imm : Imm) (k : RegR) (n : BitVec 8) (mask : HWord) (j : Instr),
        x.full = true → e ∈ [.index ra x, .pcIndex x] → privilegeViolation j s = false →
        (∃ xa z, j.destination s.pc = some (xa, e, z)) ∨
          (j = .move sz src e ∧ (s.pastWords j).canReadEA (firstExt s.pc) src sz = true) ∨
          j ∈ [.move sz e src, .movea wl e rb, .adda wl e rb, .suba wl e rb, .cmpa wl e rb, .addEaDn sz e rb, .subEaDn sz e rb,
            .cmpEaDn sz e rb, .andEaDn sz e rb, .orEaDn sz e rb, .muluW e rb, .mulsW e rb, .divuW e rb, .divsW e rb,
            .chkW e rb, .tst sz e, .cmpi imm e, .btstDn rb e, .btstImm n e, .moveToCcr e, .moveToSr e, .moves sz b k e,
            .movemToMem wl mask e, .movemToReg wl e mask, .lea e rb, .pea e, .jmp e, .jsr e] →
        exec j s = .refused .fullFormatExtension)


/-! ## Frames: what an instruction leaves as it was, whenever it answers a next state -/

/-- Of the general registers an instruction changes only those its rule lets it: its destination, the register its addressing
mode updates, the stack pointer of a push or pop (`Instr.writes`); the inactive stack pointer is kept. An instruction that
takes an exception, writes the whole SR or writes USP by name is not meant. -/
def Obligations.OnlyNamedRegistersChange : Prop :=
  ∀ (i : Instr) (s t : State), i.traps = false → i.writesSr = false → i.writesUsp = false →
    rowVerdict s.model i = .entry → privilegeViolation i s = false → exec i s = .next t →
    s.sameRegistersBut i.writes t

/-- The instructions of the last row of R117 that take no exception leave the SR as it was, every flag and the upper byte; all
that take no exception and do not write the whole SR leave its upper byte and the control registers (R111, R117, R120, R121).
What the other instructions do to each flag is in their own statements, which give the whole next state. -/
def Obligations.SrAndControlRegistersStay : Prop :=
  ∀ (i : Instr) (s t : State), rowVerdict s.model i = .entry → privilegeViolation i s = false → exec i s = .next t →
    (i.keepsFlags = true → t.sr = s.sr) ∧
    (i.traps = false → i.writesSr = false → t.systemByte = s.systemByte ∧ s.sameControl t)

/-- A form that stores nothing leaves every byte of memory as it was. -/
def Obligations.FormsThatStoreNothing : Prop :=
  ∀ (i : Instr) (s t : State), i.storesNothing = true → i.traps = false → rowVerdict s.model i = .entry →
    privilegeViolation i s = false → exec i s = .next t → s.sameMemory t

/-- An instruction that writes an operand it resolves first stores only to the bytes of that operand; MOVE, which resolves its
source before, stores only to its destination's. -/
def Obligations.StoresStayInTheDestination : Prop :=
  (∀ (i : Instr) (s t : State) (xa : Long) (ea : EA) (sz : Size) (a : Long),
    i.destination s.pc = some (xa, ea, sz) → rowVerdict s.model i = .entry → privilegeViolation i s = false →
    (s.pastWords i).location xa ea sz = .mem a .data → exec i s = .next t → s.sameMemoryBut a sz s.dataFC t) ∧
  (∀ (s t : State) (src dst : EA) (sz : Size) (a : Long),
    let s1 := (s.pastWords (.move sz src dst)).afterEA src sz
    s1.location (extAfter s.pc src.exts.length) dst sz = .mem a .data → exec (.move sz src dst) s = .next t →
    s.sameMemoryBut a sz s.dataFC t)

/-- The stores of the other instructions: a push goes to the four bytes below the stack pointer (R16; PEA R509, LINK R511, BSR
R1103, JSR R1107); ADDX, SUBX, ABCD and SBCD store to the destination they predecrement after the source (R607, R614, R1002,
R1004, R420); MOVEP stores to every second byte (R507); MOVES stores in the DFC space (R1215); MOVEM stores to consecutive
operands, down from An or up from its address (R504). Every other byte is as it was. That the constructor of row 81 pushes as
BSR does below MC68020 is the model's choice (log entry 13, DEDUCED). -/
def Obligations.StoresOfTheOtherInstructions : Prop :=
  ∀ (s t : State) (i : Instr), exec i s = .next t →
    (∀ (ea : EA) (an : Reg) (d : BitVec 16) (b : BranchDisp),
      i ∈ [.pea ea, .jsr ea, .bsr b, .link an d, .bccL .f] → rowVerdict s.model i = .entry →
      s.sameMemoryBut (s.readA 7 - 4) .l s.dataFC t) ∧
    (∀ (sz : Size) (ay ax : Reg),
      i ∈ [.addxMem sz ay ax, .subxMem sz ay ax] ∨ (sz = .b ∧ i ∈ [.abcdMem ay ax, .sbcdMem ay ax]) →
      let s1 := s.writeA ay (s.readA ay - eaStep ay sz)
      s.sameMemoryBut (s1.readA ax - eaStep ax sz) sz s.dataFC t) ∧
    (∀ (sz : SizeWL) (dx ay : Reg) (d : BitVec 16), i = .movepToMem sz dx ay d →
      ∀ c, (∀ j < sz.toSize.bytes, ∀ k,
          translate s.cfg (s.readA ay + d.signExtend 32 + BitVec.ofNat 32 (2 * j)) 1 s.dataFC .write = some k → c ≠ k) →
        Memory.read t.mem c = Memory.read s.mem c) ∧
    (∀ (sz : Size) (rn : RegR) (ea : EA), i = .moves sz true rn ea → s.supervisor = true → s.model.is010plus = true →
      s.sameMemoryBut (s.address (extAfter s.pc 1) ea sz) sz s.dfc t) ∧
    (∀ (sz : SizeWL) (mask : HWord) (ea : EA), i = .movemToMem sz mask ea →
      let ks := match ea with
        | .predec _ => maskRegsDown mask
        | _ => maskRegs mask
      ∀ c, (∀ j < ks.length, ∀ k,
          translate s.cfg (match ea with
            | .predec r => s.readA r - BitVec.ofNat 32 (j + 1) * byteCount sz.toSize
            | ea => s.address (extAfter s.pc 1) ea sz.toSize + BitVec.ofNat 32 j * byteCount sz.toSize)
            sz.toSize.bytes s.dataFC .write = some k → c < k ∨ k + sz.toSize.bytes ≤ c) →
        Memory.read t.mem c = Memory.read s.mem c)

/-! ## What the flag computations compute -/

/-- The flag functions that the completion statements name. CMP's flags are those of the difference d − s, with X kept: C is
the unsigned borrow, V says that the signed difference leaves the size, N is the sign of the wrapped one, Z says that the
operands are equal (R600). The flags of MOVE and the logical instructions are the sign and the zero of the value's low w
bits, V and C are 0, X is kept (R500). The decimal flags set C and X to the carry and can only clear Z; N and V are the
drawn values (R1000). -/
def Obligations.FlagFunctions : Prop :=
  ∀ (sz : Size) (s d v : Long) (old : Ccr), s.toNat < 2 ^ sz.width → d.toNat < 2 ^ sz.width →
    (let f := cmpFlags sz s d old
     let i : Int := (signExtendFrom sz d).toInt - (signExtendFrom sz s).toInt
     f.x = old.x ∧ (f.c = true ↔ d.toNat < s.toNat) ∧
     (f.v = true ↔ i < -2 ^ (sz.width - 1) ∨ 2 ^ (sz.width - 1) ≤ i) ∧
     (f.n = true ↔ 2 ^ (sz.width - 1) ≤ i % 2 ^ sz.width) ∧ (f.z = true ↔ d = s)) ∧
    (let f := logicFlags sz v old
     f.x = old.x ∧ f.v = false ∧ f.c = false ∧ (f.n = true ↔ 2 ^ (sz.width - 1) ≤ v.toNat % 2 ^ sz.width) ∧
     (f.z = true ↔ v.toNat % 2 ^ sz.width = 0)) ∧
    ∀ (r : Byte) (c n w : Bool),
      let f := bcdFlags r c n w old
      f.x = c ∧ f.c = c ∧ f.n = n ∧ f.v = w ∧ (f.z = true ↔ old.z = true ∧ r = 0)

/-- The rotations in closed form: ROL and ROR rotate the w bits of the value, ROXL and ROXR the w + 1 bits of X and the value.
For a count above 0 C is the last bit out, which for ROL and ROR is the bit that came in; X is C, but ROL and ROR keep it.
N and Z come from the result, and V is 0 for all but ASL (R800–R816). The count is 1–8 from the opcode, where 0 means 8, or
Dn mod 64 (R800). That C of ROR by a multiple of w is bit w − 1, as its step has it, and not bit 0, is the model's choice
(log entry 21, DESIGN CHOICE). -/
def Obligations.RotationsAndShiftFlags : Prop :=
  (∀ (sz : Size) (v : Long) (n : Nat) (old : Ccr), v.toNat < 2 ^ sz.width →
    let w := sz.width
    let wide (x : Bool) (u : Long) : Nat := x.toNat * 2 ^ w + u.toNat
    (shiftOp .rol sz v n old).r.toNat = (v.toNat * 2 ^ (n % w) + v.toNat / 2 ^ (w - n % w)) % 2 ^ w ∧
    (shiftOp .ror sz v n old).r.toNat = (v.toNat / 2 ^ (n % w) + v.toNat * 2 ^ (w - n % w)) % 2 ^ w ∧
    (let a := shiftOp .roxl sz v n old
     let k := n % (w + 1)
     wide a.f.x a.r = (wide old.x v * 2 ^ k + wide old.x v / 2 ^ (w + 1 - k)) % 2 ^ (w + 1)) ∧
    (let a := shiftOp .roxr sz v n old
     let k := n % (w + 1)
     wide a.f.x a.r = (wide old.x v / 2 ^ k + wide old.x v * 2 ^ (w + 1 - k)) % 2 ^ (w + 1)) ∧
    (0 < n →
      ((shiftOp .asl sz v n old).f.c = true ↔ v.toNat * 2 ^ n / 2 ^ w % 2 = 1) ∧
      ((shiftOp .lsl sz v n old).f.c = true ↔ v.toNat * 2 ^ n / 2 ^ w % 2 = 1) ∧
      ((shiftOp .lsr sz v n old).f.c = true ↔ v.toNat / 2 ^ (n - 1) % 2 = 1) ∧
      ((shiftOp .asr sz v n old).f.c = true ↔ (signExtendFrom sz v).toInt / 2 ^ (n - 1) % 2 = 1) ∧
      ((shiftOp .rol sz v n old).f.c = true ↔ (shiftOp .rol sz v n old).r.toNat % 2 = 1) ∧
      ((shiftOp .ror sz v n old).f.c = true ↔ 2 ^ (w - 1) ≤ (shiftOp .ror sz v n old).r.toNat)) ∧
    ∀ k : ShiftKind,
      let a := shiftOp k sz v n old
      a.r.toNat < 2 ^ w ∧ (k = .rol ∨ k = .ror → a.f.x = old.x) ∧
      (0 < n → k ≠ .rol → k ≠ .ror → a.f.x = a.f.c) ∧
      (a.f.n = true ↔ 2 ^ (w - 1) ≤ a.r.toNat) ∧ (a.f.z = true ↔ a.r = 0) ∧ (k ≠ .asl → a.f.v = false)) ∧
  ∀ (s : State) (q : BitVec 3) (dn : Reg), shiftCount (.imm q) s = (q.toNat + 7) % 8 + 1 ∧
    shiftCount (.reg dn) s = (s.readD dn).toNat % 64
end

