-- ==== Sys2Proof/Laws/State.lean ====
section
/-! SUPPORT. One lemma per field and per update of `State`, so that no proof unfolds a record update; and the register
accessors after each update. -/

namespace Sys2Proof.Machine

namespace State

variable (s : State)

/-! ### `setPc` -/

@[simp] theorem setPc_d (v : Long) : (s.setPc v).d = s.d := rfl
@[simp] theorem setPc_a (v : Long) : (s.setPc v).a = s.a := rfl
@[simp] theorem setPc_usp (v : Long) : (s.setPc v).usp = s.usp := rfl
@[simp] theorem setPc_ssp (v : Long) : (s.setPc v).ssp = s.ssp := rfl
@[simp] theorem setPc_pc (v : Long) : (s.setPc v).pc = v := rfl
@[simp] theorem setPc_sr (v : Long) : (s.setPc v).sr = s.sr := rfl
@[simp] theorem setPc_vbr (v : Long) : (s.setPc v).vbr = s.vbr := rfl
@[simp] theorem setPc_sfc (v : Long) : (s.setPc v).sfc = s.sfc := rfl
@[simp] theorem setPc_dfc (v : Long) : (s.setPc v).dfc = s.dfc := rfl
@[simp] theorem setPc_condition (v : Long) : (s.setPc v).condition = s.condition := rfl
@[simp] theorem setPc_mem (v : Long) : (s.setPc v).mem = s.mem := rfl
@[simp] theorem setPc_cfg (v : Long) : (s.setPc v).cfg = s.cfg := rfl
@[simp] theorem setPc_draws (v : Long) : (s.setPc v).draws = s.draws := rfl
@[simp] theorem setPc_readD (v : Long) (n : Reg) : (s.setPc v).readD n = s.readD n := rfl
@[simp] theorem setPc_readA (v : Long) (n : Reg) : (s.setPc v).readA n = s.readA n := rfl
@[simp] theorem setPc_readR (v : Long) (k : RegR) : (s.setPc v).readR k = s.readR k := rfl
@[simp] theorem setPc_supervisor (v : Long) : (s.setPc v).supervisor = s.supervisor := rfl
@[simp] theorem setPc_traced (v : Long) : (s.setPc v).traced = s.traced := rfl
@[simp] theorem setPc_model (v : Long) : (s.setPc v).model = s.model := rfl
@[simp] theorem setPc_ccr (v : Long) : (s.setPc v).ccr = s.ccr := rfl
@[simp] theorem setPc_dataFC (v : Long) : (s.setPc v).dataFC = s.dataFC := rfl
@[simp] theorem setPc_progFC (v : Long) : (s.setPc v).progFC = s.progFC := rfl
@[simp] theorem setPc_vectorBase (v : Long) : (s.setPc v).vectorBase = s.vectorBase := rfl

/-! ### `setUsp` -/

@[simp] theorem setUsp_d (v : Long) : (s.setUsp v).d = s.d := rfl
@[simp] theorem setUsp_a (v : Long) : (s.setUsp v).a = s.a := rfl
@[simp] theorem setUsp_usp (v : Long) : (s.setUsp v).usp = v := rfl
@[simp] theorem setUsp_ssp (v : Long) : (s.setUsp v).ssp = s.ssp := rfl
@[simp] theorem setUsp_pc (v : Long) : (s.setUsp v).pc = s.pc := rfl
@[simp] theorem setUsp_sr (v : Long) : (s.setUsp v).sr = s.sr := rfl
@[simp] theorem setUsp_vbr (v : Long) : (s.setUsp v).vbr = s.vbr := rfl
@[simp] theorem setUsp_sfc (v : Long) : (s.setUsp v).sfc = s.sfc := rfl
@[simp] theorem setUsp_dfc (v : Long) : (s.setUsp v).dfc = s.dfc := rfl
@[simp] theorem setUsp_condition (v : Long) : (s.setUsp v).condition = s.condition := rfl
@[simp] theorem setUsp_mem (v : Long) : (s.setUsp v).mem = s.mem := rfl
@[simp] theorem setUsp_cfg (v : Long) : (s.setUsp v).cfg = s.cfg := rfl
@[simp] theorem setUsp_draws (v : Long) : (s.setUsp v).draws = s.draws := rfl
@[simp] theorem setUsp_readD (v : Long) (n : Reg) : (s.setUsp v).readD n = s.readD n := rfl
@[simp] theorem setUsp_supervisor (v : Long) : (s.setUsp v).supervisor = s.supervisor := rfl
@[simp] theorem setUsp_traced (v : Long) : (s.setUsp v).traced = s.traced := rfl
@[simp] theorem setUsp_model (v : Long) : (s.setUsp v).model = s.model := rfl
@[simp] theorem setUsp_ccr (v : Long) : (s.setUsp v).ccr = s.ccr := rfl
@[simp] theorem setUsp_dataFC (v : Long) : (s.setUsp v).dataFC = s.dataFC := rfl
@[simp] theorem setUsp_progFC (v : Long) : (s.setUsp v).progFC = s.progFC := rfl
@[simp] theorem setUsp_vectorBase (v : Long) : (s.setUsp v).vectorBase = s.vectorBase := rfl

/-! ### `setSsp` -/

@[simp] theorem setSsp_d (v : Long) : (s.setSsp v).d = s.d := rfl
@[simp] theorem setSsp_a (v : Long) : (s.setSsp v).a = s.a := rfl
@[simp] theorem setSsp_usp (v : Long) : (s.setSsp v).usp = s.usp := rfl
@[simp] theorem setSsp_ssp (v : Long) : (s.setSsp v).ssp = v := rfl
@[simp] theorem setSsp_pc (v : Long) : (s.setSsp v).pc = s.pc := rfl
@[simp] theorem setSsp_sr (v : Long) : (s.setSsp v).sr = s.sr := rfl
@[simp] theorem setSsp_vbr (v : Long) : (s.setSsp v).vbr = s.vbr := rfl
@[simp] theorem setSsp_sfc (v : Long) : (s.setSsp v).sfc = s.sfc := rfl
@[simp] theorem setSsp_dfc (v : Long) : (s.setSsp v).dfc = s.dfc := rfl
@[simp] theorem setSsp_condition (v : Long) : (s.setSsp v).condition = s.condition := rfl
@[simp] theorem setSsp_mem (v : Long) : (s.setSsp v).mem = s.mem := rfl
@[simp] theorem setSsp_cfg (v : Long) : (s.setSsp v).cfg = s.cfg := rfl
@[simp] theorem setSsp_draws (v : Long) : (s.setSsp v).draws = s.draws := rfl
@[simp] theorem setSsp_readD (v : Long) (n : Reg) : (s.setSsp v).readD n = s.readD n := rfl
@[simp] theorem setSsp_supervisor (v : Long) : (s.setSsp v).supervisor = s.supervisor := rfl
@[simp] theorem setSsp_traced (v : Long) : (s.setSsp v).traced = s.traced := rfl
@[simp] theorem setSsp_model (v : Long) : (s.setSsp v).model = s.model := rfl
@[simp] theorem setSsp_ccr (v : Long) : (s.setSsp v).ccr = s.ccr := rfl
@[simp] theorem setSsp_dataFC (v : Long) : (s.setSsp v).dataFC = s.dataFC := rfl
@[simp] theorem setSsp_progFC (v : Long) : (s.setSsp v).progFC = s.progFC := rfl
@[simp] theorem setSsp_vectorBase (v : Long) : (s.setSsp v).vectorBase = s.vectorBase := rfl

/-! ### `setVbr` -/

@[simp] theorem setVbr_d (v : Long) : (s.setVbr v).d = s.d := rfl
@[simp] theorem setVbr_a (v : Long) : (s.setVbr v).a = s.a := rfl
@[simp] theorem setVbr_usp (v : Long) : (s.setVbr v).usp = s.usp := rfl
@[simp] theorem setVbr_ssp (v : Long) : (s.setVbr v).ssp = s.ssp := rfl
@[simp] theorem setVbr_pc (v : Long) : (s.setVbr v).pc = s.pc := rfl
@[simp] theorem setVbr_sr (v : Long) : (s.setVbr v).sr = s.sr := rfl
@[simp] theorem setVbr_vbr (v : Long) : (s.setVbr v).vbr = v := rfl
@[simp] theorem setVbr_sfc (v : Long) : (s.setVbr v).sfc = s.sfc := rfl
@[simp] theorem setVbr_dfc (v : Long) : (s.setVbr v).dfc = s.dfc := rfl
@[simp] theorem setVbr_condition (v : Long) : (s.setVbr v).condition = s.condition := rfl
@[simp] theorem setVbr_mem (v : Long) : (s.setVbr v).mem = s.mem := rfl
@[simp] theorem setVbr_cfg (v : Long) : (s.setVbr v).cfg = s.cfg := rfl
@[simp] theorem setVbr_draws (v : Long) : (s.setVbr v).draws = s.draws := rfl
@[simp] theorem setVbr_readD (v : Long) (n : Reg) : (s.setVbr v).readD n = s.readD n := rfl
@[simp] theorem setVbr_readA (v : Long) (n : Reg) : (s.setVbr v).readA n = s.readA n := rfl
@[simp] theorem setVbr_readR (v : Long) (k : RegR) : (s.setVbr v).readR k = s.readR k := rfl
@[simp] theorem setVbr_supervisor (v : Long) : (s.setVbr v).supervisor = s.supervisor := rfl
@[simp] theorem setVbr_traced (v : Long) : (s.setVbr v).traced = s.traced := rfl
@[simp] theorem setVbr_model (v : Long) : (s.setVbr v).model = s.model := rfl
@[simp] theorem setVbr_ccr (v : Long) : (s.setVbr v).ccr = s.ccr := rfl
@[simp] theorem setVbr_dataFC (v : Long) : (s.setVbr v).dataFC = s.dataFC := rfl
@[simp] theorem setVbr_progFC (v : Long) : (s.setVbr v).progFC = s.progFC := rfl

/-! ### `setSfc` -/

@[simp] theorem setSfc_d (v : BitVec 3) : (s.setSfc v).d = s.d := rfl
@[simp] theorem setSfc_a (v : BitVec 3) : (s.setSfc v).a = s.a := rfl
@[simp] theorem setSfc_usp (v : BitVec 3) : (s.setSfc v).usp = s.usp := rfl
@[simp] theorem setSfc_ssp (v : BitVec 3) : (s.setSfc v).ssp = s.ssp := rfl
@[simp] theorem setSfc_pc (v : BitVec 3) : (s.setSfc v).pc = s.pc := rfl
@[simp] theorem setSfc_sr (v : BitVec 3) : (s.setSfc v).sr = s.sr := rfl
@[simp] theorem setSfc_vbr (v : BitVec 3) : (s.setSfc v).vbr = s.vbr := rfl
@[simp] theorem setSfc_sfc (v : BitVec 3) : (s.setSfc v).sfc = v := rfl
@[simp] theorem setSfc_dfc (v : BitVec 3) : (s.setSfc v).dfc = s.dfc := rfl
@[simp] theorem setSfc_condition (v : BitVec 3) : (s.setSfc v).condition = s.condition := rfl
@[simp] theorem setSfc_mem (v : BitVec 3) : (s.setSfc v).mem = s.mem := rfl
@[simp] theorem setSfc_cfg (v : BitVec 3) : (s.setSfc v).cfg = s.cfg := rfl
@[simp] theorem setSfc_draws (v : BitVec 3) : (s.setSfc v).draws = s.draws := rfl
@[simp] theorem setSfc_readD (v : BitVec 3) (n : Reg) : (s.setSfc v).readD n = s.readD n := rfl
@[simp] theorem setSfc_readA (v : BitVec 3) (n : Reg) : (s.setSfc v).readA n = s.readA n := rfl
@[simp] theorem setSfc_readR (v : BitVec 3) (k : RegR) : (s.setSfc v).readR k = s.readR k := rfl
@[simp] theorem setSfc_supervisor (v : BitVec 3) : (s.setSfc v).supervisor = s.supervisor := rfl
@[simp] theorem setSfc_traced (v : BitVec 3) : (s.setSfc v).traced = s.traced := rfl
@[simp] theorem setSfc_model (v : BitVec 3) : (s.setSfc v).model = s.model := rfl
@[simp] theorem setSfc_ccr (v : BitVec 3) : (s.setSfc v).ccr = s.ccr := rfl
@[simp] theorem setSfc_dataFC (v : BitVec 3) : (s.setSfc v).dataFC = s.dataFC := rfl
@[simp] theorem setSfc_progFC (v : BitVec 3) : (s.setSfc v).progFC = s.progFC := rfl
@[simp] theorem setSfc_vectorBase (v : BitVec 3) : (s.setSfc v).vectorBase = s.vectorBase := rfl

/-! ### `setDfc` -/

@[simp] theorem setDfc_d (v : BitVec 3) : (s.setDfc v).d = s.d := rfl
@[simp] theorem setDfc_a (v : BitVec 3) : (s.setDfc v).a = s.a := rfl
@[simp] theorem setDfc_usp (v : BitVec 3) : (s.setDfc v).usp = s.usp := rfl
@[simp] theorem setDfc_ssp (v : BitVec 3) : (s.setDfc v).ssp = s.ssp := rfl
@[simp] theorem setDfc_pc (v : BitVec 3) : (s.setDfc v).pc = s.pc := rfl
@[simp] theorem setDfc_sr (v : BitVec 3) : (s.setDfc v).sr = s.sr := rfl
@[simp] theorem setDfc_vbr (v : BitVec 3) : (s.setDfc v).vbr = s.vbr := rfl
@[simp] theorem setDfc_sfc (v : BitVec 3) : (s.setDfc v).sfc = s.sfc := rfl
@[simp] theorem setDfc_dfc (v : BitVec 3) : (s.setDfc v).dfc = v := rfl
@[simp] theorem setDfc_condition (v : BitVec 3) : (s.setDfc v).condition = s.condition := rfl
@[simp] theorem setDfc_mem (v : BitVec 3) : (s.setDfc v).mem = s.mem := rfl
@[simp] theorem setDfc_cfg (v : BitVec 3) : (s.setDfc v).cfg = s.cfg := rfl
@[simp] theorem setDfc_draws (v : BitVec 3) : (s.setDfc v).draws = s.draws := rfl
@[simp] theorem setDfc_readD (v : BitVec 3) (n : Reg) : (s.setDfc v).readD n = s.readD n := rfl
@[simp] theorem setDfc_readA (v : BitVec 3) (n : Reg) : (s.setDfc v).readA n = s.readA n := rfl
@[simp] theorem setDfc_readR (v : BitVec 3) (k : RegR) : (s.setDfc v).readR k = s.readR k := rfl
@[simp] theorem setDfc_supervisor (v : BitVec 3) : (s.setDfc v).supervisor = s.supervisor := rfl
@[simp] theorem setDfc_traced (v : BitVec 3) : (s.setDfc v).traced = s.traced := rfl
@[simp] theorem setDfc_model (v : BitVec 3) : (s.setDfc v).model = s.model := rfl
@[simp] theorem setDfc_ccr (v : BitVec 3) : (s.setDfc v).ccr = s.ccr := rfl
@[simp] theorem setDfc_dataFC (v : BitVec 3) : (s.setDfc v).dataFC = s.dataFC := rfl
@[simp] theorem setDfc_progFC (v : BitVec 3) : (s.setDfc v).progFC = s.progFC := rfl
@[simp] theorem setDfc_vectorBase (v : BitVec 3) : (s.setDfc v).vectorBase = s.vectorBase := rfl

/-! ### `setSrBits` -/

@[simp] theorem setSrBits_d (v : HWord) : (s.setSrBits v).d = s.d := rfl
@[simp] theorem setSrBits_a (v : HWord) : (s.setSrBits v).a = s.a := rfl
@[simp] theorem setSrBits_usp (v : HWord) : (s.setSrBits v).usp = s.usp := rfl
@[simp] theorem setSrBits_ssp (v : HWord) : (s.setSrBits v).ssp = s.ssp := rfl
@[simp] theorem setSrBits_pc (v : HWord) : (s.setSrBits v).pc = s.pc := rfl
@[simp] theorem setSrBits_sr (v : HWord) : (s.setSrBits v).sr = v := rfl
@[simp] theorem setSrBits_vbr (v : HWord) : (s.setSrBits v).vbr = s.vbr := rfl
@[simp] theorem setSrBits_sfc (v : HWord) : (s.setSrBits v).sfc = s.sfc := rfl
@[simp] theorem setSrBits_dfc (v : HWord) : (s.setSrBits v).dfc = s.dfc := rfl
@[simp] theorem setSrBits_condition (v : HWord) : (s.setSrBits v).condition = s.condition := rfl
@[simp] theorem setSrBits_mem (v : HWord) : (s.setSrBits v).mem = s.mem := rfl
@[simp] theorem setSrBits_cfg (v : HWord) : (s.setSrBits v).cfg = s.cfg := rfl
@[simp] theorem setSrBits_draws (v : HWord) : (s.setSrBits v).draws = s.draws := rfl
@[simp] theorem setSrBits_readD (v : HWord) (n : Reg) : (s.setSrBits v).readD n = s.readD n := rfl
@[simp] theorem setSrBits_model (v : HWord) : (s.setSrBits v).model = s.model := rfl
@[simp] theorem setSrBits_vectorBase (v : HWord) : (s.setSrBits v).vectorBase = s.vectorBase := rfl

/-! ### `setMem` -/

@[simp] theorem setMem_d (v : Memory) : (s.setMem v).d = s.d := rfl
@[simp] theorem setMem_a (v : Memory) : (s.setMem v).a = s.a := rfl
@[simp] theorem setMem_usp (v : Memory) : (s.setMem v).usp = s.usp := rfl
@[simp] theorem setMem_ssp (v : Memory) : (s.setMem v).ssp = s.ssp := rfl
@[simp] theorem setMem_pc (v : Memory) : (s.setMem v).pc = s.pc := rfl
@[simp] theorem setMem_sr (v : Memory) : (s.setMem v).sr = s.sr := rfl
@[simp] theorem setMem_vbr (v : Memory) : (s.setMem v).vbr = s.vbr := rfl
@[simp] theorem setMem_sfc (v : Memory) : (s.setMem v).sfc = s.sfc := rfl
@[simp] theorem setMem_dfc (v : Memory) : (s.setMem v).dfc = s.dfc := rfl
@[simp] theorem setMem_condition (v : Memory) : (s.setMem v).condition = s.condition := rfl
@[simp] theorem setMem_mem (v : Memory) : (s.setMem v).mem = v := rfl
@[simp] theorem setMem_cfg (v : Memory) : (s.setMem v).cfg = s.cfg := rfl
@[simp] theorem setMem_draws (v : Memory) : (s.setMem v).draws = s.draws := rfl
@[simp] theorem setMem_readD (v : Memory) (n : Reg) : (s.setMem v).readD n = s.readD n := rfl
@[simp] theorem setMem_readA (v : Memory) (n : Reg) : (s.setMem v).readA n = s.readA n := rfl
@[simp] theorem setMem_readR (v : Memory) (k : RegR) : (s.setMem v).readR k = s.readR k := rfl
@[simp] theorem setMem_supervisor (v : Memory) : (s.setMem v).supervisor = s.supervisor := rfl
@[simp] theorem setMem_traced (v : Memory) : (s.setMem v).traced = s.traced := rfl
@[simp] theorem setMem_model (v : Memory) : (s.setMem v).model = s.model := rfl
@[simp] theorem setMem_ccr (v : Memory) : (s.setMem v).ccr = s.ccr := rfl
@[simp] theorem setMem_dataFC (v : Memory) : (s.setMem v).dataFC = s.dataFC := rfl
@[simp] theorem setMem_progFC (v : Memory) : (s.setMem v).progFC = s.progFC := rfl
@[simp] theorem setMem_vectorBase (v : Memory) : (s.setMem v).vectorBase = s.vectorBase := rfl

/-! ### `setCondition` -/

@[simp] theorem setCondition_d (v : Condition) : (s.setCondition v).d = s.d := rfl
@[simp] theorem setCondition_a (v : Condition) : (s.setCondition v).a = s.a := rfl
@[simp] theorem setCondition_usp (v : Condition) : (s.setCondition v).usp = s.usp := rfl
@[simp] theorem setCondition_ssp (v : Condition) : (s.setCondition v).ssp = s.ssp := rfl
@[simp] theorem setCondition_pc (v : Condition) : (s.setCondition v).pc = s.pc := rfl
@[simp] theorem setCondition_sr (v : Condition) : (s.setCondition v).sr = s.sr := rfl
@[simp] theorem setCondition_vbr (v : Condition) : (s.setCondition v).vbr = s.vbr := rfl
@[simp] theorem setCondition_sfc (v : Condition) : (s.setCondition v).sfc = s.sfc := rfl
@[simp] theorem setCondition_dfc (v : Condition) : (s.setCondition v).dfc = s.dfc := rfl
@[simp] theorem setCondition_condition (v : Condition) : (s.setCondition v).condition = v := rfl
@[simp] theorem setCondition_mem (v : Condition) : (s.setCondition v).mem = s.mem := rfl
@[simp] theorem setCondition_cfg (v : Condition) : (s.setCondition v).cfg = s.cfg := rfl
@[simp] theorem setCondition_draws (v : Condition) : (s.setCondition v).draws = s.draws := rfl
@[simp] theorem setCondition_readD (v : Condition) (n : Reg) : (s.setCondition v).readD n = s.readD n := rfl
@[simp] theorem setCondition_readA (v : Condition) (n : Reg) : (s.setCondition v).readA n = s.readA n := rfl
@[simp] theorem setCondition_readR (v : Condition) (k : RegR) : (s.setCondition v).readR k = s.readR k := rfl
@[simp] theorem setCondition_supervisor (v : Condition) : (s.setCondition v).supervisor = s.supervisor := rfl
@[simp] theorem setCondition_traced (v : Condition) : (s.setCondition v).traced = s.traced := rfl
@[simp] theorem setCondition_model (v : Condition) : (s.setCondition v).model = s.model := rfl
@[simp] theorem setCondition_ccr (v : Condition) : (s.setCondition v).ccr = s.ccr := rfl
@[simp] theorem setCondition_dataFC (v : Condition) : (s.setCondition v).dataFC = s.dataFC := rfl
@[simp] theorem setCondition_progFC (v : Condition) : (s.setCondition v).progFC = s.progFC := rfl
@[simp] theorem setCondition_vectorBase (v : Condition) : (s.setCondition v).vectorBase = s.vectorBase := rfl

/-! ### `countDraw` -/

@[simp] theorem countDraw_d : s.countDraw.d = s.d := rfl
@[simp] theorem countDraw_a : s.countDraw.a = s.a := rfl
@[simp] theorem countDraw_usp : s.countDraw.usp = s.usp := rfl
@[simp] theorem countDraw_ssp : s.countDraw.ssp = s.ssp := rfl
@[simp] theorem countDraw_pc : s.countDraw.pc = s.pc := rfl
@[simp] theorem countDraw_sr : s.countDraw.sr = s.sr := rfl
@[simp] theorem countDraw_vbr : s.countDraw.vbr = s.vbr := rfl
@[simp] theorem countDraw_sfc : s.countDraw.sfc = s.sfc := rfl
@[simp] theorem countDraw_dfc : s.countDraw.dfc = s.dfc := rfl
@[simp] theorem countDraw_condition : s.countDraw.condition = s.condition := rfl
@[simp] theorem countDraw_mem : s.countDraw.mem = s.mem := rfl
@[simp] theorem countDraw_cfg : s.countDraw.cfg = s.cfg := rfl
@[simp] theorem countDraw_draws : s.countDraw.draws = s.draws + 1 := rfl
@[simp] theorem countDraw_readD (n : Reg) : s.countDraw.readD n = s.readD n := rfl
@[simp] theorem countDraw_readA (n : Reg) : s.countDraw.readA n = s.readA n := rfl
@[simp] theorem countDraw_readR (k : RegR) : s.countDraw.readR k = s.readR k := rfl
@[simp] theorem countDraw_supervisor : s.countDraw.supervisor = s.supervisor := rfl
@[simp] theorem countDraw_traced : s.countDraw.traced = s.traced := rfl
@[simp] theorem countDraw_model : s.countDraw.model = s.model := rfl
@[simp] theorem countDraw_ccr : s.countDraw.ccr = s.ccr := rfl
@[simp] theorem countDraw_dataFC : s.countDraw.dataFC = s.dataFC := rfl
@[simp] theorem countDraw_progFC : s.countDraw.progFC = s.progFC := rfl
@[simp] theorem countDraw_vectorBase : s.countDraw.vectorBase = s.vectorBase := rfl

/-! ### `setFlags` -/

@[simp] theorem setFlags_d (v : Ccr) : (s.setFlags v).d = s.d := rfl
@[simp] theorem setFlags_a (v : Ccr) : (s.setFlags v).a = s.a := rfl
@[simp] theorem setFlags_usp (v : Ccr) : (s.setFlags v).usp = s.usp := rfl
@[simp] theorem setFlags_ssp (v : Ccr) : (s.setFlags v).ssp = s.ssp := rfl
@[simp] theorem setFlags_pc (v : Ccr) : (s.setFlags v).pc = s.pc := rfl
@[simp] theorem setFlags_vbr (v : Ccr) : (s.setFlags v).vbr = s.vbr := rfl
@[simp] theorem setFlags_sfc (v : Ccr) : (s.setFlags v).sfc = s.sfc := rfl
@[simp] theorem setFlags_dfc (v : Ccr) : (s.setFlags v).dfc = s.dfc := rfl
@[simp] theorem setFlags_condition (v : Ccr) : (s.setFlags v).condition = s.condition := rfl
@[simp] theorem setFlags_mem (v : Ccr) : (s.setFlags v).mem = s.mem := rfl
@[simp] theorem setFlags_cfg (v : Ccr) : (s.setFlags v).cfg = s.cfg := rfl
@[simp] theorem setFlags_draws (v : Ccr) : (s.setFlags v).draws = s.draws := rfl
@[simp] theorem setFlags_readD (v : Ccr) (n : Reg) : (s.setFlags v).readD n = s.readD n := rfl
@[simp] theorem setFlags_model (v : Ccr) : (s.setFlags v).model = s.model := rfl
@[simp] theorem setFlags_vectorBase (v : Ccr) : (s.setFlags v).vectorBase = s.vectorBase := rfl

/-! ### `setCCR` -/

@[simp] theorem setCCR_d (v : Byte) : (s.setCCR v).d = s.d := rfl
@[simp] theorem setCCR_a (v : Byte) : (s.setCCR v).a = s.a := rfl
@[simp] theorem setCCR_usp (v : Byte) : (s.setCCR v).usp = s.usp := rfl
@[simp] theorem setCCR_ssp (v : Byte) : (s.setCCR v).ssp = s.ssp := rfl
@[simp] theorem setCCR_pc (v : Byte) : (s.setCCR v).pc = s.pc := rfl
@[simp] theorem setCCR_vbr (v : Byte) : (s.setCCR v).vbr = s.vbr := rfl
@[simp] theorem setCCR_sfc (v : Byte) : (s.setCCR v).sfc = s.sfc := rfl
@[simp] theorem setCCR_dfc (v : Byte) : (s.setCCR v).dfc = s.dfc := rfl
@[simp] theorem setCCR_condition (v : Byte) : (s.setCCR v).condition = s.condition := rfl
@[simp] theorem setCCR_mem (v : Byte) : (s.setCCR v).mem = s.mem := rfl
@[simp] theorem setCCR_cfg (v : Byte) : (s.setCCR v).cfg = s.cfg := rfl
@[simp] theorem setCCR_draws (v : Byte) : (s.setCCR v).draws = s.draws := rfl
@[simp] theorem setCCR_readD (v : Byte) (n : Reg) : (s.setCCR v).readD n = s.readD n := rfl
@[simp] theorem setCCR_model (v : Byte) : (s.setCCR v).model = s.model := rfl
@[simp] theorem setCCR_vectorBase (v : Byte) : (s.setCCR v).vectorBase = s.vectorBase := rfl

/-! ### `resetStatus` -/

@[simp] theorem resetStatus_d : s.resetStatus.d = s.d := rfl
@[simp] theorem resetStatus_a : s.resetStatus.a = s.a := rfl
@[simp] theorem resetStatus_usp : s.resetStatus.usp = s.usp := rfl
@[simp] theorem resetStatus_ssp : s.resetStatus.ssp = s.ssp := rfl
@[simp] theorem resetStatus_pc : s.resetStatus.pc = s.pc := rfl
@[simp] theorem resetStatus_vbr : s.resetStatus.vbr = s.vbr := rfl
@[simp] theorem resetStatus_sfc : s.resetStatus.sfc = s.sfc := rfl
@[simp] theorem resetStatus_dfc : s.resetStatus.dfc = s.dfc := rfl
@[simp] theorem resetStatus_condition : s.resetStatus.condition = s.condition := rfl
@[simp] theorem resetStatus_mem : s.resetStatus.mem = s.mem := rfl
@[simp] theorem resetStatus_cfg : s.resetStatus.cfg = s.cfg := rfl
@[simp] theorem resetStatus_draws : s.resetStatus.draws = s.draws := rfl

/-! ### `writeD` -/

@[simp] theorem writeD_a (n : Reg) (v : Long) : (s.writeD n v).a = s.a := rfl
@[simp] theorem writeD_usp (n : Reg) (v : Long) : (s.writeD n v).usp = s.usp := rfl
@[simp] theorem writeD_ssp (n : Reg) (v : Long) : (s.writeD n v).ssp = s.ssp := rfl
@[simp] theorem writeD_pc (n : Reg) (v : Long) : (s.writeD n v).pc = s.pc := rfl
@[simp] theorem writeD_sr (n : Reg) (v : Long) : (s.writeD n v).sr = s.sr := rfl
@[simp] theorem writeD_vbr (n : Reg) (v : Long) : (s.writeD n v).vbr = s.vbr := rfl
@[simp] theorem writeD_sfc (n : Reg) (v : Long) : (s.writeD n v).sfc = s.sfc := rfl
@[simp] theorem writeD_dfc (n : Reg) (v : Long) : (s.writeD n v).dfc = s.dfc := rfl
@[simp] theorem writeD_condition (n : Reg) (v : Long) : (s.writeD n v).condition = s.condition := rfl
@[simp] theorem writeD_mem (n : Reg) (v : Long) : (s.writeD n v).mem = s.mem := rfl
@[simp] theorem writeD_cfg (n : Reg) (v : Long) : (s.writeD n v).cfg = s.cfg := rfl
@[simp] theorem writeD_draws (n : Reg) (v : Long) : (s.writeD n v).draws = s.draws := rfl
@[simp] theorem writeD_readA (n : Reg) (v : Long) (m : Reg) : (s.writeD n v).readA m = s.readA m := rfl
@[simp] theorem writeD_supervisor (n : Reg) (v : Long) : (s.writeD n v).supervisor = s.supervisor := rfl
@[simp] theorem writeD_traced (n : Reg) (v : Long) : (s.writeD n v).traced = s.traced := rfl
@[simp] theorem writeD_model (n : Reg) (v : Long) : (s.writeD n v).model = s.model := rfl
@[simp] theorem writeD_ccr (n : Reg) (v : Long) : (s.writeD n v).ccr = s.ccr := rfl
@[simp] theorem writeD_dataFC (n : Reg) (v : Long) : (s.writeD n v).dataFC = s.dataFC := rfl
@[simp] theorem writeD_progFC (n : Reg) (v : Long) : (s.writeD n v).progFC = s.progFC := rfl
@[simp] theorem writeD_vectorBase (n : Reg) (v : Long) : (s.writeD n v).vectorBase = s.vectorBase := rfl

/-! ### `setD` -/

@[simp] theorem setD_a (n : Reg) (sz : Size) (v : Long) : (s.setD n sz v).a = s.a := rfl
@[simp] theorem setD_usp (n : Reg) (sz : Size) (v : Long) : (s.setD n sz v).usp = s.usp := rfl
@[simp] theorem setD_ssp (n : Reg) (sz : Size) (v : Long) : (s.setD n sz v).ssp = s.ssp := rfl
@[simp] theorem setD_pc (n : Reg) (sz : Size) (v : Long) : (s.setD n sz v).pc = s.pc := rfl
@[simp] theorem setD_sr (n : Reg) (sz : Size) (v : Long) : (s.setD n sz v).sr = s.sr := rfl
@[simp] theorem setD_vbr (n : Reg) (sz : Size) (v : Long) : (s.setD n sz v).vbr = s.vbr := rfl
@[simp] theorem setD_sfc (n : Reg) (sz : Size) (v : Long) : (s.setD n sz v).sfc = s.sfc := rfl
@[simp] theorem setD_dfc (n : Reg) (sz : Size) (v : Long) : (s.setD n sz v).dfc = s.dfc := rfl
@[simp] theorem setD_condition (n : Reg) (sz : Size) (v : Long) : (s.setD n sz v).condition = s.condition := rfl
@[simp] theorem setD_mem (n : Reg) (sz : Size) (v : Long) : (s.setD n sz v).mem = s.mem := rfl
@[simp] theorem setD_cfg (n : Reg) (sz : Size) (v : Long) : (s.setD n sz v).cfg = s.cfg := rfl
@[simp] theorem setD_draws (n : Reg) (sz : Size) (v : Long) : (s.setD n sz v).draws = s.draws := rfl
@[simp] theorem setD_readA (n : Reg) (sz : Size) (v : Long) (m : Reg) : (s.setD n sz v).readA m = s.readA m := rfl
@[simp] theorem setD_supervisor (n : Reg) (sz : Size) (v : Long) : (s.setD n sz v).supervisor = s.supervisor := rfl
@[simp] theorem setD_traced (n : Reg) (sz : Size) (v : Long) : (s.setD n sz v).traced = s.traced := rfl
@[simp] theorem setD_model (n : Reg) (sz : Size) (v : Long) : (s.setD n sz v).model = s.model := rfl
@[simp] theorem setD_ccr (n : Reg) (sz : Size) (v : Long) : (s.setD n sz v).ccr = s.ccr := rfl
@[simp] theorem setD_dataFC (n : Reg) (sz : Size) (v : Long) : (s.setD n sz v).dataFC = s.dataFC := rfl
@[simp] theorem setD_progFC (n : Reg) (sz : Size) (v : Long) : (s.setD n sz v).progFC = s.progFC := rfl
@[simp] theorem setD_vectorBase (n : Reg) (sz : Size) (v : Long) : (s.setD n sz v).vectorBase = s.vectorBase := rfl

/-! ### `writeA` -/

@[simp] theorem writeA_d (n : Reg) (v : Long) : (s.writeA n v).d = s.d := by
  unfold writeA; split
  · rfl
  · split <;> rfl
@[simp] theorem writeA_pc (n : Reg) (v : Long) : (s.writeA n v).pc = s.pc := by
  unfold writeA; split
  · rfl
  · split <;> rfl
@[simp] theorem writeA_sr (n : Reg) (v : Long) : (s.writeA n v).sr = s.sr := by
  unfold writeA; split
  · rfl
  · split <;> rfl
@[simp] theorem writeA_vbr (n : Reg) (v : Long) : (s.writeA n v).vbr = s.vbr := by
  unfold writeA; split
  · rfl
  · split <;> rfl
@[simp] theorem writeA_sfc (n : Reg) (v : Long) : (s.writeA n v).sfc = s.sfc := by
  unfold writeA; split
  · rfl
  · split <;> rfl
@[simp] theorem writeA_dfc (n : Reg) (v : Long) : (s.writeA n v).dfc = s.dfc := by
  unfold writeA; split
  · rfl
  · split <;> rfl
@[simp] theorem writeA_condition (n : Reg) (v : Long) : (s.writeA n v).condition = s.condition := by
  unfold writeA; split
  · rfl
  · split <;> rfl
@[simp] theorem writeA_mem (n : Reg) (v : Long) : (s.writeA n v).mem = s.mem := by
  unfold writeA; split
  · rfl
  · split <;> rfl
@[simp] theorem writeA_cfg (n : Reg) (v : Long) : (s.writeA n v).cfg = s.cfg := by
  unfold writeA; split
  · rfl
  · split <;> rfl
@[simp] theorem writeA_draws (n : Reg) (v : Long) : (s.writeA n v).draws = s.draws := by
  unfold writeA; split
  · rfl
  · split <;> rfl
@[simp] theorem writeA_readD (n : Reg) (v : Long) (m : Reg) : (s.writeA n v).readD m = s.readD m := by
  unfold writeA; split
  · rfl
  · split <;> rfl
@[simp] theorem writeA_supervisor (n : Reg) (v : Long) : (s.writeA n v).supervisor = s.supervisor := by
  unfold writeA; split
  · rfl
  · split <;> rfl
@[simp] theorem writeA_traced (n : Reg) (v : Long) : (s.writeA n v).traced = s.traced := by
  unfold writeA; split
  · rfl
  · split <;> rfl
@[simp] theorem writeA_model (n : Reg) (v : Long) : (s.writeA n v).model = s.model := by
  unfold writeA; split
  · rfl
  · split <;> rfl
@[simp] theorem writeA_ccr (n : Reg) (v : Long) : (s.writeA n v).ccr = s.ccr := by
  unfold writeA; split
  · rfl
  · split <;> rfl
@[simp] theorem writeA_dataFC (n : Reg) (v : Long) : (s.writeA n v).dataFC = s.dataFC := by
  unfold writeA; split
  · rfl
  · split <;> rfl
@[simp] theorem writeA_progFC (n : Reg) (v : Long) : (s.writeA n v).progFC = s.progFC := by
  unfold writeA; split
  · rfl
  · split <;> rfl
@[simp] theorem writeA_vectorBase (n : Reg) (v : Long) : (s.writeA n v).vectorBase = s.vectorBase := by
  unfold writeA; split
  · rfl
  · split <;> rfl

/-! ### `writeR` -/

@[simp] theorem writeR_pc (k : RegR) (v : Long) : (s.writeR k v).pc = s.pc := by
  unfold writeR; split <;> simp
@[simp] theorem writeR_sr (k : RegR) (v : Long) : (s.writeR k v).sr = s.sr := by
  unfold writeR; split <;> simp
@[simp] theorem writeR_vbr (k : RegR) (v : Long) : (s.writeR k v).vbr = s.vbr := by
  unfold writeR; split <;> simp
@[simp] theorem writeR_sfc (k : RegR) (v : Long) : (s.writeR k v).sfc = s.sfc := by
  unfold writeR; split <;> simp
@[simp] theorem writeR_dfc (k : RegR) (v : Long) : (s.writeR k v).dfc = s.dfc := by
  unfold writeR; split <;> simp
@[simp] theorem writeR_condition (k : RegR) (v : Long) : (s.writeR k v).condition = s.condition := by
  unfold writeR; split <;> simp
@[simp] theorem writeR_mem (k : RegR) (v : Long) : (s.writeR k v).mem = s.mem := by
  unfold writeR; split <;> simp
@[simp] theorem writeR_cfg (k : RegR) (v : Long) : (s.writeR k v).cfg = s.cfg := by
  unfold writeR; split <;> simp
@[simp] theorem writeR_draws (k : RegR) (v : Long) : (s.writeR k v).draws = s.draws := by
  unfold writeR; split <;> simp
@[simp] theorem writeR_supervisor (k : RegR) (v : Long) : (s.writeR k v).supervisor = s.supervisor := by
  unfold writeR; split <;> simp
@[simp] theorem writeR_traced (k : RegR) (v : Long) : (s.writeR k v).traced = s.traced := by
  unfold writeR; split <;> simp
@[simp] theorem writeR_model (k : RegR) (v : Long) : (s.writeR k v).model = s.model := by
  unfold writeR; split <;> simp
@[simp] theorem writeR_ccr (k : RegR) (v : Long) : (s.writeR k v).ccr = s.ccr := by
  unfold writeR; split <;> simp
@[simp] theorem writeR_dataFC (k : RegR) (v : Long) : (s.writeR k v).dataFC = s.dataFC := by
  unfold writeR; split <;> simp
@[simp] theorem writeR_progFC (k : RegR) (v : Long) : (s.writeR k v).progFC = s.progFC := by
  unfold writeR; split <;> simp
@[simp] theorem writeR_vectorBase (k : RegR) (v : Long) : (s.writeR k v).vectorBase = s.vectorBase := by
  unfold writeR; split <;> simp

/-! ### Reading after writing a register -/

@[simp] theorem readD_writeD_same (n : Reg) (v : Long) : (s.writeD n v).readD n = v := by
  simp [readD, writeD]

theorem readD_writeD_other {n m : Reg} (v : Long) (h : n ≠ m) : (s.writeD n v).readD m = s.readD m := by
  simp only [readD, writeD, Fin.getElem_fin]
  exact Vector.getElem_set_ne _ _ (fun e => h (Fin.ext e))

theorem readD_setD_same (n : Reg) (sz : Size) (v : Long) : (s.setD n sz v).readD n = mergeLow sz (s.readD n) v := by
  simp [setD]

theorem readD_setD_other {n m : Reg} (sz : Size) (v : Long) (h : n ≠ m) : (s.setD n sz v).readD m = s.readD m :=
  readD_writeD_other s _ h

@[simp] theorem readA_writeA_same (n : Reg) (v : Long) : (s.writeA n v).readA n = v := by
  by_cases h : n.val < 7
  · simp [readA, writeA, h]
  · by_cases hs : s.supervisor
    · have : (({ s with ssp := v } : State)).supervisor = true := hs
      simp [readA, writeA, h, hs, this]
    · have : (({ s with usp := v } : State)).supervisor = false := by simpa [supervisor] using hs
      simp [readA, writeA, h, hs, this]

theorem readA_writeA_other {n m : Reg} (v : Long) (h : n ≠ m) : (s.writeA n v).readA m = s.readA m := by
  have hv : n.val ≠ m.val := fun e => h (Fin.ext e)
  by_cases hn : n.val < 7
  · by_cases hm : m.val < 7
    · simp only [readA, writeA, hn, hm, dif_pos]
      exact Vector.getElem_set_ne _ _ hv
    · simp only [readA, writeA, hn, hm, dif_pos, dif_neg, not_false_iff]
      rfl
  · have hm : m.val < 7 := by omega
    simp only [readA, writeA, hn, hm, dif_pos, dif_neg, not_false_iff]
    split <;> rfl

/-- A write to A7 leaves the inactive stack pointer (R105). -/
theorem writeA_inactive (n : Reg) (v : Long) :
    (s.supervisor = true → (s.writeA n v).usp = s.usp) ∧ (s.supervisor = false → (s.writeA n v).ssp = s.ssp) := by
  unfold writeA
  constructor <;> intro h <;> split <;> simp [h]

end State

end Sys2Proof.Machine
end

