-- ==== Sys2Proof/Laws/Status.lean ====
section
/-! SUPPORT. The status register: reading the flags after a write, and what a write of the flags leaves (R110–R112). -/

namespace Sys2Proof.Machine

theorem Ccr.bits_getLsbD (f : Ccr) (k : Nat) :
    f.bits.getLsbD k = if k = 0 then f.c else if k = 1 then f.v else if k = 2 then f.z else if k = 3 then f.n
      else if k = 4 then f.x else false := by
  rcases f with ⟨x, n, z, v, c⟩
  match k with
  | 0 | 1 | 2 | 3 | 4 => cases x <;> cases n <;> cases z <;> cases v <;> cases c <;> rfl
  | k + 5 =>
    rw [BitVec.getLsbD_of_ge _ _ (by omega)]
    rfl

namespace State

variable (s : State)

theorem setFlags_sr_getLsbD (f : Ccr) (k : Nat) (hk : k < 16) :
    (s.setFlags f).sr.getLsbD k = if k < 5 then f.bits.getLsbD k else s.sr.getLsbD k := by
  simp only [setFlags, setSrBits_sr, BitVec.getLsbD_append]
  split
  · rfl
  · rw [BitVec.getLsbD_extractLsb']
    have : k - 5 < 11 := by omega
    simp only [this, decide_true, Bool.true_and]
    congr 1; omega

@[simp] theorem setFlags_ccr (f : Ccr) : (s.setFlags f).ccr = f := by
  simp only [ccr]
  rw [setFlags_sr_getLsbD _ _ 4 (by decide), setFlags_sr_getLsbD _ _ 3 (by decide), setFlags_sr_getLsbD _ _ 2 (by decide),
    setFlags_sr_getLsbD _ _ 1 (by decide), setFlags_sr_getLsbD _ _ 0 (by decide)]
  simp only [Ccr.bits_getLsbD]
  rfl

@[simp] theorem setFlags_systemByte (f : Ccr) : (s.setFlags f).systemByte = s.systemByte := by
  apply BitVec.eq_of_getLsbD_eq
  intro i hi
  simp only [systemByte, BitVec.getLsbD_extractLsb', hi, decide_true, Bool.true_and]
  rw [setFlags_sr_getLsbD _ _ _ (by omega), if_neg (by omega)]

@[simp] theorem setFlags_supervisor (f : Ccr) : (s.setFlags f).supervisor = s.supervisor := by
  simp only [supervisor]
  rw [setFlags_sr_getLsbD _ _ 13 (by decide)]
  rfl

@[simp] theorem setFlags_traced (f : Ccr) : (s.setFlags f).traced = s.traced := by
  simp only [traced]
  rw [setFlags_sr_getLsbD _ _ 15 (by decide), setFlags_sr_getLsbD _ _ 14 (by decide)]
  rfl

@[simp] theorem setFlags_dataFC (f : Ccr) : (s.setFlags f).dataFC = s.dataFC := by simp [dataFC]

@[simp] theorem setFlags_progFC (f : Ccr) : (s.setFlags f).progFC = s.progFC := by simp [progFC]

@[simp] theorem setFlags_readA (f : Ccr) (n : Reg) : (s.setFlags f).readA n = s.readA n := by
  simp only [readA, setFlags_supervisor, setFlags_a, setFlags_usp, setFlags_ssp]

@[simp] theorem setFlags_readR (f : Ccr) (k : RegR) : (s.setFlags f).readR k = s.readR k := by
  simp only [readR, setFlags_readA, setFlags_readD]

theorem setCCR_sr_getLsbD (v : Byte) (k : Nat) (hk : k < 16) :
    (s.setCCR v).sr.getLsbD k = if k < 5 then v.getLsbD k else decide (8 ≤ k) && s.sr.getLsbD k := by
  have h1 : (0xFF00#16).getLsbD k = decide (8 ≤ k) := by
    have : ∀ k : Fin 16, (0xFF00#16).getLsbD k.val = decide (8 ≤ k.val) := by decide
    exact this ⟨k, hk⟩
  have h2 : (0x001F#16).getLsbD k = decide (k < 5) := by
    have : ∀ k : Fin 16, (0x001F#16).getLsbD k.val = decide (k.val < 5) := by decide
    exact this ⟨k, hk⟩
  have e : (s.setCCR v).sr.getLsbD k = ((s.sr.getLsbD k && (0xFF00#16).getLsbD k)
      || ((decide (k < 16) && v.getLsbD k) && (0x001F#16).getLsbD k)) := by
    simp only [setCCR, setSrBits_sr, BitVec.getLsbD_or, BitVec.getLsbD_and, BitVec.getLsbD_setWidth]
    rfl
  rw [e, h1, h2]
  by_cases h5 : k < 5
  · have : ¬ 8 ≤ k := by omega
    simp only [h5, hk, this, decide_true, decide_false, Bool.and_true, Bool.and_false, Bool.true_and, Bool.false_or, if_true]
  · simp only [h5, decide_false, Bool.and_false, Bool.or_false, if_false]
    exact Bool.and_comm _ _

@[simp] theorem setCCR_supervisor (v : Byte) : (s.setCCR v).supervisor = s.supervisor := by
  simp only [supervisor]
  rw [setCCR_sr_getLsbD _ _ 13 (by decide)]
  rfl

@[simp] theorem setCCR_traced (v : Byte) : (s.setCCR v).traced = s.traced := by
  simp only [traced]
  rw [setCCR_sr_getLsbD _ _ 15 (by decide), setCCR_sr_getLsbD _ _ 14 (by decide)]
  rfl

@[simp] theorem setCCR_dataFC (v : Byte) : (s.setCCR v).dataFC = s.dataFC := by simp [dataFC]

@[simp] theorem setCCR_progFC (v : Byte) : (s.setCCR v).progFC = s.progFC := by simp [progFC]

@[simp] theorem setCCR_readA (v : Byte) (n : Reg) : (s.setCCR v).readA n = s.readA n := by
  simp only [readA, setCCR_supervisor, setCCR_a, setCCR_usp, setCCR_ssp]

@[simp] theorem setCCR_readR (v : Byte) (k : RegR) : (s.setCCR v).readR k = s.readR k := by
  simp only [readR, setCCR_readA, setCCR_readD]

@[simp] theorem setCCR_systemByte (v : Byte) : (s.setCCR v).systemByte = s.systemByte := by
  apply BitVec.eq_of_getLsbD_eq
  intro i hi
  simp only [systemByte, BitVec.getLsbD_extractLsb', hi, decide_true, Bool.true_and]
  rw [setCCR_sr_getLsbD _ _ _ (by omega), if_neg (by omega), decide_eq_true (by omega : 8 ≤ 8 + i), Bool.true_and]

theorem setCCR_ccr (v : Byte) : (s.setCCR v).ccr =
    { x := v.getLsbD 4, n := v.getLsbD 3, z := v.getLsbD 2, v := v.getLsbD 1, c := v.getLsbD 0 } := by
  simp only [ccr]
  rw [setCCR_sr_getLsbD _ _ 4 (by decide), setCCR_sr_getLsbD _ _ 3 (by decide), setCCR_sr_getLsbD _ _ 2 (by decide),
    setCCR_sr_getLsbD _ _ 1 (by decide), setCCR_sr_getLsbD _ _ 0 (by decide)]
  rfl

/-! ### Legal values: the unimplemented bits are 0 -/

theorem srLegal_iff : s.srLegal = true ↔ ∀ k, k < 16 → (srImplemented s.model).getLsbD k = false → s.sr.getLsbD k = false := by
  simp only [srLegal, beq_iff_eq]
  constructor
  · intro h k hk hm
    have := congrArg (fun v : HWord => v.getLsbD k) h
    simpa only [BitVec.getLsbD_and, BitVec.getLsbD_not, hm, hk, decide_true, Bool.not_false, Bool.and_true,
      BitVec.ofNat_eq_ofNat, BitVec.getLsbD_zero] using this
  · intro h
    apply BitVec.eq_of_getLsbD_eq
    intro k hk
    cases hm : (srImplemented s.model).getLsbD k
    · simp [BitVec.getLsbD_and, h k hk hm]
    · simp [BitVec.getLsbD_and, BitVec.getLsbD_not, hm]

theorem srImplemented_low (m : Model) (k : Nat) (hk : k < 5) : (srImplemented m).getLsbD k = true := by
  have : ∀ k : Fin 5, (srImplemented m).getLsbD k.val = true := by cases m <;> decide
  exact this ⟨k, hk⟩

theorem setFlags_srLegal (f : Ccr) (h : s.srLegal = true) : (s.setFlags f).srLegal = true := by
  rw [srLegal_iff] at *
  intro k hk hm
  rw [setFlags_sr_getLsbD _ _ _ hk]
  split
  · rename_i h5; simp [srImplemented_low _ _ h5] at hm
  · exact h k hk hm

theorem setCCR_srLegal (v : Byte) (h : s.srLegal = true) : (s.setCCR v).srLegal = true := by
  rw [srLegal_iff] at *
  intro k hk hm
  rw [setCCR_sr_getLsbD _ _ _ hk]
  split
  · rename_i h5; simp [srImplemented_low _ _ h5] at hm
  · simp [h k hk hm]

theorem setSrBits_srLegal (v : HWord) : (s.setSrBits (v &&& srImplemented s.model)).srLegal = true := by
  rw [srLegal_iff]
  intro k _ hm
  simp only [setSrBits_model] at hm
  simp [BitVec.getLsbD_and, hm]

theorem resetStatus_srLegal (h : s.srLegal = true) : s.resetStatus.srLegal = true := by
  rw [srLegal_iff] at *
  intro k hk hm
  have hm' : (srImplemented s.model).getLsbD k = false := hm
  have h27 : (0x2700#16).getLsbD k = false := by
    have : ∀ m, ∀ k : Fin 16, (srImplemented m).getLsbD k.val = false → (0x2700#16).getLsbD k.val = false := by
      intro m; cases m <;> decide
    exact this _ ⟨k, hk⟩ hm'
  have : s.resetStatus.sr = 0x2700#16 ||| (s.sr &&& 0x00FF) := rfl
  simp [this, BitVec.getLsbD_or, BitVec.getLsbD_and, h27, h k hk hm']

@[simp] theorem resetStatus_supervisor : s.resetStatus.supervisor = true := by
  simp [supervisor, resetStatus]

end State

end Sys2Proof.Machine
end

