-- ==== Sys2Proof/Laws/Exec.lean ====
section
/-! SUPPORT. Running the parts of a step: one equation per named operation, so that a proof rewrites a meaning's run and
unfolds nothing. -/

namespace Sys2Proof.Machine

variable {α β : Type}

@[simp] theorem run_pure (a : α) (s : State) : (pure a : Exec α) s = .ok a s := rfl

theorem run_bind (x : Exec α) (f : α → Exec β) (s : State) :
    (x >>= f) s = match x s with
      | .ok a t => f a t
      | .error e t => .error e t := by
  show EStateM.bind x f s = _
  rw [EStateM.bind]
  cases x s <;> rfl

@[simp] theorem run_bind_ok {x : Exec α} {f : α → Exec β} {s t : State} {a : α} (h : x s = .ok a t) :
    (x >>= f) s = f a t := by rw [run_bind, h]

theorem run_bind_error {x : Exec α} {f : α → Exec β} {s t : State} {e : Stop} (h : x s = .error e t) :
    (x >>= f) s = .error e t := by rw [run_bind, h]

/-- A sequence that ends well ran both parts. -/
theorem bind_ok {x : Exec α} {f : α → Exec β} {s t : State} {b : β} (h : (x >>= f) s = .ok b t) :
    ∃ a u, x s = .ok a u ∧ f a u = .ok b t := by
  rw [run_bind] at h
  cases hx : x s with
  | ok a u => rw [hx] at h; exact ⟨a, u, rfl, h⟩
  | error e u => rw [hx] at h; cases h

@[simp] theorem run_look (f : State → α) (s : State) : look f s = .ok (f s) s := rfl
@[simp] theorem run_update (f : State → State) (s : State) : update f s = .ok () (f s) := rfl
@[simp] theorem run_stopWith (r : Stop) (s : State) : (stopWith r : Exec α) s = .error r s := rfl
@[simp] theorem run_refuse (r : Refusal) (s : State) : (refuse r : Exec α) s = .error (.refused r) s := rfl
@[simp] theorem run_halt (s : State) : (halt : Exec α) s = .error .ended (s.setCondition .halted) := rfl
@[simp] theorem run_busError (s : State) : (busError : Exec α) s = .error .ended (s.setCondition .halted) := rfl
@[simp] theorem run_addressError (s : State) : (addressError : Exec α) s = .error .ended (s.setCondition .halted) := rfl
@[simp] theorem run_drawBit (s : State) : drawBit s = .ok (Config.freeBit s.draws) s.countDraw := rfl
@[simp] theorem run_drawByte (s : State) : drawByte s = .ok (Config.freeByte s.draws) s.countDraw := rfl
@[simp] theorem run_drawLong (s : State) : drawLong s = .ok (Config.freeLong s.draws) s.countDraw := rfl
@[simp] theorem run_getD (n : Reg) (sz : Size) (s : State) : getD n sz s = .ok (truncTo sz (s.readD n)) s := rfl
@[simp] theorem run_putD (n : Reg) (sz : Size) (v : Long) (s : State) : putD n sz v s = .ok () (s.setD n sz v) := rfl
@[simp] theorem run_getA (n : Reg) (s : State) : getA n s = .ok (s.readA n) s := rfl
@[simp] theorem run_putA (n : Reg) (v : Long) (s : State) : putA n v s = .ok () (s.writeA n v) := rfl
@[simp] theorem run_getR (k : RegR) (s : State) : getR k s = .ok (s.readR k) s := rfl
@[simp] theorem run_putR (k : RegR) (v : Long) (s : State) : putR k v s = .ok () (s.writeR k v) := rfl
@[simp] theorem run_getPc (s : State) : getPc s = .ok s.pc s := rfl
@[simp] theorem run_putPc (v : Long) (s : State) : putPc v s = .ok () (s.setPc v) := rfl
@[simp] theorem run_getFlags (s : State) : getFlags s = .ok s.ccr s := rfl
@[simp] theorem run_putFlags (f : Ccr) (s : State) : putFlags f s = .ok () (s.setFlags f) := rfl
@[simp] theorem run_getModel (s : State) : getModel s = .ok s.model s := rfl

@[simp] theorem finish_ok {x : Exec Unit} {s t : State} {u : Unit} (h : x s = .ok u t) : finish x s = .next t := by
  rw [finish, h]

@[simp] theorem finish_ended {x : Exec Unit} {s t : State} (h : x s = .error .ended t) : finish x s = .next t := by
  rw [finish, h]

@[simp] theorem finish_refused {x : Exec Unit} {s t : State} {r : Refusal} (h : x s = .error (.refused r) t) :
    finish x s = .refused r := by rw [finish, h]

/-- A next state comes from a meaning that ran to its end or ended early in it. -/
theorem finish_next {x : Exec Unit} {s t : State} (h : finish x s = .next t) : x s = .ok () t ∨ x s = .error .ended t := by
  unfold finish at h
  split at h
  · cases h; exact .inl (by assumption)
  · cases h; exact .inr (by assumption)
  · cases h
  · cases h

/-- SetSR (R112): the value is refused, or its implemented bits are written. -/
theorem run_setSR (v : HWord) (s : State) : setSR v s =
    if srRefused s.model v then .error (.refused .masterStackNotModelled) s
    else .ok () (s.setSrBits (v &&& srImplemented s.model)) := by
  simp only [setSR, run_bind, run_getModel]
  split <;> rfl

/-- A read of memory: the value, or a halt that changes nothing else (R220, R1302). -/
theorem run_memReadFC (addr : Long) (sz : Size) (fc : BitVec 3) (s : State) : memReadFC addr sz fc s =
    if misaligned s.model sz addr then .error .ended (s.setCondition .halted)
    else match translate s.cfg addr sz.bytes fc .read with
      | none => .error .ended (s.setCondition .halted)
      | some k => .ok (Memory.readSized s.mem k sz) s := rfl

theorem memReadFC_ok {addr : Long} {sz : Size} {fc : BitVec 3} {s t : State} {v : Long}
    (h : memReadFC addr sz fc s = .ok v t) : t = s ∧ misaligned s.model sz addr = false ∧
      ∃ k, translate s.cfg addr sz.bytes fc .read = some k ∧ v = Memory.readSized s.mem k sz := by
  rw [run_memReadFC] at h
  split at h
  · cases h
  · split at h
    · cases h
    · rename_i hm _ k hk
      cases h
      exact ⟨rfl, by simpa using hm, k, hk, rfl⟩

/-- A write of memory: the cells, or a halt that changes nothing else. -/
theorem run_memWriteFC (addr : Long) (sz : Size) (fc : BitVec 3) (v : Long) (s : State) : memWriteFC addr sz fc v s =
    if misaligned s.model sz addr then .error .ended (s.setCondition .halted)
    else match translate s.cfg addr sz.bytes fc .write with
      | none => .error .ended (s.setCondition .halted)
      | some k => .ok () (s.setMem (Memory.writeSized s.mem k sz v)) := rfl

theorem memWriteFC_ok {addr : Long} {sz : Size} {fc : BitVec 3} {v : Long} {s t : State} {u : Unit}
    (h : memWriteFC addr sz fc v s = .ok u t) : misaligned s.model sz addr = false ∧
      ∃ k, translate s.cfg addr sz.bytes fc .write = some k ∧ t = s.setMem (Memory.writeSized s.mem k sz v) := by
  rw [run_memWriteFC] at h
  split at h
  · cases h
  · split at h
    · cases h
    · rename_i hm _ k hk
      cases h
      exact ⟨by simpa using hm, k, hk, rfl⟩

@[simp] theorem run_memRead (addr : Long) (sz : Size) (s : State) : memRead addr sz s = memReadFC addr sz s.dataFC s := rfl

@[simp] theorem run_memWrite (addr : Long) (sz : Size) (v : Long) (s : State) :
    memWrite addr sz v s = memWriteFC addr sz s.dataFC v s := rfl

/-- Push (R16): A7 moves first, then the value is stored at the new A7. -/
theorem run_push (sz : Size) (v : Long) (s : State) : push sz v s =
    memWriteFC (s.readA 7 - byteCount sz) sz s.dataFC v (s.writeA 7 (s.readA 7 - byteCount sz)) := by
  simp only [push, run_bind, run_getA, run_putA, run_memWrite, State.writeA_dataFC]

/-- Pop (R16): A7 moves after the read. -/
theorem run_pop (sz : Size) (s : State) : pop sz s =
    match memReadFC (s.readA 7) sz s.dataFC s with
    | .ok v t => .ok v (t.writeA 7 (s.readA 7 + byteCount sz))
    | .error e t => .error e t := by
  simp only [pop, run_bind, run_getA, run_memRead, run_putA, run_pure]
  split <;> simp_all

/-- raise (R1310, R1301): the entry, and the step is over. -/
theorem run_raise (vec : Nat) (p : Long) (ia : Option Long) (s : State) : (raise vec p ia : Exec α) s =
    match enterException vec p ia s with
    | .ok _ t => .error .ended t
    | .error e t => .error e t := by
  simp only [raise, run_bind, run_stopWith]
  cases enterException vec p ia s <;> rfl

/-- Exception entry in the halting mode (R1310). -/
theorem run_enterException_halt (vec : Nat) (p : Long) (ia : Option Long) (s : State)
    (h : s.cfg.exceptionMode = .halt) : enterException vec p ia s = .error .ended (s.setCondition .halted) := by
  simp only [enterException, run_bind, run_look, h, run_halt]

/-- Exception entry in the vectoring mode, as a sequence of its parts (R1310). -/
theorem run_enterException_vector (vec : Nat) (p : Long) (ia : Option Long) (s : State)
    (h : s.cfg.exceptionMode = .vector) : enterException vec p ia s =
      (do
        setSR ((s.sr ||| 0x2000) &&& 0x3FFF)
        pushFrame vec p ia s.sr
        let v ← look fun s => s.vectorAddress vec
        let h ← memReadFC v .l 5
        putPc h : Exec Unit) s := by
  simp only [enterException, run_bind, run_look, h]

/-! ### Resolving an operand, mode by mode (R418) -/

@[simp] theorem run_resolve_dn (xa : Long) (n : Reg) (sz : Size) (s : State) :
    resolveEA xa (.dn n) sz s = .ok (.regD n) s := rfl
@[simp] theorem run_resolve_an (xa : Long) (n : Reg) (sz : Size) (s : State) :
    resolveEA xa (.an n) sz s = .ok (.regA n) s := rfl
@[simp] theorem run_resolve_ind (xa : Long) (n : Reg) (sz : Size) (s : State) :
    resolveEA xa (.ind n) sz s = .ok (.mem (s.readA n) .data) s := rfl
@[simp] theorem run_resolve_postinc (xa : Long) (n : Reg) (sz : Size) (s : State) :
    resolveEA xa (.postinc n) sz s = .ok (.mem (s.readA n) .data) (s.writeA n (s.readA n + eaStep n sz)) := rfl
@[simp] theorem run_resolve_predec (xa : Long) (n : Reg) (sz : Size) (s : State) :
    resolveEA xa (.predec n) sz s =
      .ok (.mem (s.readA n - eaStep n sz) .data) (s.writeA n (s.readA n - eaStep n sz)) := rfl
@[simp] theorem run_resolve_disp (xa : Long) (n : Reg) (d : HWord) (sz : Size) (s : State) :
    resolveEA xa (.disp n d) sz s = .ok (.mem (s.readA n + sext16 d) .data) s := rfl
@[simp] theorem run_resolve_absW (xa : Long) (a : HWord) (sz : Size) (s : State) :
    resolveEA xa (.absW a) sz s = .ok (.mem (sext16 a) .data) s := rfl
@[simp] theorem run_resolve_absL (xa : Long) (a : Long) (sz : Size) (s : State) :
    resolveEA xa (.absL a) sz s = .ok (.mem a .data) s := rfl
@[simp] theorem run_resolve_pcDisp (xa : Long) (d : HWord) (sz : Size) (s : State) :
    resolveEA xa (.pcDisp d) sz s = .ok (.mem (xa + sext16 d) .program) s := rfl
@[simp] theorem run_resolve_imm (xa : Long) (v : Imm) (sz : Size) (s : State) :
    resolveEA xa (.imm v) sz s = .ok (.imm v.value) s := rfl

@[simp] theorem run_readLoc_regD (n : Reg) (sz : Size) (s : State) :
    readLoc (.regD n) sz s = .ok (truncTo sz (s.readD n)) s := rfl
@[simp] theorem run_readLoc_regA (n : Reg) (sz : Size) (s : State) :
    readLoc (.regA n) sz s = .ok (truncTo sz (s.readA n)) s := rfl
@[simp] theorem run_readLoc_imm (v : Long) (sz : Size) (s : State) : readLoc (.imm v) sz s = .ok v s := rfl
@[simp] theorem run_readLoc_data (a : Long) (sz : Size) (s : State) :
    readLoc (.mem a .data) sz s = memReadFC a sz s.dataFC s := rfl
@[simp] theorem run_readLoc_program (a : Long) (sz : Size) (s : State) :
    readLoc (.mem a .program) sz s = memReadFC a sz s.progFC s := rfl
@[simp] theorem run_writeLoc_regD (n : Reg) (sz : Size) (v : Long) (s : State) :
    writeLoc (.regD n) sz v s = .ok () (s.setD n sz v) := rfl
@[simp] theorem run_writeLoc_regA (n : Reg) (sz : Size) (v : Long) (s : State) :
    writeLoc (.regA n) sz v s = .ok () (s.writeA n v) := rfl
@[simp] theorem run_writeLoc_data (a : Long) (sz : Size) (v : Long) (s : State) :
    writeLoc (.mem a .data) sz v s = memWriteFC a sz s.dataFC v s := rfl

/-- ResolveEA then Read (R420 (1)). -/
theorem run_readEA (xa : Long) (e : EA) (sz : Size) (s : State) : readEA xa e sz s =
    match resolveEA xa e sz s with
    | .ok l t => readLoc l sz t
    | .error r t => .error r t := by
  simp only [readEA, run_bind]
  cases resolveEA xa e sz s <;> rfl

theorem run_writeEA (xa : Long) (e : EA) (sz : Size) (v : Long) (s : State) : writeEA xa e sz v s =
    match resolveEA xa e sz s with
    | .ok l t => writeLoc l sz v t
    | .error r t => .error r t := by
  simp only [writeEA, run_bind]
  cases resolveEA xa e sz s <;> rfl

/-! ### The frame of a meaning -/

/-- A meaning that is neither illegal, nor refused, nor a privilege violation is its handler, run past its words. -/
theorem runInstr_entry {i : Instr} {handler : Long → Exec Unit} {s : State} (hv : rowVerdict s.model i = .entry)
    (hp : privilegeViolation i s = false) :
    runInstr i handler s = finish (handler s.pc) (s.setPc (pcNext i s.pc)) := by
  rw [runInstr, hv]
  simp only [hp, Bool.false_eq_true, if_false]

theorem runInstr_violation {i : Instr} {handler : Long → Exec Unit} {s : State} (hv : rowVerdict s.model i = .entry)
    (hp : privilegeViolation i s = true) :
    runInstr i handler s = finish (raise 8 s.pc none) (s.setPc (pcNext i s.pc)) := by
  rw [runInstr, hv]
  simp only [hp, if_true]

theorem runInstr_illegal {i : Instr} {handler : Long → Exec Unit} {s : State} (hv : rowVerdict s.model i = .illegal) :
    runInstr i handler s = finish (illegalInstruction s.pc) (s.setPc (s.pc + 2)) := by rw [runInstr, hv]

theorem runInstr_refused {i : Instr} {handler : Long → Exec Unit} {s : State} (hv : rowVerdict s.model i = .refused) :
    runInstr i handler s = .refused .mc68020InstructionNotModelled := by rw [runInstr, hv]

end Sys2Proof.Machine
end

