-- ==== Sys2Proof/Laws/Memory.lean ====
section
/-! SUPPORT. Memory: reading after writing, the canonical form and what keeps it, and equality of memories. -/

namespace Sys2Proof.Machine

namespace Memory

/-! ### The canonical form -/

/-- A bound below a cell number. -/
def below (lo : Option Nat) (a : Nat) : Prop := ∀ l, lo = some l → l < a

theorem wfAbove_nil (lo : Option Nat) : wfAbove lo [] = true := rfl

theorem wfAbove_cons {lo : Option Nat} {k : Nat} {b : Byte} {rest : Memory} :
    wfAbove lo ((k, b) :: rest) = true ↔ below lo k ∧ b ≠ unlistedByte ∧ wfAbove (some k) rest = true := by
  cases lo <;> simp [wfAbove, below, and_assoc]

theorem wfAbove_weaken {lo lo' : Option Nat} {m : Memory} (h : wfAbove lo m = true) (hl : ∀ a, below lo a → below lo' a) :
    wfAbove lo' m = true := by
  cases m with
  | nil => rfl
  | cons c rest =>
    obtain ⟨k, b⟩ := c
    rw [wfAbove_cons] at *
    exact ⟨hl _ h.1, h.2⟩

theorem below_trans {lo : Option Nat} {k a : Nat} (hk : below lo k) (h : k < a) : below lo a :=
  fun l e => Nat.lt_trans (hk l e) h

theorem cons_wfAbove {lo : Option Nat} {a : Nat} {v : Byte} {m : Memory} (ha : below lo a) (h : wfAbove (some a) m = true) :
    wfAbove lo (cons a v m) = true := by
  unfold cons
  split
  · exact wfAbove_weaken h fun b hb => below_trans ha (hb a rfl)
  · rename_i hv; exact wfAbove_cons.2 ⟨ha, hv, h⟩

theorem write_wfAbove {lo : Option Nat} {m : Memory} {a : Nat} (v : Byte) (ha : below lo a) (h : wfAbove lo m = true) :
    wfAbove lo (write m a v) = true := by
  induction m generalizing lo with
  | nil => exact cons_wfAbove ha rfl
  | cons c rest ih =>
    obtain ⟨k, b⟩ := c
    rw [wfAbove_cons] at h
    simp only [write]
    split
    · rename_i hlt
      exact cons_wfAbove ha (wfAbove_cons.2 ⟨fun l e => by cases e; exact hlt, h.2⟩)
    · split
      · rename_i e; subst e; exact cons_wfAbove ha h.2.2
      · rename_i h1 h2
        exact wfAbove_cons.2 ⟨h.1, h.2.1, ih (fun l e => by cases e; omega) h.2.2⟩

/-- A write keeps the canonical form. -/
theorem write_wf {m : Memory} (a : Nat) (v : Byte) (h : wf m = true) : wf (write m a v) = true :=
  write_wfAbove v (fun _ e => by cases e) h

/-- A write of a size keeps the canonical form. -/
theorem writeSized_wf {m : Memory} (a : Nat) (sz : Size) (v : Long) (h : wf m = true) : wf (writeSized m a sz v) = true := by
  cases sz <;> simp only [writeSized] <;> repeat (first | exact h | apply write_wf)

theorem nil_wf : wf [] = true := rfl

/-! ### Reading after writing -/

theorem read_cons_same (a : Nat) (v : Byte) {m : Memory} (h : wfAbove (some a) m = true) : read (cons a v m) a = v := by
  unfold cons
  split
  · rename_i hv; subst hv
    suffices H : ∀ (m : Memory) (b : Nat), a ≤ b → wfAbove (some b) m = true → read m a = unlistedByte from H m a (Nat.le_refl a) h
    intro m
    induction m with
    | nil => intro _ _ _; rfl
    | cons c rest ih =>
      obtain ⟨k, w⟩ := c
      intro b hb h
      rw [wfAbove_cons] at h
      have hk := h.1 b rfl
      have : k ≠ a := by omega
      simp only [read, this, if_false]
      exact ih k (by omega) h.2.2
  · simp [read]

theorem read_cons_other {a b : Nat} (v : Byte) (m : Memory) (h : b ≠ a) : read (cons a v m) b = read m b := by
  unfold cons
  split
  · rfl
  · have : a ≠ b := fun e => h e.symm
    simp [read, this]

theorem read_write_other {a b : Nat} (m : Memory) (v : Byte) (h : b ≠ a) : read (write m a v) b = read m b := by
  induction m with
  | nil => simpa [write, read] using read_cons_other v [] h
  | cons c rest ih =>
    obtain ⟨k, w⟩ := c
    simp only [write]
    split
    · exact read_cons_other v _ h
    · split
      · rename_i e; subst e
        rw [read_cons_other v _ h]
        have : a ≠ b := fun e => h e.symm
        simp [read, this]
      · simp only [read, ih]

theorem read_write_same {m : Memory} (a : Nat) (v : Byte) (h : wf m = true) : read (write m a v) a = v := by
  suffices H : ∀ lo, wfAbove lo m = true → read (write m a v) a = v from H none h
  induction m with
  | nil => intro _ _; exact read_cons_same a v rfl
  | cons c rest ih =>
    obtain ⟨k, w⟩ := c
    intro lo h'
    rw [wfAbove_cons] at h'
    simp only [write]
    split
    · rename_i hlt
      exact read_cons_same a v (wfAbove_cons.2 ⟨fun l e => by cases e; exact hlt, h'.2⟩)
    · split
      · rename_i e; subst e; exact read_cons_same a v h'.2.2
      · rename_i h1 h2
        have : k ≠ a := fun e => h2 e.symm
        simp only [read, this, if_false]
        exact ih (wfAbove_weaken h'.2.2 fun _ _ _ e => by cases e) (some k) h'.2.2

/-- A write of a size changes only its own cells. -/
theorem read_writeSized_other {m : Memory} {a b : Nat} (sz : Size) (v : Long) (h : b < a ∨ a + sz.bytes ≤ b) :
    read (writeSized m a sz v) b = read m b := by
  cases sz <;> simp only [writeSized, Size.bytes] at * <;>
    repeat (first | rfl | rw [read_write_other _ _ (by omega)])

theorem readSized_congr {m m' : Memory} {a : Nat} {sz : Size} (h : ∀ b, a ≤ b → b < a + sz.bytes → read m' b = read m b) :
    readSized m' a sz = readSized m a sz := by
  cases sz <;> simp only [Size.bytes] at h
  · simp only [readSized, h a (by omega) (by omega)]
  · simp only [readSized, h a (by omega) (by omega), h (a + 1) (by omega) (by omega)]
  · simp only [readSized, h a (by omega) (by omega), h (a + 1) (by omega) (by omega), h (a + 2) (by omega) (by omega),
      h (a + 3) (by omega) (by omega)]

/-- A read of other cells does not see a write. -/
theorem readSized_writeSized_other {m : Memory} {a b : Nat} (sz sz' : Size) (v : Long)
    (h : b + sz'.bytes ≤ a ∨ a + sz.bytes ≤ b) : readSized (writeSized m a sz v) b sz' = readSized m b sz' :=
  readSized_congr fun c h1 h2 => read_writeSized_other sz v (by omega)

theorem long_of_bytes (v : Long) :
    v.extractLsb' 24 8 ++ v.extractLsb' 16 8 ++ v.extractLsb' 8 8 ++ v.extractLsb' 0 8 = v := by
  apply BitVec.eq_of_getLsbD_eq
  intro i hi
  have : i < 8 ∨ (8 ≤ i ∧ i < 16) ∨ (16 ≤ i ∧ i < 24) ∨ (24 ≤ i ∧ i < 32) := by omega
  simp only [BitVec.getLsbD_append, BitVec.getLsbD_extractLsb']
  rcases this with h | ⟨h, h'⟩ | ⟨h, h'⟩ | ⟨h, h'⟩
  · simp [h]
  · have : i - 8 < 8 := by omega
    have h0 : ¬ i < 8 := by omega
    simp only [h0, this, if_true, if_false, decide_true, Bool.true_and]; congr 1; omega
  · have h1 : ¬ i < 8 := by omega
    have h2 : ¬ i - 8 < 8 := by omega
    have h3 : i - 8 - 8 < 8 := by omega
    simp only [h1, h2, h3, if_true, if_false, decide_true, Bool.true_and]; congr 1; omega
  · have h1 : ¬ i < 8 := by omega
    have h2 : ¬ i - 8 < 8 := by omega
    have h3 : ¬ i - 8 - 8 < 8 := by omega
    have h4 : i - 8 - 8 - 8 < 8 := by omega
    simp only [h1, h2, h3, h4, if_false, decide_true, Bool.true_and]; congr 1; omega

theorem word_of_bytes (v : Long) : (v.extractLsb' 8 8 ++ v.extractLsb' 0 8).setWidth 32 = truncTo .w v := by
  apply BitVec.eq_of_getLsbD_eq
  intro i hi
  have hm : ∀ k : Fin 32, (0x0000FFFF#32).getLsbD k.val = decide (k.val < 16) := by decide
  have e : (truncTo .w v).getLsbD i = (v.getLsbD i && (0x0000FFFF#32).getLsbD i) := BitVec.getLsbD_and
  rw [e, hm ⟨i, hi⟩, BitVec.getLsbD_setWidth, BitVec.getLsbD_append, BitVec.getLsbD_extractLsb', BitVec.getLsbD_extractLsb']
  by_cases h8 : i < 8
  · have : i < 16 := by omega
    simp [h8, this, hi]
  · by_cases h16 : i < 16
    · have h' : i - 8 < 8 := by omega
      have h'' : 8 + (i - 8) = i := by omega
      simp [h8, h16, h', h'', hi]
    · have h' : ¬ i - 8 < 8 := by omega
      simp [h8, h16, h']

theorem byte_of_bytes (v : Long) : (v.extractLsb' 0 8).setWidth 32 = truncTo .b v := by
  apply BitVec.eq_of_getLsbD_eq
  intro i hi
  have hm : ∀ k : Fin 32, (0x000000FF#32).getLsbD k.val = decide (k.val < 8) := by decide
  have e : (truncTo .b v).getLsbD i = (v.getLsbD i && (0x000000FF#32).getLsbD i) := BitVec.getLsbD_and
  rw [e, hm ⟨i, hi⟩, BitVec.getLsbD_setWidth, BitVec.getLsbD_extractLsb']
  by_cases h8 : i < 8 <;> simp [h8, hi]

theorem truncTo_long (v : Long) : truncTo .l v = v := by
  have : sizeMask .l = BitVec.allOnes 32 := by decide
  simp only [truncTo, this, BitVec.and_allOnes]

/-- What was written is read back, cut to its size (R232). -/
theorem readSized_writeSized_same {m : Memory} (a : Nat) (sz : Size) (v : Long) (h : wf m = true) :
    readSized (writeSized m a sz v) a sz = truncTo sz v := by
  cases sz
  · simp only [readSized, writeSized]
    rw [read_write_same _ _ h, byte_of_bytes]
  · simp only [readSized, writeSized]
    rw [read_write_other _ _ (by omega : a ≠ a + 1), read_write_same _ _ h, read_write_same _ _ (write_wf _ _ h), word_of_bytes]
  · have w1 := write_wf a (v.extractLsb' 24 8) h
    have w2 := write_wf (a + 1) (v.extractLsb' 16 8) w1
    have w3 := write_wf (a + 2) (v.extractLsb' 8 8) w2
    simp only [readSized, writeSized]
    rw [read_write_same _ _ w3, read_write_other _ _ (by omega : a + 2 ≠ a + 3), read_write_same _ _ w2,
      read_write_other _ _ (by omega : a + 1 ≠ a + 3), read_write_other _ _ (by omega : a + 1 ≠ a + 2), read_write_same _ _ w1,
      read_write_other _ _ (by omega : a ≠ a + 3), read_write_other _ _ (by omega : a ≠ a + 2),
      read_write_other _ _ (by omega : a ≠ a + 1), read_write_same _ _ h, long_of_bytes, truncTo_long]

/-! ### Equal memories are equal data -/

theorem read_below {lo : Option Nat} {m : Memory} {a : Nat} (h : wfAbove lo m = true) (ha : ¬ below lo a) :
    read m a = unlistedByte := by
  induction m generalizing lo with
  | nil => rfl
  | cons c rest ih =>
    obtain ⟨k, b⟩ := c
    rw [wfAbove_cons] at h
    have hne : k ≠ a := fun e => ha (e ▸ h.1)
    simp only [read, hne, if_false]
    refine ih h.2.2 fun hb => ?_
    exact ha (below_trans h.1 (hb k rfl))

theorem ext_above {lo : Option Nat} {m m' : Memory} (h : wfAbove lo m = true) (h' : wfAbove lo m' = true)
    (e : ∀ a, read m a = read m' a) : m = m' := by
  induction m generalizing lo m' with
  | nil =>
    cases m' with
    | nil => rfl
    | cons c' rest' =>
      obtain ⟨k', b'⟩ := c'
      rw [wfAbove_cons] at h'
      have := e k'
      simp only [read, if_true] at this
      exact absurd this.symm h'.2.1
  | cons c rest ih =>
    obtain ⟨k, b⟩ := c
    rw [wfAbove_cons] at h
    cases m' with
    | nil =>
      have := e k
      simp only [read, if_true] at this
      exact absurd this h.2.1
    | cons c' rest' =>
      obtain ⟨k', b'⟩ := c'
      rw [wfAbove_cons] at h'
      have hk : k = k' := by
        rcases Nat.lt_trichotomy k k' with hlt | he | hgt
        · have := e k
          have hne : k' ≠ k := by omega
          have r : read rest' k = unlistedByte := read_below h'.2.2 fun hb => by have := hb k' rfl; omega
          simp only [read, if_true, hne, if_false, r] at this
          exact absurd this h.2.1
        · exact he
        · have := e k'
          have hne : k ≠ k' := by omega
          have r : read rest k' = unlistedByte := read_below h.2.2 fun hb => by have := hb k rfl; omega
          simp only [read, if_true, hne, if_false, r] at this
          exact absurd this.symm h'.2.1
      subst hk
      have hb : b = b' := by have := e k; simpa only [read, if_true] using this
      subst hb
      have : rest = rest' := by
        refine ih h.2.2 h'.2.2 fun a => ?_
        by_cases ha : k = a
        · subst ha
          have r : read rest k = unlistedByte := read_below h.2.2 fun hb => by have := hb k rfl; omega
          have r' : read rest' k = unlistedByte := read_below h'.2.2 fun hb => by have := hb k rfl; omega
          rw [r, r']
        · have := e a
          simpa only [read, ha, if_false] using this
      rw [this]

/-- Two memories in canonical form that read alike are equal. -/
theorem ext {m m' : Memory} (h : wf m = true) (h' : wf m' = true) (e : ∀ a, read m a = read m' a) : m = m' :=
  ext_above h h' e

end Memory

end Sys2Proof.Machine
end

