-- ==== Sys2Proof/Laws/Translate.lean ====
section
/-! SUPPORT. What a translation that succeeds says (R210), and where its cells lie. -/

namespace Sys2Proof.Machine

/-- The region found is the first that contains the address. -/
theorem findRegion_some {k a : Nat} {rs : List Region} {i : Nat} {r : Region} (h : findRegion k a rs = some (i, r)) :
    ∃ j, i = k + j ∧ rs[j]? = some r ∧ r.start ≤ a ∧ a < r.start + r.size ∧
      ∀ j' r', j' < j → rs[j']? = some r' → ¬ (r'.start ≤ a ∧ a < r'.start + r'.size) := by
  induction rs generalizing k with
  | nil => cases h
  | cons q rest ih =>
    simp only [findRegion] at h
    split at h
    · rename_i hc
      cases h
      exact ⟨0, by simp, by simp, hc.1, hc.2, fun j' _ hj => by omega⟩
    · rename_i hc
      obtain ⟨j, e, hr, h1, h2, h3⟩ := ih h
      refine ⟨j + 1, by omega, by simpa using hr, h1, h2, fun j' r' hj hr' => ?_⟩
      cases j' with
      | zero =>
        have : q = r' := by simpa using hr'
        subst this
        exact hc
      | succ j' => exact h3 j' r' (by omega) (by simpa using hr')

/-- Everything a successful translation says. -/
theorem translate_some {c : Config} {addr : Long} {len : Nat} {fc : BitVec 3} {kind : AccessKind} {k : Nat}
    (h : translate c addr len fc kind = some k) :
    ∃ i r, findRegion 0 (maskedAddress c addr) c.regions = some (i, r) ∧ c.regions[i]? = some r ∧
      r.start ≤ maskedAddress c addr ∧ maskedAddress c addr < r.start + r.size ∧
      maskedAddress c addr - r.start + len ≤ r.size ∧
      lowmemDenies r fc kind (maskedAddress c addr - r.start) = false ∧
      policyAllows r fc kind (maskedAddress c addr - r.start) len = true ∧ k = cellOf i (maskedAddress c addr) := by
  unfold translate at h
  simp only at h
  cases hf : findRegion 0 (maskedAddress c addr) c.regions with
  | none => rw [hf] at h; cases h
  | some p =>
    obtain ⟨i, r⟩ := p
    rw [hf] at h
    simp only at h
    obtain ⟨j, e, hr, h1, h2, -⟩ := findRegion_some hf
    have : i = j := by omega
    subst this
    by_cases hb : maskedAddress c addr - r.start + len > r.size
    · simp [hb] at h
    · by_cases hl : lowmemDenies r fc kind (maskedAddress c addr - r.start) = true
      · simp [hb, hl] at h
      · by_cases hp : policyAllows r fc kind (maskedAddress c addr - r.start) len = true
        · simp [hb, hl, hp] at h
          exact ⟨i, r, rfl, hr, h1, h2, by omega, by simpa using hl, hp, h.symm⟩
        · simp [hb, hl, hp] at h

/-- The cells of a successful translation are bytes of a region. -/
theorem translate_cellExists {c : Config} {addr : Long} {len : Nat} {fc : BitVec 3} {kind : AccessKind} {k b : Nat}
    (hc : c.ok = true) (h : translate c addr len fc kind = some k) (h1 : k ≤ b) (h2 : b < k + len) : cellExists c b = true := by
  obtain ⟨i, r, -, hr, hs, he, hb, -, -, rfl⟩ := translate_some h
  have hok : r.ok = true := by
    have := List.all_eq_true.1 hc r (List.mem_of_getElem? hr)
    exact this
  simp only [Region.ok, Bool.and_eq_true, decide_eq_true_eq] at hok
  simp only [cellOf] at *
  have hq : b / 2 ^ 32 = i := by omega
  have hm : b % 2 ^ 32 = b - i * 2 ^ 32 := by omega
  simp only [cellExists, hq, hr, hm, Bool.and_eq_true, decide_eq_true_eq]
  omega

/-- A failed translation does not depend on the access's kind or function code alone: no region has the bytes, or the region
forbids the access. -/
theorem translate_eq_none_iff {c : Config} {addr : Long} {len : Nat} {fc : BitVec 3} {kind : AccessKind} :
    translate c addr len fc kind = none ↔
      ∀ i r, findRegion 0 (maskedAddress c addr) c.regions = some (i, r) →
        r.size < maskedAddress c addr - r.start + len ∨
        lowmemDenies r fc kind (maskedAddress c addr - r.start) = true ∨
        policyAllows r fc kind (maskedAddress c addr - r.start) len = false := by
  unfold translate
  simp only
  cases hf : findRegion 0 (maskedAddress c addr) c.regions with
  | none => simp
  | some p =>
    obtain ⟨i, r⟩ := p
    simp only [Option.some.injEq, Prod.mk.injEq]
    constructor
    · rintro h i' r' ⟨rfl, rfl⟩
      by_cases hb : maskedAddress c addr - r.start + len > r.size
      · exact .inl hb
      · by_cases hl : lowmemDenies r fc kind (maskedAddress c addr - r.start) = true
        · exact .inr (.inl hl)
        · by_cases hp : policyAllows r fc kind (maskedAddress c addr - r.start) len = true
          · simp [hb, hl, hp] at h
          · exact .inr (.inr (by simpa using hp))
    · intro h
      rcases h i r ⟨rfl, rfl⟩ with hb | hl | hp
      · have : maskedAddress c addr - r.start + len > r.size := hb
        simp [this]
      · simp [hl]
      · simp [hp]

end Sys2Proof.Machine
end

