-- ==== Sys2Proof/Laws/Keeps.lean ====
section
/-! SUPPORT. What every part of a step keeps. A relation between the state before and the state after that holds of the small
updates (`Ordinary`) holds of every shared operation, however that operation ends: each lemma says so once. The operations
that write the whole SR, a control register or the condition are not among the small updates. -/

namespace Sys2Proof.Machine

variable {α β : Type}

/-- The state a part of a step leaves, however it ends. -/
def endState : EStateM.Result Stop State α → State
  | .ok _ t => t
  | .error _ t => t

/-- `P` relates the state before to the state after, however `x` ends. -/
def Always (P : State → State → Prop) (x : Exec α) : Prop := ∀ s, P s (endState (x s))

/-- What the small updates of a part of a step may touch: which data and address registers, the flags, memory. -/
structure Permit where
  data   : Reg → Prop
  addr   : Reg → Prop
  flags  : Prop
  stores : Prop

/-- Everything. -/
def Permit.all : Permit := { data := fun _ => True, addr := fun _ => True, flags := True, stores := True }

/-- A register designation is permitted. -/
def Permit.reg (p : Permit) (k : RegR) : Prop := if k.val < 8 then p.data (lowReg k) else p.addr (lowReg k)

/-- `P` holds of every small update that `p` permits, and of their sequences. -/
structure Ordinary (p : Permit) (P : State → State → Prop) : Prop where
  refl  : ∀ s, P s s
  trans : ∀ s t u, P s t → P t u → P s u
  setPc : ∀ s v, P s (s.setPc v)
  countDraw : ∀ s, P s s.countDraw
  halted : ∀ s, P s (s.setCondition .halted)
  writeD : ∀ s n v, p.data n → P s (s.writeD n v)
  writeA : ∀ s n v, p.addr n → P s (s.writeA n v)
  setFlags : ∀ s f, p.flags → P s (s.setFlags f)
  setCCR : ∀ s v, p.flags → P s (s.setCCR v)
  store : ∀ (s : State) addr sz fc k v, p.stores → translate s.cfg addr (Size.bytes sz) fc .write = some k →
    P s (s.setMem (Memory.writeSized s.mem k sz v))

/-- The registers a location written to permits. -/
def Loc.permitted (p : Permit) : Loc → Prop
  | .regD n => p.data n
  | .regA n => p.addr n
  | .mem _ _ => p.stores
  | .imm _ => True

namespace Always

variable {p : Permit} {P : State → State → Prop}

theorem ok {x : Exec α} (hx : Always P x) {s t : State} {a : α} (h : x s = .ok a t) : P s t := by
  have := hx s; rwa [h] at this

theorem error {x : Exec α} (hx : Always P x) {s t : State} {r : Stop} (h : x s = .error r t) : P s t := by
  have := hx s; rwa [h] at this

/-- A meaning whose handler keeps `P` leaves a next state that `P` relates to the start. -/
theorem finish {x : Exec Unit} (hx : Always P x) {s t : State} (h : Machine.finish x s = .next t) : P s t := by
  rcases finish_next h with h | h
  · exact hx.ok h
  · exact hx.error h

theorem bind (H : Ordinary p P) {x : Exec α} {f : α → Exec β} (hx : Always P x) (hf : ∀ a, Always P (f a)) :
    Always P (x >>= f) := by
  intro s
  rw [run_bind]
  cases h : x s with
  | ok a t =>
    have h1 := hx.ok h
    have h2 := hf a t
    simp only
    exact H.trans _ _ _ h1 h2
  | error r t => exact hx.error h

theorem pure (H : Ordinary p P) (a : α) : Always P (Pure.pure a : Exec α) := fun s => H.refl s
theorem look (H : Ordinary p P) (f : State → α) : Always P (Machine.look f) := fun s => H.refl s
theorem stopWith (H : Ordinary p P) (r : Stop) : Always P (Machine.stopWith r : Exec α) := fun s => H.refl s
theorem refuse (H : Ordinary p P) (r : Refusal) : Always P (Machine.refuse r : Exec α) := fun s => H.refl s
theorem halt (H : Ordinary p P) : Always P (Machine.halt : Exec α) := fun s => H.halted s
theorem drawBit (H : Ordinary p P) : Always P Machine.drawBit := fun s => H.countDraw s
theorem drawByte (H : Ordinary p P) : Always P Machine.drawByte := fun s => H.countDraw s
theorem drawLong (H : Ordinary p P) : Always P Machine.drawLong := fun s => H.countDraw s
theorem getD (H : Ordinary p P) (n : Reg) (sz : Size) : Always P (Machine.getD n sz) := fun s => H.refl s
theorem putD (H : Ordinary p P) (n : Reg) (sz : Size) (v : Long) (h : p.data n) : Always P (Machine.putD n sz v) :=
  fun s => H.writeD s _ _ h
theorem getA (H : Ordinary p P) (n : Reg) : Always P (Machine.getA n) := fun s => H.refl s
theorem putA (H : Ordinary p P) (n : Reg) (v : Long) (h : p.addr n) : Always P (Machine.putA n v) :=
  fun s => H.writeA s _ _ h
theorem getR (H : Ordinary p P) (k : RegR) : Always P (Machine.getR k) := fun s => H.refl s
theorem putR (H : Ordinary p P) (k : RegR) (v : Long) (h : p.reg k) : Always P (Machine.putR k v) := by
  intro s
  show P s (s.writeR k v)
  unfold State.writeR
  unfold Permit.reg at h
  split at h
  · rename_i hk; rw [if_pos hk]; exact H.writeD s _ _ h
  · rename_i hk; rw [if_neg hk]; exact H.writeA s _ _ h
theorem getPc (H : Ordinary p P) : Always P Machine.getPc := fun s => H.refl s
theorem putPc (H : Ordinary p P) (v : Long) : Always P (Machine.putPc v) := fun s => H.setPc s v
theorem getFlags (H : Ordinary p P) : Always P Machine.getFlags := fun s => H.refl s
theorem putFlags (H : Ordinary p P) (f : Ccr) (h : p.flags) : Always P (Machine.putFlags f) := fun s => H.setFlags s f h
theorem getModel (H : Ordinary p P) : Always P Machine.getModel := fun s => H.refl s

/-! ### Memory and the stack -/

theorem memReadFC (H : Ordinary p P) (addr : Long) (sz : Size) (fc : BitVec 3) : Always P (Machine.memReadFC addr sz fc) := by
  intro s
  rw [run_memReadFC]
  split
  · exact H.halted s
  · split
    · exact H.halted s
    · exact H.refl s

theorem memWriteFC (H : Ordinary p P) (hst : p.stores) (addr : Long) (sz : Size) (fc : BitVec 3) (v : Long) :
    Always P (Machine.memWriteFC addr sz fc v) := by
  intro s
  rw [run_memWriteFC]
  split
  · exact H.halted s
  · split
    · exact H.halted s
    · exact H.store s addr sz fc _ v hst ‹_›

theorem memRead (H : Ordinary p P) (addr : Long) (sz : Size) : Always P (Machine.memRead addr sz) :=
  bind H (look H _) fun _ => memReadFC H _ _ _

theorem memWrite (H : Ordinary p P) (hst : p.stores) (addr : Long) (sz : Size) (v : Long) :
    Always P (Machine.memWrite addr sz v) := bind H (look H _) fun _ => memWriteFC H hst _ _ _ _

theorem push (H : Ordinary p P) (h7 : p.addr 7) (hst : p.stores) (sz : Size) (v : Long) : Always P (Machine.push sz v) :=
  bind H (getA H _) fun _ => bind H (putA H _ _ h7) fun _ => memWrite H hst _ _ _

theorem pop (H : Ordinary p P) (h7 : p.addr 7) (sz : Size) : Always P (Machine.pop sz) :=
  bind H (getA H _) fun _ => bind H (memRead H _ _) fun _ => bind H (putA H _ _ h7) fun _ => pure H _

/-! ### Exception entry -/

theorem pushFrame (H : Ordinary .all P) (vec : Nat) (p : Long) (ia : Option Long) (old : HWord) :
    Always P (Machine.pushFrame vec p ia old) := by
  refine bind H (getModel H) fun m => ?_
  split
  · exact bind H (push H trivial trivial _ _) fun _ => push H trivial trivial _ _
  · split
    · exact bind H (push H trivial trivial _ _) fun _ => bind H (push H trivial trivial _ _) fun _ => bind H (push H trivial trivial _ _) fun _ => push H trivial trivial _ _
    · exact bind H (push H trivial trivial _ _) fun _ => bind H (push H trivial trivial _ _) fun _ => push H trivial trivial _ _

/-- A relation that a SetSR keeps too is kept by taking an exception (R1310). -/
theorem enterException (H : Ordinary .all P) (hs : ∀ v, Always P (Machine.setSR v)) (vec : Nat) (p : Long) (ia : Option Long) :
    Always P (Machine.enterException vec p ia) := by
  refine bind H (look H _) fun mode => ?_
  split
  · exact halt H
  · exact bind H (look H _) fun _ => bind H (hs _) fun _ => bind H (pushFrame H _ _ _ _) fun _ =>
      bind H (look H _) fun _ => bind H (memReadFC H _ _ _) fun _ => putPc H _

theorem raise (H : Ordinary .all P) (hs : ∀ v, Always P (Machine.setSR v)) (vec : Nat) (p : Long) (ia : Option Long) :
    Always P (Machine.raise vec p ia : Exec α) :=
  bind H (enterException H hs _ _ _) fun _ => stopWith H _

/-! ### Operands (R418, R419) -/

theorem indexValue (H : Ordinary p P) (x : IndexExt) : Always P (Machine.indexValue x) := by
  refine bind H (getR H _) fun r => bind H (getModel H) fun m => ?_
  dsimp only
  split
  · split
    · exact refuse H _
    · exact pure H _
  · exact pure H _

theorem postincrement (H : Ordinary p P) (n : Reg) (sz : Size) (h : p.addr n) : Always P (Machine.postincrement n sz) :=
  bind H (getA H _) fun _ => bind H (putA H _ _ h) fun _ => pure H _

theorem predecrement (H : Ordinary p P) (n : Reg) (sz : Size) (h : p.addr n) : Always P (Machine.predecrement n sz) :=
  bind H (getA H _) fun _ => bind H (putA H _ _ h) fun _ => pure H _

theorem addrOf (H : Ordinary p P) (xa : Long) (e : EA) : Always P (Machine.addrOf xa e) := by
  cases e with
  | ind n => exact getA H _
  | disp n d => exact bind H (getA H _) fun _ => pure H _
  | index n x => exact bind H (getA H _) fun _ => bind H (indexValue H _) fun _ => pure H _
  | absW a => exact pure H _
  | absL a => exact pure H _
  | pcDisp d => exact pure H _
  | pcIndex x => exact bind H (indexValue H _) fun _ => pure H _
  | dn n => exact stopWith H _
  | an n => exact stopWith H _
  | postinc n => exact stopWith H _
  | predec n => exact stopWith H _
  | imm v => exact stopWith H _

theorem all_reg (k : RegR) : Permit.all.reg k := by unfold Permit.reg; split <;> trivial

theorem reg_data {n : Reg} (h : p.reg (dataReg n)) : p.data n := by
  have h1 : (dataReg n).val < 8 := n.isLt
  have h2 : lowReg (dataReg n) = n := Fin.ext (Nat.mod_eq_of_lt n.isLt)
  rwa [Permit.reg, if_pos h1, h2] at h

theorem reg_addr {n : Reg} (h : p.reg (addrReg n)) : p.addr n := by
  have h1 : ¬ (addrReg n).val < 8 := by simp [addrReg]
  have h2 : lowReg (addrReg n) = n := Fin.ext (by
    show (8 + n.val) % 8 = n.val
    omega)
  rwa [Permit.reg, if_neg h1, h2] at h

theorem updates_written {e : EA} {k : RegR} (h : k ∈ e.updates) : k ∈ e.written := by
  cases e <;> first | exact h | cases h

theorem resolveEA (H : Ordinary p P) (xa : Long) (e : EA) (sz : Size) (he : ∀ k ∈ e.updates, p.reg k) :
    Always P (Machine.resolveEA xa e sz) := by
  cases e with
  | dn n => exact pure H _
  | an n => exact pure H _
  | postinc n => exact bind H (postincrement H _ _ (reg_addr (he _ (List.mem_singleton.2 rfl)))) fun _ => pure H _
  | predec n => exact bind H (predecrement H _ _ (reg_addr (he _ (List.mem_singleton.2 rfl)))) fun _ => pure H _
  | ind n => exact bind H (addrOf H _ _) fun _ => pure H _
  | disp n d => exact bind H (addrOf H _ _) fun _ => pure H _
  | index n x => exact bind H (addrOf H _ _) fun _ => pure H _
  | absW a => exact bind H (addrOf H _ _) fun _ => pure H _
  | absL a => exact bind H (addrOf H _ _) fun _ => pure H _
  | pcDisp d => exact bind H (addrOf H _ _) fun _ => pure H _
  | pcIndex x => exact bind H (addrOf H _ _) fun _ => pure H _
  | imm v => exact pure H _

theorem readMem (H : Ordinary p P) (a : Long) (sp : Space) (sz : Size) : Always P (Machine.readMem a sp sz) :=
  bind H (look H _) fun _ => memReadFC H _ _ _

theorem readLoc (H : Ordinary p P) (l : Loc) (sz : Size) : Always P (Machine.readLoc l sz) := by
  cases l with
  | regD n => exact getD H _ _
  | regA n => exact bind H (getA H _) fun _ => pure H _
  | mem a sp => exact readMem H _ _ _
  | imm v => exact pure H _

theorem writeLoc (H : Ordinary p P) (l : Loc) (sz : Size) (v : Long) (h : l.permitted p) :
    Always P (Machine.writeLoc l sz v) := by
  cases l with
  | regD n => exact putD H _ _ _ h
  | regA n => exact putA H _ _ h
  | mem a sp =>
    cases sp with
    | data => exact memWrite H h _ _ _
    | program => exact stopWith H _
  | imm v => exact stopWith H _

theorem readEA (H : Ordinary p P) (xa : Long) (e : EA) (sz : Size) (he : ∀ k ∈ e.updates, p.reg k) :
    Always P (Machine.readEA xa e sz) := bind H (resolveEA H _ _ _ he) fun _ => readLoc H _ _

/-- A sequence whose second part needs to know what the first part answers. -/
theorem bindWith (H : Ordinary p P) {x : Exec α} {f : α → Exec β} {Q : α → Prop} (hx : Always P x)
    (hq : ∀ s a t, x s = .ok a t → Q a) (hf : ∀ a, Q a → Always P (f a)) : Always P (x >>= f) := by
  intro s
  rw [run_bind]
  cases h : x s with
  | ok a t => exact H.trans _ _ _ (hx.ok h) (hf a (hq _ _ _ h) t)
  | error r t => exact hx.error h

/-- The location an operand resolves to permits what the operand, written to, permits. -/
theorem resolveEA_permitted (xa : Long) (e : EA) (sz : Size) (hw : ∀ k ∈ e.written, p.reg k)
    (hst : e.isRegister = false → p.stores) {s t : State} {l : Loc} (h : Machine.resolveEA xa e sz s = .ok l t) :
    l.permitted p := by
  have mem : ∀ {x : Exec Long} {sp : Space}, (do let a ← x; return Loc.mem a sp : Exec Loc) s = .ok l t →
      e.isRegister = false → l.permitted p := by
    intro x sp h he
    obtain ⟨a, u, -, h⟩ := bind_ok h
    cases h
    exact hst he
  cases e with
  | dn n => cases h; exact reg_data (hw _ (List.mem_singleton.2 rfl))
  | an n => cases h; exact reg_addr (hw _ (List.mem_singleton.2 rfl))
  | imm v => cases h; trivial
  | postinc n => exact mem h rfl
  | predec n => exact mem h rfl
  | ind n => exact mem h rfl
  | disp n d => exact mem h rfl
  | index n x => exact mem h rfl
  | absW a => exact mem h rfl
  | absL a => exact mem h rfl
  | pcDisp d => exact mem h rfl
  | pcIndex x => exact mem h rfl

/-- An operand resolved, and then something done to its location. -/
theorem withDestination (H : Ordinary p P) (xa : Long) (e : EA) (sz : Size) (hw : ∀ k ∈ e.written, p.reg k)
    (hst : e.isRegister = false → p.stores) {f : Loc → Exec β} (hf : ∀ l, l.permitted p → Always P (f l)) :
    Always P (Machine.resolveEA xa e sz >>= f) :=
  bindWith H (Q := Loc.permitted p) (resolveEA H xa e sz fun k hk => hw k (updates_written hk))
    (fun _ _ _ h => resolveEA_permitted xa e sz hw hst h) hf

theorem writeEA (H : Ordinary p P) (xa : Long) (e : EA) (sz : Size) (v : Long) (hw : ∀ k ∈ e.written, p.reg k)
    (hst : e.isRegister = false → p.stores) : Always P (Machine.writeEA xa e sz v) :=
  withDestination H xa e sz hw hst fun l hl => writeLoc H l sz v hl

theorem memoryAddress (H : Ordinary p P) (xa : Long) (e : EA) (sz : Size) (he : ∀ k ∈ e.updates, p.reg k) :
    Always P (Machine.memoryAddress xa e sz) := by
  refine bind H (resolveEA H _ _ _ he) fun l => ?_
  cases l with
  | mem a sp => exact pure H _
  | regD n => exact stopWith H _
  | regA n => exact stopWith H _
  | imm v => exact stopWith H _

/-! ### The fetch (R15, R402) -/

theorem fetchWord (H : Ordinary p P) : Always P Machine.fetchWord := by
  intro s
  unfold Machine.fetchWord
  split
  · exact H.halted s
  · split
    · exact H.halted s
    · exact H.setPc s _

theorem fetchWords (H : Ordinary p P) (n : Nat) : Always P (Machine.fetchWords n) := by
  induction n with
  | zero => exact pure H _
  | succ n ih => exact bind H (fetchWord H) fun _ => bind H ih fun _ => pure H _

theorem fetchInstr (H : Ordinary p P) : Always P Machine.fetchInstr := by
  refine bind H (getModel H) fun m => bind H (fetchWord H) fun ir => ?_
  split
  · exact pure H _
  · refine bind H (fetchWords H _) fun ws => ?_
    split
    · exact pure H _
    · exact pure H _

end Always

/-! ## Relations that are ordinary -/

/-- The invariant is kept. -/
theorem ordinary_inv : Ordinary .all fun s t => s.Inv → t.Inv where
  refl := fun _ h => h
  trans := fun _ _ _ h1 h2 h => h2 (h1 h)
  writeD := fun _ _ _ _ h => h
  writeA := fun s n v _ h => by
    have e1 : (s.writeA n v).cfg = s.cfg := by simp
    have e2 : (s.writeA n v).mem = s.mem := by simp
    have e3 : (s.writeA n v).sr = s.sr := by simp
    simpa only [State.Inv, State.memoryInRegions, State.srLegal, State.model, e1, e2, e3] using h
  setPc := fun _ _ h => h
  setFlags := fun s f _ h => ⟨h.1, h.2.1, h.2.2.1, s.setFlags_srLegal f h.2.2.2⟩
  setCCR := fun s v _ h => ⟨h.1, h.2.1, h.2.2.1, s.setCCR_srLegal v h.2.2.2⟩
  countDraw := fun _ h => h
  halted := fun _ h => h
  store := fun s addr sz fc k v _ hk h => by
    refine ⟨h.1, Memory.writeSized_wf k sz v h.2.1, ?_, h.2.2.2⟩
    have hin : ∀ c ∈ s.mem, cellExists s.cfg c.1 = true := List.all_eq_true.1 h.2.2.1
    have hw : ∀ (m : Memory) a b, (∀ c ∈ m, cellExists s.cfg c.1 = true) → cellExists s.cfg a = true →
        ∀ c ∈ Memory.write m a b, cellExists s.cfg c.1 = true := by
      intro m a b hm ha
      have hcons : ∀ m : Memory, (∀ c ∈ m, cellExists s.cfg c.1 = true) → ∀ c ∈ Memory.cons a b m, cellExists s.cfg c.1 = true := by
        intro m hm c hc
        unfold Memory.cons at hc
        split at hc
        · exact hm c hc
        · rcases List.mem_cons.1 hc with rfl | hc
          · exact ha
          · exact hm c hc
      induction m with
      | nil => exact hcons [] (fun c hc => by cases hc)
      | cons c0 rest ih =>
        obtain ⟨k0, b0⟩ := c0
        have hrest : ∀ c ∈ rest, cellExists s.cfg c.1 = true := fun c hc => hm c (List.mem_cons_of_mem _ hc)
        simp only [Memory.write]
        split
        · exact hcons _ hm
        · split
          · exact hcons _ hrest
          · intro c hc
            rcases List.mem_cons.1 hc with rfl | hc
            · exact hm _ (List.mem_cons_self ..)
            · exact ih hrest c hc
    have hc : ∀ b, k ≤ b → b < k + sz.bytes → cellExists s.cfg b = true := fun b h1 h2 => translate_cellExists h.1 hk h1 h2
    refine List.all_eq_true.2 ?_
    show ∀ c ∈ Memory.writeSized s.mem k sz v, cellExists s.cfg c.1 = true
    cases sz <;> simp only [Size.bytes] at hc
    · exact hw _ _ _ hin (hc k (by omega) (by omega))
    · exact hw _ _ _ (hw _ _ _ hin (hc k (by omega) (by omega))) (hc (k + 1) (by omega) (by omega))
    · exact hw _ _ _ (hw _ _ _ (hw _ _ _ (hw _ _ _ hin (hc k (by omega) (by omega))) (hc (k + 1) (by omega) (by omega)))
        (hc (k + 2) (by omega) (by omega))) (hc (k + 3) (by omega) (by omega))

/-- The configuration and the control registers are kept. -/
theorem ordinary_control : Ordinary .all fun s t =>
    t.cfg = s.cfg ∧ t.vbr = s.vbr ∧ t.sfc = s.sfc ∧ t.dfc = s.dfc where
  refl := fun _ => ⟨rfl, rfl, rfl, rfl⟩
  trans := fun _ _ _ h1 h2 => ⟨h2.1.trans h1.1, h2.2.1.trans h1.2.1, h2.2.2.1.trans h1.2.2.1, h2.2.2.2.trans h1.2.2.2⟩
  writeD := fun _ _ _ _ => ⟨rfl, rfl, rfl, rfl⟩
  writeA := fun s n v _ => ⟨by simp, by simp, by simp, by simp⟩
  setPc := fun _ _ => ⟨rfl, rfl, rfl, rfl⟩
  setFlags := fun _ _ _ => ⟨rfl, rfl, rfl, rfl⟩
  setCCR := fun _ _ _ => ⟨rfl, rfl, rfl, rfl⟩
  countDraw := fun _ => ⟨rfl, rfl, rfl, rfl⟩
  halted := fun _ => ⟨rfl, rfl, rfl, rfl⟩
  store := fun _ _ _ _ _ _ _ _ => ⟨rfl, rfl, rfl, rfl⟩

/-- The condition is kept, or becomes halted. -/
theorem ordinary_condition : Ordinary .all fun s t => t.condition = s.condition ∨ t.condition = .halted where
  refl := fun _ => .inl rfl
  trans := fun _ _ _ h1 h2 => by
    rcases h2 with h2 | h2
    · rcases h1 with h1 | h1
      · exact .inl (h2.trans h1)
      · exact .inr (h2.trans h1)
    · exact .inr h2
  writeD := fun _ _ _ _ => .inl rfl
  writeA := fun s n v _ => .inl (by simp)
  setPc := fun _ _ => .inl rfl
  setFlags := fun _ _ _ => .inl rfl
  setCCR := fun _ _ _ => .inl rfl
  countDraw := fun _ => .inl rfl
  halted := fun _ => .inr rfl
  store := fun _ _ _ _ _ _ _ _ => .inl rfl

/-- The mode is kept, and with it the inactive stack pointer (R105). -/
theorem ordinary_mode : Ordinary .all fun s t => t.supervisor = s.supervisor ∧
    (s.supervisor = true → t.usp = s.usp) ∧ (s.supervisor = false → t.ssp = s.ssp) where
  refl := fun _ => ⟨rfl, fun _ => rfl, fun _ => rfl⟩
  trans := fun _ _ _ h1 h2 => ⟨h2.1.trans h1.1, fun h => (h2.2.1 (h1.1.trans h)).trans (h1.2.1 h),
    fun h => (h2.2.2 (h1.1.trans h)).trans (h1.2.2 h)⟩
  writeD := fun _ _ _ _ => ⟨rfl, fun _ => rfl, fun _ => rfl⟩
  writeA := fun s n v _ => ⟨by simp, (s.writeA_inactive n v).1, (s.writeA_inactive n v).2⟩
  setPc := fun _ _ => ⟨rfl, fun _ => rfl, fun _ => rfl⟩
  setFlags := fun s f _ => ⟨s.setFlags_supervisor f, fun _ => rfl, fun _ => rfl⟩
  setCCR := fun s v _ => ⟨s.setCCR_supervisor v, fun _ => rfl, fun _ => rfl⟩
  countDraw := fun _ => ⟨rfl, fun _ => rfl, fun _ => rfl⟩
  halted := fun _ => ⟨rfl, fun _ => rfl, fun _ => rfl⟩
  store := fun _ _ _ _ _ _ _ _ => ⟨rfl, fun _ => rfl, fun _ => rfl⟩

/-- The upper byte of the SR is kept. -/
theorem ordinary_systemByte : Ordinary .all fun s t => t.systemByte = s.systemByte where
  refl := fun _ => rfl
  trans := fun _ _ _ h1 h2 => h2.trans h1
  writeD := fun _ _ _ _ => rfl
  writeA := fun s n v _ => by simp [State.systemByte]
  setPc := fun _ _ => rfl
  setFlags := fun s f _ => s.setFlags_systemByte f
  setCCR := fun s v _ => s.setCCR_systemByte v
  countDraw := fun _ => rfl
  halted := fun _ => rfl
  store := fun _ _ _ _ _ _ _ _ => rfl

/-- Without a write of the flags the SR is kept. -/
theorem ordinary_sr : Ordinary { Permit.all with flags := False } fun s t => t.sr = s.sr where
  refl := fun _ => rfl
  trans := fun _ _ _ h1 h2 => h2.trans h1
  writeD := fun _ _ _ _ => rfl
  writeA := fun s n v _ => by simp
  setPc := fun _ _ => rfl
  setFlags := fun _ _ h => h.elim
  setCCR := fun _ _ h => h.elim
  countDraw := fun _ => rfl
  halted := fun _ => rfl
  store := fun _ _ _ _ _ _ _ _ => rfl

/-- Without a store memory is kept. -/
theorem ordinary_memory : Ordinary { Permit.all with stores := False } fun s t => t.mem = s.mem where
  refl := fun _ => rfl
  trans := fun _ _ _ h1 h2 => h2.trans h1
  writeD := fun _ _ _ _ => rfl
  writeA := fun s n v _ => by simp
  setPc := fun _ _ => rfl
  setFlags := fun _ _ _ => rfl
  setCCR := fun _ _ _ => rfl
  countDraw := fun _ => rfl
  halted := fun _ => rfl
  store := fun _ _ _ _ _ _ h _ => h.elim

/-- The permit of a list of registers. -/
def Permit.registers (ks : List RegR) : Permit where
  data := fun n => dataReg n ∈ ks
  addr := fun n => addrReg n ∈ ks
  flags := True
  stores := True

theorem Permit.registers_reg {ks : List RegR} {k : RegR} (h : k ∈ ks) : (Permit.registers ks).reg k := by
  unfold Permit.reg
  split
  · rename_i hk
    have : dataReg (lowReg k) = k := Fin.ext (Nat.mod_eq_of_lt hk)
    show dataReg (lowReg k) ∈ ks
    rwa [this]
  · rename_i hk
    have : addrReg (lowReg k) = k := Fin.ext (by
      have := k.isLt
      show 8 + k.val % 8 = k.val
      omega)
    show addrReg (lowReg k) ∈ ks
    rwa [this]

/-- Only the registers of a list are written; the mode is kept. -/
theorem ordinary_registers (ks : List RegR) :
    Ordinary (.registers ks) fun s t => s.sameRegistersBut ks t ∧ t.supervisor = s.supervisor where
  refl := fun _ => ⟨⟨fun _ _ => rfl, rfl⟩, rfl⟩
  trans := fun _ _ _ h1 h2 =>
    ⟨⟨fun k hk => (h2.1.1 k hk).trans (h1.1.1 k hk), h2.1.2.trans h1.1.2⟩, h2.2.trans h1.2⟩
  writeD := fun s n v h => by
    refine ⟨⟨fun k hk => ?_, rfl⟩, rfl⟩
    unfold State.readR
    split
    · rename_i hlt
      refine s.readD_writeD_other v fun e => hk ?_
      have : dataReg n = k := Fin.ext (by
        have := congrArg Fin.val e
        show n.val = k.val
        rw [this]
        exact Nat.mod_eq_of_lt hlt)
      exact this ▸ h
    · exact s.writeD_readA n v _
  writeA := fun s n v h => by
    refine ⟨⟨fun k hk => ?_, ?_⟩, s.writeA_supervisor n v⟩
    · unfold State.readR
      split
      · exact s.writeA_readD n v _
      · rename_i hlt
        refine s.readA_writeA_other v fun e => hk ?_
        have : addrReg n = k := Fin.ext (by
          have := congrArg Fin.val e
          have hk := k.isLt
          show 8 + n.val = k.val
          rw [this]
          show 8 + k.val % 8 = k.val
          omega)
        exact this ▸ h
    · unfold State.inactiveSp
      rw [s.writeA_supervisor n v]
      split
      · rename_i hs; exact (s.writeA_inactive n v).1 hs
      · rename_i hs; exact (s.writeA_inactive n v).2 (by simpa using hs)
  setPc := fun _ _ => ⟨⟨fun _ _ => rfl, rfl⟩, rfl⟩
  setFlags := fun s f _ => ⟨⟨fun k _ => s.setFlags_readR f k, by simp [State.inactiveSp]⟩, s.setFlags_supervisor f⟩
  setCCR := fun s v _ => ⟨⟨fun k _ => s.setCCR_readR v k, by simp [State.inactiveSp]⟩, s.setCCR_supervisor v⟩
  countDraw := fun _ => ⟨⟨fun _ _ => rfl, rfl⟩, rfl⟩
  halted := fun _ => ⟨⟨fun _ _ => rfl, rfl⟩, rfl⟩
  store := fun _ _ _ _ _ _ _ _ => ⟨⟨fun _ _ => rfl, rfl⟩, rfl⟩

/-- SetSR keeps the invariant (R112). -/
theorem always_inv_setSR (v : HWord) : Always (fun s t => s.Inv → t.Inv) (setSR v) := by
  intro s
  rw [run_setSR]
  split
  · exact fun h => h
  · exact fun h => ⟨h.1, h.2.1, h.2.2.1, s.setSrBits_srLegal v⟩

end Sys2Proof.Machine
end

