-- ==== Sys2Proof/Laws/Handlers.lean ====
section
/-! SUPPORT. The shared parts of the handlers keep every ordinary relation (see `Ordinary`), and a meaning is its handler run
past the instruction's words: what a proof about many instructions cites instead of unfolding them. -/

namespace Sys2Proof.Machine

variable {α : Type}

namespace Always

variable {p : Permit} {P : State → State → Prop}

/-! ### Arithmetic -/

theorem flagsThenWrite (H : Ordinary p P) (hf : p.flags) (l : Loc) (sz : Size) (a : Alu) (hl : l.permitted p) :
    Always P (Machine.flagsThenWrite l sz a) := bind H (putFlags H _ hf) fun _ => writeLoc H _ _ _ hl

theorem arithToEA (H : Ordinary p P) (hf : p.flags) (op : BinOp) (sz : Size) (xa : Long) (ea : EA) (v : Long)
    (hw : ∀ k ∈ ea.written, p.reg k) (hst : ea.isRegister = false → p.stores) :
    Always P (Machine.arithToEA op sz xa ea v) :=
  withDestination H xa ea sz hw hst fun _ hl => bind H (readLoc H _ _) fun _ => bind H (getFlags H) fun _ =>
    flagsThenWrite H hf _ _ _ hl

theorem arithToDn (H : Ordinary p P) (hf : p.flags) (op : BinOp) (sz : Size) (xa : Long) (ea : EA) (dn : Reg)
    (he : ∀ k ∈ ea.updates, p.reg k) (hd : p.data dn) : Always P (Machine.arithToDn op sz xa ea dn) :=
  bind H (readEA H _ _ _ he) fun _ => bind H (getD H _ _) fun _ => bind H (getFlags H) fun _ =>
    flagsThenWrite H hf _ _ _ hd

theorem arithFromDn (H : Ordinary p P) (hf : p.flags) (op : BinOp) (sz : Size) (xa : Long) (dn : Reg) (ea : EA)
    (hw : ∀ k ∈ ea.written, p.reg k) (hst : ea.isRegister = false → p.stores) :
    Always P (Machine.arithFromDn op sz xa dn ea) := bind H (getD H _ _) fun _ => arithToEA H hf _ _ _ _ _ hw hst

theorem arithUnary (H : Ordinary p P) (hf : p.flags) (op : UnOp) (sz : Size) (xa : Long) (ea : EA)
    (hw : ∀ k ∈ ea.written, p.reg k) (hst : ea.isRegister = false → p.stores) :
    Always P (Machine.arithUnary op sz xa ea) :=
  withDestination H xa ea sz hw hst fun _ hl => bind H (readLoc H _ _) fun _ => bind H (getFlags H) fun _ =>
    flagsThenWrite H hf _ _ _ hl

theorem extendedReg (H : Ordinary p P) (hf : p.flags) (op : BinOp) (sz : Size) (dy dx : Reg) (hd : p.data dx) :
    Always P (Machine.extendedReg op sz dy dx) :=
  bind H (getD H _ _) fun _ => bind H (getD H _ _) fun _ => bind H (getFlags H) fun _ => flagsThenWrite H hf _ _ _ hd

theorem extendedMem (H : Ordinary p P) (hf : p.flags) (hst : p.stores) (op : BinOp) (sz : Size) (ay ax : Reg)
    (hy : p.addr ay) (hx : p.addr ax) : Always P (Machine.extendedMem op sz ay ax) :=
  bind H (predecrement H _ _ hy) fun _ => bind H (readMem H _ _ _) fun _ => bind H (predecrement H _ _ hx) fun _ =>
    bind H (readMem H _ _ _) fun _ => bind H (getFlags H) fun _ => flagsThenWrite H hf _ _ _ hst

theorem multiply (H : Ordinary p P) (hf : p.flags) (op : Long → Long → Long) (xa : Long) (ea : EA) (dn : Reg)
    (he : ∀ k ∈ ea.updates, p.reg k) (hd : p.data dn) : Always P (Machine.multiply op xa ea dn) :=
  bind H (readEA H _ _ _ he) fun _ => bind H (getD H _ _) fun _ => bind H (putD H _ _ _ hd) fun _ =>
    bind H (getFlags H) fun _ => putFlags H _ hf

/-- A division also takes an exception, on a zero divisor. -/
theorem divide (H : Ordinary .all P) (hs : ∀ v, Always P (Machine.setSR v)) (op : Long → Long → Division) (ia : Long) (ea : EA)
    (dn : Reg) : Always P (Machine.divide op ia ea dn) := by
  refine bind H (readEA H _ _ _ fun k _ => all_reg k) fun v => bind H (getD H _ _) fun d => ?_
  cases op v d with
  | zeroDivide =>
    exact bind H (drawBit H) fun _ => bind H (drawBit H) fun _ => bind H (drawBit H) fun _ => bind H (getFlags H) fun _ =>
      bind H (putFlags H _ trivial) fun _ => bind H (getPc H) fun _ => raise H hs _ _ _
  | overflow =>
    exact bind H (drawBit H) fun _ => bind H (drawBit H) fun _ => bind H (getFlags H) fun _ => putFlags H _ trivial
  | result q m => exact bind H (putD H _ _ _ trivial) fun _ => bind H (getFlags H) fun _ => putFlags H _ trivial

/-! ### Logic, shifts, bits, decimal -/

theorem writeThenLogic (H : Ordinary p P) (hf : p.flags) (l : Loc) (sz : Size) (r : Long) (hl : l.permitted p) :
    Always P (Machine.writeThenLogic l sz r) :=
  bind H (writeLoc H _ _ _ hl) fun _ => bind H (getFlags H) fun _ => putFlags H _ hf

theorem logicToDn (H : Ordinary p P) (hf : p.flags) (op : Long → Long → Long) (sz : Size) (xa : Long) (ea : EA) (dn : Reg)
    (he : ∀ k ∈ ea.updates, p.reg k) (hd : p.data dn) : Always P (Machine.logicToDn op sz xa ea dn) :=
  bind H (readEA H _ _ _ he) fun _ => bind H (getD H _ _) fun _ => writeThenLogic H hf _ _ _ hd

theorem logicToEA (H : Ordinary p P) (hf : p.flags) (op : Long → Long → Long) (sz : Size) (xa : Long) (ea : EA) (v : Long)
    (hw : ∀ k ∈ ea.written, p.reg k) (hst : ea.isRegister = false → p.stores) :
    Always P (Machine.logicToEA op sz xa ea v) :=
  withDestination H xa ea sz hw hst fun _ hl => bind H (readLoc H _ _) fun _ => writeThenLogic H hf _ _ _ hl

theorem logicFromDn (H : Ordinary p P) (hf : p.flags) (op : Long → Long → Long) (sz : Size) (xa : Long) (dn : Reg) (ea : EA)
    (hw : ∀ k ∈ ea.written, p.reg k) (hst : ea.isRegister = false → p.stores) :
    Always P (Machine.logicFromDn op sz xa dn ea) := bind H (getD H _ _) fun _ => logicToEA H hf _ _ _ _ _ hw hst

theorem shiftReg (H : Ordinary p P) (hf : p.flags) (k : ShiftKind) (sz : Size) (c : ShiftCount) (dy : Reg) (hd : p.data dy) :
    Always P (Machine.shiftReg k sz c dy) :=
  bind H (look H _) fun _ => bind H (getD H _ _) fun _ => bind H (getFlags H) fun _ => bind H (putFlags H _ hf) fun _ =>
    putD H _ _ _ hd

theorem shiftMem (H : Ordinary p P) (hf : p.flags) (k : ShiftKind) (xa : Long) (ea : EA)
    (hw : ∀ k ∈ ea.written, p.reg k) (hst : ea.isRegister = false → p.stores) : Always P (Machine.shiftMem k xa ea) :=
  withDestination H xa ea .w hw hst fun _ hl => bind H (readLoc H _ _) fun _ => bind H (getFlags H) fun _ =>
    bind H (putFlags H _ hf) fun _ => writeLoc H _ _ _ hl

theorem bitTest (H : Ordinary p P) (hf : p.flags) (xa : Long) (b : Long) (ea : EA) (he : ∀ k ∈ ea.updates, p.reg k) :
    Always P (Machine.bitTest xa b ea) :=
  bind H (readEA H _ _ _ he) fun _ => bind H (getFlags H) fun _ => putFlags H _ hf

theorem bitUpdate (H : Ordinary p P) (hf : p.flags) (op : Long → Nat → Long) (xa : Long) (b : Long) (ea : EA)
    (hw : ∀ k ∈ ea.written, p.reg k) (hst : ea.isRegister = false → p.stores) : Always P (Machine.bitUpdate op xa b ea) :=
  withDestination H xa ea _ hw hst fun _ hl => bind H (readLoc H _ _) fun _ => bind H (getFlags H) fun _ =>
    bind H (putFlags H _ hf) fun _ => writeLoc H _ _ _ hl

theorem bcdResult (H : Ordinary p P) (op : BcdOp) (s d : Byte) (x : Bool) : Always P (Machine.bcdResult op s d x) := by
  unfold Machine.bcdResult
  split
  · exact pure H _
  · exact bind H (drawByte H) fun _ => bind H (drawBit H) fun _ => pure H _

theorem bcdTo (H : Ordinary p P) (hf : p.flags) (op : BcdOp) (l : Loc) (s d : Long) (hl : l.permitted p) :
    Always P (Machine.bcdTo op l s d) :=
  bind H (getFlags H) fun _ => bind H (bcdResult H _ _ _ _) fun _ => bind H (writeLoc H _ _ _ hl) fun _ =>
    bind H (drawBit H) fun _ => bind H (drawBit H) fun _ => bind H (getFlags H) fun _ => putFlags H _ hf

theorem bcdReg (H : Ordinary p P) (hf : p.flags) (op : BcdOp) (dy dx : Reg) (hd : p.data dx) :
    Always P (Machine.bcdReg op dy dx) :=
  bind H (getD H _ _) fun _ => bind H (getD H _ _) fun _ => bcdTo H hf _ _ _ _ hd

theorem bcdMem (H : Ordinary p P) (hf : p.flags) (hst : p.stores) (op : BcdOp) (ay ax : Reg) (hy : p.addr ay) (hx : p.addr ax) :
    Always P (Machine.bcdMem op ay ax) :=
  bind H (predecrement H _ _ hy) fun _ => bind H (readMem H _ _ _) fun _ => bind H (predecrement H _ _ hx) fun _ =>
    bind H (readMem H _ _ _) fun _ => bcdTo H hf _ _ _ _ hst

/-! ### Moves of several registers or bytes -/

theorem movemStoreDown (H : Ordinary p P) (hst : p.stores) (sz : Size) (mask : HWord) (ks : List RegR) (a : Long) :
    Always P (Machine.movemStoreDown sz mask ks a) := by
  induction ks generalizing a with
  | nil => exact pure H _
  | cons k ks ih =>
    unfold Machine.movemStoreDown
    split
    · exact bind H (getR H _) fun _ => bind H (memWrite H hst _ _ _) fun _ => ih _
    · exact ih _

theorem movemStoreUp (H : Ordinary p P) (hst : p.stores) (sz : Size) (mask : HWord) (ks : List RegR) (a : Long) :
    Always P (Machine.movemStoreUp sz mask ks a) := by
  induction ks generalizing a with
  | nil => exact pure H _
  | cons k ks ih =>
    unfold Machine.movemStoreUp
    split
    · exact bind H (getR H _) fun _ => bind H (memWrite H hst _ _ _) fun _ => ih _
    · exact ih _

theorem movemLoad (H : Ordinary p P) (sz : Size) (sp : Space) (mask : HWord) (ks : List RegR) (a : Long)
    (hk : ∀ k ∈ ks, mask.getLsbD k.val = true → p.reg k) : Always P (Machine.movemLoad sz sp mask ks a) := by
  induction ks generalizing a with
  | nil => exact pure H _
  | cons k ks ih =>
    have ih' := fun a => ih a fun k' hk' => hk k' (List.mem_cons_of_mem _ hk')
    unfold Machine.movemLoad
    split
    · rename_i hm
      exact bind H (readMem H _ _ _) fun _ => bind H (putR H _ _ (hk k (List.mem_cons_self ..) hm)) fun _ => ih' _
    · exact ih' _

theorem movemToPredec (H : Ordinary p P) (hst : p.stores) (sz : Size) (mask : HWord) (r : Reg) (hr : p.addr r) :
    Always P (Machine.movemToPredec sz mask r) := by
  refine bind H (getModel H) fun m => ?_
  split
  · exact refuse H _
  · exact bind H (getA H _) fun _ => bind H (movemStoreDown H hst _ _ _ _) fun _ => putA H _ _ hr

theorem movemFromPostinc (H : Ordinary p P) (sz : Size) (mask : HWord) (r : Reg) (hr : p.addr r)
    (hk : ∀ k ∈ maskRegs mask, p.reg k) : Always P (Machine.movemFromPostinc sz mask r) :=
  bind H (getA H _) fun _ => bind H (movemLoad H _ _ _ _ _ fun k hm hb => hk k (List.mem_filter.2 ⟨hm, hb⟩)) fun _ =>
    putA H _ _ hr

theorem movemFromControl (H : Ordinary p P) (sz : Size) (mask : HWord) (xa : Long) (ea : EA)
    (hk : ∀ k ∈ maskRegs mask, p.reg k) : Always P (Machine.movemFromControl sz mask xa ea) :=
  bind H (addrOf H _ _) fun _ =>
    bind H (movemLoad H _ _ _ _ _ fun k hm hb => hk k (List.mem_filter.2 ⟨hm, hb⟩)) fun _ => pure H _

theorem movepRead (H : Ordinary p P) (n : Nat) (a v : Long) : Always P (Machine.movepRead n a v) := by
  induction n generalizing a v with
  | zero => exact pure H _
  | succ n ih => exact bind H (memRead H _ _) fun _ => ih _ _

theorem movepWrite (H : Ordinary p P) (hst : p.stores) (n : Nat) (a v : Long) : Always P (Machine.movepWrite n a v) := by
  induction n generalizing a v with
  | zero => exact pure H _
  | succ n ih => exact bind H (memWrite H hst _ _ _) fun _ => ih _ _

theorem movesStore (H : Ordinary p P) (hst : p.stores) (sz : Size) (rn : RegR) (xa : Long) (ea : EA)
    (he : ∀ k ∈ ea.updates, p.reg k) : Always P (Machine.movesStore sz rn xa ea) := by
  refine bind H ?_ fun _ => bind H (memoryAddress H _ _ _ he) fun _ => bind H (look H _) fun _ => memWriteFC H hst _ _ _ _
  unfold movesValue
  split
  · exact bind H (drawLong H) fun _ => pure H _
  · exact bind H (getR H _) fun _ => pure H _

theorem movesLoad (H : Ordinary p P) (sz : Size) (rn : RegR) (xa : Long) (ea : EA) (he : ∀ k ∈ ea.updates, p.reg k)
    (hr : p.reg rn) : Always P (Machine.movesLoad sz rn xa ea) := by
  refine bind H (memoryAddress H _ _ _ he) fun _ => bind H (look H _) fun _ => bind H (memReadFC H _ _ _) fun _ => ?_
  split
  · rename_i hlt
    refine putD H _ _ _ ?_
    rwa [Permit.reg, if_pos hlt] at hr
  · exact putR H _ _ hr

/-! ### Control transfer -/

theorem branchIf (H : Ordinary p P) (cond : Cond) (target : Long) : Always P (Machine.branchIf cond target) := by
  refine bind H (getFlags H) fun f => ?_
  split
  · exact putPc H _
  · exact pure H _

theorem callTo (H : Ordinary p P) (h7 : p.addr 7) (hst : p.stores) (target : Long) : Always P (Machine.callTo target) :=
  bind H (getPc H) fun _ => bind H (push H h7 hst _ _) fun _ => putPc H _

/-- RTE, for a relation that SetSR keeps too (R1218). -/
theorem restoreFrame (H : Ordinary .all P) (hs : ∀ v, Always P (Machine.setSR v)) (size : Long) :
    Always P (Machine.restoreFrame size) :=
  bind H (getA H _) fun _ => bind H (memRead H _ _) fun _ => bind H (memRead H _ _) fun _ =>
    bind H (putA H _ _ trivial) fun _ => bind H (hs _) fun _ => putPc H _

theorem returnFromException (H : Ordinary .all P) (hs : ∀ v, Always P (Machine.setSR v)) (ia : Long) :
    Always P (Machine.returnFromException ia) := by
  refine bind H (getModel H) fun m => ?_
  split
  · exact restoreFrame H hs _
  · refine bind H (getA H _) fun _ => bind H (memRead H _ _) fun _ => ?_
    split
    · exact restoreFrame H hs _
    · exact refuse H _
    · exact raise H hs _ _ _

/-- A meaning keeps what its handler and the taking of an exception keep. -/
theorem runInstr (H : Ordinary .all P) (hs : ∀ v, Always P (Machine.setSR v)) {i : Instr} {handler : Long → Exec Unit}
    (hh : ∀ ia, Always P (handler ia)) {s t : State} (h : Machine.runInstr i handler s = .next t) : P s t := by
  unfold Machine.runInstr at h
  split at h
  · exact H.trans _ _ _ (H.setPc s _) ((raise H hs 4 _ none).finish h)
  · cases h
  · split at h
    · exact H.trans _ _ _ (H.setPc s _) ((raise H hs 8 _ none).finish h)
    · exact H.trans _ _ _ (H.setPc s _) ((hh _).finish h)

/-- A meaning that runs its handler keeps what the handler keeps. -/
theorem runInstr_entry (H : Ordinary p P) {i : Instr} {handler : Long → Exec Unit} (hh : ∀ ia, Always P (handler ia))
    {s t : State} (hv : rowVerdict s.model i = .entry) (hp : privilegeViolation i s = false)
    (h : Machine.runInstr i handler s = .next t) : P s t := by
  rw [Machine.runInstr_entry hv hp] at h
  exact H.trans _ _ _ (H.setPc s _) ((hh _).finish h)

end Always

end Sys2Proof.Machine
end

