-- ==== Sys2Proof/Laws/Operands.lean ====
section
/-! SUPPORT. The primitives of a meaning run as the functions of Safety say: a read, a write, a push, a pop, an operand
resolved, read and written, an exception entered. A proof about an instruction rewrites with these. -/

namespace Sys2Proof.Machine

variable {α : Type}

namespace State

variable (s : State)

@[simp] theorem stored_cfg (a : Long) (sz : Size) (fc : BitVec 3) (v : Long) : (s.stored a sz fc v).cfg = s.cfg := by
  unfold stored; split <;> rfl

@[simp] theorem stored_sr (a : Long) (sz : Size) (fc : BitVec 3) (v : Long) : (s.stored a sz fc v).sr = s.sr := by
  unfold stored; split <;> rfl

@[simp] theorem stored_pc (a : Long) (sz : Size) (fc : BitVec 3) (v : Long) : (s.stored a sz fc v).pc = s.pc := by
  unfold stored; split <;> rfl

@[simp] theorem stored_condition (a : Long) (sz : Size) (fc : BitVec 3) (v : Long) :
    (s.stored a sz fc v).condition = s.condition := by unfold stored; split <;> rfl

@[simp] theorem stored_draws (a : Long) (sz : Size) (fc : BitVec 3) (v : Long) :
    (s.stored a sz fc v).draws = s.draws := by unfold stored; split <;> rfl

@[simp] theorem stored_readD (a : Long) (sz : Size) (fc : BitVec 3) (v : Long) (n : Reg) :
    (s.stored a sz fc v).readD n = s.readD n := by unfold stored; split <;> rfl

@[simp] theorem stored_readA (a : Long) (sz : Size) (fc : BitVec 3) (v : Long) (n : Reg) :
    (s.stored a sz fc v).readA n = s.readA n := by unfold stored; split <;> rfl

@[simp] theorem stored_ccr (a : Long) (sz : Size) (fc : BitVec 3) (v : Long) :
    (s.stored a sz fc v).ccr = s.ccr := by unfold stored; split <;> rfl

@[simp] theorem stored_model (a : Long) (sz : Size) (fc : BitVec 3) (v : Long) :
    (s.stored a sz fc v).model = s.model := by simp [model]

@[simp] theorem stored_supervisor (a : Long) (sz : Size) (fc : BitVec 3) (v : Long) :
    (s.stored a sz fc v).supervisor = s.supervisor := by simp [supervisor]

@[simp] theorem stored_dataFC (a : Long) (sz : Size) (fc : BitVec 3) (v : Long) :
    (s.stored a sz fc v).dataFC = s.dataFC := by simp [dataFC]

@[simp] theorem stored_progFC (a : Long) (sz : Size) (fc : BitVec 3) (v : Long) :
    (s.stored a sz fc v).progFC = s.progFC := by simp [progFC]

@[simp] theorem stored_vbr (a : Long) (sz : Size) (fc : BitVec 3) (v : Long) : (s.stored a sz fc v).vbr = s.vbr := by
  unfold stored; split <;> rfl

/-! ### What the conditions read of the state -/

theorem canRead_congr {s t : State} (h : t.cfg = s.cfg) (a : Long) (sz : Size) (fc : BitVec 3) :
    t.canRead a sz fc = s.canRead a sz fc := by simp only [canRead, model, h]

theorem canWrite_congr {s t : State} (h : t.cfg = s.cfg) (a : Long) (sz : Size) (fc : BitVec 3) :
    t.canWrite a sz fc = s.canWrite a sz fc := by simp only [canWrite, model, h]

theorem valueAt_congr {s t : State} (h : t.cfg = s.cfg) (hm : t.mem = s.mem) (a : Long) (sz : Size) (fc : BitVec 3) :
    t.valueAt a sz fc = s.valueAt a sz fc := by simp only [valueAt, h, hm]

@[simp] theorem afterEA_cfg (e : EA) (sz : Size) : (s.afterEA e sz).cfg = s.cfg := by cases e <;> simp [afterEA]
@[simp] theorem afterEA_mem (e : EA) (sz : Size) : (s.afterEA e sz).mem = s.mem := by cases e <;> simp [afterEA]
@[simp] theorem afterEA_sr (e : EA) (sz : Size) : (s.afterEA e sz).sr = s.sr := by cases e <;> simp [afterEA]
@[simp] theorem afterEA_pc (e : EA) (sz : Size) : (s.afterEA e sz).pc = s.pc := by cases e <;> simp [afterEA]
@[simp] theorem afterEA_draws (e : EA) (sz : Size) : (s.afterEA e sz).draws = s.draws := by cases e <;> simp [afterEA]
@[simp] theorem afterEA_readD (e : EA) (sz : Size) (n : Reg) : (s.afterEA e sz).readD n = s.readD n := by
  cases e <;> simp [afterEA]
@[simp] theorem afterEA_ccr (e : EA) (sz : Size) : (s.afterEA e sz).ccr = s.ccr := by simp [ccr]
@[simp] theorem afterEA_model (e : EA) (sz : Size) : (s.afterEA e sz).model = s.model := by simp [model]
@[simp] theorem afterEA_supervisor (e : EA) (sz : Size) : (s.afterEA e sz).supervisor = s.supervisor := by simp [supervisor]
@[simp] theorem afterEA_dataFC (e : EA) (sz : Size) : (s.afterEA e sz).dataFC = s.dataFC := by simp [dataFC]
@[simp] theorem afterEA_progFC (e : EA) (sz : Size) : (s.afterEA e sz).progFC = s.progFC := by simp [progFC]

theorem canReadLoc_congr {s t : State} (h : t.cfg = s.cfg) (hs : t.sr = s.sr) (l : Loc) (sz : Size) :
    t.canReadLoc l sz = s.canReadLoc l sz := by
  have hsup : t.supervisor = s.supervisor := by simp only [supervisor, hs]
  have hd : ∀ sp, t.spaceFC sp = s.spaceFC sp := by
    intro sp; cases sp <;> simp only [spaceFC, dataFC, progFC, hsup]
  cases l <;> simp only [canReadLoc, canRead_congr h, hd]

theorem canWriteLoc_congr {s t : State} (h : t.cfg = s.cfg) (hs : t.supervisor = s.supervisor) (l : Loc) (sz : Size) :
    t.canWriteLoc l sz = s.canWriteLoc l sz := by
  cases l with
  | mem a sp => cases sp <;> simp only [canWriteLoc, canWrite_congr h, dataFC, hs]
  | regD n => rfl
  | regA n => rfl
  | imm v => rfl

/-! ### Writes of different parts of the state commute -/

theorem setFlags_putLoc (f : Ccr) (l : Loc) (sz : Size) (v : Long) :
    (s.setFlags f).putLoc l sz v = (s.putLoc l sz v).setFlags f := by
  cases l with
  | regD n => rfl
  | regA n =>
    simp only [putLoc, writeA, setFlags_supervisor]
    split
    · rfl
    · split <;> rfl
  | imm w => rfl
  | mem a sp =>
    cases sp with
    | data =>
      simp only [putLoc, stored, setFlags_dataFC, setFlags_cfg]
      split <;> rfl
    | program => rfl

@[simp] theorem putLoc_sr (l : Loc) (sz : Size) (v : Long) : (s.putLoc l sz v).sr = s.sr := by
  cases l with
  | regD n => rfl
  | regA n => simp [putLoc]
  | imm w => rfl
  | mem a sp => cases sp <;> simp [putLoc]

@[simp] theorem putLoc_draws (l : Loc) (sz : Size) (v : Long) : (s.putLoc l sz v).draws = s.draws := by
  cases l with
  | regD n => rfl
  | regA n => simp [putLoc]
  | imm w => rfl
  | mem a sp => cases sp <;> simp [putLoc]

@[simp] theorem putLoc_cfg (l : Loc) (sz : Size) (v : Long) : (s.putLoc l sz v).cfg = s.cfg := by
  cases l with
  | regD n => rfl
  | regA n => simp [putLoc]
  | imm w => rfl
  | mem a sp => cases sp <;> simp [putLoc]

@[simp] theorem putLoc_ccr (l : Loc) (sz : Size) (v : Long) : (s.putLoc l sz v).ccr = s.ccr := by simp [ccr]

end State

/-! ### The primitives -/

theorem memReadFC_eq {s : State} {a : Long} {sz : Size} {fc : BitVec 3} (h : s.canRead a sz fc = true) :
    memReadFC a sz fc s = .ok (s.valueAt a sz fc) s := by
  simp only [State.canRead, Bool.and_eq_true, Bool.not_eq_true'] at h
  rw [run_memReadFC, h.1, State.valueAt]
  obtain ⟨k, hk⟩ := Option.isSome_iff_exists.1 h.2
  rw [hk]; rfl

theorem memReadFC_failed {s : State} {a : Long} {sz : Size} {fc : BitVec 3} (h : s.canRead a sz fc = false) :
    memReadFC a sz fc s = .error .ended (s.setCondition .halted) := by
  rw [run_memReadFC]
  simp only [State.canRead, Bool.and_eq_false_iff, Bool.not_eq_false'] at h
  rcases h with h | h
  · rw [h]; rfl
  · split
    · rfl
    · rw [Option.isSome_eq_false_iff, Option.isNone_iff_eq_none] at h
      rw [h]

theorem memWriteFC_eq {s : State} {a : Long} {sz : Size} {fc : BitVec 3} (v : Long) (h : s.canWrite a sz fc = true) :
    memWriteFC a sz fc v s = .ok () (s.stored a sz fc v) := by
  simp only [State.canWrite, Bool.and_eq_true, Bool.not_eq_true'] at h
  rw [run_memWriteFC, h.1, State.stored]
  obtain ⟨k, hk⟩ := Option.isSome_iff_exists.1 h.2
  rw [hk]; rfl

theorem memWriteFC_failed {s : State} {a : Long} {sz : Size} {fc : BitVec 3} (v : Long) (h : s.canWrite a sz fc = false) :
    memWriteFC a sz fc v s = .error .ended (s.setCondition .halted) := by
  rw [run_memWriteFC]
  simp only [State.canWrite, Bool.and_eq_false_iff, Bool.not_eq_false'] at h
  rcases h with h | h
  · rw [h]; rfl
  · split
    · rfl
    · rw [Option.isSome_eq_false_iff, Option.isNone_iff_eq_none] at h
      rw [h]

theorem push_eq {s : State} {sz : Size} (v : Long) (h : s.canPush sz = true) : push sz v s = .ok () (s.pushed sz v) := by
  rw [run_push, memWriteFC_eq]
  · rfl
  · rw [State.canWrite_congr (s := s) (by simp)]; exact h

theorem pop_eq {s : State} {sz : Size} (h : s.canPop sz = true) : pop sz s = .ok (s.top sz) (s.popped sz) := by
  rw [run_pop, memReadFC_eq h]; rfl

/-- AddrOf (R418) of a control operand. -/
theorem addrOf_eq {s : State} (xa : Long) {e : EA} (sz : Size) (hc : e.isControl = true) (h : s.resolves e = true) :
    addrOf xa e s = .ok (s.address xa e sz) s := by
  have hx : ∀ x : IndexExt, (s.model.is020plus && x.full) = false → indexValue x s = .ok (s.indexOf x) s := by
    intro x hf
    simp only [indexValue, run_bind, run_getR, run_getModel, State.indexOf]
    cases hm : s.model.is020plus
    · rfl
    · rw [hm, Bool.true_and] at hf
      simp only [hf, Bool.false_eq_true, if_false, if_true, run_pure]
  cases e with
  | index n x =>
    simp only [State.resolves, Bool.not_eq_true'] at h
    simp only [addrOf, run_bind, run_getA, hx x h, run_pure, State.address]
  | pcIndex x =>
    simp only [State.resolves, Bool.not_eq_true'] at h
    simp only [addrOf, run_bind, hx x h, run_pure, State.address]
  | ind n => rfl
  | disp n d => rfl
  | absW a => rfl
  | absL a => rfl
  | pcDisp d => rfl
  | dn n => cases hc
  | an n => cases hc
  | postinc n => cases hc
  | predec n => cases hc
  | imm v => cases hc

/-- An indexed operand with a full-format extension word is refused where it is resolved, on MC68020 and later (R417). -/
theorem addrOf_unresolved {s : State} (xa : Long) {e : EA} (h : s.resolves e = false) :
    addrOf xa e s = .error (.refused .fullFormatExtension) s := by
  have hx : ∀ x : IndexExt, (s.model.is020plus && x.full) = true → indexValue x s = .error (.refused .fullFormatExtension) s := by
    intro x h
    rw [Bool.and_eq_true] at h
    simp only [indexValue, run_bind, run_getR, run_getModel, h.1, h.2, if_true, run_refuse]
  cases e <;> simp only [State.resolves, Bool.not_eq_false', Bool.true_eq_false] at h
  · simp only [addrOf, run_bind, run_getA, hx _ h]
  · simp only [addrOf, run_bind, hx _ h]

theorem resolveEA_unresolved {s : State} (xa : Long) {e : EA} (sz : Size) (h : s.resolves e = false) :
    resolveEA xa e sz s = .error (.refused .fullFormatExtension) s := by
  have ha := addrOf_unresolved xa h
  cases e <;> simp only [State.resolves, Bool.not_eq_false', Bool.true_eq_false] at h
  · exact run_bind_error ha
  · exact run_bind_error ha

/-- ResolveEA (R418). -/
theorem resolveEA_eq {s : State} (xa : Long) {e : EA} (sz : Size) (h : s.resolves e = true) :
    resolveEA xa e sz s = .ok (s.location xa e sz) (s.afterEA e sz) := by
  have ctl : ∀ sp : Space, e.isControl = true →
      (do let a ← addrOf xa e; return Loc.mem a sp : Exec Loc) s = .ok (.mem (s.address xa e sz) sp) s := by
    intro sp hc
    rw [run_bind, addrOf_eq xa sz hc h]; rfl
  cases e with
  | dn n => rfl
  | an n => rfl
  | postinc n => rfl
  | predec n => rfl
  | imm v => rfl
  | ind n => exact ctl .data rfl
  | disp n d => exact ctl .data rfl
  | index n x => exact ctl .data rfl
  | absW a => exact ctl .data rfl
  | absL a => exact ctl .data rfl
  | pcDisp d => exact ctl .program rfl
  | pcIndex x => exact ctl .program rfl

/-- Read (R419). -/
theorem readLoc_eq {s : State} {l : Loc} {sz : Size} (h : s.canReadLoc l sz = true) :
    readLoc l sz s = .ok (s.valueOf l sz) s := by
  cases l with
  | regD n => rfl
  | regA n => rfl
  | imm v => rfl
  | mem a sp => cases sp <;> exact memReadFC_eq h

/-- Write (R419). -/
theorem writeLoc_eq {s : State} {l : Loc} {sz : Size} (v : Long) (h : s.canWriteLoc l sz = true) :
    writeLoc l sz v s = .ok () (s.putLoc l sz v) := by
  cases l with
  | regD n => rfl
  | regA n => rfl
  | imm v => cases h
  | mem a sp =>
    cases sp with
    | data => exact memWriteFC_eq v h
    | program => cases h

/-- A source operand (R420). -/
theorem readEA_eq {s : State} {xa : Long} {e : EA} {sz : Size} (h : s.canReadEA xa e sz = true) :
    readEA xa e sz s = .ok (s.operand xa e sz) (s.afterEA e sz) := by
  simp only [State.canReadEA, Bool.and_eq_true] at h
  rw [run_readEA, resolveEA_eq xa sz h.1]
  exact readLoc_eq (by rw [State.canReadLoc_congr (s := s) (by simp) (by simp)]; exact h.2)

/-- A destination that is not read (R420, R423). -/
theorem writeEA_eq {s : State} {xa : Long} {e : EA} {sz : Size} (v : Long) (h : s.canWriteEA xa e sz = true) :
    writeEA xa e sz v s = .ok () ((s.afterEA e sz).putLoc (s.location xa e sz) sz v) := by
  simp only [State.canWriteEA, Bool.and_eq_true] at h
  rw [run_writeEA, resolveEA_eq xa sz h.1]
  exact writeLoc_eq v (by rw [State.canWriteLoc_congr (s := s) (by simp) (by simp)]; exact h.2)

/-! ### Taking an exception (R1310, R1312) -/

@[simp] theorem State.pushed_cfg (s : State) (sz : Size) (v : Long) : (s.pushed sz v).cfg = s.cfg := by
  simp [State.pushed]
@[simp] theorem State.pushed_sr (s : State) (sz : Size) (v : Long) : (s.pushed sz v).sr = s.sr := by simp [State.pushed]
@[simp] theorem State.pushed_vbr (s : State) (sz : Size) (v : Long) : (s.pushed sz v).vbr = s.vbr := by simp [State.pushed]
@[simp] theorem State.pushed_pc (s : State) (sz : Size) (v : Long) : (s.pushed sz v).pc = s.pc := by simp [State.pushed]
@[simp] theorem State.pushed_condition (s : State) (sz : Size) (v : Long) : (s.pushed sz v).condition = s.condition := by
  simp [State.pushed]
@[simp] theorem State.pushed_readD (s : State) (sz : Size) (v : Long) (n : Reg) : (s.pushed sz v).readD n = s.readD n := by
  simp [State.pushed]

theorem State.pushedAll_cfg (s : State) (vs : List (Size × Long)) : (s.pushedAll vs).cfg = s.cfg := by
  induction vs generalizing s with
  | nil => rfl
  | cons v vs ih => exact (ih _).trans (s.pushed_cfg _ _)

theorem State.pushedAll_sr (s : State) (vs : List (Size × Long)) : (s.pushedAll vs).sr = s.sr := by
  induction vs generalizing s with
  | nil => rfl
  | cons v vs ih => exact (ih _).trans (s.pushed_sr _ _)

theorem State.pushedAll_vbr (s : State) (vs : List (Size × Long)) : (s.pushedAll vs).vbr = s.vbr := by
  induction vs generalizing s with
  | nil => rfl
  | cons v vs ih => exact (ih _).trans (s.pushed_vbr _ _)

theorem push_then {s : State} {sz : Size} {v : Long} {vs : List (Size × Long)} (h : s.canPushAll ((sz, v) :: vs) = true)
    (f : Unit → Exec α) : (push sz v >>= f) s = f () (s.pushed sz v) ∧ (s.pushed sz v).canPushAll vs = true := by
  simp only [State.canPushAll, Bool.and_eq_true] at h
  exact ⟨run_bind_ok (push_eq _ h.1), h.2⟩

theorem push_last {s : State} {sz : Size} {v : Long} (h : s.canPushAll [(sz, v)] = true) :
    push sz v s = .ok () (s.pushed sz v) := by
  simp only [State.canPushAll, Bool.and_eq_true] at h
  exact push_eq _ h.1

theorem push_two {s : State} {sz1 sz2 : Size} {v1 v2 : Long} (h : s.canPushAll [(sz1, v1), (sz2, v2)] = true) :
    (do push sz1 v1; push sz2 v2 : Exec Unit) s = .ok () (s.pushedAll [(sz1, v1), (sz2, v2)]) := by
  obtain ⟨h1, h2⟩ := push_then h fun _ => push sz2 v2
  rw [h1, push_last h2]; rfl

theorem push_three {s : State} {sz1 sz2 sz3 : Size} {v1 v2 v3 : Long}
    (h : s.canPushAll [(sz1, v1), (sz2, v2), (sz3, v3)] = true) :
    (do push sz1 v1; push sz2 v2; push sz3 v3 : Exec Unit) s = .ok () (s.pushedAll [(sz1, v1), (sz2, v2), (sz3, v3)]) := by
  obtain ⟨h1, h2⟩ := push_then h fun _ => (do push sz2 v2; push sz3 v3 : Exec Unit)
  rw [h1, push_two h2]; rfl

theorem push_four {s : State} {sz1 sz2 sz3 sz4 : Size} {v1 v2 v3 v4 : Long}
    (h : s.canPushAll [(sz1, v1), (sz2, v2), (sz3, v3), (sz4, v4)] = true) :
    (do push sz1 v1; push sz2 v2; push sz3 v3; push sz4 v4 : Exec Unit) s =
      .ok () (s.pushedAll [(sz1, v1), (sz2, v2), (sz3, v3), (sz4, v4)]) := by
  obtain ⟨h1, h2⟩ := push_then h fun _ => (do push sz2 v2; push sz3 v3; push sz4 v4 : Exec Unit)
  rw [h1, push_three h2]; rfl

theorem pushFrame_eq {s : State} {vec : Nat} {p : Long} {ia : Option Long} {old : HWord}
    (h : s.canPushAll (frameOf s.model vec p ia old) = true) :
    pushFrame vec p ia old s = .ok () (s.pushedAll (frameOf s.model vec p ia old)) := by
  unfold pushFrame
  rw [run_bind_ok (run_getModel s)]
  cases h0 : s.model.is000
  · cases h2 : s.model.is020plus
    · rw [show frameOf s.model vec p ia old = [(.w, formatWord 0 vec), (.l, p), (.w, old.setWidth 32)] by
        simp only [frameOf, h0, h2, Bool.false_eq_true, if_false]] at h ⊢
      exact push_three h
    · cases ia with
      | none =>
        rw [show frameOf s.model vec p none old = [(.w, formatWord 0 vec), (.l, p), (.w, old.setWidth 32)] by
          simp only [frameOf, h0, h2, Bool.false_eq_true, if_false]] at h ⊢
        exact push_three h
      | some a =>
        rw [show frameOf s.model vec p (some a) old =
            [(.l, a), (.w, formatWord 2 vec), (.l, p), (.w, old.setWidth 32)] by
          simp only [frameOf, h0, h2, Bool.false_eq_true, if_false]] at h ⊢
        exact push_four h
  · rw [show frameOf s.model vec p ia old = [(.l, p), (.w, old.setWidth 32)] by
      simp only [frameOf, h0, if_true]] at h ⊢
    exact push_two h

/-- TakeException (R1310). -/
theorem enterException_eq {s : State} {vec : Nat} {p : Long} {ia : Option Long} (h : s.canEnter vec p ia = true) :
    enterException vec p ia s = .ok () (s.entered vec p ia) := by
  simp only [State.canEnter, Bool.and_eq_true, Bool.not_eq_true', beq_iff_eq] at h
  obtain ⟨⟨⟨hmode, hr⟩, hp⟩, hv⟩ := h
  have hset : setSR ((s.sr ||| 0x2000) &&& 0x3FFF) s = .ok () (s.setSrBits s.handlerSr) := by
    rw [run_setSR, hr]; rfl
  have hpush : pushFrame vec p ia s.sr (s.setSrBits s.handlerSr) = .ok () (s.framed vec p ia) := pushFrame_eq hp
  have hc : (s.framed vec p ia).cfg = s.cfg := State.pushedAll_cfg _ _
  have hb : (s.framed vec p ia).vbr = s.vbr := State.pushedAll_vbr _ _
  have hva : (s.framed vec p ia).vectorAddress vec = s.vectorAddress vec := by
    unfold State.vectorAddress State.vectorBase State.model
    rw [hc, hb]
  rw [run_enterException_vector _ _ _ _ hmode, run_bind_ok hset, run_bind_ok hpush, run_bind_ok (run_look _ _), hva,
    run_bind_ok (memReadFC_eq (by rw [State.canRead_congr hc]; exact hv))]
  rfl

theorem raise_eq {s : State} {vec : Nat} {p : Long} {ia : Option Long} (h : s.canEnter vec p ia = true) :
    (raise vec p ia : Exec α) s = .error .ended (s.entered vec p ia) := by
  rw [run_raise, enterException_eq h]

/-- An exception that an instruction takes at once. -/
theorem finish_raise {s : State} {vec : Nat} {p : Long} {ia : Option Long} (h : s.canEnter vec p ia = true) :
    finish (raise vec p ia) s = .next (s.entered vec p ia) := finish_ended (raise_eq h)

end Sys2Proof.Machine
end

