-- ==== Sys2Proof/Laws/Operations.lean ====
section
/-! SUPPORT. The shared parts of the meanings when nothing stops them: one equation per part, over the pure functions of
Safety.lean, which a proof about an instruction cites instead of unfolding it. -/

namespace Sys2Proof.Machine

variable {α : Type} {s t : State}

/-! ### The frame of a meaning -/

/-- A meaning whose row applies and is not a privilege violation answers what its handler leaves. -/
theorem runInstr_next {i : Instr} {handler : Long → Exec Unit} (hv : rowVerdict s.model i = .entry)
    (hp : privilegeViolation i s = false) (hr : handler s.pc (s.pastWords i) = .ok () t) : runInstr i handler s = .next t := by
  rw [runInstr_entry hv hp]
  exact finish_ok hr

/-- The same for a handler that takes an exception. -/
theorem runInstr_taken {i : Instr} {handler : Long → Exec Unit} (hv : rowVerdict s.model i = .entry)
    (hp : privilegeViolation i s = false) (hr : handler s.pc (s.pastWords i) = .error .ended t) :
    runInstr i handler s = .next t := by
  rw [runInstr_entry hv hp]
  exact finish_ended hr

/-- The same for a handler that refuses. -/
theorem runInstr_refuses {i : Instr} {handler : Long → Exec Unit} {r : Refusal} (hv : rowVerdict s.model i = .entry)
    (hp : privilegeViolation i s = false) (hr : handler s.pc (s.pastWords i) = .error (.refused r) t) :
    runInstr i handler s = .refused r := by
  rw [runInstr_entry hv hp]
  exact finish_refused hr

theorem no_violation {i : Instr} (h : s.supervisor = true) : privilegeViolation i s = false := by
  simp [privilegeViolation, h]

namespace State

@[simp] theorem pastWords_ccr (i : Instr) : (s.pastWords i).ccr = s.ccr := rfl
@[simp] theorem pastWords_readD (i : Instr) (n : Reg) : (s.pastWords i).readD n = s.readD n := rfl
@[simp] theorem pastWords_readA (i : Instr) (n : Reg) : (s.pastWords i).readA n = s.readA n := rfl
@[simp] theorem pastWords_pc (i : Instr) : (s.pastWords i).pc = pcNext i s.pc := rfl
@[simp] theorem pastWords_cfg (i : Instr) : (s.pastWords i).cfg = s.cfg := rfl
@[simp] theorem pastWords_mem (i : Instr) : (s.pastWords i).mem = s.mem := rfl
@[simp] theorem pastWords_sr (i : Instr) : (s.pastWords i).sr = s.sr := rfl
@[simp] theorem pastWords_dataFC (i : Instr) : (s.pastWords i).dataFC = s.dataFC := rfl
@[simp] theorem pastWords_draws (i : Instr) : (s.pastWords i).draws = s.draws := rfl
@[simp] theorem pastWords_model (i : Instr) : (s.pastWords i).model = s.model := rfl

end State

/-! ### Bits of an operand -/

theorem ones_getLsbD (n : Nat) {k : Nat} (hk : k < 32) : (BitVec.ofNat 32 (2 ^ n - 1)).getLsbD k = decide (k < n) := by
  rw [BitVec.getLsbD_ofNat, Nat.testBit_two_pow_sub_one]
  simp [hk]

theorem truncTo_l (v : Long) : truncTo .l v = v := by
  have : sizeMask .l = BitVec.allOnes 32 := by decide
  simp only [truncTo, this, BitVec.and_allOnes]

theorem truncTo_b_low (v : Long) : (truncTo .b v).setWidth 8 = v.extractLsb' 0 8 := by
  apply BitVec.eq_of_getLsbD_eq
  intro i hi
  have := ones_getLsbD 8 (k := i) (by omega)
  simp only [truncTo, sizeMask, BitVec.getLsbD_setWidth, BitVec.getLsbD_and, BitVec.getLsbD_extractLsb', hi, decide_true,
    Bool.true_and, Nat.zero_add]
  refine (congrArg _ this).trans ?_
  simp [hi]

theorem truncTo_w_low (v : Long) : (truncTo .w v).setWidth 16 = v.extractLsb' 0 16 := by
  apply BitVec.eq_of_getLsbD_eq
  intro i hi
  have := ones_getLsbD 16 (k := i) (by omega)
  simp only [truncTo, sizeMask, BitVec.getLsbD_setWidth, BitVec.getLsbD_and, BitVec.getLsbD_extractLsb', hi, decide_true,
    Bool.true_and, Nat.zero_add]
  refine (congrArg _ this).trans ?_
  simp [hi]

theorem truncTo_w_toNat (v : Long) : (truncTo .w v).toNat = (v.setWidth 16).toNat := by
  simp only [truncTo, sizeMask, BitVec.toNat_and, BitVec.toNat_setWidth]
  rw [show BitVec.toNat (65535 : BitVec 32) = 2 ^ 16 - 1 from rfl, Nat.and_two_pow_sub_one_eq_mod]

/-! ### Operands -/

theorem canUpdate_parts {xa : Long} {e : EA} {sz : Size} (h : s.canUpdate xa e sz = true) :
    s.resolves e = true ∧ (s.afterEA e sz).canReadLoc (s.location xa e sz) sz = true ∧
      (s.afterEA e sz).canWriteLoc (s.location xa e sz) sz = true := by
  simp only [State.canUpdate, Bool.and_eq_true] at h
  refine ⟨h.1.1, ?_, ?_⟩
  · rw [State.canReadLoc_congr (s := s) (by simp) (by simp)]; exact h.1.2
  · rw [State.canWriteLoc_congr (s := s) (by simp) (by simp)]; exact h.2

theorem canUpdate_canReadEA {xa : Long} {e : EA} {sz : Size} (h : s.canUpdate xa e sz = true) :
    s.canReadEA xa e sz = true := by
  simp only [State.canUpdate, Bool.and_eq_true] at h
  simp only [State.canReadEA, Bool.and_eq_true]
  exact h.1

theorem canWriteEA_parts {xa : Long} {e : EA} {sz : Size} (h : s.canWriteEA xa e sz = true) :
    s.resolves e = true ∧ (s.afterEA e sz).canWriteLoc (s.location xa e sz) sz = true := by
  simp only [State.canWriteEA, Bool.and_eq_true] at h
  exact ⟨h.1, by rw [State.canWriteLoc_congr (s := s) (by simp) (by simp)]; exact h.2⟩

/-- A write after the flags are set is the write, and then the flags. -/
theorem writeLoc_setFlags {l : Loc} {sz : Size} {f : Ccr} {v : Long} (h : s.canWriteLoc l sz = true) :
    writeLoc l sz v (s.setFlags f) = .ok () ((s.putLoc l sz v).setFlags f) := by
  rw [writeLoc_eq v (by rw [State.canWriteLoc_congr (s := s) (by simp) (by simp)]; exact h), State.setFlags_putLoc]

theorem memoryAddress_eq {xa : Long} {e : EA} {sz : Size} (ha : e.isMemoryAlterable = true) (hr : s.resolves e = true) :
    memoryAddress xa e sz s = .ok (s.address xa e sz) (s.afterEA e sz) := by
  unfold memoryAddress
  rw [run_bind_ok (resolveEA_eq xa sz hr)]
  cases e <;> first | rfl | cases ha

/-- A predecrement and the read after it (R607, R614, R1001). -/
theorem predecrement_read {n : Reg} {sz : Size} (xa : Long) (h : s.canReadEA xa (.predec n) sz = true)
    (f : Long → Long → Exec α) :
    (do let a ← predecrement n sz; let v ← readMem a .data sz; f a v) s =
      f (s.readA n - eaStep n sz) (s.operand xa (.predec n) sz) (s.afterEA (.predec n) sz) := by
  have : readMem (s.readA n - eaStep n sz) .data sz (s.writeA n (s.readA n - eaStep n sz)) =
      .ok (s.operand xa (.predec n) sz) (s.afterEA (.predec n) sz) := readEA_eq h
  simp only [predecrement, run_bind, run_getA, run_putA, run_pure, this]

/-- A postincrement and the read after it (R618). -/
theorem postincrement_read {n : Reg} {sz : Size} (xa : Long) (h : s.canReadEA xa (.postinc n) sz = true)
    (f : Long → Exec α) :
    (do let a ← postincrement n sz; let v ← readMem a .data sz; f v) s =
      f (s.operand xa (.postinc n) sz) (s.afterEA (.postinc n) sz) := by
  have : readMem (s.readA n) .data sz (s.writeA n (s.readA n + eaStep n sz)) =
      .ok (s.operand xa (.postinc n) sz) (s.afterEA (.postinc n) sz) := readEA_eq h
  simp only [postincrement, run_bind, run_getA, run_putA, run_pure, this]

/-! ### Arithmetic, logic, shifts, bits -/

theorem arithToEA_eq {op : BinOp} {sz : Size} {xa : Long} {ea : EA} {v : Long} (h : s.canUpdate xa ea sz = true) :
    arithToEA op sz xa ea v s = .ok () (s.updated xa ea sz (op sz v (s.operand xa ea sz) s.ccr)) := by
  obtain ⟨h1, h2, h3⟩ := canUpdate_parts h
  unfold arithToEA
  rw [run_bind_ok (resolveEA_eq xa sz h1), run_bind_ok (readLoc_eq h2)]
  simp only [run_bind, run_getFlags, flagsThenWrite, run_putFlags]
  rw [writeLoc_setFlags h3]
  simp only [State.updated, State.afterEA_ccr]
  rfl

theorem arithToDn_eq {op : BinOp} {sz : Size} {xa : Long} {ea : EA} {dn : Reg} (h : s.canReadEA xa ea sz = true) :
    arithToDn op sz xa ea dn s = .ok () ((s.afterEA ea sz).resultTo dn sz
      (op sz (s.operand xa ea sz) (truncTo sz (s.readD dn)) s.ccr)) := by
  unfold arithToDn
  rw [run_bind_ok (readEA_eq h)]
  simp only [run_bind, run_getD, run_getFlags, flagsThenWrite, run_putFlags, run_writeLoc_regD, State.afterEA_readD,
    State.afterEA_ccr]
  rfl

theorem arithUnary_eq {op : UnOp} {sz : Size} {xa : Long} {ea : EA} (h : s.canUpdate xa ea sz = true) :
    arithUnary op sz xa ea s = .ok () (s.updated xa ea sz (op sz (s.operand xa ea sz) s.ccr)) := by
  obtain ⟨h1, h2, h3⟩ := canUpdate_parts h
  unfold arithUnary
  rw [run_bind_ok (resolveEA_eq _ sz h1), run_bind_ok (readLoc_eq h2)]
  simp only [run_bind, run_getFlags, flagsThenWrite, run_putFlags]
  rw [writeLoc_setFlags h3]
  simp only [State.updated, State.afterEA_ccr]
  rfl

theorem extendedMem_eq {op : BinOp} {sz : Size} {ry rx : Reg} (h1 : s.canReadEA 0 (.predec ry) sz = true)
    (h2 : (s.afterEA (.predec ry) sz).canUpdate 0 (.predec rx) sz = true) :
    extendedMem op sz ry rx s = .ok () ((s.afterEA (.predec ry) sz).updated 0 (.predec rx) sz
      (op sz (s.operand 0 (.predec ry) sz) ((s.afterEA (.predec ry) sz).operand 0 (.predec rx) sz) s.ccr)) := by
  unfold extendedMem
  rw [predecrement_read 0 h1, predecrement_read 0 (canUpdate_canReadEA h2)]
  simp only [run_bind, run_getFlags, flagsThenWrite, run_putFlags]
  refine (writeLoc_setFlags (canUpdate_parts h2).2.2).trans ?_
  simp only [State.updated, State.afterEA_ccr]

theorem logicToDn_eq {op : Long → Long → Long} {sz : Size} {xa : Long} {ea : EA} {dn : Reg}
    (h : s.canReadEA xa ea sz = true) :
    logicToDn op sz xa ea dn s = .ok () ((s.afterEA ea sz).resultTo dn sz
      ⟨op (truncTo sz (s.readD dn)) (s.operand xa ea sz),
        logicFlags sz (op (truncTo sz (s.readD dn)) (s.operand xa ea sz)) s.ccr⟩) := by
  unfold logicToDn
  rw [run_bind_ok (readEA_eq h)]
  simp only [run_bind, run_getD, State.afterEA_readD, writeThenLogic, run_writeLoc_regD, run_getFlags, State.setD_ccr,
    State.afterEA_ccr]
  rfl

theorem logicToEA_eq {op : Long → Long → Long} {sz : Size} {xa : Long} {ea : EA} {v : Long}
    (h : s.canUpdate xa ea sz = true) :
    logicToEA op sz xa ea v s = .ok () (s.updated xa ea sz
      ⟨op (s.operand xa ea sz) v, logicFlags sz (op (s.operand xa ea sz) v) s.ccr⟩) := by
  obtain ⟨h1, h2, h3⟩ := canUpdate_parts h
  unfold logicToEA
  rw [run_bind_ok (resolveEA_eq _ sz h1), run_bind_ok (readLoc_eq h2)]
  unfold writeThenLogic
  rw [run_bind_ok (writeLoc_eq _ h3)]
  simp only [run_bind, run_getFlags, run_putFlags, State.putLoc_ccr, State.updated, State.afterEA_ccr]
  rfl

theorem shiftMem_eq {k : ShiftKind} {xa : Long} {ea : EA} (h : s.canUpdate xa ea .w = true) :
    shiftMem k xa ea s = .ok () (s.updated xa ea .w (shiftOp k .w (s.operand xa ea .w) 1 s.ccr)) := by
  obtain ⟨h1, h2, h3⟩ := canUpdate_parts h
  unfold shiftMem
  rw [run_bind_ok (resolveEA_eq _ .w h1), run_bind_ok (readLoc_eq h2)]
  simp only [run_bind, run_getFlags, run_putFlags]
  rw [writeLoc_setFlags h3]
  simp only [State.updated, State.afterEA_ccr]
  rfl

theorem bitUpdate_eq {op : Long → Nat → Long} {xa b : Long} {ea : EA} (h : s.canUpdate xa ea (bitSize ea) = true) :
    bitUpdate op xa b ea s = .ok () (s.updated xa ea (bitSize ea)
      ⟨op (s.operand xa ea (bitSize ea)) (bitIndex ea b),
        { s.ccr with z := !(s.operand xa ea (bitSize ea)).getLsbD (bitIndex ea b) }⟩) := by
  obtain ⟨h1, h2, h3⟩ := canUpdate_parts h
  unfold bitUpdate
  rw [run_bind_ok (resolveEA_eq _ _ h1), run_bind_ok (readLoc_eq h2)]
  simp only [run_bind, run_getFlags, run_putFlags]
  rw [writeLoc_setFlags h3]
  simp only [State.updated, State.afterEA_ccr]
  rfl

/-- The result of a decimal operation, its write and its flags (R1000). -/
theorem bcdTo_eq {op : BcdOp} {l : Loc} {a b : Long} (h : s.canWriteLoc l .b = true) :
    bcdTo op l a b s = .ok () (((s.decimal op (a.setWidth 8) (b.setWidth 8)).2.putLoc l .b
      ((s.decimal op (a.setWidth 8) (b.setWidth 8)).1.1.setWidth 32)).decimalFlags
      (s.decimal op (a.setWidth 8) (b.setWidth 8)).1) := by
  unfold bcdTo State.decimal bcdResult
  rw [run_bind_ok (run_getFlags s)]
  have c1 : ∀ t : State, t.countDraw.ccr = t.ccr := fun _ => rfl
  split
  · simp only [run_bind, run_pure, writeLoc_eq _ h, putBcdFlags, run_drawBit, run_getFlags, run_putFlags, State.decimalFlags, c1]
    rfl
  · have h' : s.countDraw.countDraw.canWriteLoc l .b = true := by
      rw [State.canWriteLoc_congr (s := s) (by simp) (by simp)]; exact h
    simp only [run_bind, run_pure, run_drawByte, run_drawBit, writeLoc_eq _ h', putBcdFlags, run_getFlags, run_putFlags,
      State.decimalFlags, c1]
    rfl

/-- ABCD and SBCD in memory run to their end (R1002, R1004). -/
theorem bcdMem_ok {op : BcdOp} {ry rx : Reg} (h1 : s.canReadEA 0 (.predec ry) .b = true)
    (h2 : (s.afterEA (.predec ry) .b).canUpdate 0 (.predec rx) .b = true) : ∃ t, bcdMem op ry rx s = .ok () t := by
  unfold bcdMem
  rw [predecrement_read 0 h1, predecrement_read 0 (canUpdate_canReadEA h2)]
  exact ⟨_, bcdTo_eq (canUpdate_parts h2).2.2⟩

/-! ### Register lists (R504, R505) -/

theorem canStoreDown_congr (h : t.cfg = s.cfg) (hs : t.dataFC = s.dataFC) (sz : Size) (ks : List RegR) (a : Long) :
    t.canStoreDown sz ks a = s.canStoreDown sz ks a := by
  induction ks generalizing a with
  | nil => rfl
  | cons k ks ih => simp only [State.canStoreDown, State.canWrite_congr h, hs, ih]

theorem canStoreUp_congr (h : t.cfg = s.cfg) (hs : t.dataFC = s.dataFC) (sz : Size) (ks : List RegR) (a : Long) :
    t.canStoreUp sz ks a = s.canStoreUp sz ks a := by
  induction ks generalizing a with
  | nil => rfl
  | cons k ks ih => simp only [State.canStoreUp, State.canWrite_congr h, hs, ih]

theorem canLoadUp_congr (h : t.cfg = s.cfg) (hs : ∀ sp, t.spaceFC sp = s.spaceFC sp) (sz : Size) (sp : Space)
    (ks : List RegR) (a : Long) : t.canLoadUp sz sp ks a = s.canLoadUp sz sp ks a := by
  induction ks generalizing a with
  | nil => rfl
  | cons k ks ih => simp only [State.canLoadUp, State.canRead_congr h, hs, ih]

theorem writeR_cfg (k : RegR) (v : Long) : (s.writeR k v).cfg = s.cfg := by
  unfold State.writeR; split <;> simp [State.writeD]

theorem writeR_sr (k : RegR) (v : Long) : (s.writeR k v).sr = s.sr := by
  unfold State.writeR; split <;> simp [State.writeD]

theorem spaceFC_congr (h : t.sr = s.sr) (sp : Space) : t.spaceFC sp = s.spaceFC sp := by
  have : t.supervisor = s.supervisor := by simp only [State.supervisor, h]
  cases sp
  · simp only [State.spaceFC, State.dataFC, this]
  · simp only [State.spaceFC, State.progFC, this]

theorem movemStoreDown_eq {sz : Size} {mask : HWord} {ks : List RegR} {a : Long}
    (h : s.canStoreDown sz (ks.filter fun k => mask.getLsbD (15 - k.val)) a = true) :
    movemStoreDown sz mask ks a s =
      .ok (a - BitVec.ofNat 32 (ks.filter fun k => mask.getLsbD (15 - k.val)).length * byteCount sz)
        (s.storedDown sz (ks.filter fun k => mask.getLsbD (15 - k.val)) a) := by
  induction ks generalizing s a with
  | nil => simp [movemStoreDown, State.storedDown]
  | cons k ks ih =>
    unfold movemStoreDown
    by_cases hm : mask.getLsbD (15 - k.val) = true
    · rw [if_pos hm]
      simp only [List.filter_cons, hm, if_true] at h ⊢
      simp only [State.canStoreDown, Bool.and_eq_true] at h
      rw [run_bind_ok (run_getR _ _)]
      have hw : memWrite (a - byteCount sz) sz (truncTo sz (s.readR k)) s =
          .ok () (s.stored (a - byteCount sz) sz s.dataFC (truncTo sz (s.readR k))) := memWriteFC_eq _ h.1
      rw [run_bind_ok hw, ih (by rw [canStoreDown_congr (s := s) (by simp) (by simp)]; exact h.2)]
      congr 1
      rw [List.length_cons, BitVec.ofNat_add, BitVec.add_mul]
      simp only [BitVec.one_mul]
      rw [← BitVec.sub_sub, BitVec.sub_sub, BitVec.sub_sub, BitVec.add_comm]
    · rw [if_neg hm]
      simp only [List.filter_cons, hm] at h ⊢
      exact ih h

theorem movemStoreUp_eq {sz : Size} {mask : HWord} {ks : List RegR} {a : Long}
    (h : s.canStoreUp sz (ks.filter fun k => mask.getLsbD k.val) a = true) :
    movemStoreUp sz mask ks a s = .ok () (s.storedUp sz (ks.filter fun k => mask.getLsbD k.val) a) := by
  induction ks generalizing s a with
  | nil => simp [movemStoreUp, State.storedUp]
  | cons k ks ih =>
    unfold movemStoreUp
    by_cases hm : mask.getLsbD k.val = true
    · rw [if_pos hm]
      simp only [List.filter_cons, hm, if_true] at h ⊢
      simp only [State.canStoreUp, Bool.and_eq_true] at h
      rw [run_bind_ok (run_getR _ _)]
      have hw : memWrite a sz (truncTo sz (s.readR k)) s = .ok () (s.stored a sz s.dataFC (truncTo sz (s.readR k))) :=
        memWriteFC_eq _ h.1
      rw [run_bind_ok hw, ih (by rw [canStoreUp_congr (s := s) (by simp) (by simp)]; exact h.2)]
      rfl
    · rw [if_neg hm]
      simp only [List.filter_cons, hm] at h ⊢
      exact ih h

theorem movemLoad_eq {sz : Size} {sp : Space} {mask : HWord} {ks : List RegR} {a : Long}
    (h : s.canLoadUp sz sp (ks.filter fun k => mask.getLsbD k.val) a = true) :
    movemLoad sz sp mask ks a s =
      .ok (a + BitVec.ofNat 32 (ks.filter fun k => mask.getLsbD k.val).length * byteCount sz)
        (s.loadedUp sz sp (ks.filter fun k => mask.getLsbD k.val) a) := by
  induction ks generalizing s a with
  | nil => simp [movemLoad, State.loadedUp]
  | cons k ks ih =>
    unfold movemLoad
    by_cases hm : mask.getLsbD k.val = true
    · rw [if_pos hm]
      simp only [List.filter_cons, hm, if_true] at h ⊢
      simp only [State.canLoadUp, Bool.and_eq_true] at h
      have hw : readMem a sp sz s = .ok (s.valueAt a sz (s.spaceFC sp)) s := by cases sp <;> exact memReadFC_eq h.1
      rw [run_bind_ok hw, run_bind_ok (run_putR _ _ _),
        ih (by rw [canLoadUp_congr (s := s) (writeR_cfg ..) (fun sp => spaceFC_congr (writeR_sr ..) sp)]; exact h.2)]
      congr 1
      rw [List.length_cons, BitVec.ofNat_add, BitVec.add_mul]
      simp only [BitVec.one_mul]
      rw [BitVec.add_assoc, BitVec.add_comm (byteCount sz)]
    · rw [if_neg hm]
      simp only [List.filter_cons, hm] at h ⊢
      exact ih h

/-! ### The return from an exception (R1218) -/

theorem restoreFrame_eq {size : Long} (h1 : s.canRead (s.readA 7) .w s.dataFC = true)
    (h2 : s.canRead (s.readA 7 + 2) .l s.dataFC = true)
    (h3 : srRefused s.model ((s.valueAt (s.readA 7) .w s.dataFC).setWidth 16) = false) :
    restoreFrame size s = .ok () (((s.writeA 7 (s.readA 7 + size)).setSrBits
      ((s.valueAt (s.readA 7) .w s.dataFC).setWidth 16 &&& srImplemented s.model)).setPc
        (s.valueAt (s.readA 7 + 2) .l s.dataFC)) := by
  unfold restoreFrame
  have m1 : memRead (s.readA 7) .w s = .ok (s.valueAt (s.readA 7) .w s.dataFC) s := memReadFC_eq h1
  have m2 : memRead (s.readA 7 + 2) .l s = .ok (s.valueAt (s.readA 7 + 2) .l s.dataFC) s := memReadFC_eq h2
  have m3 : setSR ((s.valueAt (s.readA 7) .w s.dataFC).setWidth 16) (s.writeA 7 (s.readA 7 + size)) =
      .ok () ((s.writeA 7 (s.readA 7 + size)).setSrBits
        ((s.valueAt (s.readA 7) .w s.dataFC).setWidth 16 &&& srImplemented s.model)) := by
    have : (s.writeA 7 (s.readA 7 + size)).model = s.model := by simp [State.model]
    rw [run_setSR, this, h3]
    rfl
  rw [run_bind_ok (run_getA _ _), run_bind_ok m1, run_bind_ok m2, run_bind_ok (run_putA _ _ _), run_bind_ok m3]
  rfl

/-! ### The fetch (R15, R402) -/

theorem fetchWord_eq {w : HWord} (he : s.pc.getLsbD 0 = false) (h : ∃ k, translate s.cfg s.pc 2 s.progFC .execute = some k ∧
    (Memory.readSized s.mem k .w).setWidth 16 = w) : fetchWord s = .ok w (s.setPc (s.pc + 2)) := by
  obtain ⟨k, h1, rfl⟩ := h
  unfold fetchWord
  rw [he, h1]
  rfl

theorem add_two_even (a : Long) : (a + 2).getLsbD 0 = a.getLsbD 0 := by
  rw [BitVec.getLsbD_add (by omega)]
  simp

theorem holdsWords_setPc {ws : List HWord} {a v : Long} (h : s.holdsWords a ws) : (s.setPc v).holdsWords a ws := by
  induction ws generalizing a with
  | nil => trivial
  | cons w ws ih => exact ⟨h.1, ih h.2⟩

theorem fetchWords_eq {ws : List HWord} (he : s.pc.getLsbD 0 = false) (h : s.holdsWords s.pc ws) :
    ∃ t, fetchWords ws.length s = .ok ws t := by
  induction ws generalizing s with
  | nil => exact ⟨s, rfl⟩
  | cons w ws ih =>
    have he' : (s.setPc (s.pc + 2)).pc.getLsbD 0 = false := by
      show (s.pc + 2).getLsbD 0 = false
      rw [add_two_even]; exact he
    obtain ⟨t, ht⟩ := ih he' (holdsWords_setPc h.2)
    refine ⟨t, ?_⟩
    show fetchWords (ws.length + 1) s = _
    unfold fetchWords
    rw [run_bind_ok (fetchWord_eq he h.1), run_bind_ok ht]
    rfl

/-- A word that cannot be fetched halts with the pc at it (R403). -/
theorem fetchWord_halts (h : translate s.cfg s.pc 2 s.progFC .execute = none) :
    fetchWord s = .error .ended (s.setCondition .halted) := by
  unfold fetchWord
  rw [h]
  split <;> rfl

/-- Words are fetched up to the first that cannot be, and that one halts with the pc at it (R403). -/
theorem fetchWords_halts {ws : List HWord} {n : Nat} (he : s.pc.getLsbD 0 = false) (h : s.holdsWords s.pc ws)
    (hn : ws.length < n) (hf : translate s.cfg (s.pc + BitVec.ofNat 32 (2 * ws.length)) 2 s.progFC .execute = none) :
    fetchWords n s = .error .ended ((s.setPc (s.pc + BitVec.ofNat 32 (2 * ws.length))).setCondition .halted) := by
  induction ws generalizing s n with
  | nil =>
    obtain ⟨m, rfl⟩ : ∃ m, n = m + 1 := ⟨n - 1, by simp only [List.length_nil] at hn; omega⟩
    have h0 : s.pc + BitVec.ofNat 32 (2 * ([] : List HWord).length) = s.pc := BitVec.add_zero _
    rw [h0] at hf ⊢
    unfold fetchWords
    rw [run_bind_error (fetchWord_halts hf)]
    rfl
  | cons w ws ih =>
    obtain ⟨m, rfl⟩ : ∃ m, n = m + 1 := ⟨n - 1, by omega⟩
    have hpc : s.pc + BitVec.ofNat 32 (2 * (w :: ws).length) = (s.setPc (s.pc + 2)).pc + BitVec.ofNat 32 (2 * ws.length) := by
      show _ = s.pc + 2 + _
      rw [BitVec.add_assoc, show (2 : BitVec 32) = BitVec.ofNat 32 2 from rfl, ← BitVec.ofNat_add, List.length_cons]
      congr 2
      omega
    have he' : (s.setPc (s.pc + 2)).pc.getLsbD 0 = false := by
      show (s.pc + 2).getLsbD 0 = false
      rw [add_two_even]; exact he
    rw [hpc] at hf ⊢
    unfold fetchWords
    rw [run_bind_ok (fetchWord_eq he h.1)]
    exact run_bind_error (ih he' (holdsWords_setPc h.2) (by simp only [List.length_cons] at hn; omega) hf)

end Sys2Proof.Machine
end

