-- ==== Sys2Proof/Laws/PerInstr.lean ====
section
/-! SUPPORT. The per-instruction families. `Lengths`: an instruction is one opcode word and at most four extension words
(R310). -/

namespace Sys2Proof.Laws.Lengths

theorem imm_exts_le (v : Imm) : v.exts.length ≤ 2 := by cases v <;> simp [Imm.exts]

theorem ea_exts_le (e : EA) : e.exts.length ≤ 2 := by
  cases e <;> simp only [EA.exts, List.length_nil, List.length_cons] <;> first | omega | exact imm_exts_le _

theorem branch_exts_le (d : BranchDisp) : d.exts.length ≤ 1 := by cases d <;> simp [BranchDisp.exts]

/-- The length of an instruction in words is from 1 to 5 (R310). -/
def Statement (i : Instr) : Prop := 1 ≤ i.words ∧ i.words ≤ maxWords

theorem of_exts {i : Instr} (h : i.exts.length ≤ 4) : Statement i := by
  simp only [Statement, Instr.words, encode, List.length_cons, maxWords]
  omega

theorem ea_only (e : EA) : e.exts.length ≤ 4 := Nat.le_trans (ea_exts_le e) (by decide)

theorem word_ea (w : HWord) (e : EA) : (w :: e.exts).length ≤ 4 := by
  have := ea_exts_le e
  simp only [List.length_cons]; omega

theorem imm_ea (v : Imm) (e : EA) : (v.exts ++ e.exts).length ≤ 4 := by
  have := imm_exts_le v
  have := ea_exts_le e
  simp only [List.length_append]; omega

theorem ea_ea (e e' : EA) : (e.exts ++ e'.exts).length ≤ 4 := by
  have := ea_exts_le e
  have := ea_exts_le e'
  simp only [List.length_append]; omega

/-- No instruction has more than four extension words (R310). -/
theorem exts_le (i : Instr) : i.exts.length ≤ 4 := by
  cases i <;> first
    | exact Nat.le_of_ble_eq_true rfl
    | exact ea_only _
    | exact word_ea _ _
    | exact imm_ea _ _
    | exact ea_ea _ _
    | exact Nat.le_trans (branch_exts_le _) (by decide)

theorem oriToCcr (imm : BitVec 8) : Statement (.oriToCcr imm) := of_exts (exts_le _)
theorem oriToSr (imm : BitVec 16) : Statement (.oriToSr imm) := of_exts (exts_le _)
theorem andiToCcr (imm : BitVec 8) : Statement (.andiToCcr imm) := of_exts (exts_le _)
theorem andiToSr (imm : BitVec 16) : Statement (.andiToSr imm) := of_exts (exts_le _)
theorem eoriToCcr (imm : BitVec 8) : Statement (.eoriToCcr imm) := of_exts (exts_le _)
theorem eoriToSr (imm : BitVec 16) : Statement (.eoriToSr imm) := of_exts (exts_le _)
theorem cas2W : Statement .cas2W := of_exts (exts_le _)
theorem cas2L : Statement .cas2L := of_exts (exts_le _)
theorem movepToReg (sz : SizeWL) (ay : Reg) (d : BitVec 16) (dx : Reg) : Statement (.movepToReg sz ay d dx) := of_exts (exts_le _)
theorem movepToMem (sz : SizeWL) (dx : Reg) (ay : Reg) (d : BitVec 16) : Statement (.movepToMem sz dx ay d) := of_exts (exts_le _)
theorem btstDn (dn : Reg) (ea : EA) : Statement (.btstDn dn ea) := of_exts (exts_le _)
theorem bchgDn (dn : Reg) (ea : EA) : Statement (.bchgDn dn ea) := of_exts (exts_le _)
theorem bclrDn (dn : Reg) (ea : EA) : Statement (.bclrDn dn ea) := of_exts (exts_le _)
theorem bsetDn (dn : Reg) (ea : EA) : Statement (.bsetDn dn ea) := of_exts (exts_le _)
theorem btstImm (bit : BitVec 8) (ea : EA) : Statement (.btstImm bit ea) := of_exts (exts_le _)
theorem bchgImm (bit : BitVec 8) (ea : EA) : Statement (.bchgImm bit ea) := of_exts (exts_le _)
theorem bclrImm (bit : BitVec 8) (ea : EA) : Statement (.bclrImm bit ea) := of_exts (exts_le _)
theorem bsetImm (bit : BitVec 8) (ea : EA) : Statement (.bsetImm bit ea) := of_exts (exts_le _)
theorem ori (imm : Imm) (ea : EA) : Statement (.ori imm ea) := of_exts (exts_le _)
theorem andi (imm : Imm) (ea : EA) : Statement (.andi imm ea) := of_exts (exts_le _)
theorem subi (imm : Imm) (ea : EA) : Statement (.subi imm ea) := of_exts (exts_le _)
theorem addi (imm : Imm) (ea : EA) : Statement (.addi imm ea) := of_exts (exts_le _)
theorem eori (imm : Imm) (ea : EA) : Statement (.eori imm ea) := of_exts (exts_le _)
theorem cmpi (imm : Imm) (ea : EA) : Statement (.cmpi imm ea) := of_exts (exts_le _)
theorem cmpiPcRel (sz : Size) (indexed : Bool) : Statement (.cmpiPcRel sz indexed) := of_exts (exts_le _)
theorem moves (sz : Size) (toMem : Bool) (rn : RegR) (ea : EA) : Statement (.moves sz toMem rn ea) := of_exts (exts_le _)
theorem cmp2Chk2 (size2 : BitVec 2) (ea6 : BitVec 6) : Statement (.cmp2Chk2 size2 ea6) := of_exts (exts_le _)
theorem rtmCallm (bits : BitVec 6) : Statement (.rtmCallm bits) := of_exts (exts_le _)
theorem cas (size2 : BitVec 2) (ea6 : BitVec 6) : Statement (.cas size2 ea6) := of_exts (exts_le _)
theorem movea (sz : SizeWL) (ea : EA) (an : Reg) : Statement (.movea sz ea an) := of_exts (exts_le _)
theorem move (sz : Size) (src dst : EA) : Statement (.move sz src dst) := of_exts (exts_le _)
theorem illegal : Statement .illegal := of_exts (exts_le _)
theorem reset : Statement .reset := of_exts (exts_le _)
theorem nop : Statement .nop := of_exts (exts_le _)
theorem stop (imm : BitVec 16) : Statement (.stop imm) := of_exts (exts_le _)
theorem rte : Statement .rte := of_exts (exts_le _)
theorem rtd (d : BitVec 16) : Statement (.rtd d) := of_exts (exts_le _)
theorem rts : Statement .rts := of_exts (exts_le _)
theorem trapv : Statement .trapv := of_exts (exts_le _)
theorem rtr : Statement .rtr := of_exts (exts_le _)
theorem movecFrom (c : BitVec 12) (rn : RegR) : Statement (.movecFrom c rn) := of_exts (exts_le _)
theorem movecTo (rn : RegR) (c : BitVec 12) : Statement (.movecTo rn c) := of_exts (exts_le _)
theorem trap (v : BitVec 4) : Statement (.trap v) := of_exts (exts_le _)
theorem link (an : Reg) (d : BitVec 16) : Statement (.link an d) := of_exts (exts_le _)
theorem unlk (an : Reg) : Statement (.unlk an) := of_exts (exts_le _)
theorem moveToUsp (an : Reg) : Statement (.moveToUsp an) := of_exts (exts_le _)
theorem moveFromUsp (an : Reg) : Statement (.moveFromUsp an) := of_exts (exts_le _)
theorem jsr (ea : EA) : Statement (.jsr ea) := of_exts (exts_le _)
theorem jmp (ea : EA) : Statement (.jmp ea) := of_exts (exts_le _)
theorem swap (dn : Reg) : Statement (.swap dn) := of_exts (exts_le _)
theorem bkpt (v : Fin 8) : Statement (.bkpt v) := of_exts (exts_le _)
theorem linkL (an : Reg) : Statement (.linkL an) := of_exts (exts_le _)
theorem extW (dn : Reg) : Statement (.extW dn) := of_exts (exts_le _)
theorem extL (dn : Reg) : Statement (.extL dn) := of_exts (exts_le _)
theorem extbL (dn : Reg) : Statement (.extbL dn) := of_exts (exts_le _)
theorem nbcd (ea : EA) : Statement (.nbcd ea) := of_exts (exts_le _)
theorem pea (ea : EA) : Statement (.pea ea) := of_exts (exts_le _)
theorem movemToMem (sz : SizeWL) (mask : BitVec 16) (ea : EA) : Statement (.movemToMem sz mask ea) := of_exts (exts_le _)
theorem movemToReg (sz : SizeWL) (ea : EA) (mask : BitVec 16) : Statement (.movemToReg sz ea mask) := of_exts (exts_le _)
theorem mulL (ea6 : BitVec 6) : Statement (.mulL ea6) := of_exts (exts_le _)
theorem divL (ea6 : BitVec 6) : Statement (.divL ea6) := of_exts (exts_le _)
theorem moveFromSr (ea : EA) : Statement (.moveFromSr ea) := of_exts (exts_le _)
theorem negx (sz : Size) (ea : EA) : Statement (.negx sz ea) := of_exts (exts_le _)
theorem moveFromCcr (ea : EA) : Statement (.moveFromCcr ea) := of_exts (exts_le _)
theorem clr (sz : Size) (ea : EA) : Statement (.clr sz ea) := of_exts (exts_le _)
theorem moveToCcr (ea : EA) : Statement (.moveToCcr ea) := of_exts (exts_le _)
theorem neg (sz : Size) (ea : EA) : Statement (.neg sz ea) := of_exts (exts_le _)
theorem moveToSr (ea : EA) : Statement (.moveToSr ea) := of_exts (exts_le _)
theorem notEa (sz : Size) (ea : EA) : Statement (.notEa sz ea) := of_exts (exts_le _)
theorem tas (ea : EA) : Statement (.tas ea) := of_exts (exts_le _)
theorem tst (sz : Size) (ea : EA) : Statement (.tst sz ea) := of_exts (exts_le _)
theorem tst020 (sz : Size) (ea6 : BitVec 6) : Statement (.tst020 sz ea6) := of_exts (exts_le _)
theorem chkW (ea : EA) (dn : Reg) : Statement (.chkW ea dn) := of_exts (exts_le _)
theorem chkL (dn : Reg) (ea6 : BitVec 6) : Statement (.chkL dn ea6) := of_exts (exts_le _)
theorem lea (ea : EA) (an : Reg) : Statement (.lea ea an) := of_exts (exts_le _)
theorem dbcc (cond : Cond) (dn : Reg) (d : BitVec 16) : Statement (.dbcc cond dn d) := of_exts (exts_le _)
theorem trapcc (cond : Cond) (opmode : BitVec 3) : Statement (.trapcc cond opmode) := of_exts (exts_le _)
theorem scc (cond : Cond) (ea : EA) : Statement (.scc cond ea) := of_exts (exts_le _)
theorem addq (sz : Size) (q : BitVec 3) (ea : EA) : Statement (.addq sz q ea) := of_exts (exts_le _)
theorem subq (sz : Size) (q : BitVec 3) (ea : EA) : Statement (.subq sz q ea) := of_exts (exts_le _)
theorem bccL (cond : Cond) : Statement (.bccL cond) := of_exts (exts_le _)
theorem bra (d : BranchDisp) : Statement (.bra d) := of_exts (exts_le _)
theorem bsr (d : BranchDisp) : Statement (.bsr d) := of_exts (exts_le _)
theorem bcc (cond : Cond) (d : BranchDisp) : Statement (.bcc cond d) := of_exts (exts_le _)
theorem moveq (imm : BitVec 8) (dn : Reg) : Statement (.moveq imm dn) := of_exts (exts_le _)
theorem sbcdReg (dy dx : Reg) : Statement (.sbcdReg dy dx) := of_exts (exts_le _)
theorem sbcdMem (ay ax : Reg) : Statement (.sbcdMem ay ax) := of_exts (exts_le _)
theorem pack (rx : Reg) (rm : Bool) (ry : Reg) : Statement (.pack rx rm ry) := of_exts (exts_le _)
theorem unpk (rx : Reg) (rm : Bool) (ry : Reg) : Statement (.unpk rx rm ry) := of_exts (exts_le _)
theorem divuW (ea : EA) (dn : Reg) : Statement (.divuW ea dn) := of_exts (exts_le _)
theorem divsW (ea : EA) (dn : Reg) : Statement (.divsW ea dn) := of_exts (exts_le _)
theorem orEaDn (sz : Size) (ea : EA) (dn : Reg) : Statement (.orEaDn sz ea dn) := of_exts (exts_le _)
theorem orDnEa (sz : Size) (dn : Reg) (ea : EA) : Statement (.orDnEa sz dn ea) := of_exts (exts_le _)
theorem subxReg (sz : Size) (dy dx : Reg) : Statement (.subxReg sz dy dx) := of_exts (exts_le _)
theorem subxMem (sz : Size) (ay ax : Reg) : Statement (.subxMem sz ay ax) := of_exts (exts_le _)
theorem suba (sz : SizeWL) (ea : EA) (an : Reg) : Statement (.suba sz ea an) := of_exts (exts_le _)
theorem subEaDn (sz : Size) (ea : EA) (dn : Reg) : Statement (.subEaDn sz ea dn) := of_exts (exts_le _)
theorem subDnEa (sz : Size) (dn : Reg) (ea : EA) : Statement (.subDnEa sz dn ea) := of_exts (exts_le _)
theorem lineA (bits : BitVec 12) : Statement (.lineA bits) := of_exts (exts_le _)
theorem cmpm (sz : Size) (ay ax : Reg) : Statement (.cmpm sz ay ax) := of_exts (exts_le _)
theorem cmpa (sz : SizeWL) (ea : EA) (an : Reg) : Statement (.cmpa sz ea an) := of_exts (exts_le _)
theorem eorDnEa (sz : Size) (dn : Reg) (ea : EA) : Statement (.eorDnEa sz dn ea) := of_exts (exts_le _)
theorem cmpEaDn (sz : Size) (ea : EA) (dn : Reg) : Statement (.cmpEaDn sz ea dn) := of_exts (exts_le _)
theorem abcdReg (dy dx : Reg) : Statement (.abcdReg dy dx) := of_exts (exts_le _)
theorem abcdMem (ay ax : Reg) : Statement (.abcdMem ay ax) := of_exts (exts_le _)
theorem exgDD (dx dy : Reg) : Statement (.exgDD dx dy) := of_exts (exts_le _)
theorem exgAA (ax ay : Reg) : Statement (.exgAA ax ay) := of_exts (exts_le _)
theorem exgDA (dx ay : Reg) : Statement (.exgDA dx ay) := of_exts (exts_le _)
theorem muluW (ea : EA) (dn : Reg) : Statement (.muluW ea dn) := of_exts (exts_le _)
theorem mulsW (ea : EA) (dn : Reg) : Statement (.mulsW ea dn) := of_exts (exts_le _)
theorem andEaDn (sz : Size) (ea : EA) (dn : Reg) : Statement (.andEaDn sz ea dn) := of_exts (exts_le _)
theorem andDnEa (sz : Size) (dn : Reg) (ea : EA) : Statement (.andDnEa sz dn ea) := of_exts (exts_le _)
theorem addxReg (sz : Size) (dy dx : Reg) : Statement (.addxReg sz dy dx) := of_exts (exts_le _)
theorem addxMem (sz : Size) (ay ax : Reg) : Statement (.addxMem sz ay ax) := of_exts (exts_le _)
theorem adda (sz : SizeWL) (ea : EA) (an : Reg) : Statement (.adda sz ea an) := of_exts (exts_le _)
theorem addEaDn (sz : Size) (ea : EA) (dn : Reg) : Statement (.addEaDn sz ea dn) := of_exts (exts_le _)
theorem addDnEa (sz : Size) (dn : Reg) (ea : EA) : Statement (.addDnEa sz dn ea) := of_exts (exts_le _)
theorem bitField (ty : BitVec 3) (ea6 : BitVec 6) : Statement (.bitField ty ea6) := of_exts (exts_le _)
theorem asrMem (ea : EA) : Statement (.asrMem ea) := of_exts (exts_le _)
theorem aslMem (ea : EA) : Statement (.aslMem ea) := of_exts (exts_le _)
theorem lsrMem (ea : EA) : Statement (.lsrMem ea) := of_exts (exts_le _)
theorem lslMem (ea : EA) : Statement (.lslMem ea) := of_exts (exts_le _)
theorem roxrMem (ea : EA) : Statement (.roxrMem ea) := of_exts (exts_le _)
theorem roxlMem (ea : EA) : Statement (.roxlMem ea) := of_exts (exts_le _)
theorem rorMem (ea : EA) : Statement (.rorMem ea) := of_exts (exts_le _)
theorem rolMem (ea : EA) : Statement (.rolMem ea) := of_exts (exts_le _)
theorem asrReg (sz : Size) (c : ShiftCount) (dy : Reg) : Statement (.asrReg sz c dy) := of_exts (exts_le _)
theorem aslReg (sz : Size) (c : ShiftCount) (dy : Reg) : Statement (.aslReg sz c dy) := of_exts (exts_le _)
theorem lsrReg (sz : Size) (c : ShiftCount) (dy : Reg) : Statement (.lsrReg sz c dy) := of_exts (exts_le _)
theorem lslReg (sz : Size) (c : ShiftCount) (dy : Reg) : Statement (.lslReg sz c dy) := of_exts (exts_le _)
theorem roxrReg (sz : Size) (c : ShiftCount) (dy : Reg) : Statement (.roxrReg sz c dy) := of_exts (exts_le _)
theorem roxlReg (sz : Size) (c : ShiftCount) (dy : Reg) : Statement (.roxlReg sz c dy) := of_exts (exts_le _)
theorem rorReg (sz : Size) (c : ShiftCount) (dy : Reg) : Statement (.rorReg sz c dy) := of_exts (exts_le _)
theorem rolReg (sz : Size) (c : ShiftCount) (dy : Reg) : Statement (.rolReg sz c dy) := of_exts (exts_le _)
theorem lineF (bits : BitVec 12) : Statement (.lineF bits) := of_exts (exts_le _)

end Sys2Proof.Laws.Lengths
end

