-- ==== Sys2Proof/Tests/Slice0.lean ====
section
/-! SUPPORT. The model's own tests: ill-formed terms are refused, words written out from the spec's encodings decode to their
instructions, and single steps give the results of spec/95_test_vectors.md (cited by its vector's number) and of the
instruction rules' examples. -/

namespace Sys2Proof.Tests

open Sys2Proof Sys2Proof.Machine

/-! ## Ill-formed terms (R303, R311, R411): one for each check of `Instr.wellFormed` -/

theorem test_wf_btst_an : (Instr.btstDn 0 (.an 1)).wellFormed = false := by decide
theorem test_wf_btst_imm_size : (Instr.btstDn 0 (.imm (.w 1))).wellFormed = false := by decide
theorem test_wf_bchg_imm : (Instr.bchgDn 0 (.imm (.b 1))).wellFormed = false := by decide
theorem test_wf_btst_static_imm : (Instr.btstImm 3 (.imm (.b 1))).wellFormed = false := by decide
theorem test_wf_bset_static_pc : (Instr.bsetImm 3 (.pcDisp 0)).wellFormed = false := by decide
theorem test_wf_addi_an : (Instr.addi (.w 1) (.an 0)).wellFormed = false := by decide
theorem test_wf_moves_dn : (Instr.moves .w true 0 (.dn 0)).wellFormed = false := by decide
theorem test_wf_cmp2_size : (Instr.cmp2Chk2 3 0).wellFormed = false := by decide
theorem test_wf_cas_size : (Instr.cas 0 0b010000).wellFormed = false := by decide
theorem test_wf_cas_is_cas2 : (Instr.cas 2 0b111100).wellFormed = false := by decide
theorem test_wf_movea_imm_size : (Instr.movea .w (.imm (.l 1)) 0).wellFormed = false := by decide
theorem test_wf_move_byte_an : (Instr.move .b (.an 0) (.dn 0)).wellFormed = false := by decide
theorem test_wf_move_to_imm : (Instr.move .w (.dn 0) (.imm (.w 0))).wellFormed = false := by decide
theorem test_wf_jmp_dn : (Instr.jmp (.dn 0)).wellFormed = false := by decide
theorem test_wf_lea_postinc : (Instr.lea (.postinc 0) 1).wellFormed = false := by decide
theorem test_wf_scc_an : (Instr.scc .eq (.an 0)).wellFormed = false := by decide
theorem test_wf_movem_store_postinc : (Instr.movemToMem .w 1 (.postinc 0)).wellFormed = false := by decide
theorem test_wf_movem_load_predec : (Instr.movemToReg .w (.predec 0) 1).wellFormed = false := by decide
theorem test_wf_move_from_sr_an : (Instr.moveFromSr (.an 0)).wellFormed = false := by decide
theorem test_wf_clr_pc : (Instr.clr .l (.pcDisp 0)).wellFormed = false := by decide
theorem test_wf_chk_an : (Instr.chkW (.an 0) 0).wellFormed = false := by decide
theorem test_wf_tst020_dn : (Instr.tst020 .w 0).wellFormed = false := by decide
theorem test_wf_trapcc_opmode : (Instr.trapcc .t 5).wellFormed = false := by decide
theorem test_wf_addq_byte_an : (Instr.addq .b 1 (.an 0)).wellFormed = false := by decide
theorem test_wf_bra_short_zero : (Instr.bra (.short 0)).wellFormed = false := by decide
theorem test_wf_bcc_true : (Instr.bcc .t (.short 2)).wellFormed = false := by decide
theorem test_wf_divu_an : (Instr.divuW (.an 0) 0).wellFormed = false := by decide
theorem test_wf_or_an : (Instr.orEaDn .w (.an 0) 0).wellFormed = false := by decide
theorem test_wf_add_to_dn_as_ea : (Instr.addDnEa .w 0 (.dn 1)).wellFormed = false := by decide
theorem test_wf_adda_imm_size : (Instr.adda .l (.imm (.w 1)) 0).wellFormed = false := by decide
theorem test_wf_cmp_byte_an : (Instr.cmpEaDn .b (.an 0) 0).wellFormed = false := by decide
theorem test_wf_eor_imm : (Instr.eorDnEa .w 0 (.imm (.w 0))).wellFormed = false := by decide
theorem test_wf_asr_mem_dn : (Instr.asrMem (.dn 0)).wellFormed = false := by decide

/-! ## Decoding (95_test_vectors.md, and the examples of the instruction rules) -/

/-- The instruction of some words on a model. -/
def reads (m : Model) (ir : HWord) (ws : List HWord) : Option Instr :=
  match decode m ir ws with
  | .ok i => some i
  | .error _ => none

/-- E4, E5, E6 and section 2.3. -/
theorem test_decode_data_movement :
    reads .mc68000 0x70FF [] = some (.moveq 0xFF 0) ∧ reads .mc68000 0xC141 [] = some (.exgDD 0 1) ∧
    reads .mc68000 0xC149 [] = some (.exgAA 0 1) ∧ reads .mc68000 0xC189 [] = some (.exgDA 0 1) ∧
    reads .mc68000 0x4E56 [0xFFF8] = some (.link 6 0xFFF8) ∧ reads .mc68000 0x4E5E [] = some (.unlk 6) ∧
    reads .mc68000 0x2108 [] = some (.move .l (.an 0) (.predec 0)) ∧
    reads .mc68000 0x21D8 [0x8000] = some (.move .l (.postinc 0) (.absW 0x8000)) ∧
    reads .mc68000 0x307C [0x8000] = some (.movea .w (.imm (.w 0x8000)) 0) ∧
    reads .mc68000 0x48E7 [0xC000] = some (.movemToMem .l 0xC000 (.predec 7)) ∧
    reads .mc68000 0x4C98 [0x0201] = some (.movemToReg .w (.postinc 0) 0x0201) ∧
    reads .mc68000 0x0109 [0x0000] = some (.movepToReg .w 1 0 0) ∧
    reads .mc68000 0x01C9 [0x0000] = some (.movepToMem .l 0 1 0) ∧
    reads .mc68000 0x43E8 [0xFFFC] = some (.lea (.disp 0 0xFFFC) 1) ∧
    reads .mc68000 0x4878 [0x1234] = some (.pea (.absW 0x1234)) := by decide

/-- Section 2.4 and the examples of 42_integer_arithmetic.md. -/
theorem test_decode_arithmetic :
    reads .mc68000 0xD081 [] = some (.addEaDn .l (.dn 1) 0) ∧ reads .mc68000 0xD150 [] = some (.addDnEa .w 0 (.ind 0)) ∧
    reads .mc68000 0xD0C1 [] = some (.adda .w (.dn 1) 0) ∧ reads .mc68000 0x0682 [0, 1] = some (.addi (.l 1) (.dn 2)) ∧
    reads .mc68000 0x5088 [] = some (.addq .l 0 (.an 0)) ∧ reads .mc68000 0xD141 [] = some (.addxReg .w 1 0) ∧
    reads .mc68000 0xD308 [] = some (.addxMem .b 0 1) ∧ reads .mc68000 0x9041 [] = some (.subEaDn .w (.dn 1) 0) ∧
    reads .mc68000 0x9190 [] = some (.subDnEa .l 0 (.ind 0)) ∧ reads .mc68000 0x9EFC [8] = some (.suba .w (.imm (.w 8)) 7) ∧
    reads .mc68000 0x0400 [1] = some (.subi (.b 1) (.dn 0)) ∧ reads .mc68000 0x5341 [] = some (.subq .w 1 (.dn 1)) ∧
    reads .mc68000 0x9181 [] = some (.subxReg .l 1 0) ∧ reads .mc68000 0x9308 [] = some (.subxMem .b 0 1) ∧
    reads .mc68000 0xB0BC [0, 5] = some (.cmpEaDn .l (.imm (.l 5)) 0) ∧
    reads .mc68000 0xB0FC [0xFFFF] = some (.cmpa .w (.imm (.w 0xFFFF)) 0) ∧
    reads .mc68000 0x0C00 [0x20] = some (.cmpi (.b 0x20) (.dn 0)) ∧ reads .mc68000 0xB348 [] = some (.cmpm .w 0 1) ∧
    reads .mc68000 0x4400 [] = some (.neg .b (.dn 0)) ∧ reads .mc68000 0x4080 [] = some (.negx .l (.dn 0)) ∧
    reads .mc68000 0x4243 [] = some (.clr .w (.dn 3)) ∧ reads .mc68000 0x4880 [] = some (.extW 0) ∧
    reads .mc68000 0x48C0 [] = some (.extL 0) ∧ reads .mc68000 0xC0FC [0x100] = some (.muluW (.imm (.w 0x100)) 0) ∧
    reads .mc68000 0xC1FC [2] = some (.mulsW (.imm (.w 2)) 0) ∧ reads .mc68000 0x80FC [2] = some (.divuW (.imm (.w 2)) 0) ∧
    reads .mc68000 0x81C1 [] = some (.divsW (.dn 1) 0) := by decide

/-- The examples of 43_logical.md, 44_shift_rotate.md, 45_bit_manipulation.md and 46_bcd.md. -/
theorem test_decode_logic_shift_bit_bcd :
    reads .mc68000 0xC07C [0xF0] = some (.andEaDn .w (.imm (.w 0xF0)) 0) ∧
    reads .mc68000 0xC310 [] = some (.andDnEa .b 1 (.ind 0)) ∧
    reads .mc68000 0x0280 [0x8000, 0] = some (.andi (.l 0x80000000) (.dn 0)) ∧
    reads .mc68000 0x803C [0x80] = some (.orEaDn .b (.imm (.b 0x80)) 0) ∧
    reads .mc68000 0x8150 [] = some (.orDnEa .w 0 (.ind 0)) ∧ reads .mc68000 0x0040 [0] = some (.ori (.w 0) (.dn 0)) ∧
    reads .mc68000 0xB181 [] = some (.eorDnEa .l 0 (.dn 1)) ∧ reads .mc68000 0x0A00 [0xFF] = some (.eori (.b 0xFF) (.dn 0)) ∧
    reads .mc68000 0x4640 [] = some (.notEa .w (.dn 0)) ∧ reads .mc68000 0xE300 [] = some (.aslReg .b (.imm 1) 0) ∧
    reads .mc68000 0xE441 [] = some (.asrReg .w (.imm 2) 1) ∧ reads .mc68000 0xE1D0 [] = some (.aslMem (.ind 0)) ∧
    reads .mc68000 0xE0D0 [] = some (.asrMem (.ind 0)) ∧ reads .mc68000 0xE188 [] = some (.lslReg .l (.imm 0) 0) ∧
    reads .mc68000 0xE268 [] = some (.lsrReg .w (.reg 1) 0) ∧ reads .mc68000 0xE3D0 [] = some (.lslMem (.ind 0)) ∧
    reads .mc68000 0xE2D0 [] = some (.lsrMem (.ind 0)) ∧ reads .mc68000 0xE318 [] = some (.rolReg .b (.imm 1) 0) ∧
    reads .mc68000 0xE298 [] = some (.rorReg .l (.imm 1) 0) ∧ reads .mc68000 0xE7D0 [] = some (.rolMem (.ind 0)) ∧
    reads .mc68000 0xE6D0 [] = some (.rorMem (.ind 0)) ∧ reads .mc68000 0xE350 [] = some (.roxlReg .w (.imm 1) 0) ∧
    reads .mc68000 0xE210 [] = some (.roxrReg .b (.imm 1) 0) ∧ reads .mc68000 0xE5D0 [] = some (.roxlMem (.ind 0)) ∧
    reads .mc68000 0xE4D0 [] = some (.roxrMem (.ind 0)) ∧ reads .mc68000 0x4840 [] = some (.swap 0) ∧
    reads .mc68000 0x0300 [] = some (.btstDn 1 (.dn 0)) ∧ reads .mc68000 0x0810 [7] = some (.btstImm 7 (.ind 0)) ∧
    reads .mc68000 0x0340 [] = some (.bchgDn 1 (.dn 0)) ∧ reads .mc68000 0x0840 [3] = some (.bchgImm 3 (.dn 0)) ∧
    reads .mc68000 0x0390 [] = some (.bclrDn 1 (.ind 0)) ∧ reads .mc68000 0x0880 [31] = some (.bclrImm 31 (.dn 0)) ∧
    reads .mc68000 0x03C0 [] = some (.bsetDn 1 (.dn 0)) ∧ reads .mc68000 0x08D0 [0x0108] = some (.bsetImm 8 (.ind 0)) ∧
    reads .mc68000 0xC101 [] = some (.abcdReg 1 0) ∧ reads .mc68000 0xC308 [] = some (.abcdMem 0 1) ∧
    reads .mc68000 0x8101 [] = some (.sbcdReg 1 0) ∧ reads .mc68000 0x8308 [] = some (.sbcdMem 0 1) ∧
    reads .mc68000 0x4800 [] = some (.nbcd (.dn 0)) := by decide

/-- The examples of 47_program_control.md and 48_system_control.md. -/
theorem test_decode_control :
    reads .mc68000 0x6704 [] = some (.bcc .eq (.short 4)) ∧ reads .mc68000 0x6000 [0x10] = some (.bra (.word 0x10)) ∧
    reads .mc68000 0x6106 [] = some (.bsr (.short 6)) ∧ reads .mc68000 0x51C9 [0xFFFC] = some (.dbcc .f 1 0xFFFC) ∧
    reads .mc68000 0x57C0 [] = some (.scc .eq (.dn 0)) ∧ reads .mc68000 0x4ED0 [] = some (.jmp (.ind 0)) ∧
    reads .mc68000 0x4EB8 [0x3000] = some (.jsr (.absW 0x3000)) ∧ reads .mc68000 0x4E75 [] = some .rts ∧
    reads .mc68000 0x4E77 [] = some .rtr ∧ reads .mc68010 0x4E74 [8] = some (.rtd 8) ∧ reads .mc68000 0x4E71 [] = some .nop ∧
    reads .mc68000 0x4A80 [] = some (.tst .l (.dn 0)) ∧ reads .mc68000 0x4AD0 [] = some (.tas (.ind 0)) ∧
    reads .mc68000 0x023C [0] = some (.andiToCcr 0) ∧ reads .mc68000 0x003C [1] = some (.oriToCcr 1) ∧
    reads .mc68000 0x0A3C [1] = some (.eoriToCcr 1) ∧ reads .mc68000 0x44FC [0xFF] = some (.moveToCcr (.imm (.w 0xFF))) ∧
    reads .mc68010 0x42C0 [] = some (.moveFromCcr (.dn 0)) ∧ reads .mc68000 0x027C [0xDFFF] = some (.andiToSr 0xDFFF) ∧
    reads .mc68000 0x007C [0x700] = some (.oriToSr 0x700) ∧ reads .mc68000 0x0A7C [0x2000] = some (.eoriToSr 0x2000) ∧
    reads .mc68000 0x46FC [0x2700] = some (.moveToSr (.imm (.w 0x2700))) ∧ reads .mc68000 0x40C0 [] = some (.moveFromSr (.dn 0)) ∧
    reads .mc68000 0x4E60 [] = some (.moveToUsp 0) ∧ reads .mc68000 0x4E69 [] = some (.moveFromUsp 1) ∧
    reads .mc68010 0x4E7A [0x0801] = some (.movecFrom 0x801 0) ∧ reads .mc68010 0x4E7B [0x8801] = some (.movecTo 8 0x801) ∧
    reads .mc68010 0x0E90 [0x0800] = some (.moves .l true 0 (.ind 0)) ∧ reads .mc68000 0x4E70 [] = some .reset ∧
    reads .mc68000 0x4E72 [0x2000] = some (.stop 0x2000) ∧ reads .mc68000 0x4E73 [] = some .rte ∧
    reads .mc68000 0x4E4F [] = some (.trap 15) ∧ reads .mc68000 0x4E76 [] = some .trapv ∧
    reads .mc68000 0x41BC [0xA] = some (.chkW (.imm (.w 0xA)) 0) ∧ reads .mc68000 0x4AFC [] = some .illegal ∧
    reads .mc68000 0x484B [] = some (.bkpt 3) ∧ reads .mc68000 0xA9F4 [] = some (.lineA 0x9F4) ∧
    reads .mc68000 0xF000 [] = some (.lineF 0) := by decide

/-- The rows of MC68020 and later: the instruction there, illegal below (R345; section 2.13, SC36, R320). -/
theorem test_decode_mc68020 :
    reads .mc68020 0x0CFC [] = some .cas2W ∧ reads .mc68020 0x0EFC [] = some .cas2L ∧
    reads .mc68020 0x0C3A [] = some (.cmpiPcRel .b false) ∧ reads .mc68020 0x00D0 [] = some (.cmp2Chk2 0 0b010000) ∧
    reads .mc68020 0x06C0 [] = some (.rtmCallm 0) ∧ reads .mc68020 0x0ED0 [] = some (.cas 3 0b010000) ∧
    reads .mc68020 0x4808 [] = some (.linkL 0) ∧ reads .mc68020 0x49C0 [] = some (.extbL 0) ∧
    reads .mc68020 0x4C00 [] = some (.mulL 0) ∧ reads .mc68020 0x4C40 [] = some (.divL 0) ∧
    reads .mc68020 0x4A48 [] = some (.tst020 .w 0b001000) ∧ reads .mc68020 0x4100 [] = some (.chkL 0 0) ∧
    reads .mc68020 0x50FC [] = some (.trapcc .t 4) ∧ reads .mc68020 0x60FF [] = some (.bccL .t) ∧
    reads .mc68020 0x8141 [] = some (.pack 0 false 1) ∧ reads .mc68020 0x8189 [] = some (.unpk 0 true 1) ∧
    reads .mc68020 0xE8C0 [] = some (.bitField 0 0) ∧
    reads .mc68000 0x0CFC [] = none ∧ reads .mc68010 0x49C0 [] = none ∧ reads .mc68010 0x4A48 [] = none ∧
    reads .mc68010 0x60FF [] = some (.bra (.short 0xFF)) := by decide

/-- Illegal words (section 2.13): no row takes them, on any model; and the rows of MC68010 on MC68000 (R346). -/
theorem test_decode_illegal :
    reads .mc68040 0x13C8 [0, 0] = none ∧ reads .mc68040 0x1048 [] = none ∧ reads .mc68040 0x4E78 [] = none ∧
    reads .mc68040 0x4E7C [] = none ∧ reads .mc68040 0x7100 [] = none ∧ reads .mc68000 0x4E7A [0x801] = none ∧
    reads .mc68000 0x0E90 [0x800] = none ∧ reads .mc68000 0x4E74 [8] = none ∧ reads .mc68000 0x42C0 [] = none := by decide

/-- The host's numbering of an instruction's bits: the first word is bits 15–0. -/
theorem test_decodeTableWord :
    decodeTableWord 16 0x4E71 = some .nop ∧ decodeTableWord 32 0xFFF84E56 = some (.link 6 0xFFF8) ∧
    decodeTableWord 16 0x4E56 = some (.link 6 0) := by decide

/-- The encoder, on the words of E6, A8 and the DBF of P2. -/
theorem test_encode :
    encode (.link 6 0xFFF8) = [0x4E56, 0xFFF8] ∧ encode (.move .l (.an 0) (.predec 0)) = [0x2108] ∧
    encode (.dbcc .f 1 0xFFFC) = [0x51C9, 0xFFFC] := by decide

/-! ## Single steps -/

/-- The common start state of 95_test_vectors.md: MC68010 unless said otherwise, one region of 64 KiB, SR = 0x2700,
SSP = 0x2000, USP = 0x3000, pc = 0x1000. -/
def start (m : Model) : State :=
  { State.constructed
      { model := m, exceptionMode := .vector, addressMask := 0xFFFFFFFF,
        regions := [{ start := 0, size := 0x10000, lowmem := false, policy := [] }] } []
    with sr := 0x2700, ssp := 0x2000, usp := 0x3000, pc := 0x1000, condition := .normal }

/-- One step of the words stored at the pc; what is seen of the next state, or none. -/
def after {α : Type} (s : State) (ws : List HWord) (see : State → α) : Option α :=
  match step (s.storeWords s.pc ws) with
  | .next t => some (see t)
  | .fault _ | .refused _ => none

/-- The step is refused, and why. -/
def refusal (s : State) (ws : List HWord) : Option Refusal :=
  match step (s.storeWords s.pc ws) with
  | .refused r => some r
  | .next _ | .fault _ => none

def byteAt (t : State) (a : Nat) : Byte := Memory.read t.mem a
def wordAt (t : State) (a : Nat) : Long := Memory.readSized t.mem a .w
def longAt (t : State) (a : Nat) : Long := Memory.readSized t.mem a .l
def State.putByte (s : State) (a : Nat) (v : Long) : State := s.setMem (Memory.writeSized s.mem a .b v)
def State.putWord (s : State) (a : Nat) (v : Long) : State := s.setMem (Memory.writeSized s.mem a .w v)
def State.putLong (s : State) (a : Nat) (v : Long) : State := s.setMem (Memory.writeSized s.mem a .l v)

def m0 : State := start .mc68000
def m1 : State := start .mc68010
def m2 : State := start .mc68020

/-- M1, M2, M3, M4. -/
theorem test_move_big_endian : after ((m1.writeD 0 0x12345678).writeA 0 0x2000) [0x2080]
    (fun t => (byteAt t 0x2000, byteAt t 0x2001, byteAt t 0x2002, byteAt t 0x2003)) = some (0x12, 0x34, 0x56, 0x78) := by decide
theorem test_move_odd_halts : after (m0.writeA 0 0x1001) [0x3010]
    (fun t => (t.condition, t.readD 0, t.pc)) = some (.halted, 0, 0x1002) := by decide
theorem test_move_unaligned_mc68020 : after (State.putWord (m2.writeA 0 0x1001) 0x1001 0) [0x3010]
    (fun t => (t.condition, t.readD 0)) = some (.normal, 0x1000) := by decide
theorem test_odd_pc_halts : after (m0.setPc 0x1001) [] (fun t => (t.condition, t.pc)) = some (.halted, 0x1001) := by decide
/-- E7: the source side effect stands, and no byte is written. -/
theorem test_move_fault_partial : after (State.putLong (m1.writeA 0 0x1004) 0x1004 0x11223344) [0x21D8, 0x8000]
    (fun t => (t.condition, t.readA 0, t.pc)) = some (.halted, 0x1008, 0x1004) := by decide
/-- A1. -/
theorem test_move_pc_relative : after (State.putWord m1 0x1012 0x5555) [0x303A, 0x0010] (fun t => t.readD 0) = some 0x5555 := by
  decide
/-- A2. -/
theorem test_move_indexed : after (State.putByte ((m1.writeA 0 0x2000).writeD 1 0xFFFFFFFE) 0x2000 0x77) [0x1030, 0x1002]
    (fun t => t.readD 0) = some 0x77 := by decide
/-- A9, A10, A11. -/
theorem test_lea_scaled : after ((m2.writeA 0 0x2000).writeD 1 4) [0x45F0, 0x1C00] (fun t => t.readA 2) = some 0x2010 ∧
    after ((m0.writeA 0 0x2000).writeD 1 4) [0x45F0, 0x1C00] (fun t => t.readA 2) = some 0x2004 := by decide
theorem test_lea_full_format : refusal ((m2.writeA 0 0x2000).writeD 1 4) [0x45F0, 0x1900] = some .fullFormatExtension := by decide
/-- A8. -/
theorem test_move_source_first : after (m1.writeA 0 0x2000) [0x2108] (fun t => (longAt t 0x1FFC, t.readA 0)) =
    some (0x2000, 0x1FFC) := by decide
/-- A3: a byte step of A7 is 2. -/
theorem test_move_a7_byte : after m1 [0x101F] (fun t => t.ssp) = some 0x2002 := by decide
/-- DM1. -/
theorem test_move_flags : after (m1.writeD 0 0x12345678) [0x303C, 0x8000] (fun t => (t.readD 0, t.sr)) =
    some (0x12348000, 0x2708) := by decide
/-- DM3. -/
theorem test_movea : after (m1.setCCR 0x1F) [0x307C, 0x8000] (fun t => (t.readA 0, t.sr)) = some (0xFFFF8000, 0x271F) := by decide
/-- E4. -/
theorem test_moveq : after m1 [0x70FF] (fun t => (t.readD 0, t.sr)) = some (0xFFFFFFFF, 0x2708) := by decide
/-- DM6, DM17. -/
theorem test_movem_predec : after ((m1.writeD 0 0x11111111).writeD 1 0x22222222) [0x48E7, 0xC000]
    (fun t => (longAt t 0x1FF8, longAt t 0x1FFC, t.ssp)) = some (0x11111111, 0x22222222, 0x1FF8) := by decide
theorem test_movem_base_in_list : refusal m2 [0x48E7, 0x8001] = some .movemPredecBaseInList := by decide
/-- DM7, DM8. -/
theorem test_movem_load_word : after (State.putLong (m1.writeA 0 0x2000) 0x2000 0x80000001) [0x4C98, 0x0201]
    (fun t => (t.readD 0, t.readA 1, t.readA 0)) = some (0xFFFF8000, 1, 0x2004) := by decide
theorem test_movem_final_address : after (State.putLong (m1.writeA 0 0x2000) 0x2000 0xAAAAAAAA) [0x4CD8, 0x0101]
    (fun t => (t.readD 0, t.readA 0)) = some (0xAAAAAAAA, 0x2008) := by decide
/-- The example of R506, and DM10. -/
theorem test_movep_load : after (State.putByte (State.putByte (m1.writeA 1 0x3000) 0x3000 0x12) 0x3002 0x34) [0x0109, 0]
    (fun t => t.readD 0) = some 0x1234 := by decide
theorem test_movep_store : after (State.putByte ((m1.writeA 1 0x2000).writeD 0 0x1234) 0x2001 0xEE) [0x0189, 0]
    (fun t => (byteAt t 0x2000, byteAt t 0x2001, byteAt t 0x2002)) = some (0x12, 0xEE, 0x34) := by decide
/-- DM12. -/
theorem test_pea : after (m1.writeA 0 0x12345678) [0x4850] (fun t => (longAt t 0x1FFC, t.ssp)) = some (0x12345678, 0x1FFC) := by
  decide
/-- E5, DM13, DM14. -/
theorem test_exg_dd : after ((m1.writeD 0 0x11111111).writeD 1 0x22222222) [0xC141] (fun t => (t.readD 0, t.readD 1)) =
    some (0x22222222, 0x11111111) := by decide
theorem test_exg_aa : after ((m1.writeA 0 1).writeA 1 2) [0xC149] (fun t => (t.readA 0, t.readA 1)) = some (2, 1) := by decide
theorem test_exg_da : after ((m1.writeD 0 5).writeA 1 6) [0xC189] (fun t => (t.readD 0, t.readA 1)) = some (6, 5) := by decide
/-- DM15, E6. -/
theorem test_link_a7 : after m1 [0x4E57, 0xFFFC] (fun t => (longAt t 0x1FFC, t.ssp)) = some (0x2000, 0x1FF8) := by decide
theorem test_unlk : after (State.putLong (m1.writeA 6 0x0FFC) 0x0FFC 0x2000) [0x4E5E] (fun t => (t.readA 6, t.ssp)) =
    some (0x2000, 0x1000) := by decide

/-- IA3, and the example of R602. -/
theorem test_add_word : after ((m1.writeD 0 0xAAAA8000).writeD 1 0x8000) [0xD041] (fun t => (t.readD 0, t.sr)) =
    some (0xAAAA0000, 0x2717) := by decide
theorem test_add_to_memory : after (State.putWord ((m1.writeA 0 0x2000).writeD 0 1) 0x2000 0xFFFF) [0xD150]
    (fun t => (wordAt t 0x2000, t.sr)) = some (0, 0x2715) := by decide
/-- IA4, IA5. -/
theorem test_adda : after ((m1.writeA 0 0x10000).writeD 1 0xFFFF) [0xD0C1] (fun t => (t.readA 0, t.sr)) =
    some (0xFFFF, 0x2700) := by decide
theorem test_addq_an : after ((m1.writeA 0 0x1000).setCCR 0x1F) [0x5088] (fun t => (t.readA 0, t.sr)) =
    some (0x1008, 0x271F) := by decide
/-- The example of R604, IA6. -/
theorem test_addi : after (m1.writeD 2 0x7FFFFFFF) [0x0682, 0, 1] (fun t => (t.readD 2, t.sr)) = some (0x80000000, 0x270A) := by
  decide
theorem test_addq_byte : after (m1.writeD 0 0xFF) [0x5200] (fun t => (t.readD 0, t.sr)) = some (0, 0x2715) := by decide
/-- IA14, IA17. -/
theorem test_addx : after (((m1.writeD 0 0xFFFF).writeD 1 0).setCCR 0x14) [0xD141] (fun t => (t.readD 0, t.sr)) =
    some (0, 0x2715) := by decide
theorem test_addx_memory : after (State.putByte (State.putByte ((m1.writeA 0 0x2001).writeA 1 0x3001) 0x2000 1) 0x3000 0xFF) [0xD308]
    (fun t => (byteAt t 0x3000, t.readA 0, t.readA 1, t.sr)) = some (0, 0x2000, 0x3000, 0x2711) := by decide
/-- IA8, the example of R609. -/
theorem test_sub : after ((m1.writeD 0 0x80).writeD 1 1) [0x9001] (fun t => (t.readD 0, t.sr)) = some (0x7F, 0x2702) := by decide
theorem test_sub_to_memory : after (State.putLong ((m1.writeA 0 0x2000).writeD 0 1) 0x2000 0x80000000) [0x9190]
    (fun t => (longAt t 0x2000, t.sr)) = some (0x7FFFFFFF, 0x2702) := by decide
/-- The examples of R610, R611, R612, R613, R614. -/
theorem test_suba : after m1 [0x9EFC, 8] (fun t => t.ssp) = some 0x1FF8 := by decide
theorem test_subi : after (m1.writeD 0 0x80) [0x0400, 1] (fun t => (t.readD 0, t.sr)) = some (0x7F, 0x2702) := by decide
theorem test_subq : after (m1.writeD 1 1) [0x5341] (fun t => (t.readD 1, t.sr)) = some (0, 0x2704) := by decide
theorem test_subx : after (m1.setCCR 0x10) [0x9181] (fun t => (t.readD 0, t.sr)) = some (0xFFFFFFFF, 0x2719) := by decide
theorem test_subx_memory : after (State.putByte (State.putByte (((m1.writeA 0 0x1202).writeA 1 0x2002).setCCR 4) 0x1201 1) 0x2001 1) [0x9308]
    (fun t => (byteAt t 0x2001, t.readA 1, t.sr)) = some (0, 0x2001, 0x2704) := by decide
/-- IA9, IA10, the examples of R617 and R618. -/
theorem test_cmp : after ((m1.writeD 0 0x7F).writeD 1 0xFF) [0xB001] (fun t => (t.readD 0, t.sr)) = some (0x7F, 0x270B) := by decide
theorem test_cmpa : after ((m1.writeA 0 0xFFFFFFFF).writeD 1 0xFFFF) [0xB0C1] (fun t => t.sr) = some 0x2704 := by decide
theorem test_cmpi : after (m1.writeD 0 0x10) [0x0C00, 0x20] (fun t => t.sr) = some 0x2709 := by decide
theorem test_cmpm : after (State.putWord (State.putWord ((m1.writeA 0 0x1200).writeA 1 0x2000) 0x1200 0x1234) 0x2000 0x1234) [0xB348]
    (fun t => (t.sr, t.readA 0, t.readA 1)) = some (0x2704, 0x1202, 0x2002) := by decide
/-- IA11, IA13, IA18, IA19, IA20. -/
theorem test_neg : after (m1.writeD 0 0x80000000) [0x4480] (fun t => (t.readD 0, t.sr)) = some (0x80000000, 0x271B) := by decide
theorem test_negx : after (m1.setCCR 0x14) [0x4000] (fun t => (t.readD 0, t.sr)) = some (0xFF, 0x2719) := by decide
theorem test_clr : after ((m1.writeD 0 0xFFFFFFFF).setCCR 0x1F) [0x4280] (fun t => (t.readD 0, t.sr)) = some (0, 0x2714) := by decide
theorem test_ext_word : after (m1.writeD 0 0x123456F0) [0x4880] (fun t => (t.readD 0, t.sr)) = some (0x1234FFF0, 0x2708) := by decide
theorem test_ext_long : after (m1.writeD 0 0xABCD7FFF) [0x48C0] (fun t => (t.readD 0, t.sr)) = some (0x7FFF, 0x2700) := by decide
/-- IA21, IA22, the example of R625. -/
theorem test_mulu : after ((m1.writeD 0 0xFFFF).writeD 1 0xFFFF) [0xC0C1] (fun t => (t.readD 0, t.sr)) =
    some (0xFFFE0001, 0x2708) := by decide
theorem test_muls : after ((m1.writeD 0 0x8000).writeD 1 0x8000) [0xC1C1] (fun t => (t.readD 0, t.sr)) =
    some (0x40000000, 0x2700) := by decide
theorem test_muls_negative : after (m1.writeD 0 0xFFFF) [0xC1FC, 2] (fun t => (t.readD 0, t.sr)) = some (0xFFFFFFFE, 0x2708) := by
  decide
/-- The example of R626, IA25, IA28, IA29. -/
theorem test_divu : after (m1.writeD 0 0x10001) [0x80FC, 2] (fun t => (t.readD 0, t.sr)) = some (0x18000, 0x2708) := by decide
theorem test_divu_overflow : after ((m1.writeD 0 0x20000).writeD 1 1) [0x80C1] (fun t => (t.readD 0, t.pc)) =
    some (0x20000, 0x1002) := by decide
theorem test_divs : after ((m1.writeD 0 7).writeD 1 0xFFFE) [0x81C1] (fun t => (t.readD 0, t.sr)) = some (0x1FFFD, 0x2708) := by
  decide
theorem test_divs_overflow : after ((m1.writeD 0 0x80000000).writeD 1 0xFFFF) [0x81C1] (fun t => t.readD 0) =
    some 0x80000000 := by decide

/-- L1, the example of R702, L5. -/
theorem test_and : after (((m1.writeD 0 0xF0F0F0F0).writeD 1 0x0FF00FF0).setCCR 0x10) [0xC081] (fun t => (t.readD 0, t.sr)) =
    some (0x00F000F0, 0x2710) := by decide
theorem test_and_to_memory : after (State.putByte ((m1.writeA 0 0x2000).writeD 1 0x0F) 0x2000 0xF0) [0xC310]
    (fun t => (byteAt t 0x2000, t.sr)) = some (0, 0x2704) := by decide
theorem test_andi : after (m1.writeD 0 0xF0) [0x0200, 0x0F] (fun t => (t.readD 0, t.sr)) = some (0, 0x2704) := by decide
/-- The examples of R704, R705, R706. -/
theorem test_or : after (m1.writeD 0 1) [0x803C, 0x80] (fun t => (t.readD 0, t.sr)) = some (0x81, 0x2708) := by decide
theorem test_or_to_memory : after (State.putWord ((m1.writeA 0 0x2000).writeD 0 0xF0) 0x2000 0x0F00) [0x8150]
    (fun t => wordAt t 0x2000) = some 0x0FF0 := by decide
theorem test_ori : after m1 [0x0040, 0] (fun t => (t.readD 0, t.sr)) = some (0, 0x2704) := by decide
/-- L3, the example of R708, L4. -/
theorem test_eor : after ((m1.writeD 0 0xFFFF).writeD 1 0xFFFF) [0xB141] (fun t => (t.readD 1, t.sr)) = some (0, 0x2704) := by decide
theorem test_eori : after (m1.writeD 0 0x55) [0x0A00, 0xFF] (fun t => (t.readD 0, t.sr)) = some (0xAA, 0x2708) := by decide
theorem test_not : after m1 [0x4680] (fun t => (t.readD 0, t.sr)) = some (0xFFFFFFFF, 0x2708) := by decide

/-- S9, S8, S2, the examples of R802, R803, R804. -/
theorem test_asl_overflow : after (m1.writeD 0 0x40) [0xE500] (fun t => (t.readD 0, t.sr)) = some (0, 0x2717) := by decide
theorem test_asl_count_64 : after (((m1.writeD 0 0x81).writeD 1 64).setCCR 0x10) [0xE320] (fun t => (t.readD 0, t.sr)) =
    some (0x81, 0x2718) := by decide
theorem test_asr : after (m1.writeD 0 0x80) [0xE000] (fun t => (t.readD 0, t.sr)) = some (0xFF, 0x2719) := by decide
theorem test_asl_memory : after (State.putWord (m1.writeA 0 0x2000) 0x2000 0x8001) [0xE1D0] (fun t => (wordAt t 0x2000, t.sr)) =
    some (2, 0x2713) := by decide
theorem test_asr_memory : after (State.putWord (m1.writeA 0 0x2000) 0x2000 1) [0xE0D0] (fun t => (wordAt t 0x2000, t.sr)) =
    some (0, 0x2715) := by decide
/-- S1, S12, the examples of R807 and R808. -/
theorem test_lsl_40 : after ((m1.writeD 0 0x12345678).writeD 1 40) [0xE3A8] (fun t => (t.readD 0, t.sr)) = some (0, 0x2704) := by decide +kernel
theorem test_lsr : after ((m1.writeD 0 0xFFFF).writeD 1 16) [0xE268] (fun t => (t.readD 0, t.sr)) = some (0, 0x2715) := by decide
theorem test_lsl_memory : after (State.putWord (m1.writeA 0 0x2000) 0x2000 0x8001) [0xE3D0] (fun t => (wordAt t 0x2000, t.sr)) =
    some (2, 0x2711) := by decide
theorem test_lsr_memory : after (State.putWord (m1.writeA 0 0x2000) 0x2000 0x8000) [0xE2D0] (fun t => (wordAt t 0x2000, t.sr)) =
    some (0x4000, 0x2700) := by decide
/-- S3, S4, the examples of R811 and R812. -/
theorem test_rol : after (m1.writeD 0 0x1234) [0xE958] (fun t => (t.readD 0, t.sr)) = some (0x2341, 0x2701) := by decide
theorem test_ror : after (m1.writeD 0 1) [0xE218] (fun t => (t.readD 0, t.sr)) = some (0x80, 0x2709) := by decide
theorem test_rol_memory : after (State.putWord (m1.writeA 0 0x2000) 0x2000 0x8000) [0xE7D0] (fun t => (wordAt t 0x2000, t.sr)) =
    some (1, 0x2701) := by decide
theorem test_ror_memory : after (State.putWord (m1.writeA 0 0x2000) 0x2000 1) [0xE6D0] (fun t => (wordAt t 0x2000, t.sr)) =
    some (0x8000, 0x2709) := by decide
/-- S5, the example of R813, S6, the example of R815, S14. -/
theorem test_roxl : after ((m1.writeD 0 0x8000).setCCR 0x10) [0xE350] (fun t => (t.readD 0, t.sr)) = some (1, 0x2711) := by decide
theorem test_roxr_zero_count : after ((m1.writeD 0 0x55).setCCR 0x10) [0xE230] (fun t => (t.readD 0, t.sr)) = some (0x55, 0x2711) := by
  decide
theorem test_roxl_memory : after (State.putWord (m1.writeA 0 0x2000) 0x2000 0x8000) [0xE5D0] (fun t => (wordAt t 0x2000, t.sr)) =
    some (0, 0x2715) := by decide
theorem test_roxr_memory : after ((State.putWord (m1.writeA 0 0x2000) 0x2000 1).setCCR 0x10) [0xE4D0]
    (fun t => (wordAt t 0x2000, t.sr)) = some (0x8000, 0x2719) := by decide
/-- S15. -/
theorem test_swap : after (m1.writeD 0 0x12345678) [0x4840] (fun t => (t.readD 0, t.sr)) = some (0x56781234, 0x2700) := by decide

/-- B2, B1, B3, the example of R903, B4, the example of R905, the example of R908, B5. -/
theorem test_btst_memory : after (State.putByte ((m1.writeD 1 12).writeA 0 0x2000) 0x2000 0x10) [0x0310] (fun t => t.sr) =
    some 0x2700 := by decide
theorem test_btst_static : after (m1.writeD 0 0x80000000) [0x0800, 0x001F] (fun t => t.sr) = some 0x2700 := by decide
theorem test_bchg_static : after m1 [0x0840, 0x0023] (fun t => (t.readD 0, t.sr)) = some (8, 0x2704) := by decide
theorem test_bchg : after m1 [0x0340] (fun t => (t.readD 0, t.sr)) = some (1, 0x2704) := by decide
theorem test_bclr_static : after (State.putByte (m1.writeA 0 0x2000) 0x2000 0x80) [0x0890, 7] (fun t => (byteAt t 0x2000, t.sr)) =
    some (0, 0x2700) := by decide
theorem test_bclr : after (State.putByte ((m1.writeD 1 9).writeA 0 0x2000) 0x2000 3) [0x0390] (fun t => (byteAt t 0x2000, t.sr)) =
    some (1, 0x2700) := by decide
theorem test_bset_static : after (m1.writeA 0 0x2000) [0x08D0, 0x0108] (fun t => (byteAt t 0x2000, t.sr)) = some (1, 0x2704) := by
  decide
theorem test_bset : after (m1.writeD 1 63) [0x03C0] (fun t => (t.readD 0, t.sr)) = some (0x80000000, 0x2704) := by decide

/-- BC1, BC6, BC3, the example of R1004, BC5: the result; N and V are free values. -/
theorem test_abcd : after (((m1.writeD 0 0x99).writeD 1 1).setCCR 4) [0xC101] (fun t => t.readD 0) = some 0 := by decide
theorem test_abcd_memory : after (State.putByte (State.putByte ((m1.writeA 0 0x2002).writeA 1 0x3002) 0x2001 0x19) 0x3001 0x23) [0xC308]
    (fun t => (byteAt t 0x3001, t.readA 0, t.readA 1)) = some (0x42, 0x2001, 0x3001) := by decide
theorem test_sbcd : after (((m1.writeD 0 0x50).writeD 1 0x25).setCCR 0x10) [0x8101] (fun t => t.readD 0) = some 0x24 := by decide
theorem test_sbcd_memory : after (State.putByte ((m1.writeA 0 0x1201).writeA 1 0x2001) 0x1200 1) [0x8308]
    (fun t => byteAt t 0x2000) = some 0x99 := by decide
theorem test_nbcd : after (m1.writeD 0 0x25) [0x4800] (fun t => t.readD 0) = some 0x75 := by decide
/-- BC5: X and C are set and Z is cleared, whatever was drawn. -/
theorem test_nbcd_flags (n v : Bool) : bcdFlags (sbcdValue 0x25 0 false).1 (sbcdValue 0x25 0 false).2 n v
    { x := false, n := false, z := true, v := false, c := false } = { x := true, n := n, z := false, v := v, c := true } := by
  revert n v; decide

/-- PC1, PC2, PC4, PC7, PC8, PC10. -/
theorem test_bcc : after m1 [0x6204] (fun t => t.pc) = some 0x1006 ∧ after (m1.setCCR 1) [0x6204] (fun t => t.pc) = some 0x1002 := by
  decide
theorem test_bra : after m1 [0x6000, 0xFFFE] (fun t => t.pc) = some 0x1000 := by decide
theorem test_bsr : after m1 [0x6100, 0x0010] (fun t => (longAt t 0x1FFC, t.ssp, t.pc)) = some (0x1004, 0x1FFC, 0x1012) := by decide
theorem test_dbcc_true : after ((m1.writeD 1 0x50003).setCCR 4) [0x57C9, 0xFFFE] (fun t => (t.readD 1, t.pc)) =
    some (0x50003, 0x1004) := by decide
theorem test_dbcc_wraps : after (m1.writeD 1 0x50000) [0x51C9, 0xFFFE] (fun t => (t.readD 1, t.pc)) = some (0x5FFFF, 0x1004) := by decide
/-- PC5, PC6. -/
theorem test_branch_ff : after m0 [0x60FF] (fun t => t.pc) = some 0x1001 ∧
    refusal m2 [0x60FF] = some .mc68020InstructionNotModelled := by decide
/-- PC11, PC13, PC14, PC15, PC16, PC17. -/
theorem test_scc : after ((m1.writeD 0 0x12345678).setCCR 4) [0x57C0] (fun t => t.readD 0) = some 0x123456FF := by decide
theorem test_jmp : after (m1.writeA 0 0x3000) [0x4ED0] (fun t => t.pc) = some 0x3000 := by decide
theorem test_jsr : after m1 [0x4EB8, 0x3000] (fun t => (longAt t 0x1FFC, t.pc)) = some (0x1004, 0x3000) := by decide
theorem test_rts : after (State.putLong (m1.writeA 7 0x1FFC) 0x1FFC 0x1004) [0x4E75] (fun t => (t.pc, t.ssp)) =
    some (0x1004, 0x2000) := by decide
theorem test_rtr : after (State.putLong (State.putWord (m1.writeA 7 0x1FFA) 0x1FFA 0xFF1F) 0x1FFC 0x1004) [0x4E77]
    (fun t => (t.sr, t.pc, t.ssp)) = some (0x271F, 0x1004, 0x2000) := by decide
theorem test_rtd : after (State.putLong (m1.writeA 7 0x1FFC) 0x1FFC 0x1004) [0x4E74, 8] (fun t => (t.pc, t.ssp)) =
    some (0x1004, 0x2008) := by decide
/-- PC18, PC19, the example of R1111. -/
theorem test_tst : after ((m1.writeD 0 0x80).setCCR 0x10) [0x4A00] (fun t => t.sr) = some 0x2718 := by decide
theorem test_tas : after (m1.writeA 0 0x2000) [0x4AD0] (fun t => (byteAt t 0x2000, t.sr)) = some (0x80, 0x2704) := by decide
theorem test_nop : after m1 [0x4E71] (fun t => (t.pc, t.sr)) = some (0x1002, 0x2700) := by decide

/-- SC1–SC3, SC5–SC7. -/
theorem test_move_to_sr : after m1 [0x46FC, 0] (fun t => (t.sr, t.readA 7)) = some (0, 0x3000) := by decide
theorem test_move_to_sr_bit12 : after m1 [0x46FC, 0x3000] (fun t => t.sr) = some 0x2000 ∧
    refusal m2 [0x46FC, 0x3000] = some .masterStackNotModelled := by decide
theorem test_andi_to_sr : after m1 [0x027C, 0xDFFF] (fun t => t.sr) = some 0x0700 := by decide
theorem test_ori_to_sr : after (m1.setSrBits 0x2000) [0x007C, 0x0700] (fun t => t.sr) = some 0x2700 := by decide
theorem test_traced_refused : refusal (m1.setSrBits 0xA700) [0x4E71] = some .traceNotModelled := by decide
/-- SC4: the privilege violation and its frame. -/
theorem test_eori_to_sr_user : after (State.putLong (m1.setSrBits 0) 0x20 0x1200) [0x0A7C, 0x2000]
    (fun t => (t.sr, t.pc, t.ssp, wordAt t 0x1FF8, longAt t 0x1FFA, wordAt t 0x1FFE)) =
    some (0x2000, 0x1200, 0x1FF8, 0, 0x1000, 0x20) := by decide
/-- The example of R1208. -/
theorem test_eori_to_sr : after m1 [0x0A7C, 0x2000] (fun t => t.sr) = some 0x0700 := by decide
/-- SC8, SC9, and the examples of R1202 and R1203 in kind. -/
theorem test_move_to_ccr : after m1 [0x44FC, 0xFF] (fun t => t.sr) = some 0x271F := by decide
theorem test_andi_to_ccr : after (m1.setCCR 0x1F) [0x023C, 0] (fun t => t.sr) = some 0x2700 := by decide
theorem test_ori_to_ccr : after m1 [0x003C, 0x00FF] (fun t => t.sr) = some 0x271F := by decide
theorem test_eori_to_ccr : after (m1.setCCR 0x15) [0x0A3C, 0x001F] (fun t => t.sr) = some 0x270A := by decide
/-- SC10, SC11, SC12. -/
theorem test_move_from_sr : after (m0.setSrBits 0x15) [0x40C0] (fun t => t.readD 0) = some 0x15 ∧
    after (m1.setSrBits 0x15) [0x40C0] (fun t => (t.readD 0, longAt t 0x1FFA)) = some (0, 0x1000) := by decide
theorem test_move_from_ccr : after (m1.setSrBits 0x15) [0x42C0] (fun t => t.readD 0) = some 0x15 := by decide
/-- SC13, SC14. -/
theorem test_move_to_usp : after (m1.writeA 0 0x4000) [0x4E60] (fun t => (t.usp, t.ssp)) = some (0x4000, 0x2000) := by decide
theorem test_move_from_usp : after (m1.setUsp 0x4000) [0x4E69] (fun t => t.readA 1) = some 0x4000 := by decide
/-- SC15, SC16, SC17. -/
theorem test_movec_to : after (m1.writeD 0 0xFFFFFFFF) [0x4E7B, 0] (fun t => t.sfc) = some 7 ∧
    refusal m2 [0x4E7B, 2] = some .controlRegisterNotModelled := by decide
theorem test_movec_from : after (m1.setSfc 7) [0x4E7A, 0x1000] (fun t => t.readD 1) = some 7 ∧
    after m1 [0x4E7A, 0x0002] (fun t => (longAt t 0x1FFA, wordAt t 0x1FFE)) = some (0x1000, 0x10) := by decide
/-- SC18, the example of R1215. -/
theorem test_moves_load : after (State.putByte ((m1.setSfc 1).writeA 0 0x2000) 0x2000 0x5A) [0x0E10, 0] (fun t => t.readD 0) =
    some 0x5A := by decide
theorem test_moves_store : after (((m1.setDfc 1).writeA 0 0x3000).writeD 0 0x12345678) [0x0E90, 0x0800]
    (fun t => longAt t 0x3000) = some 0x12345678 := by decide
/-- SC19, SC20, SC32. -/
theorem test_stop : after m1 [0x4E72, 0x2700] (fun t => (t.sr, t.pc, t.condition)) = some (0x2700, 0x1004, .stopped) := by decide
theorem test_stop_user : after (m1.setSrBits 0) [0x4E72, 0x2700] (fun t => (longAt t 0x1FFA, t.condition)) =
    some (0x1000, .normal) := by decide
theorem test_reset : after m1 [0x4E70] (fun t => (t.pc, t.sr, t.ssp)) = some (0x1002, 0x2700, 0x2000) := by decide
/-- SC27–SC30. -/
theorem test_rte : after (State.putWord (State.putLong (State.putWord (m1.writeA 7 0x1FF8) 0x1FF8 0x2700) 0x1FFA 0x1004) 0x1FFE 0)
    [0x4E73] (fun t => (t.sr, t.pc, t.ssp)) = some (0x2700, 0x1004, 0x2000) := by decide
theorem test_rte_formats :
    after (State.putWord (m1.writeA 7 0x1FF8) 0x1FFE 0x1000) [0x4E73] (fun t => (longAt t 0x1FF2, wordAt t 0x1FF6)) =
      some (0x1000, 0x38) ∧
    refusal (State.putWord (m1.writeA 7 0x1FF8) 0x1FFE 0x8000) [0x4E73] = some .frameFormatNotModelled ∧
    after (State.putLong (State.putLong (m2.writeA 7 0x1FF4) 0x1FF6 0x1002) 0x1FFA 0x20141000) [0x4E73]
      (fun t => (t.sr, t.pc, t.ssp)) = some (0, 0x1002, 0x2000) := by decide
/-- SC21, SC23, SC22. -/
theorem test_trap : after (State.putLong m1 0xBC 0x1234) [0x4E4F] (fun t => (t.pc, longAt t 0x1FFA, wordAt t 0x1FFE)) =
    some (0x1234, 0x1002, 0xBC) := by decide
theorem test_trapv : after (m2.setCCR 2) [0x4E76] (fun t => (wordAt t 0x1FFA, longAt t 0x1FF6, longAt t 0x1FFC, t.ssp)) =
    some (0x201C, 0x1002, 0x1000, 0x1FF4) ∧ after m2 [0x4E76] (fun t => (t.pc, t.ssp)) = some (0x1002, 0x2000) := by decide
/-- SC25: within bounds. -/
theorem test_chk_within : after ((m1.writeD 0 5).writeD 1 10) [0x4181] (fun t => (t.pc, t.readD 0)) = some (0x1002, 5) := by decide
/-- SC26, SC31, SC33, SC34, SC35, SC36. -/
theorem test_illegal : after m1 [0x4AFC] (fun t => (longAt t 0x1FFA, wordAt t 0x1FFE)) = some (0x1000, 0x10) := by decide
theorem test_bkpt : after m1 [0x484F] (fun t => (t.condition, t.pc)) = some (.breakpoint 7, 0x1002) := by decide
theorem test_line_a : after m1 [0xA123] (fun t => (longAt t 0x1FFA, wordAt t 0x1FFE)) = some (0x1000, 0x28) := by decide
theorem test_line_f : after m0 [0xF200] (fun t => (longAt t 0x1FFC, t.ssp)) = some (0x1000, 0x1FFA) ∧
    refusal m2 [0xF200] = some .coprocessorSpace := by decide
theorem test_mc68020_form : refusal m2 [0x49C0] = some .mc68020InstructionNotModelled ∧
    after (State.putLong m0 0x10 0x1400) [0x49C0] (fun t => (t.pc, longAt t 0x1FFC)) = some (0x1400, 0x1000) := by decide

/-- X1: the halting mode. -/
theorem test_halt_mode : after { m1 with cfg := { m1.cfg with exceptionMode := .halt } } [0x4AFC]
    (fun t => (t.condition, t.pc, t.ssp)) = some (.halted, 0x1002, 0x2000) := by decide
/-- X2: an odd SSP. -/
theorem test_trap_odd_ssp : after (m0.writeA 7 0x2001) [0x4E40] (fun t => (t.condition, t.ssp)) = some (.halted, 0x1FFD) := by decide
/-- X4: the handler below 1024 of a low-memory region. -/
theorem test_lowmem_fetch :
    after { m1 with cfg := { m1.cfg with regions := [{ start := 0, size := 0x10000, lowmem := true, policy := [] }] }, pc := 0x100 } []
      (fun t => t.condition) = some .halted := by decide
/-- An unassigned word (the example of R1227). -/
theorem test_unassigned : after m1 [0x4E7C] (fun t => (longAt t 0x1FFA, wordAt t 0x1FFE)) = some (0x1000, 0x10) := by decide

/-- R1, R2 of section 2.12. -/
theorem test_reset_sequence :
    after (State.putLong (State.putLong (State.constructed (start .mc68010).cfg []) 0 0x2000) 4 0x1000) []
      (fun t => (t.ssp, t.pc, t.sr, t.condition)) = some (0x2000, 0x1000, 0x2700, .normal) := by decide
theorem test_reset_sequence_fails :
    after (State.constructed { (start .mc68010).cfg with regions := [] } []) [] (fun t => (t.condition, t.ssp)) =
      some (.halted, 0) := by decide
/-- X6, R5, R6, R7. -/
theorem test_waiting : after (m1.setCondition .halted) [0x4E71] (fun t => t.pc) = some 0x1000 ∧
    (wake (m1.setCondition .stopped)).condition = .normal ∧ (resume (m1.setCondition (.breakpoint 3))).condition = .normal ∧
    wake m1 = m1 ∧ resume m1 = m1 := by decide

/-- The host's two questions, on the reset state: a word of each of three rows is fetched and run. -/
theorem test_withFetchWord :
    (match step (State.reset.withFetchWord 16 0x7005) with | .next t => t.readD 0 | _ => 0) = 5 ∧
    (match step (State.reset.withFetchWord 32 0x00044E72) with | .next t => t.condition | _ => .halted) = .stopped ∧
    (match step (State.reset.withFetchWord 16 0x60FE) with | .next t => t.pc | _ => 1) = 0 := by decide

/-! ## Witnesses: states and operands that meet the hypotheses of each statement together, one for each clause -/

/-- Every A register but A7 is 0x2000. -/
def w0 : State := { m0 with a := Vector.replicate 7 0x2000 }
def w1 : State := { m1 with a := Vector.replicate 7 0x2000 }
def w2 : State := { m2 with a := Vector.replicate 7 0x2000 }
/-- In user mode. -/
def u0 : State := w0.setSrBits 0
def u1 : State := w1.setSrBits 0
/-- Under EXCEPTION_MODE = halt. -/
def halting (s : State) : State := { s with cfg := { s.cfg with exceptionMode := .halt } }

/-- The meaning answers a next state. -/
def runs (i : Instr) (s : State) : Bool :=
  match exec i s with
  | .next _ => true
  | .fault _ | .refused _ => false

theorem runs_next {i : Instr} {s : State} (h : runs i s = true) : ∃ t, exec i s = .next t := by
  unfold runs at h
  split at h
  · exact ⟨_, by assumption⟩
  · cases h
  · cases h

/-- The step answers a next state. -/
def steps (s : State) : Bool :=
  match step s with
  | .next _ => true
  | .fault _ | .refused _ => false

theorem steps_next {s : State} (h : steps s = true) : ∃ t, step s = .next t := by
  unfold steps at h
  split at h
  · exact ⟨_, by assumption⟩
  · cases h
  · cases h

/-! ### Encoding and steps -/

theorem witness_EncodingRoundTrips : ∀ m ∈ [Model.mc68000, .mc68040],
    (Instr.move .l (.absL 0x12345678) (.index 3 ⟨12, true, 0, false, 0x80⟩)).wellFormed = true ∧
    (Instr.move .l (.absL 0x12345678) (.index 3 ⟨12, true, 0, false, 0x80⟩)).decodesOn m = true := by decide

theorem witness_DecodedInstructionsAreWellFormed : decode .mc68010 0x4E56 [0xFFF8] = .ok (.link 6 0xFFF8) ∧
    decode .mc68010 0x4E7C [] = .error .unassigned := ⟨rfl, rfl⟩

theorem witness_StepRunsTheDecodedInstruction :
    let s := m1.storeWords 0x1000 [0x4E56, 0xFFF8]
    s.condition = .normal ∧ s.traced = false ∧ s.pc.getLsbD 0 = false ∧ decode s.model 0x4E56 [0xFFF8] = .ok (.link 6 0xFFF8) ∧
    [(0xFFF8 : HWord)].length + 1 = (Instr.link 6 0xFFF8).words ∧ s.holdsWords s.pc [0x4E56, 0xFFF8] :=
  ⟨rfl, rfl, rfl, rfl, rfl, ⟨0x1000, by decide, by decide⟩, ⟨0x1002, by decide, by decide⟩, trivial⟩

theorem witness_StepOfAnUnassignedWord : ∀ s ∈ [m1, halting m1],
    let s := s.storeWords 0x1000 [0x4E7C]
    s.condition = .normal ∧ s.traced = false ∧ s.pc.getLsbD 0 = false ∧ translate s.cfg s.pc 2 s.progFC .execute = some 0x1000 ∧
    (Memory.readSized s.mem 0x1000 .w).setWidth 16 = 0x4E7C#16 ∧ reads s.model 0x4E7C [] = none ∧
    (s.cfg.exceptionMode = .halt ∨ (s.setPc (s.pc + 2)).canEnter 4 s.pc none = true) := by decide

theorem witness_StepsThatRunNothing :
    ((m1.setCondition .stopped).condition ≠ .startup ∧ (m1.setCondition .stopped).condition ≠ .normal) ∧
    ((m1.setSrBits 0xA700).condition = .normal ∧ (m1.setSrBits 0xA700).traced = true) ∧
    ((m1.setPc 0x1001).condition = .normal ∧ (m1.setPc 0x1001).traced = false ∧ (m1.setPc 0x1001).pc.getLsbD 0 = true) ∧
    ((m1.setPc 0x10000).traced = false ∧
      translate m1.cfg 0x10000 2 (m1.setPc 0x10000).progFC .execute = none) := by decide

/-- The last word of the region is the opcode word of MOVE #imm,SR, in user mode: its extension word lies outside. -/
theorem witness_StepsThatRunNothing_extension :
    let s := (u1.setPc 0xFFFE).storeWords 0xFFFE [0x46FC]
    s.condition = .normal ∧ s.traced = false ∧ s.pc.getLsbD 0 = false ∧ s.holdsWords s.pc [0x46FC] ∧
    decode s.model 0x46FC [] = .ok (.moveToSr (.imm (.w 0))) ∧ 0 + 1 < (Instr.moveToSr (.imm (.w 0))).words ∧
    translate s.cfg (s.pc + BitVec.ofNat 32 (2 * (0 + 1))) 2 s.progFC .execute = none :=
  ⟨rfl, rfl, rfl, ⟨⟨0xFFFE, by decide, by decide⟩, trivial⟩, rfl, by decide, by decide⟩

theorem witness_ResetSequenceLoadsTheVectors : (State.constructed m0.cfg []).condition = .startup ∧
    (State.constructed m0.cfg []).canRead 0 .l 6 = true ∧ (State.constructed m0.cfg []).canRead 4 .l 6 = true := by decide

theorem witness_StepKeepsTheInvariant : m1.Inv ∧ ∃ t, step (m1.storeWords m1.pc [0x2080]) = .next t :=
  ⟨by refine ⟨?_, ?_, ?_, ?_⟩ <;> decide, steps_next (by decide)⟩

theorem witness_ConditionTransitions :
    (∃ t, step (State.constructed m0.cfg []) = .next t) ∧ (∃ t, step (m1.storeWords m1.pc [0x4E71]) = .next t) ∧
    ∃ t, step (m1.setCondition .halted) = .next t :=
  ⟨steps_next (by decide), steps_next (by decide), steps_next (by decide)⟩

theorem witness_OnlyMovecWritesControlRegisters : (∀ rn c, Instr.moveToUsp 0 ≠ .movecTo rn c) ∧
    ∃ t, exec (.moveToUsp 0) m1 = .next t := ⟨by simp, runs_next (by decide)⟩

theorem witness_UserModeIsConfined : u1.condition = .normal ∧ u1.supervisor = false ∧
    ∃ t, step (u1.storeWords u1.pc [0x4E71]) = .next t := ⟨rfl, rfl, steps_next (by decide)⟩

theorem witness_PrivilegedInstructionsTrapInUserMode :
    (∀ i ∈ [Instr.stop 0, .rte, .moveFromSr (.dn 0), .movecTo 0 0x801],
      rowVerdict u1.model i = .entry ∧ u1.supervisor = false ∧ (u1.pastWords i).canEnter 8 u1.pc none = true) ∧
    (halting u1).cfg.exceptionMode = .halt := by decide

/-! ### Exceptions and memory -/

/-- The supervisor stack lies just above an odd boundary: the push fails. -/
theorem witness_TakingAnException : (halting m1).cfg.exceptionMode = .halt ∧
    (∀ s ∈ [m0, m1, m2], s.canEnter 32 0x1002 none = true ∧ s.canEnter 5 0x1002 (some 0x1000) = true) ∧
    (m2.cfg.ok = true ∧ Memory.wf m2.mem = true ∧ m2.memoryInRegions = true ∧ m2.srLegal = true) ∧
    m2.cfg.addressMask = 0xFFFFFFFF ∧
    (∀ x ∈ [((0 : Long), Size.w), (2, .l), (6, .w), (8, .l)], (m2.entered 5 0x1002 (some 0x1000)).canRead
      ((m2.entered 5 0x1002 (some 0x1000)).ssp + x.1) x.2 5 = true) ∧
    ((m0.writeA 7 0x2001).cfg.exceptionMode = .vector ∧ srRefused m0.model ((m0.sr ||| 0x2000) &&& 0x3FFF) = false ∧
      (m0.writeA 7 0x2001).canEnter 32 0x1002 none = false) := by decide

theorem witness_RteUndoesAnEntry : ∀ s ∈ [u0, w1, w2],
    (s.cfg.ok = true ∧ Memory.wf s.mem = true ∧ s.memoryInRegions = true ∧ s.srLegal = true) ∧
    s.cfg.addressMask = 0xFFFFFFFF ∧ s.canEnter 255 0x1002 (some 0x1000) = true ∧
    ∀ x ∈ [((0 : Long), Size.w), (2, .l), (6, .w)], (s.entered 255 0x1002 (some 0x1000)).canRead
      ((s.entered 255 0x1002 (some 0x1000)).ssp + x.1) x.2 5 = true := by decide

/-- The last longword of the region, and on MC68020 an odd address. -/
theorem witness_WrittenValuesReadBack :
    (m1.cfg.ok = true ∧ Memory.wf m1.mem = true ∧ m1.memoryInRegions = true ∧ m1.srLegal = true) ∧
    m1.canWrite 0xFFFC .l 5 = true ∧ m1.canRead 0xFFFC .l 2 = true ∧ m2.canWrite 0xFFFB .l 5 = true ∧
    m2.canRead 0xFFFB .l 5 = true ∧ m2.Inv := by
  refine ⟨?_, ?_, ?_, ?_, ?_, ?_, ?_, ?_, ?_⟩ <;> decide

theorem witness_FailedAccessesHalt : m1.canRead 0xFFFE .l 5 = false ∧ m1.canWrite 0x10000 .b 5 = false ∧
    m1.canRead 0xFFFF .b 5 = true ∧ m1.canWrite 0xFFFE .w 5 = true ∧ misaligned m1.model .w 0xFFFF = true ∧
    misaligned m2.model .w 0xFFFF = false ∧ misaligned m1.model .b 0xFFFF = false := by decide

theorem witness_StackPointerAlias : m1.sr.getLsbD 13 = true ∧ u1.sr.getLsbD 13 = false := by decide

theorem witness_SetSrWritesTheImplementedBits :
    (m2.model.is020plus = true ∧ (0x3000 : HWord).getLsbD 12 = true) ∧
    ¬(m2.model.is020plus = true ∧ (0xEFFF : HWord).getLsbD 12 = true) ∧
    ¬(m1.model.is020plus = true ∧ (0x3000 : HWord).getLsbD 12 = true) := by decide

theorem witness_ConditionCodes : (0x80 : BitVec 8) ≠ 0 ∧ (0x80 : BitVec 8) ≠ 0xFF ∧ (2 : BitVec 4) ≠ 0 ∧ (2 : BitVec 4) ≠ 1 := by
  decide

theorem witness_AdditionAndSubtractionAreExact : (0x80 : Long).toNat < 2 ^ Size.b.width ∧ (0xFF : Long).toNat < 2 ^ Size.b.width ∧
    (0xFFFFFFFF : Long).toNat < 2 ^ Size.l.width := by decide

theorem witness_DivisionIsExact : (0xFFFF : Long).toNat < 2 ^ 16 ∧ divUnsigned 0xFFFF 0xFFFEFFFF = .result 0xFFFF 0xFFFE ∧
    divSigned 0xFFFF 0x7FFF = .result 0x8001 0 := by decide

theorem witness_ShiftsInClosedForm : (0xFFFF : Long).toNat < 2 ^ Size.w.width ∧ (0 : Long).toNat < 2 ^ Size.b.width := by decide

theorem witness_FlagFunctions : (0xFF : Long).toNat < 2 ^ Size.b.width ∧ (0x80000000 : Long).toNat < 2 ^ Size.l.width := by decide

theorem witness_RotationsAndShiftFlags : (0x8001 : Long).toNat < 2 ^ Size.w.width ∧ 0 < 16 := by decide

theorem witness_DecimalArithmeticIsExact : bcdValid 0x99 = true ∧ bcdValid 0x00 = true := by decide

/-! ### The instructions -/

theorem witness_MoveCopiesItsOperand :
    let s := w1.pastWords (.move .l (.postinc 0) (.predec 0))
    s.canReadEA 0x1002 (.postinc 0) .l = true ∧ (s.afterEA (.postinc 0) .l).canWriteEA 0x1002 (.predec 0) .l = true := by decide

theorem witness_AddressRegisterArithmetic : ∀ i ∈ [Instr.movea .w (.predec 1) 1, .adda .w (.predec 1) 1, .suba .w (.predec 1) 1],
    (w1.pastWords i).canReadEA 0x1002 (.predec 1) .w = true := by decide

theorem witness_AddAndSubtract :
    (∀ i ∈ [Instr.addEaDn .w (.ind 0) 1, .subEaDn .w (.ind 0) 1], (w1.pastWords i).canReadEA 0x1002 (.ind 0) .w = true) ∧
    (EA.postinc 0).isAn = false ∧
    ∀ i ∈ [Instr.addDnEa .b 1 (.postinc 0), .subDnEa .b 1 (.postinc 0), .addi (.b 1) (.postinc 0), .subi (.b 1) (.postinc 0),
      .addq .b 0 (.postinc 0), .subq .b 0 (.postinc 0)], (w1.pastWords i).canUpdate 0x1002 (.postinc 0) .b = true := by decide

theorem witness_ExtendedArithmetic : ∀ i ∈ [Instr.addxMem .l 1 1, .subxMem .l 1 1],
    (w1.pastWords i).canReadEA 0 (.predec 1) .l = true ∧
    ((w1.pastWords i).afterEA (.predec 1) .l).canUpdate 0 (.predec 1) .l = true := by decide

theorem witness_CompareSetsFlags :
    (w1.pastWords (.cmpEaDn .l (.pcDisp 0x10) 1)).canReadEA 0x1002 (.pcDisp 0x10) .l = true ∧
    (w1.pastWords (.cmpa .w (.postinc 1) 1)).canReadEA 0x1002 (.postinc 1) .w = true ∧
    (w1.pastWords (.cmpi (.w 1) (.absW 0x2000))).canReadEA 0x1004 (.absW 0x2000) .w = true ∧
    (w1.pastWords (.cmpm .b 1 1)).canReadEA 0 (.postinc 1) .b = true ∧
    ((w1.pastWords (.cmpm .b 1 1)).afterEA (.postinc 1) .b).canReadEA 0 (.postinc 1) .b = true := by decide

theorem witness_UnaryAndTest : (∀ i ∈ [Instr.neg .w (.disp 0 2), .negx .w (.disp 0 2), .notEa .w (.disp 0 2)],
      (w1.pastWords i).canUpdate 0x1002 (.disp 0 2) .w = true) ∧
    (w1.pastWords (.clr .w (.ind 0))).canWriteEA 0x1002 (.ind 0) .w = true ∧
    (w1.pastWords (.tst .b (.ind 0))).canReadEA 0x1002 (.ind 0) .b = true ∧
    (w1.pastWords (.tas (.ind 0))).canUpdate 0x1002 (.ind 0) .b = true := by decide

theorem witness_LogicalOperations :
    (∀ i ∈ [Instr.andEaDn .l (.ind 0) 1, .orEaDn .l (.ind 0) 1], (w1.pastWords i).canReadEA 0x1002 (.ind 0) .l = true) ∧
    ∀ i ∈ [Instr.andDnEa .b 1 (.ind 0), .orDnEa .b 1 (.ind 0), .eorDnEa .b 1 (.ind 0), .andi (.b 1) (.ind 0), .ori (.b 1) (.ind 0),
      .eori (.b 1) (.ind 0)], (w1.pastWords i).canUpdate 0x1002 (.ind 0) .b = true := by decide

theorem witness_Multiplication : (EA.imm (.w 3)).sizeOk .w = true ∧ ∀ i ∈ [Instr.muluW (.imm (.w 3)) 1, .mulsW (.imm (.w 3)) 1],
    (w1.pastWords i).canReadEA 0x1002 (.imm (.w 3)) .w = true := by decide

/-- The third clause's premise holds whatever flags are drawn. -/
theorem witness_DivisionCompletes :
    (∀ i ∈ [Instr.divuW (.dn 0) 1, .divsW (.dn 0) 1], (w1.pastWords i).canReadEA 0x1002 (.dn 0) .w = true) ∧
    divUnsigned 2 5 = .result 2 1 ∧ divSigned 2 5 = .result 2 1 ∧ divUnsigned 1 0x10000 = .overflow ∧
    divSigned 1 0x8000 = .overflow ∧ divUnsigned 0 5 = .zeroDivide ∧ divSigned 0 5 = .zeroDivide ∧
    ∀ x n z v c, ((w1.setPc 0x1002).setFlags ⟨x, n, z, v, c⟩).canEnter 5 0x1002 (some 0x1000) = true := by decide

theorem witness_ShiftsAndRotates : ∀ i ∈ [Instr.aslMem (.predec 0), .asrMem (.predec 0), .lslMem (.predec 0), .lsrMem (.predec 0),
    .rolMem (.predec 0), .rorMem (.predec 0), .roxlMem (.predec 0), .roxrMem (.predec 0)],
    (w1.pastWords i).canUpdate 0x1002 (.predec 0) .w = true := by decide

theorem witness_BitInstructions :
    (∀ i ∈ [Instr.btstDn 0 (.ind 0), .btstImm 9 (.ind 0)], (w1.pastWords i).canReadEA 0x1002 (.ind 0) .b = true) ∧
    (w1.pastWords (.btstImm 33 (.dn 0))).canReadEA 0x1004 (.dn 0) .l = true ∧
    (∀ i ∈ [Instr.bchgDn 0 (.ind 0), .bclrDn 0 (.ind 0), .bsetDn 0 (.ind 0), .bchgImm 9 (.ind 0), .bclrImm 9 (.ind 0),
      .bsetImm 9 (.ind 0)], (w1.pastWords i).canUpdate 0x1002 (.ind 0) .b = true) ∧
    (w1.pastWords (.bsetDn 0 (.dn 0))).canUpdate 0x1002 (.dn 0) .l = true := by decide

theorem witness_DecimalArithmetic : (∀ i ∈ [Instr.abcdMem 1 1, .sbcdMem 1 1],
      (w1.pastWords i).canReadEA 0 (.predec 1) .b = true ∧
      ((w1.pastWords i).afterEA (.predec 1) .b).canUpdate 0 (.predec 1) .b = true) ∧
    (w1.pastWords (.nbcd (.ind 0))).canUpdate 0x1002 (.ind 0) .b = true := by decide

theorem witness_AddressesAndFrames : (EA.index 0 ⟨8, true, 0, false, 4⟩).isControl = true ∧
    w2.resolves (.index 0 ⟨8, true, 0, false, 4⟩) = true ∧ w2.canPush .l = true ∧ w1.canPush .l = true ∧
    ((w1.pastWords (.unlk 6)).writeA 7 (w1.readA 6)).canPop .l = true := by decide

/-- The whole list, with the base register in it where the model allows that. -/
theorem witness_MovemMovesARegisterList :
    (w1.model.is020plus && (0xFFFF : HWord).getLsbD (7 - (0 : Reg).val)) = false ∧
    (w1.pastWords (.movemToMem .l 0xFFFF (.predec 0))).canStoreDown .l (maskRegsDown 0xFFFF) (w1.readA 0) = true ∧
    (w2.model.is020plus && (0x0001 : HWord).getLsbD (7 - (0 : Reg).val)) = false ∧
    (w2.model.is020plus = true ∧ (0x0080 : HWord).getLsbD (7 - (0 : Reg).val) = true) ∧
    (EA.ind 0).isControl = true ∧ (EA.ind 0).isPcRel = false ∧
    (w1.pastWords (.movemToMem .w 0xFFFF (.ind 0))).resolves (.ind 0) = true ∧
    (w1.pastWords (.movemToMem .w 0xFFFF (.ind 0))).canStoreUp .w (maskRegs 0xFFFF) 0x2000 = true ∧
    (w1.pastWords (.movemToReg .w (.postinc 0) 0xFFFF)).canLoadUp .w .data (maskRegs 0xFFFF) (w1.readA 0) = true ∧
    (EA.pcDisp 0x100).isControl = true ∧
    (w1.pastWords (.movemToReg .w (.pcDisp 0x100) 0xFFFF)).canLoadUp .w .program (maskRegs 0xFFFF) 0x1104 = true := by decide

/-- With the displacement −1. -/
theorem witness_MovepAlternatesBytes : w1.readA 0 + (0xFFFF : BitVec 16).signExtend 32 = 0x1FFF ∧
    (w1.canRead 0x1FFF .b 5 = true ∧ w1.canRead 0x2001 .b 5 = true ∧ w1.canRead 0x2003 .b 5 = true ∧
      w1.canRead 0x2005 .b 5 = true) ∧
    (w1.canWrite 0x1FFF .b 5 = true ∧ w1.canWrite 0x2001 .b 5 = true ∧ w1.canWrite 0x2003 .b 5 = true ∧
      w1.canWrite 0x2005 .b 5 = true) ∧ w1.dataFC = 5 := ⟨by rfl, by decide, by decide, by decide⟩

theorem witness_BranchesAndConditions : w1.canPush .l = true ∧ w1.model.is020plus = false ∧ w2.model.is020plus = true ∧
    (0x7F : BitVec 8) ≠ 0xFF ∧ Cond.eq ≠ .f ∧ w2.canPush .l = true ∧
    (w1.pastWords (.scc .eq (.ind 0))).canWriteEA 0x1002 (.ind 0) .b = true := by decide

theorem witness_Returns : w1.canPop .l = true ∧ w1.canPop .w = true ∧ w1.model.is010plus = true ∧
    (((w1.pastWords .rtr).popped .w).setCCR ((w1.top .w).setWidth 8)).canPop .l = true := by decide

theorem witness_CcrInstructions : (w1.pastWords (.moveToCcr (.ind 0))).canReadEA 0x1002 (.ind 0) .w = true ∧
    w1.model.is010plus = true ∧ (w1.pastWords (.moveFromCcr (.ind 0))).canWriteEA 0x1002 (.ind 0) .w = true := by decide

theorem witness_StatusRegisterInstructions : w2.supervisor = true ∧ srRefused w2.model (w2.sr &&& 0xDFFF) = false ∧
    srRefused w2.model (w2.sr ||| 0x0700) = false ∧ srRefused w2.model (w2.sr ^^^ 0x2000) = false ∧
    srRefused w2.model 0x2000 = false ∧ (w2.pastWords (.moveToSr (.ind 0))).canReadEA 0x1002 (.ind 0) .w = true ∧
    srRefused w2.model (((w2.pastWords (.moveToSr (.ind 0))).operand 0x1002 (.ind 0) .w).setWidth 16) = false ∧
    (∀ s ∈ [u0, w1], (s.model.is010plus = true → s.supervisor = true) ∧
      (s.pastWords (.moveFromSr (.ind 0))).canWriteEA 0x1002 (.ind 0) .w = true) := by decide

theorem witness_MovecMovesControlRegisters : w1.supervisor = true ∧ w1.model.is010plus = true ∧
    ¬(w1.model.is020plus = true ∨ w1.model = .mc68040) ∧ (0x002 : BitVec 12) ∉ [(0x000 : BitVec 12), 0x001, 0x800, 0x801] ∧
    (w1.pastWords (.movecFrom 0x002 15)).canEnter 4 w1.pc none = true ∧
    (w1.pastWords (.movecTo 15 0x002)).canEnter 4 w1.pc none = true ∧
    (w2.supervisor = true ∧ w2.model.is020plus = true ∧ (0x804 : BitVec 12) ∈ [(0x002 : BitVec 12), 0x802, 0x803, 0x804]) ∧
    ((start .mc68040).supervisor = true ∧ (start .mc68040).model = .mc68040 ∧
      (0x807 : BitVec 12) ∈ [(0x003 : BitVec 12), 0x004, 0x005, 0x006, 0x007, 0x805, 0x806, 0x807]) := by decide

theorem witness_MovesUsesTheAlternateSpaces : w1.supervisor = true ∧ w1.model.is010plus = true ∧
    (EA.postinc 0).isMemoryAlterable = true ∧ (w1.pastWords (.moves .w true 1 (.postinc 0))).resolves (.postinc 0) = true ∧
    w1.canWrite 0x2000 .w w1.dfc = true ∧ movesSameRegister 1 (.postinc 0) = false ∧ movesSameRegister 8 (.postinc 0) = true ∧
    w1.canRead 0x2000 .w w1.sfc = true := by decide

/-- An SSP under which the word at +6 is the format word `fw`. -/
def framePointsAt (s : State) (fw : Long) : State := State.putWord s (s.readA 7 + 6).toNat fw

theorem witness_RteRestoresItsFrame :
    (w0.supervisor = true ∧ w0.model.is000 = true ∧ w0.canRead (w0.readA 7) .w w0.dataFC = true ∧
      w0.canRead (w0.readA 7 + 2) .l w0.dataFC = true ∧
      srRefused w0.model ((w0.valueAt (w0.readA 7) .w w0.dataFC).setWidth 16) = false) ∧
    (∀ p ∈ [(w1, (0x0000 : Long), FrameFormat.valid 8), (w2, 0x2000, .valid 12), (w1, 0x1000, .invalid), (w1, 0x8000, .refused)],
      let s := framePointsAt p.1 p.2.1
      s.supervisor = true ∧ s.model.is010plus = true ∧ s.canRead (s.readA 7) .w s.dataFC = true ∧
      s.canRead (s.readA 7 + 2) .l s.dataFC = true ∧ s.canRead (s.readA 7 + 6) .w s.dataFC = true ∧
      srRefused s.model ((s.valueAt (s.readA 7) .w s.dataFC).setWidth 16) = false ∧
      frameFormat ((s.valueAt (s.readA 7 + 6) .w s.dataFC).extractLsb' 12 4) s.model = p.2.2 ∧
      (s.pastWords .rte).canEnter 14 s.pc none = true) := by decide

/-- The bounds of CHK: 0, the bound itself, one more, and −1. The entry's premise holds whatever flags are drawn. -/
theorem witness_TrapsAndChecks :
    (∀ p ∈ [(Instr.trap 15, 47, (0x1002 : Long)), (.illegal, 4, 0x1000), (.lineA 0, 10, 0x1000), (.lineF 0xFFF, 11, 0x1000)],
      w1.model.is020plus = false ∧ (w1.pastWords p.1).canEnter p.2.1 p.2.2 none = true) ∧
    w1.ccr.v = false ∧ (w1.setCCR 2).ccr.v = true ∧ ((w1.setCCR 2).pastWords .trapv).canEnter 7 0x1002 (some 0x1000) = true ∧
    (w1.pastWords (.chkW (.imm (.w 10)) 0)).canReadEA 0x1002 (.imm (.w 10)) .w = true ∧
    (0 ≤ (0 : BitVec 16).toInt ∧ (10 : BitVec 16).toInt ≤ (10 : BitVec 16).toInt) ∧
    ((0xFFFF : BitVec 16).toInt < 0 ∧ (10 : BitVec 16).toInt < (11 : BitVec 16).toInt) ∧
    ∀ x n z v c, ((w1.setPc 0x1004).setFlags ⟨x, n, z, v, c⟩).canEnter 6 0x1004 (some 0x1000) = true := by decide

theorem witness_Mc68020Rows : (w1.model.is020plus = false ∧ (w1.setPc (w1.pc + 2)).canEnter 4 w1.pc none = true) ∧
    w2.model.is020plus = true := by decide

/-- An operand with a full-format extension word, in each place an instruction can have it. -/
theorem witness_Mc68020Rows_fullFormat :
    let x : IndexExt := ⟨8, true, 0, true, 4⟩
    w2.model.is020plus = true ∧ x.full = true ∧
    (Instr.addi (.w 1) (.index 0 x)).destination w2.pc = some (0x1004, .index 0 x, .w) ∧
    (w2.pastWords (.move .w (.postinc 1) (.index 0 x))).canReadEA 0x1002 (.postinc 1) .w = true ∧
    ∀ j ∈ [Instr.addi (.w 1) (.index 0 x), .move .w (.postinc 1) (.index 0 x), .move .w (.pcIndex x) (.dn 0),
      .moves .b true 8 (.index 0 x), .moveToSr (.pcIndex x), .lea (.pcIndex x) 0], privilegeViolation j w2 = false := by decide

theorem test_full_format_pc : refusal m2 [0x4EFB, 0x0910] = some .fullFormatExtension := by decide

/-! ### Frames -/

theorem witness_OnlyNamedRegistersChange : ∀ i ∈ [Instr.move .l (.postinc 0) (.predec 1), .link 6 0xFFF8, .movemToReg .l (.ind 0) 0x00FF],
    i.traps = false ∧ i.writesSr = false ∧ i.writesUsp = false ∧ rowVerdict w1.model i = .entry ∧
    privilegeViolation i w1 = false ∧ runs i w1 = true := by decide

theorem witness_SrAndControlRegistersStay : ∀ i ∈ [Instr.movea .w (.ind 0) 1, .moves .w true 0 (.ind 0)],
    rowVerdict w1.model i = .entry ∧ privilegeViolation i w1 = false ∧ runs i w1 = true ∧ i.keepsFlags = true ∧
    i.traps = false ∧ i.writesSr = false := by decide

theorem witness_FormsThatStoreNothing : ∀ i ∈ [Instr.cmpm .b 0 1, .addi (.w 1) (.dn 0), .rts],
    i.storesNothing = true ∧ i.traps = false ∧ rowVerdict w1.model i = .entry ∧ privilegeViolation i w1 = false ∧
    runs i w1 = true := by decide

theorem witness_StoresStayInTheDestination :
    (Instr.addq .l 1 (.predec 1)).destination w1.pc = some (0x1002, .predec 1, .l) ∧
    rowVerdict w1.model (.addq .l 1 (.predec 1)) = .entry ∧ privilegeViolation (.addq .l 1 (.predec 1)) w1 = false ∧
    (w1.pastWords (.addq .l 1 (.predec 1))).location 0x1002 (.predec 1) .l = .mem 0x1FFC .data ∧
    runs (.addq .l 1 (.predec 1)) w1 = true ∧
    (((w1.pastWords (.move .l (.postinc 0) (.postinc 0))).afterEA (.postinc 0) .l).location 0x1002 (.postinc 0) .l =
      .mem 0x2004 .data ∧ runs (.move .l (.postinc 0) (.postinc 0)) w1 = true) := by decide

theorem witness_StoresOfTheOtherInstructions :
    (∀ i ∈ [Instr.pea (.ind 0), .jsr (.ind 0), .bsr (.short 2), .link 0 0, .bccL .f], rowVerdict w1.model i = .entry ∧ runs i w1 = true) ∧
    (∀ i ∈ [Instr.addxMem .w 0 1, .subxMem .w 0 1, .movepToMem .l 0 0 1, .movemToMem .l 0x8001 (.predec 0),
      .movemToMem .l 0x8001 (.ind 0)], runs i w1 = true) ∧
    (runs (.moves .l true 0 (.ind 0)) w1 = true ∧ w1.supervisor = true ∧ w1.model.is010plus = true) := by
  refine ⟨?_, ?_, ?_⟩
  · decide
  · simp only [List.forall_mem_cons]
    refine ⟨?_, ?_, ?_, ?_, ?_, ?_⟩ <;> decide
  · decide

/-- ABCD and SBCD draw flags, which the kernel cannot evaluate; the meanings still answer a next state. -/
theorem witness_StoresOfTheOtherInstructions_decimal :
    (∃ t, exec (.abcdMem 0 1) w1 = .next t) ∧ ∃ t, exec (.sbcdMem 0 1) w1 = .next t := by
  constructor
  · obtain ⟨t, h⟩ := bcdMem_ok (op := abcdValue) (s := w1.pastWords (.abcdMem 0 1)) (ry := 0) (rx := 1) (by decide) (by decide)
    exact ⟨t, by rw [exec]; exact runInstr_next rfl rfl h⟩
  · obtain ⟨t, h⟩ := bcdMem_ok (op := sbcdValue) (s := w1.pastWords (.sbcdMem 0 1)) (ry := 0) (rx := 1) (by decide) (by decide)
    exact ⟨t, by rw [exec]; exact runInstr_next rfl rfl h⟩

end Sys2Proof.Tests
end

section
/-! The registers and the status register (10_state.md): A7 as the alias of the active stack pointer. -/

namespace Sys2Proof.Machine

namespace State

/-- A7 reads as the active stack pointer (R105). -/
theorem readA_seven (s : State) : s.readA 7 = if s.supervisor then s.ssp else s.usp := rfl

/-- In supervisor mode A7 is SSP, so a write to it is a write to SSP (R105). -/
theorem writeA_seven_of_supervisor {s : State} (h : s.supervisor = true) (v : Long) : s.writeA 7 v = s.setSsp v :=
  if_pos h

/-- In user mode A7 is USP, so a write to it is a write to USP (R105). -/
theorem writeA_seven_of_user {s : State} (h : s.supervisor = false) (v : Long) : s.writeA 7 v = s.setUsp v :=
  if_neg (by simp [h])

end State

/-- Settles O21: A7 reads as the active stack pointer, a write to it is `setSsp` or `setUsp` by the mode, and the other
address registers are other registers. -/
theorem stackPointerAlias : Obligations.StackPointerAlias := by
  intro s v
  refine ⟨s.readA_seven, fun hsup => ?_, fun huser => ?_, fun n hn => ?_, s.readA_writeA_same 7 v⟩
  · rw [State.writeA_seven_of_supervisor hsup]
    exact ⟨s.setSsp_ssp v, s.setSsp_usp v⟩
  · rw [State.writeA_seven_of_user huser]
    exact ⟨s.setUsp_usp v, s.setUsp_ssp v⟩
  · exact s.readA_writeA_other v hn.symm

end Sys2Proof.Machine
end

section
/-! Memory accesses (20_memory.md): the bytes of a value in memory, the cell an address names, when an access is misaligned. -/

namespace Sys2Proof.Machine

namespace Memory

/-- The bytes of a written value stand most significant first (R230). -/
theorem read_writeSized_byte {m : Memory} (h : wf m = true) (a : Nat) (sz : Size) (v : Long) {j : Nat} (hj : j < sz.bytes) :
    read (writeSized m a sz v) (a + j) = v.extractLsb' (8 * (sz.bytes - 1 - j)) 8 := by
  cases sz with
  | b =>
    obtain rfl : j = 0 := Nat.lt_one_iff.1 hj
    exact read_write_same a _ h
  | w =>
    have w1 := write_wf a (v.extractLsb' 8 8) h
    simp only [Size.bytes] at hj
    interval_cases j <;> simp [writeSized, Size.bytes, read_write_same, read_write_other, h, w1]
  | l =>
    have w1 := write_wf a (v.extractLsb' 24 8) h
    have w2 := write_wf (a + 1) (v.extractLsb' 16 8) w1
    have w3 := write_wf (a + 2) (v.extractLsb' 8 8) w2
    simp only [Size.bytes] at hj
    interval_cases j <;> simp [writeSized, Size.bytes, read_write_same, read_write_other, h, w1, w2, w3]

/-- A byte put after another one is the low digit of the base-256 number the two spell. -/
theorem toNat_append_byte {n : Nat} (x : BitVec n) (b : Byte) : (x ++ b).toNat = x.toNat * 2 ^ 8 + b.toNat := by
  rw [BitVec.toNat_append, ← Nat.shiftLeft_add_eq_or_of_lt b.isLt, Nat.shiftLeft_eq]

/-- The number its bytes spell, the most significant one first, is the value a read gives (R230). -/
theorem readSized_toNat (m : Memory) (a : Nat) (sz : Size) :
    let b (j : Nat) : Nat := (read m (a + j)).toNat
    (readSized m a sz).toNat = match sz with
      | .b => b 0
      | .w => b 0 * 2 ^ 8 + b 1
      | .l => b 0 * 2 ^ 24 + b 1 * 2 ^ 16 + b 2 * 2 ^ 8 + b 3 := by
  cases sz with
  | b => exact BitVec.toNat_setWidth_of_le (by decide)
  | w => exact (BitVec.toNat_setWidth_of_le (by decide)).trans (toNat_append_byte _ _)
  | l =>
    simp only [readSized, toNat_append_byte, Nat.add_zero]
    omega

end Memory

/-- Translation names one cell for an address, whatever the length, function code and kind of the access that succeeds (R210). -/
theorem translate_cell_unique {c : Config} {addr : Long} {len len' : Nat} {fc fc' : BitVec 3} {kind kind' : AccessKind}
    {k k' : Nat} (h : translate c addr len fc kind = some k) (h' : translate c addr len' fc' kind' = some k') : k' = k := by
  obtain ⟨i, r, hfind, -, -, -, -, -, -, rfl⟩ := translate_some h
  obtain ⟨i', r', hfind', -, -, -, -, -, -, rfl⟩ := translate_some h'
  rw [hfind] at hfind'
  cases hfind'
  rfl

/-- The check looks at the size and the low bit of the unmasked address, on MC68000 and MC68010 only (R220). -/
theorem misaligned_iff (m : Model) (sz : Size) (addr : Long) :
    misaligned m sz addr = true ↔ m.is020plus = false ∧ sz ≠ .b ∧ addr.toNat % 2 = 1 := by
  have hodd : addr.getLsbD 0 = true ↔ addr.toNat % 2 = 1 := by
    rw [BitVec.getLsbD, Nat.testBit_zero, decide_eq_true_iff]
  simp only [misaligned, Bool.and_eq_true, bne_iff_ne, Bool.not_eq_true', hodd]
  tauto

namespace State

variable {s : State} {a : Long} {sz : Size} {fc fc' : BitVec 3} {k : Nat}

theorem exists_translate_of_canRead (h : s.canRead a sz fc = true) : ∃ k, translate s.cfg a sz.bytes fc .read = some k :=
  Option.isSome_iff_exists.1 (Bool.and_eq_true_iff.1 h).2

theorem exists_translate_of_canWrite (h : s.canWrite a sz fc = true) : ∃ k, translate s.cfg a sz.bytes fc .write = some k :=
  Option.isSome_iff_exists.1 (Bool.and_eq_true_iff.1 h).2

theorem valueAt_of_translate (h : translate s.cfg a sz.bytes fc .read = some k) :
    s.valueAt a sz fc = Memory.readSized s.mem k sz := by
  rw [valueAt, h]

theorem stored_mem_of_translate (h : translate s.cfg a sz.bytes fc .write = some k) (v : Long) :
    (s.stored a sz fc v).mem = Memory.writeSized s.mem k sz v := by
  rw [stored, h]; rfl

/-- A store changes only the bytes of its access, whether it can be made or not. -/
theorem sameMemoryBut_stored (s : State) (a : Long) (sz : Size) (fc : BitVec 3) (v : Long) :
    s.sameMemoryBut a sz fc (s.stored a sz fc v) := by
  intro c hout
  cases hk : translate s.cfg a sz.bytes fc .write with
  | none => rw [stored, hk]
  | some k =>
    rw [stored_mem_of_translate hk]
    exact Memory.read_writeSized_other sz v (hout k hk)

/-- What a store wrote is read back, through any function code: both accesses name the same cell. -/
theorem valueAt_stored (hwf : Memory.wf s.mem = true) (hwrite : s.canWrite a sz fc = true) (hread : s.canRead a sz fc' = true)
    (v : Long) : (s.stored a sz fc v).valueAt a sz fc' = truncTo sz v := by
  obtain ⟨k, hk⟩ := exists_translate_of_canWrite hwrite
  obtain ⟨k', hk'⟩ := exists_translate_of_canRead hread
  obtain rfl := translate_cell_unique hk hk'
  rw [valueAt_of_translate (by rwa [stored_cfg]), stored_mem_of_translate hk]
  exact Memory.readSized_writeSized_same _ sz v hwf

end State

/-- Settles O19: the write and every read of an address name the same cell (`translate_cell_unique`), and the memory there
keeps what was written, byte by byte. -/
theorem writtenValuesReadBack : Obligations.WrittenValuesReadBack := by
  intro s a sz fc fc' v hinv hwrite
  obtain ⟨-, hwf, -, -⟩ := hinv
  refine ⟨s.sameMemoryBut_stored a sz fc v, fun hread => State.valueAt_stored hwf hwrite hread v, fun j hj k hk => ?_,
    fun k hk => ?_⟩
  · rw [State.stored_mem_of_translate hk]
    exact Memory.read_writeSized_byte hwf k sz v hj
  · rw [State.valueAt_of_translate hk]
    exact Memory.readSized_toNat s.mem k sz

/-- Settles O20: each access by whether it can be made, and the alignment check by `misaligned_iff`. -/
theorem failedAccessesHalt : Obligations.FailedAccessesHalt := fun s a sz _ v =>
  ⟨memReadFC_failed, memWriteFC_failed v, memReadFC_eq, memWriteFC_eq v, misaligned_iff s.model sz a⟩

end Sys2Proof.Machine
end

section
/-! One step (30_encoding.md, R300–R305, R340): what a step does when the fetch ends it, or finds an unassigned word, and the
host operations that end a wait. -/

namespace Sys2Proof.Machine

variable {s t : State} {ir : HWord} {ws : List HWord}

/-! ### The fetch of an instruction -/

/-- An odd pc halts the fetch as an untranslatable one does (R221, R403). -/
theorem fetchWord_fails (h : s.pc.getLsbD 0 = true ∨ translate s.cfg s.pc 2 s.progFC .execute = none) :
    fetchWord s = .error .ended (s.setCondition .halted) := by
  rcases h with hodd | hnone
  · exact if_pos hodd
  · exact fetchWord_halts hnone

theorem fetchInstr_opcode_fails (h : s.pc.getLsbD 0 = true ∨ translate s.cfg s.pc 2 s.progFC .execute = none) :
    fetchInstr s = .error .ended (s.setCondition .halted) :=
  (run_bind_ok (run_getModel s)).trans (run_bind_error (fetchWord_fails h))

/-- An unassigned word is fetched alone (R340). -/
theorem fetchInstr_unassigned {e : DecodeError} (he : s.pc.getLsbD 0 = false) (h : s.holdsWords s.pc (ir :: ws))
    (hd : decode s.model ir [] = .error e) : fetchInstr s = .ok none (s.setPc (s.pc + 2)) := by
  rw [fetchInstr, run_bind_ok (run_getModel s), run_bind_ok (fetchWord_eq he h.1), hd]
  rfl

/-- The first extension word that cannot be fetched halts the fetch, with the pc at it (R403). -/
theorem fetchInstr_extension_fails {i : Instr} (he : s.pc.getLsbD 0 = false) (h : s.holdsWords s.pc (ir :: ws))
    (hd : decode s.model ir [] = .ok i) (hlen : ws.length + 1 < i.words)
    (hf : translate s.cfg (s.pc + BitVec.ofNat 32 (2 * (ws.length + 1))) 2 s.progFC .execute = none) :
    fetchInstr s =
      .error .ended ((s.setPc (s.pc + BitVec.ofNat 32 (2 * (ws.length + 1)))).setCondition .halted) := by
  have hpc : s.pc + BitVec.ofNat 32 (2 * (ws.length + 1)) = s.pc + 2 + BitVec.ofNat 32 (2 * ws.length) := by
    rw [Nat.mul_succ, Nat.add_comm, BitVec.ofNat_add, ← BitVec.add_assoc]
    rfl
  rw [hpc] at hf ⊢
  rw [fetchInstr, run_bind_ok (run_getModel s), run_bind_ok (fetchWord_eq he h.1), hd]
  exact run_bind_error (fetchWords_halts (s := s.setPc (s.pc + 2)) ((add_two_even s.pc).trans he) (holdsWords_setPc h.2)
    (Nat.lt_sub_of_add_lt hlen) hf)

/-! ### The step around the fetch -/

theorem step_of_waiting (h1 : s.condition ≠ .startup) (h2 : s.condition ≠ .normal) : step s = .next s := by
  unfold step
  cases hc : s.condition with
  | startup => exact absurd hc h1
  | normal => exact absurd hc h2
  | finished | halted | stopped | breakpoint _ => rfl

theorem step_of_traced (hc : s.condition = .normal) (ht : s.traced = true) : step s = .refused .traceNotModelled := by
  simp only [step, hc, executeOne, ht, if_true]

/-- A fetch that halts is the whole step. -/
theorem step_of_fetch_ended (hc : s.condition = .normal) (ht : s.traced = false) (hf : fetchInstr s = .error .ended t) :
    step s = .next t := by
  simp only [step, hc, executeOne, ht, hf]
  rfl

/-- A word that no row takes raises the illegal-instruction exception of its own address (R340). -/
theorem step_of_unassigned (hc : s.condition = .normal) (ht : s.traced = false) (hf : fetchInstr s = .ok none t) :
    step s = finish (raise 4 s.pc none) t := by
  simp only [step, hc, executeOne, ht, hf]
  rfl

/-- An exception under the halting mode halts and changes nothing else (R1310). -/
theorem finish_raise_halt {vec : Nat} {p : Long} {ia : Option Long} (h : s.cfg.exceptionMode = .halt) :
    finish (raise vec p ia) s = .next (s.setCondition .halted) :=
  finish_ended (by rw [run_raise, run_enterException_halt vec p ia s h])

/-! ### The host operations that end a wait -/

theorem wake_eq (s : State) : wake s = if s.condition = .stopped then s.setCondition .normal else s := by
  unfold wake
  cases s.condition <;> rfl

theorem resume_of_breakpoint (h : ∃ n, s.condition = .breakpoint n) : resume s = s.setCondition .normal := by
  obtain ⟨n, hn⟩ := h
  rw [resume, hn]

theorem resume_of_no_breakpoint (h : ¬ ∃ n, s.condition = .breakpoint n) : resume s = s := by
  unfold resume
  cases hc : s.condition with
  | breakpoint n => exact absurd ⟨n, hc⟩ h
  | startup | normal | finished | halted | stopped => rfl

/-- Settles O5: the fetch stops after the unassigned word, and the exception is entered from there, or halts. -/
theorem stepOfAnUnassignedWord : Obligations.StepOfAnUnassignedWord := by
  intro s ir e hc ht he hw hd
  have hstep := step_of_unassigned hc ht (fetchInstr_unassigned he hw hd)
  exact ⟨fun hEnter => hstep.trans (finish_raise hEnter), fun hHalt => hstep.trans (finish_raise_halt hHalt)⟩

/-- Settles O6: a step that fetches nothing, or that its fetch ends, and the two host operations. -/
theorem stepsThatRunNothing : Obligations.StepsThatRunNothing := by
  intro s
  refine ⟨step_of_waiting, step_of_traced, fun hc ht hf => ?_, fun ir ws i hc ht he hw hd hlen => ?_, wake_eq s, ?_⟩
  · exact step_of_fetch_ended hc ht (fetchInstr_opcode_fails hf)
  · intro failing hf
    exact step_of_fetch_ended hc ht (fetchInstr_extension_fails he hw hd hlen hf)
  · split
    next hb => exact resume_of_breakpoint hb
    next hb => exact resume_of_no_breakpoint hb

end Sys2Proof.Machine
end

section
/-! The conditions and the branch words (30_encoding.md, R330): the conditions are the 4-bit codes, and an opcode word of
line 6 is a condition code and a displacement byte. -/

namespace Sys2Proof.Machine

/-! ### Conditions and codes correspond -/

@[simp] theorem ofCode_code (c : Cond) : Cond.ofCode c.code = c := by
  cases c <;> rfl

@[simp] theorem code_ofCode (cc : BitVec 4) : (Cond.ofCode cc).code = cc := by
  decide +revert

/-! ### The words of line 6 -/

/-- The fields 11–9 and 8 of an opcode word make up the condition code (R311). -/
theorem field_cc (ir : HWord) : ir.extractLsb' 9 3 ++ BitVec.ofBool (ir.getLsbD 8) = ir.extractLsb' 8 4 := by
  have hbit : BitVec.ofBool (ir.getLsbD 8) = ir.extractLsb' 8 1 := by
    ext i hi
    obtain rfl : i = 0 := Nat.lt_one_iff.1 hi
    simp
  rw [hbit]
  exact BitVec.extractLsb'_append_extractLsb'_eq_extractLsb' rfl

/-- The fields 7–6, 5–3 and 2–0 of an opcode word make up the displacement byte (R311). -/
theorem field_disp (ir : HWord) : ir.extractLsb' 6 2 ++ ir.extractLsb' 3 3 ++ ir.extractLsb' 0 3 = ir.extractLsb' 0 8 := by
  rw [BitVec.extractLsb'_append_extractLsb'_eq_extractLsb' (start₂ := 6) (start₁ := 3) (len₁ := 3) rfl]
  exact BitVec.extractLsb'_append_extractLsb'_eq_extractLsb' rfl

/-- A word of line 6 decodes as its condition code and displacement byte say, where the row is active on every model (R303). -/
theorem decode_line6 {m : Model} {cc : BitVec 4} {d : BitVec 8} {ws : List HWord} {i : Instr} {op : BitVec 8}
    (hop : op = 0x6#4 ++ cc) (h : decodeLine6 m cc d ws = some i) (hi : i.columns.1 = .all) :
    decode m (op ++ d) ws = .ok i := by
  subst hop
  have hline : (0x6#4 ++ cc ++ d : HWord).extractLsb' 12 4 = 6 := by
    rw [BitVec.extractLsb'_append_eq_of_le (by decide)]
    exact BitVec.extractLsb'_append_eq_left
  have hcc : (0x6#4 ++ cc ++ d : HWord).extractLsb' 8 4 = cc := by
    rw [BitVec.extractLsb'_append_eq_of_le (by decide)]
    exact BitVec.extractLsb'_append_eq_right
  have hd : (0x6#4 ++ cc ++ d : HWord).extractLsb' 0 8 = d := BitVec.extractLsb'_append_eq_right
  have hfields : ∀ r b ss mode reg, decodeFields m 6 r b ss mode reg ws =
    decodeLine6 m (r ++ BitVec.ofBool b) (ss ++ mode ++ reg) ws := fun _ _ _ _ _ => rfl
  rw [decode, hline, hfields, field_cc, field_disp, hcc, hd, h]
  simp only [hi, RowModels.contain, if_true]

section

/-! A displacement byte that is neither 0 nor 0xFF is the displacement itself, on every model (R310, R1101). -/

variable {cc : BitVec 4} {d : BitVec 8} (h0 : d ≠ 0) (hFF : d ≠ 0xFF) (m : Model) (ws : List HWord)
include h0 hFF

theorem decodeLine6_bra : decodeLine6 m 0 d ws = some (.bra (.short d)) := by
  rw [decodeLine6, if_neg fun h => hFF h.1, decodeBranchDisp, if_neg h0]
  rfl

theorem decodeLine6_bsr : decodeLine6 m 1 d ws = some (.bsr (.short d)) := by
  rw [decodeLine6, if_neg fun h => hFF h.1, decodeBranchDisp, if_neg h0]
  rfl

theorem decodeLine6_bcc (ht : cc ≠ 0) (hf : cc ≠ 1) :
    decodeLine6 m cc d ws = some (.bcc (Cond.ofCode cc) (.short d)) := by
  rw [decodeLine6, if_neg fun h => hFF h.1, decodeBranchDisp, if_neg h0]
  split
  next h => exact absurd (BitVec.eq_of_toNat_eq h) ht
  next h => exact absurd (BitVec.eq_of_toNat_eq h) hf
  next => rfl

end

/-- Settles O24: every code is the code of one of the sixteen conditions, and the three kinds of branch words. -/
theorem conditionCodes : Obligations.ConditionCodes := by
  intro f cc
  refine ⟨?_, code_ofCode cc, fun m d h0 hFF => ⟨?_, ?_, fun ht hf => ?_⟩⟩
  · obtain ⟨cond, rfl⟩ : ∃ cond : Cond, cond.code = cc := ⟨Cond.ofCode cc, code_ofCode cc⟩
    rw [ofCode_code]
    cases cond <;> simp [condHolds, Cond.code]
  · exact decode_line6 rfl (decodeLine6_bra h0 hFF m []) rfl
  · exact decode_line6 rfl (decodeLine6_bsr h0 hFF m []) rfl
  · exact decode_line6 rfl (decodeLine6_bcc h0 hFF m [] ht hf) rfl

end Sys2Proof.Machine
end

section
/-! The moves between registers (41_data_movement.md, R503, R510; R622, R623, R817): a result written to a data register with
its flags, and two registers exchanged. -/

namespace Sys2Proof.Machine

variable {s : State}

/-! ### Sign extension of an operand read at its size -/

theorem signExtendFrom_truncTo_b (v : Long) : signExtendFrom .b (truncTo .b v) = (v.extractLsb' 0 8).signExtend 32 :=
  congrArg (BitVec.signExtend 32) (truncTo_b_low v)

theorem signExtendFrom_truncTo_w (v : Long) : signExtendFrom .w (truncTo .w v) = (v.extractLsb' 0 16).signExtend 32 :=
  congrArg (BitVec.signExtend 32) (truncTo_w_low v)

/-! ### Whole-register writes and results with logic flags -/

theorem mergeLow_l (old v : Long) : mergeLow .l old v = v := by
  have hkept : old &&& ~~~sizeMask .l = 0 := BitVec.and_zero
  rw [mergeLow, hkept, truncTo_l]
  exact BitVec.zero_or

theorem State.setD_l (n : Reg) (v : Long) : s.setD n .l v = s.writeD n v := by
  rw [State.setD, mergeLow_l]

/-- A value written to a data register, and N and Z set from it at its size. -/
theorem putD_logicFlags_eq (dn : Reg) (sz : Size) (v : Long) :
    (do putD dn sz v; let f ← getFlags; putFlags (logicFlags sz v f) : Exec Unit) s =
      .ok () (s.resultTo dn sz ⟨v, logicFlags sz v s.ccr⟩) := by
  simp only [run_bind, run_putD, run_getFlags, run_putFlags, State.setD_ccr, State.resultTo]

/-! ### Each instruction -/

theorem exec_moveq (imm : BitVec 8) (dn : Reg) : exec (.moveq imm dn) s =
    .next ((s.pastWords (.moveq imm dn)).resultTo dn .l ⟨sext8 imm, logicFlags .l (sext8 imm) s.ccr⟩) := by
  show execMoveq imm dn s = _
  refine runInstr_next rfl rfl ?_
  exact putD_logicFlags_eq dn .l (sext8 imm)

theorem exec_swap (dn : Reg) : exec (.swap dn) s =
    .next ((s.pastWords (.swap dn)).resultTo dn .l
      ⟨swapHalves (s.readD dn), logicFlags .l (swapHalves (s.readD dn)) s.ccr⟩) := by
  show execSwap dn s = _
  refine runInstr_next rfl rfl ?_
  rw [run_bind_ok (run_getD dn .l _), truncTo_l]
  exact putD_logicFlags_eq dn .l _

theorem exec_extW (dn : Reg) : exec (.extW dn) s =
    let v := truncTo .w (((s.readD dn).extractLsb' 0 8).signExtend 32)
    .next ((s.pastWords (.extW dn)).resultTo dn .w ⟨v, logicFlags .w v s.ccr⟩) := by
  show execExtW dn s = _
  refine runInstr_next rfl rfl ?_
  rw [run_bind_ok (run_getD dn .b _), signExtendFrom_truncTo_b]
  exact putD_logicFlags_eq dn .w _

theorem exec_extL (dn : Reg) : exec (.extL dn) s =
    let v := ((s.readD dn).extractLsb' 0 16).signExtend 32
    .next ((s.pastWords (.extL dn)).resultTo dn .l ⟨v, logicFlags .l v s.ccr⟩) := by
  show execExtL dn s = _
  refine runInstr_next rfl rfl ?_
  rw [run_bind_ok (run_getD dn .w _), signExtendFrom_truncTo_w]
  exact putD_logicFlags_eq dn .l _

/-- Both registers are read before either is written (R510). -/
theorem exec_exgDD (dx dy : Reg) : exec (.exgDD dx dy) s =
    .next (((s.pastWords (.exgDD dx dy)).writeD dx (s.readD dy)).writeD dy (s.readD dx)) := by
  show execExgDD dx dy s = _
  refine runInstr_next rfl rfl ?_
  simp only [run_bind, run_getD, run_putD, truncTo_l, State.setD_l, State.pastWords_readD]

theorem exec_exgAA (ax ay : Reg) : exec (.exgAA ax ay) s =
    .next (((s.pastWords (.exgAA ax ay)).writeA ax (s.readA ay)).writeA ay (s.readA ax)) := by
  show execExgAA ax ay s = _
  refine runInstr_next rfl rfl ?_
  simp only [run_bind, run_getA, run_putA, State.pastWords_readA]

theorem exec_exgDA (dx ay : Reg) : exec (.exgDA dx ay) s =
    .next (((s.pastWords (.exgDA dx ay)).writeD dx (s.readA ay)).writeA ay (s.readD dx)) := by
  show execExgDA dx ay s = _
  refine runInstr_next rfl rfl ?_
  simp only [run_bind, run_getD, run_getA, run_putD, run_putA, truncTo_l, State.setD_l, State.pastWords_readD,
    State.pastWords_readA]

/-- Settles O31: the seven instructions, each by its equation above. -/
theorem registerMoves : Obligations.RegisterMoves :=
  ⟨fun _ => exec_moveq, fun _ rx ry => ⟨exec_exgDD rx ry, exec_exgAA rx ry, exec_exgDA rx ry⟩,
    fun _ dn => ⟨exec_swap dn, exec_extW dn, exec_extL dn⟩⟩

end Sys2Proof.Machine
end

section
/-! Privileged instructions (60_exceptions.md, R1341, R1342): every meaning runs in the frame of R306, so a violation is settled
before the handler. -/

namespace Sys2Proof.Machine

variable {s : State} {i : Instr}

/-- Every instruction's meaning is a handler of its own, run in the frame of a meaning (R300). -/
theorem exec_eq_runInstr (i : Instr) : ∃ handler, ∀ s, exec i s = runInstr i handler s := by
  cases i <;> exact ⟨_, fun s => by rw [exec]; rfl⟩

/-- A privilege violation is exception 8 with the instruction's own address, past its words, whatever the handler (R306). -/
theorem exec_of_violation (hrow : rowVerdict s.model i = .entry) (hviol : privilegeViolation i s = true) :
    exec i s = finish (raise 8 s.pc none) (s.pastWords i) := by
  obtain ⟨handler, hexec⟩ := exec_eq_runInstr i
  exact (hexec s).trans (runInstr_violation hrow hviol)

/-- Settles O15: the table's privileged column is R1341's list, row by row, and a violation is exception 8 in both modes. -/
theorem privilegedInstructionsTrapInUserMode : Obligations.PrivilegedInstructionsTrapInUserMode := by
  intro s i listed hrow
  have hviol : privilegeViolation i s = (listed && !s.supervisor) := by cases i <;> rfl
  have htrap (hl : listed = true) (hu : s.supervisor = false) :
      exec i s = finish (raise 8 s.pc none) (s.pastWords i) :=
    exec_of_violation hrow (by rw [hviol, hl, hu]; rfl)
  exact ⟨hviol, fun hl hu hEnter => (htrap hl hu).trans (finish_raise hEnter),
    fun hl hu hHalt => (htrap hl hu).trans (finish_raise_halt hHalt)⟩

end Sys2Proof.Machine
end

section
/-! Pushes on the supervisor stack, one after the other (R16): where the values lie, what stays as it was, and what reads back. -/

namespace Sys2Proof.Machine

/-! ### Where pushed values lie -/

/-- How many bytes a list of pushes takes on the stack. -/
def pushBytes (vs : List (Size × Long)) : Nat := (vs.map fun v => v.1.bytes).sum

/-- The slots of a list of pushes, in the order of the pushes: a value lies as far above the final stack pointer as the later
pushes take bytes (R16). -/
def pushSlots : List (Size × Long) → List (Nat × Size × Long)
  | [] => []
  | v :: vs => (pushBytes vs, v.1, v.2) :: pushSlots vs

theorem pushBytes_cons (v : Size × Long) (vs : List (Size × Long)) : pushBytes (v :: vs) = v.1.bytes + pushBytes vs := rfl

/-- A slot ends at the latest where the first pushed value does. -/
theorem pushSlots_end_le {vs : List (Size × Long)} {x : Nat × Size × Long} (hx : x ∈ pushSlots vs) :
    x.1 + x.2.1.bytes ≤ pushBytes vs := by
  induction vs with
  | nil => cases hx
  | cons v vs ih =>
    rw [pushBytes_cons]
    rcases List.mem_cons.1 hx with rfl | hx
    · exact (Nat.add_comm _ _).le
    · exact (ih hx).trans (Nat.le_add_left _ _)

/-- The lengths of the slots are the bytes pushed. -/
theorem pushBytes_eq_sum (vs : List (Size × Long)) :
    pushBytes vs = ((((pushSlots vs).map fun x => (x.1, x.2.1.bytes)).reverse).map Prod.snd).sum := by
  rw [List.map_reverse, List.sum_reverse, List.map_map]
  induction vs with
  | nil => rfl
  | cons v vs ih => rw [pushBytes_cons, ih]; rfl

/-! ### What the pushes change -/

namespace State

variable {s : State}

theorem pushed_of_supervisor (hsup : s.supervisor = true) (sz : Size) (v : Long) :
    s.pushed sz v = (s.setSsp (s.ssp - byteCount sz)).stored (s.ssp - byteCount sz) sz 5 v := by
  have ha : s.readA 7 = s.ssp := by rw [readA_seven, hsup]; rfl
  have hfc : s.dataFC = 5 := by rw [dataFC, hsup]; rfl
  rw [pushed, ha, hfc, writeA_seven_of_supervisor hsup]

/-- A push in supervisor mode changes SSP and memory only (R16). -/
theorem exists_pushed_eq (hsup : s.supervisor = true) (sz : Size) (v : Long) :
    ∃ m, s.pushed sz v = (s.setSsp (s.ssp - byteCount sz)).setMem m := by
  rw [pushed_of_supervisor hsup, stored]
  split
  · exact ⟨_, rfl⟩
  · exact ⟨s.mem, rfl⟩

theorem exists_pushedAll_eq (hsup : s.supervisor = true) (vs : List (Size × Long)) :
    ∃ m, s.pushedAll vs = (s.setSsp (s.ssp - BitVec.ofNat 32 (pushBytes vs))).setMem m := by
  induction vs generalizing s with
  | nil =>
    have h0 : s.ssp - BitVec.ofNat 32 (pushBytes []) = s.ssp := BitVec.sub_zero _
    exact ⟨s.mem, by rw [h0]; rfl⟩
  | cons v vs ih =>
    obtain ⟨m, hm⟩ := exists_pushed_eq hsup v.1 v.2
    obtain ⟨m', hm'⟩ := ih (s := s.pushed v.1 v.2) (by rw [hm]; exact hsup)
    refine ⟨m', hm'.trans ?_⟩
    rw [hm, pushBytes_cons, BitVec.ofNat_add, ← BitVec.sub_sub]
    rfl

theorem pushed_supervisor (sz : Size) (v : Long) : (s.pushed sz v).supervisor = s.supervisor := by
  simp only [supervisor, pushed_sr]

theorem pushedAll_ssp (hsup : s.supervisor = true) (vs : List (Size × Long)) :
    (s.pushedAll vs).ssp = s.ssp - BitVec.ofNat 32 (pushBytes vs) := by
  obtain ⟨m, hm⟩ := exists_pushedAll_eq hsup vs
  rw [hm]; rfl

theorem pushed_ssp (hsup : s.supervisor = true) (sz : Size) (v : Long) : (s.pushed sz v).ssp = s.ssp - byteCount sz := by
  obtain ⟨m, hm⟩ := exists_pushed_eq hsup sz v
  rw [hm]; rfl

/-- Where the stack pointer was is as far above the last pushed value as the pushes take bytes. -/
theorem pushedAll_ssp_add (hsup : s.supervisor = true) (vs : List (Size × Long)) :
    (s.pushedAll vs).ssp + BitVec.ofNat 32 (pushBytes vs) = s.ssp := by
  rw [pushedAll_ssp hsup, BitVec.sub_add_cancel]

/-- The push of a value leaves every byte outside its slot. -/
theorem read_pushed_other (hsup : s.supervisor = true) {sz : Size} (v : Long) {c : Nat}
    (hc : ∀ k, translate s.cfg (s.ssp - byteCount sz) sz.bytes 5 .write = some k → c < k ∨ k + sz.bytes ≤ c) :
    Memory.read (s.pushed sz v).mem c = Memory.read s.mem c := by
  rw [pushed_of_supervisor hsup]
  exact sameMemoryBut_stored _ _ _ _ _ c hc

/-- Pushes leave every byte outside their slots. -/
theorem read_pushedAll_other (hsup : s.supervisor = true) {vs : List (Size × Long)} {c : Nat}
    (hc : ∀ x ∈ pushSlots vs, ∀ k,
      translate s.cfg ((s.pushedAll vs).ssp + BitVec.ofNat 32 x.1) x.2.1.bytes 5 .write = some k →
      c < k ∨ k + x.2.1.bytes ≤ c) :
    Memory.read (s.pushedAll vs).mem c = Memory.read s.mem c := by
  induction vs generalizing s with
  | nil => rfl
  | cons v vs ih =>
    have hsup' : (s.pushed v.1 v.2).supervisor = true := by rwa [pushed_supervisor]
    have hslot : (s.pushedAll (v :: vs)).ssp + BitVec.ofNat 32 (pushBytes vs) = s.ssp - byteCount v.1 :=
      (pushedAll_ssp_add hsup' vs).trans (pushed_ssp hsup _ _)
    have hhead := hc _ (List.mem_cons_self ..)
    rw [hslot] at hhead
    have hrest := ih hsup' fun x hx k hk => hc x (List.mem_cons_of_mem _ hx) k (by rwa [pushed_cfg] at hk)
    exact hrest.trans (read_pushed_other hsup v.2 hhead)

/-! ### Pushed values read back -/

theorem stored_inv (hinv : s.Inv) (a : Long) (sz : Size) (fc : BitVec 3) (v : Long) : (s.stored a sz fc v).Inv := by
  unfold stored
  split
  next k hk => exact ordinary_inv.store s a sz fc k v trivial hk hinv
  next => exact hinv

theorem pushed_inv (hinv : s.Inv) (sz : Size) (v : Long) : (s.pushed sz v).Inv :=
  stored_inv (ordinary_inv.writeA s _ _ trivial hinv) _ _ _ _

end State

/-- Where addresses are not masked, a cell number shows the address it stands for, and an access does not run past the end
of the address space (R201, R210). -/
theorem translate_cell_bounds {c : Config} (hok : c.ok = true) (hmask : c.addressMask = 0xFFFFFFFF) {a : Long} {n : Nat}
    {fc : BitVec 3} {kind : AccessKind} {k : Nat} (h : translate c a n fc kind = some k) :
    ∃ i, k = i * 2 ^ 32 + a.toNat ∧ a.toNat + n ≤ 2 ^ 32 := by
  obtain ⟨i, r, -, hr, hlo, -, hsize, -, -, rfl⟩ := translate_some h
  have haddr : maskedAddress c a = a.toNat := by
    rw [maskedAddress, hmask]
    exact congrArg BitVec.toNat BitVec.and_allOnes
  have hr_ok : r.ok = true := List.all_eq_true.1 hok r (List.mem_of_getElem? hr)
  simp only [Region.ok, Bool.and_eq_true, decide_eq_true_eq] at hr_ok
  rw [haddr] at hlo hsize ⊢
  exact ⟨i, rfl, by omega⟩

/-- Where addresses are not masked, accesses at disjoint addresses have disjoint cells. -/
theorem translate_cells_disjoint {c : Config} (hok : c.ok = true) (hmask : c.addressMask = 0xFFFFFFFF) {base : Long}
    {o o' n n' : Nat} {fc fc' : BitVec 3} {kind kind' : AccessKind} {k k' : Nat}
    (h : translate c (base + BitVec.ofNat 32 o) n fc kind = some k)
    (h' : translate c (base + BitVec.ofNat 32 o') n' fc' kind' = some k') (hlt : o + n ≤ o') (hend : o' + n' ≤ 2 ^ 32) :
    k' + n' ≤ k ∨ k + n ≤ k' := by
  obtain ⟨i, rfl, hle⟩ := translate_cell_bounds hok hmask h
  obtain ⟨i', rfl, hle'⟩ := translate_cell_bounds hok hmask h'
  simp only [BitVec.toNat_add, BitVec.toNat_ofNat] at hle hle' ⊢
  omega

namespace State

variable {s : State} {v : Long}

theorem canPush_of_supervisor (hsup : s.supervisor = true) (sz : Size) :
    s.canPush sz = s.canWrite (s.ssp - byteCount sz) sz 5 := by
  rw [canPush, readA_seven, dataFC, hsup]; rfl

/-- A pushed value reads back at the stack pointer (R16, R232). -/
theorem valueAt_pushed (hsup : s.supervisor = true) (hwf : Memory.wf s.mem = true) {sz : Size} (hcan : s.canPush sz = true)
    (hread : s.canRead (s.pushed sz v).ssp sz 5 = true) :
    (s.pushed sz v).valueAt (s.pushed sz v).ssp sz 5 = truncTo sz v := by
  rw [pushed_ssp hsup] at hread ⊢
  rw [canPush_of_supervisor hsup] at hcan
  rw [pushed_of_supervisor hsup]
  exact valueAt_stored (s := s.setSsp (s.ssp - byteCount sz)) hwf hcan hread v

/-- Pushes leave what lies from the stack pointer on, where distinct addresses are distinct bytes. -/
theorem valueAt_pushedAll_above (hsup : s.supervisor = true) (hok : s.cfg.ok = true)
    (hmask : s.cfg.addressMask = 0xFFFFFFFF) {vs : List (Size × Long)} {sz : Size}
    (hlen : sz.bytes + pushBytes vs ≤ 2 ^ 32) (hread : s.canRead s.ssp sz 5 = true) :
    (s.pushedAll vs).valueAt s.ssp sz 5 = s.valueAt s.ssp sz 5 := by
  obtain ⟨k, hk⟩ := exists_translate_of_canRead hread
  rw [valueAt_of_translate (by rwa [pushedAll_cfg]), valueAt_of_translate hk]
  rw [← pushedAll_ssp_add hsup vs] at hk
  refine Memory.readSized_congr fun b hlo hhi => read_pushedAll_other hsup fun x hx k' hk' => ?_
  have hdisj := translate_cells_disjoint hok hmask hk' hk (pushSlots_end_le hx) (by omega)
  omega

/-- What was pushed reads back in its slot, cut to its size, where distinct addresses are distinct bytes (R16, R232). -/
theorem valueAt_pushedAll (hsup : s.supervisor = true) (hinv : s.Inv) (hmask : s.cfg.addressMask = 0xFFFFFFFF)
    {vs : List (Size × Long)} (hcan : s.canPushAll vs = true) (hlen : pushBytes vs ≤ 2 ^ 32) {x : Nat × Size × Long}
    (hx : x ∈ pushSlots vs) (hread : s.canRead ((s.pushedAll vs).ssp + BitVec.ofNat 32 x.1) x.2.1 5 = true) :
    (s.pushedAll vs).valueAt ((s.pushedAll vs).ssp + BitVec.ofNat 32 x.1) x.2.1 5 = truncTo x.2.1 x.2.2 := by
  induction vs generalizing s with
  | nil => cases hx
  | cons v vs ih =>
    have hsup' : (s.pushed v.1 v.2).supervisor = true := by rwa [pushed_supervisor]
    have hcfg : (s.pushed v.1 v.2).cfg = s.cfg := s.pushed_cfg _ _
    simp only [canPushAll, Bool.and_eq_true] at hcan
    obtain ⟨hpush, hcan⟩ := hcan
    rw [pushBytes_cons] at hlen
    rcases List.mem_cons.1 hx with rfl | hx
    · have hslot : (s.pushedAll (v :: vs)).ssp + BitVec.ofNat 32 (pushBytes vs) = (s.pushed v.1 v.2).ssp :=
        pushedAll_ssp_add hsup' vs
      obtain ⟨hok, hwf, -, -⟩ := hinv
      rw [hslot] at hread ⊢
      exact (valueAt_pushedAll_above hsup' (by rwa [hcfg]) (by rwa [hcfg]) hlen (by rwa [canRead_congr hcfg])).trans
        (valueAt_pushed hsup hwf hpush hread)
    · exact ih hsup' (pushed_inv hinv _ _) (by rwa [hcfg]) hcan (by omega) hx (by rwa [canRead_congr hcfg])

end State

end Sys2Proof.Machine
end

section
/-! Taking an exception (60_exceptions.md, R1310–R1312, R1315): the frame, the state the handler starts in, and where an entry that
cannot be completed stops. -/

namespace Sys2Proof.Machine

/-! ### The frame -/

/-- The frame of R1312 by its three shapes. -/
theorem frameOf_eq (m : Model) (vec : Nat) (p : Long) (ia : Option Long) (old : HWord) : frameOf m vec p ia old =
    if m.is000 then [(.l, p), (.w, old.setWidth 32)]
    else if m.is020plus && ia.isSome then
      [(.l, ia.getD 0), (.w, formatWord 2 vec), (.l, p), (.w, old.setWidth 32)]
    else [(.w, formatWord 0 vec), (.l, p), (.w, old.setWidth 32)] := by
  unfold frameOf
  cases m.is000 <;> cases m.is020plus <;> cases ia <;> rfl

/-- The offsets and lengths of the frame's slots, the lowest first (R1312). -/
theorem pushSlots_frameOf (m : Model) (vec : Nat) (p : Long) (ia : Option Long) (old : HWord) :
    ((pushSlots (frameOf m vec p ia old)).map fun x => (x.1, x.2.1.bytes)).reverse =
      if m.is000 then [(0, 2), (2, 4)]
      else if m.is020plus && ia.isSome then [(0, 2), (2, 4), (6, 2), (8, 4)] else [(0, 2), (2, 4), (6, 2)] := by
  rw [frameOf_eq]
  split
  · rfl
  · split <;> rfl

theorem pushBytes_frameOf_le (m : Model) (vec : Nat) (p : Long) (ia : Option Long) (old : HWord) :
    pushBytes (frameOf m vec p ia old) ≤ 12 := by
  rw [frameOf_eq]
  split
  · exact Nat.le_of_ble_eq_true rfl
  · split <;> exact Nat.le_of_ble_eq_true rfl

theorem truncTo_w_ofNat {n : Nat} (h : n < 2 ^ 16) : truncTo .w (BitVec.ofNat 32 n) = BitVec.ofNat 32 n := by
  apply BitVec.eq_of_toNat_eq
  rw [truncTo_w_toNat, BitVec.toNat_setWidth, BitVec.toNat_ofNat]
  omega

theorem truncTo_w_word (w : HWord) : truncTo .w (w.setWidth 32) = w.setWidth 32 := by
  apply BitVec.eq_of_toNat_eq
  rw [truncTo_w_toNat, BitVec.setWidth_setWidth_of_le _ (by decide), BitVec.setWidth_eq]
  exact (BitVec.toNat_setWidth_of_le (by decide)).symm

/-- The format/vector word of a frame of format 0 or 2: the format number and the vector offset share no bit (R1312). -/
theorem truncTo_formatWord {vec : Nat} (h : vec < 256) (format2 : Bool) :
    truncTo .w (formatWord (if format2 then 2 else 0) vec) =
      (if format2 then 0x2000 else 0) ||| BitVec.ofNat 32 (4 * vec) := by
  cases format2 with
  | false =>
    rw [if_neg Bool.false_ne_true, formatWord, truncTo_w_ofNat (by omega), Nat.zero_mul, Nat.zero_add]
    exact BitVec.zero_or.symm
  | true =>
    have hor : 2 ^ 13 * 1 + 4 * vec = 2 ^ 13 * 1 ||| 4 * vec := Nat.two_pow_add_eq_or_of_lt (by omega) 1
    rw [if_pos rfl, formatWord, truncTo_w_ofNat (by omega)]
    exact (congrArg (BitVec.ofNat 32) hor).trans BitVec.ofNat_or

/-- Where each value of a frame lies (R1312). -/
theorem mem_pushSlots_frameOf (m : Model) (vec : Nat) (p : Long) (ia : Option Long) (old : HWord) :
    (0, .w, old.setWidth 32) ∈ pushSlots (frameOf m vec p ia old) ∧
    (2, .l, p) ∈ pushSlots (frameOf m vec p ia old) ∧
    (m.is000 = false →
      (6, .w, formatWord (if m.is020plus && ia.isSome then 2 else 0) vec) ∈ pushSlots (frameOf m vec p ia old)) ∧
    ((m.is020plus && ia.isSome) = true → (8, .l, ia.getD 0) ∈ pushSlots (frameOf m vec p ia old)) := by
  have hmodel : m.is000 = true → m.is020plus = false := by cases m <;> decide
  rw [frameOf_eq]
  cases h0 : m.is000 with
  | true => simp [pushSlots, pushBytes, Size.bytes, hmodel h0]
  | false => cases m.is020plus && ia.isSome <;> simp [pushSlots, pushBytes, Size.bytes]

/-! ### The state a handler starts in -/

namespace State

variable {s : State}

theorem supervisor_of_handlerSr (s : State) : (s.setSrBits s.handlerSr).supervisor = true := by
  have himpl : (srImplemented s.model).getLsbD 13 = true := by cases s.model <;> rfl
  simp [supervisor, handlerSr, himpl]

theorem traced_of_handlerSr (s : State) : (s.setSrBits s.handlerSr).traced = false := by
  simp [traced, handlerSr]

theorem handlerSr_getLsbD_of_flag (s : State) {k : Nat} (hk : k < 5) : s.handlerSr.getLsbD k = s.sr.getLsbD k := by
  have himpl := srImplemented_low s.model k hk
  interval_cases k <;> simp_all [handlerSr]

theorem ccr_of_handlerSr (s : State) : (s.setSrBits s.handlerSr).ccr = s.ccr := by
  simp (disch := decide) only [ccr, setSrBits_sr, handlerSr_getLsbD_of_flag]

theorem inv_of_handlerSr (hinv : s.Inv) : (s.setSrBits s.handlerSr).Inv := by
  obtain ⟨hok, hwf, hin, -⟩ := hinv
  exact ⟨hok, hwf, hin, s.setSrBits_srLegal _⟩

/-- An entry changes SR, SSP, memory and the pc, and nothing else (R1310). -/
theorem exists_entered_eq (s : State) (vec : Nat) (p : Long) (ia : Option Long) :
    ∃ m h, s.entered vec p ia = (((s.setSrBits s.handlerSr).setSsp
      (s.ssp - BitVec.ofNat 32 (pushBytes (frameOf s.model vec p ia s.sr)))).setMem m).setPc h := by
  obtain ⟨m, hm⟩ := exists_pushedAll_eq s.supervisor_of_handlerSr (frameOf s.model vec p ia s.sr)
  exact ⟨m, _, congrArg (setPc · _) hm⟩

/-- The address registers below A7 do not depend on the mode (R102, R105). -/
theorem readA_congr_of_ne_seven {s t : State} {n : Reg} (hn : n ≠ 7) (ha : t.a = s.a) : t.readA n = s.readA n := by
  have hlt : n.val < 7 := by
    have hne : n.val ≠ 7 := fun h => hn (Fin.ext h)
    omega
  rw [readA, readA, dif_pos hlt, dif_pos hlt, ha]

theorem canPushAll_of_canEnter {vec : Nat} {p : Long} {ia : Option Long} (h : s.canEnter vec p ia = true) :
    (s.setSrBits s.handlerSr).canPushAll (frameOf s.model vec p ia s.sr) = true := by
  simp only [canEnter, Bool.and_eq_true] at h
  obtain ⟨⟨-, hpush⟩, -⟩ := h
  exact hpush

/-- An entry leaves every byte outside the frame's slots. -/
theorem read_entered_other {vec : Nat} {p : Long} {ia : Option Long} {c : Nat}
    (hc : ∀ x ∈ pushSlots (frameOf s.model vec p ia s.sr), ∀ k,
      translate s.cfg ((s.entered vec p ia).ssp + BitVec.ofNat 32 x.1) x.2.1.bytes 5 .write = some k →
      c < k ∨ k + x.2.1.bytes ≤ c) :
    Memory.read (s.entered vec p ia).mem c = Memory.read s.mem c :=
  read_pushedAll_other s.supervisor_of_handlerSr hc

/-- What an entry pushed reads back in its slot, where distinct addresses are distinct bytes (R1312). -/
theorem valueAt_entered (hinv : s.Inv) (hmask : s.cfg.addressMask = 0xFFFFFFFF) {vec : Nat} {p : Long} {ia : Option Long}
    (hEnter : s.canEnter vec p ia = true) {x : Nat × Size × Long} (hx : x ∈ pushSlots (frameOf s.model vec p ia s.sr))
    (hread : (s.entered vec p ia).canRead ((s.entered vec p ia).ssp + BitVec.ofNat 32 x.1) x.2.1 5 = true) :
    (s.entered vec p ia).valueAt ((s.entered vec p ia).ssp + BitVec.ofNat 32 x.1) x.2.1 5 = truncTo x.2.1 x.2.2 := by
  have hcfg : (s.entered vec p ia).cfg = (s.setSrBits s.handlerSr).cfg := pushedAll_cfg _ _
  have hlen : pushBytes (frameOf s.model vec p ia s.sr) ≤ 2 ^ 32 := (pushBytes_frameOf_le ..).trans (by decide)
  exact valueAt_pushedAll s.supervisor_of_handlerSr (inv_of_handlerSr hinv) hmask (canPushAll_of_canEnter hEnter) hlen hx
    (by rwa [canRead_congr hcfg] at hread)

end State

/-! ### Entries that cannot be completed -/

/-- Pushes, one after the other, as a part of a step. -/
def pushEach : List (Size × Long) → Exec Unit
  | [] => pure ()
  | v :: vs => do
    push v.1 v.2
    pushEach vs

variable {s : State}

theorem pushFrame_eq_pushEach (vec : Nat) (p : Long) (ia : Option Long) (old : HWord) (s : State) :
    pushFrame vec p ia old s = pushEach (frameOf s.model vec p ia old) s := by
  rw [pushFrame, run_bind_ok (run_getModel s)]
  unfold frameOf
  cases s.model.is000 with
  | true => simp only [if_true, pushEach, bind_pure_unit]
  | false =>
    cases s.model.is020plus <;> cases ia <;> simp only [Bool.false_eq_true, if_false, pushEach, bind_pure_unit]

/-- A push that cannot be made halts (R1315). -/
theorem push_failed {sz : Size} (v : Long) (h : s.canPush sz = false) :
    ∃ t, push sz v s = .error .ended t ∧ t.condition = .halted := by
  refine ⟨(s.writeA 7 (s.readA 7 - byteCount sz)).setCondition .halted, ?_, rfl⟩
  rw [run_push]
  refine memWriteFC_failed v ?_
  rw [State.canWrite_congr (s := s) (by simp)]
  exact h

theorem pushEach_failed {vs : List (Size × Long)} (h : s.canPushAll vs = false) :
    ∃ t, pushEach vs s = .error .ended t ∧ t.condition = .halted := by
  induction vs generalizing s with
  | nil => cases h
  | cons v vs ih =>
    rw [pushEach]
    cases hpush : s.canPush v.1 with
    | false =>
      obtain ⟨t, ht, hhalted⟩ := push_failed v.2 hpush
      exact ⟨t, run_bind_error ht, hhalted⟩
    | true =>
      rw [State.canPushAll, hpush, Bool.true_and] at h
      rw [run_bind_ok (push_eq v.2 hpush)]
      exact ih h

/-- An entry that a push or the read of the vector stops is halted (R1315). -/
theorem enterException_failed {vec : Nat} {p : Long} {ia : Option Long} (hmode : s.cfg.exceptionMode = .vector)
    (hsr : srRefused s.model ((s.sr ||| 0x2000) &&& 0x3FFF) = false) (h : s.canEnter vec p ia = false) :
    ∃ t, enterException vec p ia s = .error .ended t ∧ t.condition = .halted := by
  have hset : setSR ((s.sr ||| 0x2000) &&& 0x3FFF) s = .ok () (s.setSrBits s.handlerSr) := by
    rw [run_setSR, hsr]; rfl
  rw [run_enterException_vector _ _ _ _ hmode, run_bind_ok hset]
  cases hpush : (s.setSrBits s.handlerSr).canPushAll (frameOf s.model vec p ia s.sr) with
  | false =>
    obtain ⟨t, ht, hhalted⟩ := pushEach_failed hpush
    exact ⟨t, run_bind_error ((pushFrame_eq_pushEach vec p ia s.sr _).trans ht), hhalted⟩
  | true =>
    have hread : s.canRead (s.vectorAddress vec) .l 5 = false := by
      rw [State.canEnter, hmode, hsr, hpush] at h
      simpa using h
    have hframed : pushFrame vec p ia s.sr (s.setSrBits s.handlerSr) = .ok () (s.framed vec p ia) := pushFrame_eq hpush
    rw [run_bind_ok hframed, run_bind_ok (run_look _ _)]
    refine ⟨_, run_bind_error (memReadFC_failed ?_), State.setCondition_condition _ _⟩
    obtain ⟨m, hm⟩ := State.exists_pushedAll_eq s.supervisor_of_handlerSr (frameOf s.model vec p ia s.sr)
    rwa [State.framed, hm]

/-- Settles O16: an entry changes SR, SSP, memory and the pc only (`exists_entered_eq`); in memory it changes the slots of the
frame's pushes, each of which keeps its value under the later ones (`valueAt_pushedAll`); and it halts where a push or the
read of the vector fails. -/
theorem takingAnException : Obligations.TakingAnException := by
  intro s vec p ia
  refine ⟨run_enterException_halt vec p ia s, fun hEnter => ⟨s.entered vec p ia, ?_⟩, ?_, enterException_failed⟩
  · intro layout size
    have hlayout : layout = _ := (pushSlots_frameOf s.model vec p ia s.sr).symm
    have hsize : size = pushBytes (frameOf s.model vec p ia s.sr) := by rw [pushBytes_eq_sum, ← hlayout]
    have hmem : ∀ x ∈ pushSlots (frameOf s.model vec p ia s.sr), (x.1, x.2.1.bytes) ∈ layout := fun x hx => by
      rw [hlayout]
      exact List.mem_reverse.2 (List.mem_map_of_mem hx)
    have hpc : (s.entered vec p ia).pc =
        (s.entered vec p ia).valueAt (s.vectorBase + BitVec.ofNat 32 (4 * vec)) .l 5 := rfl
    obtain ⟨m, h, ht⟩ := s.exists_entered_eq vec p ia
    refine ⟨enterException_eq hEnter, ?_⟩
    rw [hsize]
    rw [ht] at hpc ⊢
    refine ⟨rfl, s.supervisor_of_handlerSr, s.traced_of_handlerSr, s.ccr_of_handlerSr, hpc, rfl, rfl, fun _ => rfl,
      fun _ hn => State.readA_congr_of_ne_seven hn rfl, ⟨rfl, rfl, rfl, rfl⟩, rfl, rfl, fun c hc => ?_⟩
    rw [← ht] at hc ⊢
    exact State.read_entered_other fun x hx => hc (x.1, x.2.1.bytes) (hmem x hx)
  · intro hinv hmask hvec hEnter t format2 off sz v hmem h000 hformat2 hread
    obtain ⟨hsr, hpc, hformat, hia⟩ := mem_pushSlots_frameOf s.model vec p ia s.sr
    simp only [List.mem_cons, Prod.mk.injEq, List.not_mem_nil, or_false] at hmem
    rcases hmem with ⟨rfl, rfl, rfl⟩ | ⟨rfl, rfl, rfl⟩ | ⟨rfl, rfl, rfl⟩ | ⟨rfl, rfl, rfl⟩
    · exact (State.valueAt_entered hinv hmask hEnter hsr hread).trans (truncTo_w_word _)
    · exact (State.valueAt_entered hinv hmask hEnter hpc hread).trans (truncTo_l _)
    · refine (State.valueAt_entered hinv hmask hEnter (hformat (h000 rfl)) hread).trans ?_
      exact truncTo_formatWord hvec format2
    · exact (State.valueAt_entered hinv hmask hEnter (hia (hformat2 rfl)) hread).trans (truncTo_l _)

end Sys2Proof.Machine
end

section
/-! The reset sequence (70_reset_and_hazards.md, R1410): the status and VBR are written whatever memory holds; then the two
vectors are read, and SSP and the pc are written only after both reads. -/

namespace Sys2Proof.Machine

/-- The state in which the reset sequence reads its vectors: the status is written, and VBR where the model has one. -/
def State.beforeResetVectors (s : State) : State :=
  if s.model.is010plus then s.resetStatus.setVbr 0 else s.resetStatus

/-- What the reset sequence does from its first read on. -/
def loadResetVectors : Exec Unit := do
  let sp ← memReadFC 0 .l 6
  let p ← memReadFC 4 .l 6
  update fun s => s.setSsp sp
  putPc p
  update fun s => s.setCondition .normal

variable {s : State}

theorem step_of_startup (h : s.condition = .startup) : step s = finish resetSequence s := by
  rw [step, h]

/-- The two writes before the reads cannot fail. -/
theorem resetSequence_eq_loadResetVectors (s : State) : resetSequence s = loadResetVectors s.beforeResetVectors := rfl

@[simp] theorem State.beforeResetVectors_cfg (s : State) : s.beforeResetVectors.cfg = s.cfg := by
  unfold State.beforeResetVectors
  split <;> rfl

@[simp] theorem State.beforeResetVectors_mem (s : State) : s.beforeResetVectors.mem = s.mem := by
  unfold State.beforeResetVectors
  split <;> rfl

theorem loadResetVectors_eq (h0 : s.canRead 0 .l 6 = true) (h4 : s.canRead 4 .l 6 = true) :
    loadResetVectors s =
      .ok () (((s.setSsp (s.valueAt 0 .l 6)).setPc (s.valueAt 4 .l 6)).setCondition .normal) := by
  rw [loadResetVectors, run_bind_ok (memReadFC_eq h0), run_bind_ok (memReadFC_eq h4)]
  rfl

/-- A vector that cannot be read ends the sequence before SSP or the pc is written. -/
theorem loadResetVectors_failed (h : (s.canRead 0 .l 6 && s.canRead 4 .l 6) = false) :
    loadResetVectors s = .error .ended (s.setCondition .halted) := by
  rw [loadResetVectors]
  cases h0 : s.canRead 0 .l 6 with
  | false => exact run_bind_error (memReadFC_failed h0)
  | true =>
    have h4 : s.canRead 4 .l 6 = false := by rwa [h0, Bool.true_and] at h
    rw [run_bind_ok (memReadFC_eq h0)]
    exact run_bind_error (memReadFC_failed h4)

/-- The status and VBR decide neither whether a vector can be read nor its value, so the sequence's outcome follows from the
state it starts in. -/
theorem finish_resetSequence (s : State) : finish resetSequence s = .next (
    if s.canRead 0 .l 6 && s.canRead 4 .l 6 then
      ((s.beforeResetVectors.setSsp (s.valueAt 0 .l 6)).setPc (s.valueAt 4 .l 6)).setCondition .normal
    else s.beforeResetVectors.setCondition .halted) := by
  have hread (a : Long) : s.beforeResetVectors.canRead a .l 6 = s.canRead a .l 6 :=
    State.canRead_congr s.beforeResetVectors_cfg a .l 6
  have hvalue (a : Long) : s.beforeResetVectors.valueAt a .l 6 = s.valueAt a .l 6 :=
    State.valueAt_congr s.beforeResetVectors_cfg s.beforeResetVectors_mem a .l 6
  have hseq := resetSequence_eq_loadResetVectors s
  rw [← hread, ← hread, ← hvalue, ← hvalue]
  split
  next h =>
    obtain ⟨h0, h4⟩ := Bool.and_eq_true_iff.1 h
    exact finish_ok (hseq.trans (loadResetVectors_eq h0 h4))
  next h => exact finish_ended (hseq.trans (loadResetVectors_failed (Bool.eq_false_iff.2 h)))

/-- Settles O7: the first step is the reset sequence, which halts before it writes SSP or the pc where a vector cannot be
read. -/
theorem resetSequenceLoadsTheVectors : Obligations.ResetSequenceLoadsTheVectors := fun s h =>
  (step_of_startup h).trans (finish_resetSequence s)

end Sys2Proof.Machine
end

section
/-! What one instruction's meaning may change (10_state.md, 60_exceptions.md): every handler, run from any state, keeps each
relation between states that the updates it is made of keep. The statements about all instructions at once are this one case
split, read at different relations. -/

namespace Sys2Proof.Machine

/-- What a relation must keep beyond the small updates for an instruction to keep it: the registers, flags and stores of the
instruction's own rule are permitted, and the larger updates it makes are kept. -/
structure Allows (i : Instr) (p : Permit) (P : State → State → Prop) : Prop where
  writes     : ∀ k ∈ i.writes, p.reg k
  flags      : i.keepsFlags = false → p.flags
  stores     : i.storesNothing = false → p.stores
  setSr      : i.writesSr = true → ∀ v, Always P (setSR v)
  setUsp     : i.writesUsp = true → ∀ s v, P s (s.setUsp v)
  enters     : i.traps = true → ∀ vec a ia, Always P (enterException vec a ia)
  control    : (∃ rn c, i = .movecTo rn c) →
    ∀ s, (∀ v, P s (s.setVbr v)) ∧ (∀ v, P s (s.setSfc v)) ∧ ∀ v, P s (s.setDfc v)
  stops      : (∃ v, i = .stop v) → ∀ s, P s (s.setCondition .stopped)
  breakpoint : ∀ v, i = .bkpt v → ∀ s, P s (s.setCondition (.breakpoint v))

/-- The meaning of an instruction is a handler that keeps `P`, in the frame of a meaning (R300). -/
def Keeps (P : State → State → Prop) (i : Instr) : Prop :=
  ∃ handler, (∀ s, exec i s = runInstr i handler s) ∧ ∀ ia, Always P (handler ia)

namespace Allows

variable {i : Instr} {p : Permit} {P : State → State → Prop} (A : Allows i p P)
include A

theorem data {n : Reg} (h : dataReg n ∈ i.writes) : p.data n := Always.reg_data (A.writes _ h)

theorem addr {n : Reg} (h : addrReg n ∈ i.writes) : p.addr n := Always.reg_addr (A.writes _ h)

end Allows

namespace Always

variable {α : Type} {p : Permit} {P : State → State → Prop}

/-! ### Handlers that take an exception, for a relation that the entry as a whole keeps -/

theorem raise_of_enters (H : Ordinary p P) (he : ∀ vec a ia, Always P (Machine.enterException vec a ia)) (vec : Nat)
    (a : Long) (ia : Option Long) : Always P (Machine.raise vec a ia : Exec α) :=
  bind H (he _ _ _) fun _ => stopWith H _

theorem finishDivision (H : Ordinary p P) (he : ∀ vec a ia, Always P (Machine.enterException vec a ia)) (hf : p.flags)
    {dn : Reg} (hd : p.data dn) (ia : Long) (r : Division) : Always P (Machine.finishDivision ia dn r) := by
  cases r with
  | zeroDivide =>
    exact bind H (drawBit H) fun _ => bind H (drawBit H) fun _ => bind H (drawBit H) fun _ => bind H (getFlags H) fun _ =>
      bind H (putFlags H _ hf) fun _ => bind H (getPc H) fun _ => raise_of_enters H he _ _ _
  | overflow =>
    exact bind H (drawBit H) fun _ => bind H (drawBit H) fun _ => bind H (getFlags H) fun _ => putFlags H _ hf
  | result q m => exact bind H (putD H _ _ _ hd) fun _ => bind H (getFlags H) fun _ => putFlags H _ hf

theorem returnFromException_of_enters (H : Ordinary p P) (he : ∀ vec a ia, Always P (Machine.enterException vec a ia))
    (hs : ∀ v, Always P (Machine.setSR v)) (h7 : p.addr 7) (ia : Long) : Always P (Machine.returnFromException ia) := by
  have hrestore (size : Long) : Always P (Machine.restoreFrame size) :=
    bind H (getA H _) fun _ => bind H (memRead H _ _) fun _ => bind H (memRead H _ _) fun _ =>
      bind H (putA H _ _ h7) fun _ => bind H (hs _) fun _ => putPc H _
  refine bind H (getModel H) fun m => ?_
  split
  · exact hrestore _
  · refine bind H (getA H _) fun _ => bind H (memRead H _ _) fun _ => ?_
    split
    · exact hrestore _
    · exact refuse H _
    · exact raise_of_enters H he _ _ _

/-- Every instruction keeps every relation that allows it. -/
theorem keeps_of_allows (H : Ordinary p P) {i : Instr} (A : Allows i p P) : Keeps P i := by
  have head {k : RegR} {ks : List RegR} (h : i.writes = k :: ks) : k ∈ i.writes := h ▸ List.mem_cons_self ..
  have tail {k : RegR} {ks : List RegR} (h : i.writes = k :: ks) : ∀ k ∈ ks, p.reg k := fun k' hk =>
    A.writes k' (h ▸ List.mem_cons_of_mem _ hk)
  have second {k k' : RegR} {ks : List RegR} (h : i.writes = k :: k' :: ks) : k' ∈ i.writes :=
    h ▸ List.mem_cons_of_mem _ (List.mem_cons_self ..)
  cases i <;> refine ⟨_, fun s => by rw [exec]; rfl, fun ia => ?_⟩
  case oriToCcr | andiToCcr | eoriToCcr => exact fun s => H.setCCR s _ (A.flags rfl)
  case oriToSr | andiToSr | eoriToSr => exact bind H (look H _) fun _ => A.setSr rfl _
  case cas2W | cas2L | cmpiPcRel | cmp2Chk2 | rtmCallm | cas | linkL | extbL | mulL | divL | tst020 | chkL | trapcc | pack
  | unpk | bitField => exact refuse H _
  case movepToReg =>
    exact bind H (getA H _) fun _ => bind H (movepRead H _ _ _) fun _ =>
      putD H _ _ _ (A.data (head rfl))
  case movepToMem =>
    exact bind H (getA H _) fun _ => bind H (getD H _ _) fun _ =>
      movepWrite H (A.stores rfl) _ _ _
  case btstDn => exact bind H (getD H _ _) fun _ => bitTest H (A.flags rfl) _ _ _ A.writes
  case btstImm => exact bitTest H (A.flags rfl) _ _ _ A.writes
  case bchgDn | bclrDn | bsetDn =>
    exact bind H (getD H _ _) fun _ => bitUpdate H (A.flags rfl) _ _ _ _ A.writes A.stores
  case bchgImm | bclrImm | bsetImm => exact bitUpdate H (A.flags rfl) _ _ _ _ A.writes A.stores
  case ori | andi | eori => exact logicToEA H (A.flags rfl) _ _ _ _ _ A.writes A.stores
  case subi | addi => exact arithToEA H (A.flags rfl) _ _ _ _ _ A.writes A.stores
  case cmpi =>
    exact bind H (readEA H _ _ _ A.writes) fun _ => bind H (getFlags H) fun _ =>
      putFlags H _ (A.flags rfl)
  case moves sz toMem rn ea =>
    cases toMem with
    | true => exact movesStore H (A.stores rfl) _ _ _ _ A.writes
    | false => exact movesLoad H _ _ _ _ (tail rfl) (A.writes _ (head rfl))
  case movea =>
    exact bind H (readEA H _ _ _ (tail rfl)) fun _ => putA H _ _ (A.addr (head rfl))
  case move =>
    exact bind H (readEA H _ _ _ fun k hk => A.writes k (List.mem_append_left _ hk)) fun _ =>
      bind H (writeEA H _ _ _ _ (fun k hk => A.writes k (List.mem_append_right _ hk)) A.stores) fun _ =>
        bind H (getFlags H) fun _ => putFlags H _ (A.flags rfl)
  case illegal | lineA => exact raise_of_enters H (A.enters rfl) _ _ _
  case reset | nop => exact pure H _
  case stop v => exact bind H (A.setSr rfl _) fun _ s => A.stops ⟨v, rfl⟩ s
  case rte =>
    exact returnFromException_of_enters H (A.enters rfl) (A.setSr rfl) (A.addr (n := 7) (head rfl)) _
  case rtd =>
    exact bind H (pop H (A.addr (n := 7) (head rfl)) _) fun _ => bind H (getA H _) fun _ =>
      bind H (putA H _ _ (A.addr (n := 7) (head rfl))) fun _ => putPc H _
  case rts => exact bind H (pop H (A.addr (n := 7) (head rfl)) _) fun _ => putPc H _
  case trapv =>
    refine bind H (getFlags H) fun _ => bind H (getPc H) fun _ => ?_
    split
    · exact raise_of_enters H (A.enters rfl) _ _ _
    · exact pure H _
  case rtr =>
    exact bind H (pop H (A.addr (n := 7) (head rfl)) _) fun _ =>
      bind H (fun s => H.setCCR s _ (A.flags rfl)) fun _ => bind H (pop H (A.addr (n := 7) (head rfl)) _) fun _ => putPc H _
  case movecFrom c rn =>
    refine bind H (getModel H) fun _ => ?_
    have hwrite (v : Long) := putR H rn v (A.writes _ (head rfl))
    split
    · exact fun s => hwrite _ s
    · exact fun s => hwrite _ s
    · exact fun s => hwrite _ s
    · exact fun s => hwrite _ s
    · exact refuse H _
    · exact raise_of_enters H (A.enters rfl) _ _ _
  case movecTo rn c =>
    have hcontrol := A.control ⟨rn, c, rfl⟩
    refine bind H (getModel H) fun _ => bind H (getR H _) fun _ => ?_
    split
    · exact fun s => (hcontrol s).2.1 _
    · exact fun s => (hcontrol s).2.2 _
    · exact fun s => A.setUsp rfl s _
    · exact fun s => (hcontrol s).1 _
    · exact refuse H _
    · exact raise_of_enters H (A.enters rfl) _ _ _
  case trap => exact bind H (getPc H) fun _ => raise_of_enters H (A.enters rfl) _ _ _
  case link an d =>
    have han := A.addr (n := an) (head rfl)
    have h7 := A.addr (n := 7) (second rfl)
    exact bind H (getA H _) fun _ => bind H (push H h7 (A.stores rfl) _ _) fun _ =>
      bind H (getA H _) fun _ => bind H (putA H _ _ han) fun _ => bind H (getA H _) fun _ => putA H _ _ h7
  case unlk an =>
    have han := A.addr (n := an) (head rfl)
    have h7 := A.addr (n := 7) (second rfl)
    exact bind H (getA H _) fun _ => bind H (putA H _ _ h7) fun _ =>
      bind H (pop H h7 _) fun _ => putA H _ _ han
  case moveToUsp => exact bind H (getA H _) fun _ s => A.setUsp rfl s _
  case moveFromUsp => exact bind H (look H _) fun _ => putA H _ _ (A.addr (head rfl))
  case jsr =>
    exact bind H (addrOf H _ _) fun _ =>
      callTo H (A.addr (n := 7) (head rfl)) (A.stores rfl) _
  case jmp => exact bind H (addrOf H _ _) fun _ => putPc H _
  case swap | extW | extL =>
    exact bind H (getD H _ _) fun _ => bind H (putD H _ _ _ (A.data (head rfl))) fun _ =>
      bind H (getFlags H) fun _ => putFlags H _ (A.flags rfl)
  case bkpt v => exact fun s => A.breakpoint v rfl s
  case nbcd =>
    exact withDestination H _ _ _ A.writes A.stores fun _ hl => bind H (readLoc H _ _) fun _ =>
      bcdTo H (A.flags rfl) _ _ _ _ hl
  case pea =>
    exact bind H (addrOf H _ _) fun _ =>
      push H (A.addr (n := 7) (head rfl)) (A.stores rfl) _ _
  case movemToMem sz mask ea =>
    split
    · exact movemToPredec H (A.stores rfl) _ _ _ (A.addr (head rfl))
    · exact bind H (addrOf H _ _) fun _ => movemStoreUp H (A.stores rfl) _ _ _ _
  case movemToReg sz ea mask =>
    have hlist : ∀ k ∈ maskRegs mask, p.reg k := fun k hk => A.writes k (List.mem_append_left _ hk)
    split
    · exact movemFromPostinc H _ _ _ (A.addr (List.mem_append_right _ (List.mem_singleton.2 rfl))) hlist
    · exact movemFromControl H _ _ _ _ hlist
  case moveFromSr | moveFromCcr =>
    exact withDestination H _ _ _ A.writes A.stores fun _ hl => bind H (look H _) fun _ =>
      writeLoc H _ _ _ hl
  case negx | neg => exact arithUnary H (A.flags rfl) _ _ _ _ A.writes A.stores
  case clr =>
    exact bind H (writeEA H _ _ _ _ A.writes A.stores) fun _ => bind H (getFlags H) fun _ =>
      putFlags H _ (A.flags rfl)
  case moveToCcr =>
    exact bind H (readEA H _ _ _ A.writes) fun _ s => H.setCCR s _ (A.flags rfl)
  case moveToSr => exact bind H (readEA H _ _ _ A.writes) fun _ => A.setSr rfl _
  case notEa =>
    exact withDestination H _ _ _ A.writes A.stores fun _ hl => bind H (readLoc H _ _) fun _ =>
      writeThenLogic H (A.flags rfl) _ _ _ hl
  case tas =>
    exact withDestination H _ _ _ A.writes A.stores fun _ hl => bind H (readLoc H _ _) fun _ =>
      bind H (getFlags H) fun _ => bind H (putFlags H _ (A.flags rfl)) fun _ => writeLoc H _ _ _ hl
  case tst =>
    exact bind H (readEA H _ _ _ A.writes) fun _ => bind H (getFlags H) fun _ =>
      putFlags H _ (A.flags rfl)
  case chkW =>
    have hraise (f : Ccr) (pc : Long) : Always P (do Machine.putFlags f; Machine.raise 6 pc (some ia) : Exec Unit) :=
      bind H (putFlags H _ (A.flags rfl)) fun _ => raise_of_enters H (A.enters rfl) _ _ _
    refine bind H (readEA H _ _ _ A.writes) fun _ => bind H (getD H _ _) fun _ => bind H (drawBit H) fun _ =>
      bind H (drawBit H) fun _ => bind H (drawBit H) fun _ => bind H (getFlags H) fun _ => bind H (getPc H) fun _ => ?_
    split
    · exact hraise _ _
    · split
      · exact hraise _ _
      · exact bind H (drawBit H) fun _ => putFlags H _ (A.flags rfl)
  case lea => exact bind H (addrOf H _ _) fun _ => putA H _ _ (A.addr (head rfl))
  case dbcc =>
    refine bind H (getFlags H) fun _ => ?_
    split
    · exact pure H _
    · refine bind H (getD H _ _) fun _ => bind H (putD H _ _ _ (A.data (head rfl))) fun _ => ?_
      split
      · exact pure H _
      · exact putPc H _
  case scc =>
    exact withDestination H _ _ _ A.writes A.stores fun _ hl => bind H (getFlags H) fun _ =>
      writeLoc H _ _ _ hl
  case addq sz q ea | subq sz q ea =>
    cases ea with
    | an n => exact bind H (getA H _) fun _ => putA H _ _ (A.addr (head rfl))
    | dn | ind | postinc | predec | disp | index | absW | absL | pcDisp | pcIndex | imm =>
      exact arithToEA H (A.flags rfl) _ _ _ _ _ A.writes A.stores
  case bccL cond =>
    cases cond with
    | t => exact putPc H _
    | f => exact callTo H (A.addr (n := 7) (head rfl)) (A.stores rfl) _
    | hi | ls | cc | cs | ne | eq | vc | vs | pl | mi | ge | lt | gt | le =>
      exact branchIf H _ _
  case bra => exact putPc H _
  case bsr => exact callTo H (A.addr (n := 7) (head rfl)) (A.stores rfl) _
  case bcc => exact branchIf H _ _
  case moveq =>
    exact bind H (putD H _ _ _ (A.data (head rfl))) fun _ => bind H (getFlags H) fun _ =>
      putFlags H _ (A.flags rfl)
  case sbcdReg | abcdReg => exact bcdReg H (A.flags rfl) _ _ _ (A.data (head rfl))
  case sbcdMem | abcdMem =>
    exact bcdMem H (A.flags rfl) (A.stores rfl) _ _ _ (A.addr (head rfl)) (A.addr (second rfl))
  case divuW | divsW =>
    exact bind H (readEA H _ _ _ (tail rfl)) fun _ => bind H (getD H _ _) fun _ =>
      finishDivision H (A.enters rfl) (A.flags rfl) (A.data (head rfl)) _ _
  case muluW | mulsW =>
    exact multiply H (A.flags rfl) _ _ _ _ (tail rfl) (A.data (head rfl))
  case orEaDn | andEaDn =>
    exact logicToDn H (A.flags rfl) _ _ _ _ _ (tail rfl) (A.data (head rfl))
  case orDnEa | andDnEa | eorDnEa =>
    exact logicFromDn H (A.flags rfl) _ _ _ _ _ A.writes A.stores
  case subxReg | addxReg => exact extendedReg H (A.flags rfl) _ _ _ _ (A.data (head rfl))
  case subxMem | addxMem =>
    exact extendedMem H (A.flags rfl) (A.stores rfl) _ _ _ _ (A.addr (head rfl)) (A.addr (second rfl))
  case suba | adda =>
    exact bind H (readEA H _ _ _ (tail rfl)) fun _ => bind H (getA H _) fun _ =>
      putA H _ _ (A.addr (head rfl))
  case subEaDn | addEaDn =>
    exact arithToDn H (A.flags rfl) _ _ _ _ _ (tail rfl) (A.data (head rfl))
  case subDnEa | addDnEa => exact arithFromDn H (A.flags rfl) _ _ _ _ _ A.writes A.stores
  case cmpm =>
    exact bind H (postincrement H _ _ (A.addr (head rfl))) fun _ =>
      bind H (readMem H _ _ _) fun _ => bind H (postincrement H _ _ (A.addr (second rfl))) fun _ =>
        bind H (readMem H _ _ _) fun _ => bind H (getFlags H) fun _ => putFlags H _ (A.flags rfl)
  case cmpa =>
    exact bind H (readEA H _ _ _ A.writes) fun _ => bind H (getA H _) fun _ =>
      bind H (getFlags H) fun _ => putFlags H _ (A.flags rfl)
  case cmpEaDn =>
    exact bind H (readEA H _ _ _ A.writes) fun _ => bind H (getD H _ _) fun _ =>
      bind H (getFlags H) fun _ => putFlags H _ (A.flags rfl)
  case exgDD =>
    exact bind H (getD H _ _) fun _ => bind H (getD H _ _) fun _ =>
      bind H (putD H _ _ _ (A.data (head rfl))) fun _ => putD H _ _ _ (A.data (second rfl))
  case exgAA =>
    exact bind H (getA H _) fun _ => bind H (getA H _) fun _ =>
      bind H (putA H _ _ (A.addr (head rfl))) fun _ => putA H _ _ (A.addr (second rfl))
  case exgDA =>
    exact bind H (getD H _ _) fun _ => bind H (getA H _) fun _ =>
      bind H (putD H _ _ _ (A.data (head rfl))) fun _ => putA H _ _ (A.addr (second rfl))
  case asrMem | aslMem | lsrMem | lslMem | roxrMem | roxlMem | rorMem | rolMem =>
    exact shiftMem H (A.flags rfl) _ _ _ A.writes A.stores
  case asrReg | aslReg | lsrReg | lslReg | roxrReg | roxlReg | rorReg | rolReg =>
    exact shiftReg H (A.flags rfl) _ _ _ _ (A.data (head rfl))
  case lineF =>
    refine bind H (getModel H) fun _ => ?_
    split
    · exact refuse H _
    · exact raise_of_enters H (A.enters rfl) _ _ _

end Always

end Sys2Proof.Machine
end

section
/-! What a whole step may change: the fetch and the small updates keep every ordinary relation, and an instruction keeps what
`Allows` asks of it, so each statement about all instructions is one relation with its few special updates. -/

namespace Sys2Proof.Machine

namespace Always

variable {p : Permit} {P : State → State → Prop} {i : Instr} {s t : State}

/-- What a meaning keeps: the exceptions of its frame are kept, and the handler runs where it is no privilege violation. -/
theorem exec (H : Ordinary p P) (he : ∀ vec a ia, Always P (Machine.enterException vec a ia))
    (hk : privilegeViolation i s = false → Keeps P i) (h : Machine.exec i s = .next t) : P s t := by
  have hraise (vec : Nat) (a : Long) (ia : Option Long) {u : State} (h : Machine.finish (Machine.raise vec a ia) u = .next t) :
      P u t := (raise_of_enters H he vec a ia).finish h
  have hpast (u : State) (pc : Long) (h : P (u.setPc pc) t) : P u t := H.trans _ _ _ (H.setPc u pc) h
  obtain ⟨handler, hexec⟩ := exec_eq_runInstr i
  cases hrow : rowVerdict s.model i with
  | illegal => exact hpast _ _ (hraise 4 _ _ (by rwa [hexec, runInstr_illegal hrow] at h))
  | refused => rw [hexec, runInstr_refused hrow] at h; cases h
  | entry =>
    cases hviol : privilegeViolation i s with
    | true => exact hpast _ _ (hraise 8 _ _ (by rwa [exec_of_violation hrow hviol] at h))
    | false =>
      obtain ⟨run, hrun, hkeeps⟩ := hk hviol
      exact runInstr_entry H hkeeps hrow hviol (by rwa [hrun] at h)

/-- What a meaning that runs its handler keeps. -/
theorem exec_entry (H : Ordinary p P) (A : Allows i p P) (hrow : rowVerdict s.model i = .entry)
    (hviol : privilegeViolation i s = false) (h : Machine.exec i s = .next t) : P s t := by
  obtain ⟨run, hrun, hkeeps⟩ := keeps_of_allows H A
  exact runInstr_entry H hkeeps hrow hviol (by rwa [hrun] at h)

/-- What a step in condition normal keeps: the fetch is a sequence of small updates. -/
theorem executeOne (H : Ordinary p P) (he : ∀ vec a ia, Always P (Machine.enterException vec a ia))
    (hk : ∀ i, privilegeViolation i s = false → Keeps P i) (h : Machine.executeOne s = .next t) : P s t := by
  unfold Machine.executeOne at h
  split at h
  · cases h
  · split at h
    · exact exec H he (hk _) h
    · rename_i u hfetch
      exact H.trans _ _ _ ((fetchInstr H).ok hfetch) ((raise_of_enters H he 4 _ _).finish h)
    · rename_i r u hfetch
      exact H.trans _ _ _ ((fetchInstr H).error hfetch) ((stopWith H r).finish h)

/-- A relation that the whole-register writes of the SR and USP and the entry of an exception keep too is kept by every
instruction. -/
theorem keeps_of_all (H : Ordinary .all P) (hs : ∀ v, Always P (Machine.setSR v)) (hu : ∀ s v, P s (s.setUsp v))
    (hc : (∃ rn c, i = .movecTo rn c) → ∀ s, (∀ v, P s (s.setVbr v)) ∧ (∀ v, P s (s.setSfc v)) ∧ ∀ v, P s (s.setDfc v))
    (hstop : ∀ s, P s (s.setCondition .stopped)) (hb : ∀ s n, P s (s.setCondition (.breakpoint n))) : Keeps P i :=
  keeps_of_allows H {
    writes := fun _ _ => all_reg _, flags := fun _ => trivial, stores := fun _ => trivial, setSr := fun _ => hs
    setUsp := fun _ => hu, enters := fun _ _ _ _ => enterException H hs _ _ _, control := hc, stops := fun _ => hstop
    breakpoint := fun n _ s => hb s n }

end Always

/-! ### Step, case by case on the condition (R1402) -/

theorem step_of_normal {s : State} (h : s.condition = .normal) : step s = executeOne s := by rw [step, h]

/-- A step that is neither a reset nor an instruction changes nothing. -/
theorem eq_of_step_waiting {s t : State} (h1 : s.condition ≠ .startup) (h2 : s.condition ≠ .normal) (h : step s = .next t) :
    t = s := by
  rw [step_of_waiting h1 h2] at h
  exact (Host.Outcome.next.inj h).symm

/-! ### The frame statements -/

/-- The instructions of R117's last row neither write the whole SR nor take an exception. -/
theorem writesSr_or_traps_keepsFlags (i : Instr) : ((i.writesSr || i.traps) && i.keepsFlags) = false := by
  cases i <;> rfl

/-- Settles O54: the small updates touch the listed registers only. -/
theorem onlyNamedRegistersChange : Obligations.OnlyNamedRegistersChange := by
  intro i s t htraps hsr husp hrow hviol h
  have allows : Allows i (.registers i.writes) fun s t => s.sameRegistersBut i.writes t ∧ t.supervisor = s.supervisor := {
    writes := fun _ => Permit.registers_reg, flags := fun _ => trivial, stores := fun _ => trivial
    setSr := fun h => by simp [hsr] at h
    setUsp := fun h => by simp [husp] at h
    enters := fun h => by simp [htraps] at h
    control := by rintro ⟨_, _, rfl⟩; cases husp
    stops := by rintro ⟨_, rfl⟩; cases hsr
    breakpoint := fun _ _ _ => ⟨⟨fun _ _ => rfl, rfl⟩, rfl⟩ }
  exact (Always.exec_entry (ordinary_registers i.writes) allows hrow hviol h).1

/-- Nothing but a write of the SR or of a flag touches the SR. -/
theorem allows_sr {i : Instr} (h : i.keepsFlags = true) :
    Allows i { Permit.all with flags := False } fun s t => t.sr = s.sr := by
  have hnone : (i.writesSr || i.traps) = false := by simpa [h] using writesSr_or_traps_keepsFlags i
  obtain ⟨hsr, htraps⟩ := Bool.or_eq_false_iff.1 hnone
  exact {
    writes := fun k _ => Always.all_reg k, flags := fun hf => by simp [h] at hf, stores := fun _ => trivial
    setSr := fun h => by simp [hsr] at h
    setUsp := fun _ _ _ => rfl
    enters := fun h => by simp [htraps] at h
    control := fun _ _ => ⟨fun _ => rfl, fun _ => rfl, fun _ => rfl⟩
    stops := fun _ _ => rfl
    breakpoint := fun _ _ _ => rfl }

/-- An instruction that takes no exception keeps the upper byte of the SR, unless it writes the whole SR. -/
theorem allows_systemByte {i : Instr} (htraps : i.traps = false) (hsr : i.writesSr = false) :
    Allows i .all fun s t => t.systemByte = s.systemByte where
  writes := fun k _ => Always.all_reg k
  flags := fun _ => trivial
  stores := fun _ => trivial
  setSr := fun h => by simp [hsr] at h
  setUsp := fun _ _ _ => rfl
  enters := fun h => by simp [htraps] at h
  control := fun _ _ => ⟨fun _ => rfl, fun _ => rfl, fun _ => rfl⟩
  stops := fun _ _ => rfl
  breakpoint := fun _ _ _ => rfl

/-- SetSR writes the SR and nothing else. -/
theorem always_sameControl_setSR (v : HWord) : Always State.sameControl (setSR v) := by
  intro s
  rw [run_setSR]
  split
  · exact ordinary_control.refl s
  · exact ⟨rfl, rfl, rfl, rfl⟩

/-- Every instruction but MOVEC to a control register keeps the configuration and the control registers. -/
theorem keeps_sameControl {i : Instr} (h : ∀ rn c, i ≠ .movecTo rn c) : Keeps State.sameControl i :=
  Always.keeps_of_all ordinary_control always_sameControl_setSR (fun _ _ => ⟨rfl, rfl, rfl, rfl⟩)
    (fun ⟨rn, c, hi⟩ => absurd hi (h rn c)) (fun _ => ⟨rfl, rfl, rfl, rfl⟩) fun _ _ => ⟨rfl, rfl, rfl, rfl⟩

theorem sameControl_of_exec {i : Instr} {s t : State} (hi : ∀ rn c, i ≠ .movecTo rn c) (h : exec i s = .next t) :
    s.sameControl t :=
  Always.exec ordinary_control (Always.enterException ordinary_control always_sameControl_setSR)
    (fun _ => keeps_sameControl hi) h

/-- Settles O55: the SR by the relation above, its upper byte and the control registers by theirs. -/
theorem srAndControlRegistersStay : Obligations.SrAndControlRegistersStay := by
  intro i s t hrow hviol h
  refine ⟨fun hk => Always.exec_entry ordinary_sr (allows_sr hk) hrow hviol h, fun htraps hsr => ⟨?_, ?_⟩⟩
  · exact Always.exec_entry ordinary_systemByte (allows_systemByte htraps hsr) hrow hviol h
  · refine sameControl_of_exec (fun rn c hi => ?_) h
    rw [hi] at htraps
    cases htraps

/-- Settles O56: nothing but a store touches memory. -/
theorem formsThatStoreNothing : Obligations.FormsThatStoreNothing := by
  intro i s t hnone htraps hrow hviol h c
  have allows : Allows i { Permit.all with stores := False } fun s t => t.mem = s.mem := {
    writes := fun k _ => Always.all_reg k, flags := fun _ => trivial, stores := fun h => by simp [hnone] at h
    setSr := fun _ v s => by
      rw [run_setSR]
      split <;> rfl
    setUsp := fun _ _ _ => rfl
    enters := fun h => by simp [htraps] at h
    control := fun _ _ => ⟨fun _ => rfl, fun _ => rfl, fun _ => rfl⟩
    stops := fun _ _ => rfl
    breakpoint := fun _ _ _ => rfl }
  rw [Always.exec_entry ordinary_memory allows hrow hviol h]

/-! ### The configuration and the control registers -/

/-- The configuration is kept. -/
theorem ordinary_cfg : Ordinary .all fun s t => t.cfg = s.cfg where
  refl := fun _ => rfl
  trans := fun _ _ _ h1 h2 => h2.trans h1
  writeD := fun _ _ _ _ => rfl
  writeA := fun s n v _ => by simp
  setPc := fun _ _ => rfl
  setFlags := fun _ _ _ => rfl
  setCCR := fun _ _ _ => rfl
  countDraw := fun _ => rfl
  halted := fun _ => rfl
  store := fun _ _ _ _ _ _ _ _ => rfl

/-- The reset sequence keeps the configuration. -/
theorem cfg_of_reset {s t : State} (h : finish resetSequence s = .next t) : t.cfg = s.cfg := by
  rw [finish_resetSequence] at h
  cases h
  split
  · exact s.beforeResetVectors_cfg
  · exact s.beforeResetVectors_cfg

/-- Settles O13: no update writes the configuration; of the instructions only MOVEC has a control register to write. -/
theorem onlyMovecWritesControlRegisters : Obligations.OnlyMovecWritesControlRegisters := by
  refine ⟨fun s t h => ?_, fun i s t hi h => sameControl_of_exec hi h⟩
  have hsr (v : HWord) : Always (fun s t : State => t.cfg = s.cfg) (setSR v) := fun s => (always_sameControl_setSR v s).1
  by_cases h1 : s.condition = .startup
  · exact cfg_of_reset (by rwa [step_of_startup h1] at h)
  · by_cases h2 : s.condition = .normal
    · rw [step_of_normal h2] at h
      exact Always.executeOne ordinary_cfg (Always.enterException ordinary_cfg hsr)
        (fun _ _ => Always.keeps_of_all ordinary_cfg hsr (fun _ _ => rfl)
          (fun _ _ => ⟨fun _ => rfl, fun _ => rfl, fun _ => rfl⟩) (fun _ => rfl) fun _ _ => rfl) h
    · rw [eq_of_step_waiting h1 h2 h]

/-! ### The condition (R141) -/

/-- The condition an instruction leaves: as it was, or one of those an instruction sets. -/
def conditionFollows (s t : State) : Prop :=
  t.condition = s.condition ∨ t.condition = .halted ∨ t.condition = .stopped ∨ ∃ n, t.condition = .breakpoint n

theorem ordinary_conditionFollows : Ordinary .all conditionFollows where
  refl := fun _ => .inl rfl
  trans := fun _ _ _ h1 h2 => by
    rcases h2 with h2 | h2
    · rwa [conditionFollows, h2]
    · exact .inr h2
  writeD := fun _ _ _ _ => .inl rfl
  writeA := fun s n v _ => .inl (by simp)
  setPc := fun _ _ => .inl rfl
  setFlags := fun _ _ _ => .inl rfl
  setCCR := fun _ _ _ => .inl rfl
  countDraw := fun _ => .inl rfl
  halted := fun _ => .inr (.inl rfl)
  store := fun _ _ _ _ _ _ _ _ => .inl rfl

theorem always_conditionFollows_setSR (v : HWord) : Always conditionFollows (setSR v) := by
  intro s
  rw [run_setSR]
  split
  · exact .inl rfl
  · exact .inl rfl

theorem conditionFollows_of_executeOne {s t : State} (h : executeOne s = .next t) : conditionFollows s t :=
  Always.executeOne ordinary_conditionFollows
    (Always.enterException ordinary_conditionFollows always_conditionFollows_setSR)
    (fun _ _ => Always.keeps_of_all ordinary_conditionFollows always_conditionFollows_setSR (fun _ _ => .inl rfl)
      (fun _ _ => ⟨fun _ => .inl rfl, fun _ => .inl rfl, fun _ => .inl rfl⟩) (fun _ => .inr (.inr (.inl rfl)))
      fun _ n => .inr (.inr (.inr ⟨n, rfl⟩))) h

theorem condition_of_reset {s t : State} (h : finish resetSequence s = .next t) :
    t.condition = .normal ∨ t.condition = .halted := by
  rw [finish_resetSequence] at h
  cases h
  split
  · exact .inl rfl
  · exact .inr rfl

/-- Settles O12: the reset sequence ends normal or halted, an instruction as `conditionFollows` says, and else nothing runs. -/
theorem conditionTransitions : Obligations.ConditionTransitions := by
  refine fun s t h => ⟨fun hs => ?_, fun hn => ?_, fun h1 h2 => ?_⟩
  · exact condition_of_reset (by rwa [step_of_startup hs] at h)
  · rw [← hn]
    exact conditionFollows_of_executeOne (by rwa [step_of_normal hn] at h)
  · rw [eq_of_step_waiting h1 h2 h]

/-! ### The invariant -/

theorem inv_of_executeOne {s t : State} (h : executeOne s = .next t) : s.Inv → t.Inv :=
  Always.executeOne ordinary_inv (Always.enterException ordinary_inv always_inv_setSR)
    (fun _ _ => Always.keeps_of_all ordinary_inv always_inv_setSR (fun _ _ h => h)
      (fun _ _ => ⟨fun _ h => h, fun _ h => h, fun _ h => h⟩) (fun _ h => h) fun _ _ h => h) h

/-- The reset sequence writes no unimplemented bit of the SR (R1410). -/
theorem inv_of_reset {s t : State} (hinv : s.Inv) (h : finish resetSequence s = .next t) : t.Inv := by
  rw [finish_resetSequence] at h
  cases h
  obtain ⟨hok, hwf, hin, hsr⟩ := hinv
  have hreset : s.beforeResetVectors.Inv := by
    unfold State.beforeResetVectors
    split
    · exact ⟨hok, hwf, hin, s.resetStatus_srLegal hsr⟩
    · exact ⟨hok, hwf, hin, s.resetStatus_srLegal hsr⟩
  split
  · exact hreset
  · exact hreset

theorem inv_of_step {s t : State} (hinv : s.Inv) (h : step s = .next t) : t.Inv := by
  by_cases h1 : s.condition = .startup
  · exact inv_of_reset hinv (by rwa [step_of_startup h1] at h)
  · by_cases h2 : s.condition = .normal
    · exact inv_of_executeOne (by rwa [step_of_normal h2] at h) hinv
    · rwa [eq_of_step_waiting h1 h2 h]

/-- A write lists the cell it writes and no other new one. -/
theorem Memory.fst_mem_of_mem_write {m : Memory} {a : Nat} {b : Byte} {c : Nat × Byte} (hc : c ∈ Memory.write m a b) :
    c.1 = a ∨ c ∈ m := by
  have hcons {m : Memory} (hc : c ∈ Memory.cons a b m) : c.1 = a ∨ c ∈ m := by
    unfold Memory.cons at hc
    split at hc
    · exact .inr hc
    · rcases List.mem_cons.1 hc with rfl | hc
      · exact .inl rfl
      · exact .inr hc
  induction m with
  | nil => exact hcons hc
  | cons x rest ih =>
    simp only [Memory.write] at hc
    split at hc
    · exact hcons hc
    · split at hc
      · exact (hcons hc).imp_right (List.mem_cons_of_mem _)
      · rcases List.mem_cons.1 hc with rfl | hc
        · exact .inr (List.mem_cons_self ..)
        · exact (ih hc).imp_right (List.mem_cons_of_mem _)

/-- The host writes only bytes that a region has (R1404). -/
theorem cellExists_of_hostCell {s : State} {k off c : Nat} (hok : s.cfg.ok = true) (h : hostCell s k off = some c) :
    cellExists s.cfg c = true := by
  unfold hostCell at h
  split at h
  · rename_i r hr
    split at h
    · rename_i hoff
      cases h
      have hr' : r.ok = true := List.all_eq_true.1 hok r (List.mem_of_getElem? hr)
      simp only [Region.ok, Bool.and_eq_true, decide_eq_true_eq] at hr'
      have hq : cellOf k (r.start + off) / 2 ^ 32 = k := by rw [cellOf]; omega
      have hm : cellOf k (r.start + off) % 2 ^ 32 = r.start + off := by rw [cellOf]; omega
      simp only [cellExists, hq, hr, hm, Bool.and_eq_true, decide_eq_true_eq]
      omega
    · cases h
  · cases h

theorem inv_hostWrite {s : State} (hinv : s.Inv) (k off : Nat) (v : Byte) : (hostWrite s k off v).Inv := by
  unfold hostWrite
  split
  · rename_i c hc
    obtain ⟨hok, hwf, hin, hsr⟩ := hinv
    refine ⟨hok, Memory.write_wf _ _ hwf, List.all_eq_true.2 fun x hx => ?_, hsr⟩
    rcases Memory.fst_mem_of_mem_write hx with hx | hx
    · show cellExists s.cfg x.1 = true
      rw [hx]
      exact cellExists_of_hostCell hok hc
    · exact List.all_eq_true.1 hin x hx
  · exact hinv

/-- Settles O10: a step by its condition; waking and resuming write the condition only, the host only bytes of a region. -/
theorem stepKeepsTheInvariant : Obligations.StepKeepsTheInvariant := by
  refine fun s t hinv => ⟨inv_of_step hinv, ?_, ?_, inv_hostWrite hinv⟩
  · rw [wake_eq]
    split
    · exact hinv
    · exact hinv
  · unfold resume
    split
    · exact hinv
    all_goals exact hinv

/-! ### User mode (R105, R111, R1340) -/

/-- Supervisor mode is not left; and user mode, unless it is left, keeps the upper byte of the SR and the supervisor stack
pointer. -/
def confined (s t : State) : Prop :=
  (s.supervisor = true → t.supervisor = true) ∧
    (s.supervisor = false → t.supervisor = true ∨ t.systemByte = s.systemByte ∧ t.ssp = s.ssp)

theorem confined_of_kept {s t : State} (hm : t.supervisor = s.supervisor) (hb : t.systemByte = s.systemByte)
    (hsp : s.supervisor = false → t.ssp = s.ssp) : confined s t :=
  ⟨fun h => hm.trans h, fun h => .inr ⟨hb, hsp h⟩⟩

theorem confined_of_supervisor {s t : State} (h : t.supervisor = true) : confined s t := ⟨fun _ => h, fun _ => .inl h⟩

theorem ordinary_confined : Ordinary .all confined where
  refl := fun _ => confined_of_kept rfl rfl fun _ => rfl
  trans := fun s t u h1 h2 => by
    refine ⟨fun h => h2.1 (h1.1 h), fun h => ?_⟩
    cases ht : t.supervisor with
    | true => exact .inl (h2.1 ht)
    | false =>
      obtain ⟨hb1, hsp1⟩ := (h1.2 h).resolve_left (by simp [ht])
      exact (h2.2 ht).imp_right fun ⟨hb2, hsp2⟩ => ⟨hb2.trans hb1, hsp2.trans hsp1⟩
  writeD := fun _ _ _ _ => confined_of_kept rfl rfl fun _ => rfl
  writeA := fun s n v h => confined_of_kept (by simp) (ordinary_systemByte.writeA s n v h) (s.writeA_inactive n v).2
  setPc := fun _ _ => confined_of_kept rfl rfl fun _ => rfl
  setFlags := fun s f _ => confined_of_kept (by simp) (by simp) fun _ => rfl
  setCCR := fun s v _ => confined_of_kept (by simp) (by simp) fun _ => rfl
  countDraw := fun _ => confined_of_kept rfl rfl fun _ => rfl
  halted := fun _ => confined_of_kept rfl rfl fun _ => rfl
  store := fun _ _ _ _ _ _ _ _ => confined_of_kept rfl rfl fun _ => rfl

/-- The SR that an entry sets has S set (R1310). -/
theorem always_confined_setSR_handler (v : HWord) : Always confined (setSR ((v ||| 0x2000) &&& 0x3FFF)) := by
  intro s
  rw [run_setSR]
  split
  · exact ordinary_confined.refl s
  · have himpl : (srImplemented s.model).getLsbD 13 = true := by cases s.model <;> rfl
    exact confined_of_supervisor (by simp [endState, State.supervisor, himpl])

theorem always_confined_enterException (vec : Nat) (a : Long) (ia : Option Long) :
    Always confined (enterException vec a ia) := by
  refine Always.bind ordinary_confined (Always.look ordinary_confined _) fun mode => ?_
  split
  · exact Always.halt ordinary_confined
  · exact Always.bind ordinary_confined (Always.look ordinary_confined _) fun old =>
      Always.bind ordinary_confined (always_confined_setSR_handler old) fun _ =>
      Always.bind ordinary_confined (Always.pushFrame ordinary_confined _ _ _ _) fun _ =>
      Always.bind ordinary_confined (Always.look ordinary_confined _) fun _ =>
      Always.bind ordinary_confined (Always.memReadFC ordinary_confined _ _ _) fun _ => Always.putPc ordinary_confined _

/-- The instructions that write the whole SR, and MOVEC, are privileged on every model (R1341). -/
theorem violation_of_user {i : Instr} {s : State} (hi : i.writesSr = true ∨ ∃ rn c, i = .movecTo rn c)
    (hu : s.supervisor = false) : privilegeViolation i s = true := by
  rcases hi with hi | ⟨rn, c, rfl⟩
  · cases i
    case oriToSr | andiToSr | eoriToSr | moveToSr | stop | rte => exact congrArg Bool.not hu
    all_goals cases hi
  · exact congrArg Bool.not hu

/-- An instruction that user mode may run does not write the whole SR. -/
theorem keeps_confined {i : Instr} (hsr : i.writesSr = false) : Keeps confined i :=
  Always.keeps_of_allows ordinary_confined {
    writes := fun _ _ => Always.all_reg _, flags := fun _ => trivial, stores := fun _ => trivial
    setSr := fun h => by simp [hsr] at h
    setUsp := fun _ _ _ => confined_of_kept rfl rfl fun _ => rfl
    enters := fun _ => always_confined_enterException
    control := fun _ _ => ⟨fun _ => confined_of_kept rfl rfl fun _ => rfl, fun _ => confined_of_kept rfl rfl fun _ => rfl,
      fun _ => confined_of_kept rfl rfl fun _ => rfl⟩
    stops := fun _ _ => confined_of_kept rfl rfl fun _ => rfl
    breakpoint := fun _ _ _ => confined_of_kept rfl rfl fun _ => rfl }

/-- Settles O14: what could write the supervisor state is privileged, so that in user mode it is an exception's entry. -/
theorem userModeIsConfined : Obligations.UserModeIsConfined := by
  intro s t hn hu h
  rw [step_of_normal hn] at h
  have hallowed {i : Instr} (hviol : privilegeViolation i s = false) :
      i.writesSr = false ∧ ∀ rn c, i ≠ .movecTo rn c := by
    have hnot := mt (violation_of_user (i := i) · hu) (by simp [hviol])
    exact ⟨by simpa using fun hi => hnot (.inl hi), fun rn c hi => hnot (.inr ⟨rn, c, hi⟩)⟩
  refine ⟨?_, fun ht => ?_⟩
  · exact Always.executeOne ordinary_control (Always.enterException ordinary_control always_sameControl_setSR)
      (fun _ hviol => keeps_sameControl (hallowed hviol).2) h
  · have hconf : confined s t := Always.executeOne ordinary_confined always_confined_enterException
      (fun _ hviol => keeps_confined (hallowed hviol).1) h
    exact (hconf.2 hu).resolve_left (by simp [ht])

end Sys2Proof.Machine
end

section
/-! The six fields of an opcode word (30_encoding.md, R311): each reads back, and together they are the word. -/

namespace Sys2Proof

section

variable (line : BitVec 4) (r : BitVec 3) (b : Bool) (ss : BitVec 2) (mode reg : BitVec 3)

theorem opWord_line : (opWord line r b ss mode reg).extractLsb' 12 4 = line := by
  rw [opWord]
  iterate 4 rw [BitVec.extractLsb'_append_eq_of_le (by decide)]
  exact BitVec.extractLsb'_append_eq_left

theorem opWord_r : (opWord line r b ss mode reg).extractLsb' 9 3 = r := by
  rw [opWord]
  iterate 4 rw [BitVec.extractLsb'_append_eq_of_le (by decide)]
  exact BitVec.extractLsb'_append_eq_right

theorem opWord_b : (opWord line r b ss mode reg).getLsbD 8 = b := by
  rw [opWord]
  simp only [BitVec.getLsbD_append, BitVec.getLsbD_ofBool]
  rfl

theorem opWord_ss : (opWord line r b ss mode reg).extractLsb' 6 2 = ss := by
  rw [opWord]
  iterate 2 rw [BitVec.extractLsb'_append_eq_of_le (by decide)]
  exact BitVec.extractLsb'_append_eq_right

theorem opWord_mode : (opWord line r b ss mode reg).extractLsb' 3 3 = mode := by
  rw [opWord, BitVec.extractLsb'_append_eq_of_le (by decide)]
  exact BitVec.extractLsb'_append_eq_right

theorem opWord_reg : (opWord line r b ss mode reg).extractLsb' 0 3 = reg :=
  BitVec.extractLsb'_append_eq_right

end

theorem opWord_fields (ir : HWord) : opWord (ir.extractLsb' 12 4) (ir.extractLsb' 9 3) (ir.getLsbD 8) (ir.extractLsb' 6 2)
    (ir.extractLsb' 3 3) (ir.extractLsb' 0 3) = ir := by
  have hcc : ir.extractLsb' 9 3 ++ BitVec.ofBool (ir.getLsbD 8) = ir.extractLsb' 8 4 := Machine.field_cc ir
  have hline : ir.extractLsb' 12 4 ++ ir.extractLsb' 9 3 ++ BitVec.ofBool (ir.getLsbD 8) = ir.extractLsb' 8 8 := by
    rw [BitVec.append_assoc, hcc]
    exact BitVec.extractLsb'_append_extractLsb'_eq_extractLsb' rfl
  rw [opWord, hline]
  rw [BitVec.extractLsb'_append_extractLsb'_eq_extractLsb' (start₂ := 8) (start₁ := 6) (len₁ := 2) rfl,
    BitVec.extractLsb'_append_extractLsb'_eq_extractLsb' (start₂ := 6) (start₁ := 3) (len₁ := 3) rfl,
    BitVec.extractLsb'_append_extractLsb'_eq_extractLsb' (start₂ := 3) (start₁ := 0) (len₁ := 3) rfl]
  exact BitVec.extractLsb'_eq_self

end Sys2Proof
end

section
/-! Encoding and decoding (30_encoding.md, R303, R313, R410–R415): an instruction decodes from the fields of its opcode word; an
operand's mode, register and extension words give the operand back, and so does the row that holds it. -/

namespace Sys2Proof

/-! ### What decodes from the fields of a word -/

/-- An instruction whose row is active decodes from the fields of its opcode word. -/
theorem decode_opWord {m : Model} {line : BitVec 4} {r : BitVec 3} {b : Bool} {ss : BitVec 2} {mode reg : BitVec 3}
    {ws : List HWord} {i : Instr} (h : decodeFields m line r b ss mode reg ws = some i)
    (ha : i.columns.1.contain m = true) : decode m (opWord line r b ss mode reg) ws = .ok i := by
  rw [decode, opWord_line, opWord_r, opWord_b, opWord_ss, opWord_mode, opWord_reg, h]
  exact if_pos ha

/-- The same for a word of the BRANCH format (R311). -/
theorem decode_branchWord {m : Model} {cc : BitVec 4} {d : BitVec 8} {ws : List HWord} {i : Instr}
    (h : decodeLine6 m cc d ws = some i) (ha : i.columns.1.contain m = true) : decode m (branchWord cc d) ws = .ok i := by
  have hline : (branchWord cc d).extractLsb' 12 4 = 6 := by
    rw [branchWord, BitVec.extractLsb'_append_eq_of_le (by decide)]
    exact BitVec.extractLsb'_append_eq_left
  have hcc : (branchWord cc d).extractLsb' 8 4 = cc := by
    rw [branchWord, BitVec.extractLsb'_append_eq_of_le (by decide)]
    exact BitVec.extractLsb'_append_eq_right
  have hd : (branchWord cc d).extractLsb' 0 8 = d := BitVec.extractLsb'_append_eq_right
  have hfields : ∀ r b ss mode reg, decodeFields m 6 r b ss mode reg ws =
    decodeLine6 m (r ++ BitVec.ofBool b) (ss ++ mode ++ reg) ws := fun _ _ _ _ _ => rfl
  rw [decode, hline, hfields, Machine.field_cc, Machine.field_disp, hcc, hd, h]
  exact if_pos ha

/-- The bits of a word of format LINE below its line. -/
theorem lineWord_bits (line : BitVec 4) (bits : BitVec 12) :
    (lineWord line bits).extractLsb' 9 3 ++ BitVec.ofBool ((lineWord line bits).getLsbD 8) ++ (lineWord line bits).extractLsb' 6 2 ++
      (lineWord line bits).extractLsb' 3 3 ++ (lineWord line bits).extractLsb' 0 3 = bits := by
  rw [Machine.field_cc, BitVec.extractLsb'_append_extractLsb'_eq_extractLsb' (start₂ := 8) (start₁ := 6) (len₁ := 2) rfl,
    BitVec.extractLsb'_append_extractLsb'_eq_extractLsb' (start₂ := 6) (start₁ := 3) (len₁ := 3) rfl,
    BitVec.extractLsb'_append_extractLsb'_eq_extractLsb' (start₂ := 3) (start₁ := 0) (len₁ := 3) rfl]
  exact BitVec.extractLsb'_append_eq_right

theorem lineWord_line (line : BitVec 4) (bits : BitVec 12) : (lineWord line bits).extractLsb' 12 4 = line :=
  (BitVec.extractLsb'_append_eq_of_le (by decide)).trans BitVec.extractLsb'_eq_self

theorem decode_lineWord_ten (m : Model) (bits : BitVec 12) (ws : List HWord) :
    decode m (lineWord 10 bits) ws = .ok (.lineA bits) := by
  rw [decode, lineWord_line]
  show (if _ then Except.ok (Instr.lineA _) else _) = _
  rw [lineWord_bits]
  rfl

theorem decode_lineWord_fifteen (m : Model) (bits : BitVec 12) (ws : List HWord) :
    decode m (lineWord 15 bits) ws = .ok (.lineF bits) := by
  rw [decode, lineWord_line]
  show (if _ then Except.ok (Instr.lineF _) else _) = _
  rw [lineWord_bits]
  rfl

/-! ### Fields that are written and read back -/

@[simp] theorem toFin_field (n : Reg) : (Reg.field n).toFin = n := rfl

@[simp] theorem decodeSize_code (sz : Size) : decodeSize sz.code = some sz := by cases sz <;> rfl

@[simp] theorem ofBit_bit (sz : SizeWL) : SizeWL.ofBit sz.bit = sz := by cases sz <;> rfl

@[simp] theorem ofCode_high_low (c : Cond) : Cond.ofCode (c.high ++ BitVec.ofBool c.low) = c := by cases c <;> rfl

theorem extract_append_six (v : BitVec 6) : v.extractLsb' 3 3 ++ v.extractLsb' 0 3 = v :=
  (BitVec.extractLsb'_append_extractLsb'_eq_extractLsb' rfl).trans BitVec.extractLsb'_eq_self

theorem extract_append_eight (v : BitVec 8) : v.extractLsb' 6 2 ++ v.extractLsb' 3 3 ++ v.extractLsb' 0 3 = v := by
  rw [BitVec.extractLsb'_append_extractLsb'_eq_extractLsb' (start₂ := 6) (start₁ := 3) (len₁ := 3) rfl,
    BitVec.extractLsb'_append_extractLsb'_eq_extractLsb' (start₂ := 3) (start₁ := 0) (len₁ := 3) rfl]
  exact BitVec.extractLsb'_eq_self

theorem extract_append_long (v : Long) : v.extractLsb' 16 16 ++ v.extractLsb' 0 16 = v :=
  (BitVec.extractLsb'_append_extractLsb'_eq_extractLsb' rfl).trans BitVec.extractLsb'_eq_self

/-- The mode of MOVE's destination is split into bit 8 and bits 7–6 (R311). -/
theorem ofBool_append_mode (v : BitVec 3) : BitVec.ofBool (v.getLsbD 2) ++ v.extractLsb' 0 2 = v := by
  decide +revert

@[simp] theorem extWord_cons_zero (w : HWord) (ws : List HWord) : extWord (w :: ws) 0 = w := rfl
@[simp] theorem extWord_cons_one (w w' : HWord) (ws : List HWord) : extWord (w :: w' :: ws) 1 = w' := rfl

@[simp] theorem extract_low_byte (v : BitVec 8) : (0#8 ++ v : HWord).extractLsb' 0 8 = v := BitVec.extractLsb'_append_eq_right

/-! ### Operands -/

/-- The fields of an indexed mode's extension word (R415). -/
theorem ofWord_word (x : IndexExt) : IndexExt.ofWord x.word = x := by
  have hxn : x.word.extractLsb' 12 4 = BitVec.ofFin x.xn := by
    rw [IndexExt.word]
    iterate 3 rw [BitVec.extractLsb'_append_eq_of_le (by decide)]
    exact BitVec.extractLsb'_append_eq_left
  have hlong : x.word.getLsbD 11 = x.long := by
    simp only [IndexExt.word, BitVec.getLsbD_append, BitVec.getLsbD_ofBool]
    rfl
  have hscale : x.word.extractLsb' 9 2 = x.scale := by
    rw [IndexExt.word]
    iterate 2 rw [BitVec.extractLsb'_append_eq_of_le (by decide)]
    exact BitVec.extractLsb'_append_eq_right
  have hfull : x.word.getLsbD 8 = x.full := by
    simp only [IndexExt.word, BitVec.getLsbD_append, BitVec.getLsbD_ofBool]
    rfl
  have hdisp : x.word.extractLsb' 0 8 = x.disp := BitVec.extractLsb'_append_eq_right
  rw [IndexExt.ofWord, hxn, hlong, hscale, hfull, hdisp]

/-- The words of an immediate give the immediate back (R313). -/
@[simp] theorem decodeImm_exts (v : Imm) (ws : List HWord) : decodeImm v.size (v.exts ++ ws) = v := by
  cases v with
  | b v => exact congrArg Imm.b (extract_low_byte v)
  | w v => rfl
  | l v => exact congrArg Imm.l (extract_append_long v)

/-- An operand's mode, register and words give the operand back (R410, R412). -/
theorem decodeEA_exts {e : EA} {sz : Size} (h : e.sizeOk sz = true) (ws : List HWord) :
    decodeEA e.mode e.reg sz (e.exts ++ ws) = some e := by
  cases e with
  | dn n | an n | ind n | postinc n | predec n | disp n d | absW a | pcDisp d => rfl
  | index n x => exact congrArg (fun x => some (EA.index n x)) (ofWord_word x)
  | pcIndex x => exact congrArg (fun x => some (EA.pcIndex x)) (ofWord_word x)
  | absL a => exact congrArg (fun a => some (EA.absL a)) (extract_append_long a)
  | imm v =>
    obtain rfl : v.size = sz := by simpa [EA.sizeOk] using h
    exact congrArg (fun v => some (EA.imm v)) (decodeImm_exts v ws)

/-- A row gives back the operand it holds, where the operand fits the row (R303, R411). -/
theorem eaRow_exts {e : EA} {sz : Size} {c : EAClass} (h : e.fits sz c = true) (ws : List HWord) (k : EA → Instr) :
    eaRow c sz e.mode e.reg (e.exts ++ ws) k = some (k e) := by
  obtain ⟨hc, hsz⟩ := Bool.and_eq_true_iff.1 h
  rw [eaRow, decodeEA_exts hsz]
  exact if_pos hc

theorem eaRow_self {e : EA} {sz : Size} {c : EAClass} (h : e.fits sz c = true) (k : EA → Instr) :
    eaRow c sz e.mode e.reg e.exts k = some (k e) := by
  simpa using eaRow_exts h [] k

theorem immRow_self {v : Imm} {e : EA} (h : e.fits v.size .dataAlterable = true) (k : Imm → EA → Instr) :
    immRow v.size e.mode e.reg (v.exts ++ e.exts) k = some (k v e) := by
  rw [immRow, decodeImm_exts, List.drop_left]
  exact eaRow_self h (k v)

end Sys2Proof
end

section
/-! Every well-formed instruction is what its words decode to (R303): no earlier row of the table takes its opcode word. -/

namespace Sys2Proof

/-! ### Modes that a class shuts out -/

theorem mode_ne_zero {e : EA} {sz : Size} {c : EAClass} (h : e.fits sz c = true)
    (hc : c = .memoryAlterable ∨ c = .control ∨ c = .controlAlterableOrPredec := by decide) : e.mode ≠ 0#3 := by
  intro hm
  obtain ⟨n, rfl⟩ : ∃ n, e = .dn n := by
    cases e with
    | dn n => exact ⟨n, rfl⟩
    | _ => simp [EA.mode] at hm
  rcases hc with rfl | rfl | rfl <;> cases h

theorem mode_ne_one {e : EA} {sz : Size} {c : EAClass} (h : e.fits sz c = true)
    (hc : c = .data ∨ c = .dataAlterable ∨ c = .memoryAlterable ∨ c = .control := by decide) : e.mode ≠ 1#3 := by
  intro hm
  obtain ⟨n, rfl⟩ : ∃ n, e = .an n := by
    cases e with
    | an n => exact ⟨n, rfl⟩
    | _ => simp [EA.mode] at hm
  rcases hc with rfl | rfl | rfl | rfl <;> cases h

/-- Of the modes with mode field 7 the alterable ones are the absolute addresses (R410, R411). -/
theorem reg_of_mode_seven {e : EA} {sz : Size} {c : EAClass} (h : e.fits sz c = true)
    (hc : c = .dataAlterable ∨ c = .memoryAlterable) (hm : e.mode = 7) : e.reg = 0 ∨ e.reg = 1 := by
  cases e with
  | absW a => exact .inl rfl
  | absL a => exact .inr rfl
  | pcDisp | pcIndex | imm => rcases hc with rfl | rfl <;> cases h
  | _ => simp [EA.mode] at hm

/-- So no six bits of a PC-relative or immediate mode are those of an alterable operand. -/
theorem ea6_ne {e : EA} {sz : Size} {c : EAClass} (h : e.fits sz c = true) (hc : c = .dataAlterable ∨ c = .memoryAlterable)
    {x : BitVec 6} (hx : x = 0b111010#6 ∨ x = 0b111011#6 ∨ x = 0b111100#6) : e.mode ++ e.reg ≠ x := by
  intro he
  have hsplit : ∀ m r : BitVec 3, (m ++ r = 0b111010#6 ∨ m ++ r = 0b111011#6 ∨ m ++ r = 0b111100#6) →
      m = 7 ∧ r ≠ 0 ∧ r ≠ 1 := by decide
  obtain ⟨hm, h0, h1⟩ := hsplit e.mode e.reg (he ▸ hx)
  rcases reg_of_mode_seven h hc hm with hr | hr
  · exact h0 hr
  · exact h1 hr

/-- So no operand of TST, in its first row, has the six bits of the row of MC68020 (R411). -/
theorem eaRow_tst020 {sz : Size} {ea6 : BitVec 6} (h : tst020Field sz ea6 = true) :
    eaRow .dataAlterable sz (ea6.extractLsb' 3 3) (ea6.extractLsb' 0 3) [] (.tst sz) = none ∧
      eaRow .tst020 sz (ea6.extractLsb' 3 3) (ea6.extractLsb' 0 3) [] (fun _ => .tst020 sz ea6) = some (.tst020 sz ea6) := by
  cases sz <;> decide +revert

/-- The words of an instruction decode to it on every model on which its row takes them (R303). -/
def RoundTrips (i : Instr) : Prop :=
  ∀ m, i.wellFormed = true → i.decodesOn m = true → decode m i.opcode i.exts = .ok i

/-- An instruction whose opcode word has the fields that lead the decoder to its row. -/
theorem RoundTrips.of_fields {i : Instr} {line : BitVec 4} {r : BitVec 3} {b : Bool} {ss : BitVec 2} {mode reg : BitVec 3}
    (hop : i.opcode = opWord line r b ss mode reg)
    (h : i.wellFormed = true → ∀ m, decodeFields m line r b ss mode reg i.exts = some i) : RoundTrips i := by
  intro m hwf hon
  rw [hop]
  exact decode_opWord (h hwf m) (Bool.and_eq_true_iff.1 hon).1

theorem roundTrips_ccr (v : BitVec 8) :
    ∀ i ∈ ([.oriToCcr v, .andiToCcr v, .eoriToCcr v] : List Instr), RoundTrips i := by
  simp only [List.forall_mem_cons, List.not_mem_nil, false_implies, implies_true, and_true]
  refine ⟨.of_fields (by decide : 0x003C = opWord 0 0 false 0 7 4) ?_, .of_fields (by decide : 0x023C = opWord 0 1 false 0 7 4) ?_,
    .of_fields (by decide : 0x0A3C = opWord 0 5 false 0 7 4) ?_⟩ <;>
  simp [decodeFields, decodeLine0, decodeLine0Static, Instr.exts]

theorem roundTrips_sr (v : HWord) :
    ∀ i ∈ ([.oriToSr v, .andiToSr v, .eoriToSr v] : List Instr), RoundTrips i := by
  simp only [List.forall_mem_cons, List.not_mem_nil, false_implies, implies_true, and_true]
  refine ⟨.of_fields (by decide : 0x007C = opWord 0 0 false 1 7 4) ?_, .of_fields (by decide : 0x027C = opWord 0 1 false 1 7 4) ?_,
    .of_fields (by decide : 0x0A7C = opWord 0 5 false 1 7 4) ?_⟩ <;>
  simp [decodeFields, decodeLine0, decodeLine0Static, Instr.exts]

theorem roundTrips_cas2 :
    ∀ i ∈ ([.cas2W, .cas2L] : List Instr), RoundTrips i := by
  simp only [List.forall_mem_cons, List.not_mem_nil, false_implies, implies_true, and_true]
  refine ⟨.of_fields (by decide : 0x0CFC = opWord 0 6 false 3 7 4) ?_, .of_fields (by decide : 0x0EFC = opWord 0 7 false 3 7 4) ?_⟩ <;>
  exact fun _ _ => rfl

theorem roundTrips_movep (sz : SizeWL) (ay dx : Reg) (d : HWord) :
    ∀ i ∈ ([.movepToReg sz ay d dx, .movepToMem sz dx ay d] : List Instr), RoundTrips i := by
  simp only [List.forall_mem_cons, List.not_mem_nil, false_implies, implies_true, and_true]
  cases sz <;> exact ⟨.of_fields rfl fun _ _ => rfl, .of_fields rfl fun _ _ => rfl⟩

theorem roundTrips_bitDn (dn : Reg) (e : EA) :
    ∀ i ∈ ([.btstDn dn e, .bchgDn dn e, .bclrDn dn e, .bsetDn dn e] : List Instr), RoundTrips i := by
  simp only [List.forall_mem_cons, List.not_mem_nil, false_implies, implies_true, and_true]
  refine ⟨.of_fields rfl fun hwf m => ?_, .of_fields rfl fun hwf m => ?_, .of_fields rfl fun hwf m => ?_,
    .of_fields rfl fun hwf m => ?_⟩ <;>
  simp [decodeFields, decodeLine0, Instr.exts, mode_ne_one hwf, eaRow_self hwf]

theorem roundTrips_bitImm (n : BitVec 8) (e : EA) :
    ∀ i ∈ ([.btstImm n e, .bchgImm n e, .bclrImm n e, .bsetImm n e] : List Instr), RoundTrips i := by
  simp only [List.forall_mem_cons, List.not_mem_nil, false_implies, implies_true, and_true]
  refine ⟨.of_fields rfl fun hwf m => ?_, .of_fields rfl fun hwf m => ?_, .of_fields rfl fun hwf m => ?_,
    .of_fields rfl fun hwf m => ?_⟩ <;>
  simp [decodeFields, decodeLine0, decodeLine0Static, Instr.exts, eaRow_self hwf]

theorem roundTrips_imm (v : Imm) (e : EA) :
    ∀ i ∈ ([.ori v e, .andi v e, .subi v e, .addi v e, .eori v e, .cmpi v e] : List Instr), RoundTrips i := by
  simp only [List.forall_mem_cons, List.not_mem_nil, false_implies, implies_true, and_true]
  refine ⟨.of_fields rfl fun hwf m => ?_, .of_fields rfl fun hwf m => ?_, .of_fields rfl fun hwf m => ?_,
    .of_fields rfl fun hwf m => ?_, .of_fields rfl fun hwf m => ?_, .of_fields rfl fun hwf m => ?_⟩ <;>
  simp [decodeFields, decodeLine0, decodeLine0Static, Instr.exts, ea6_ne hwf, immRow_self hwf]

theorem roundTrips_cmpiPcRel (sz : Size) (indexed : Bool) : RoundTrips (.cmpiPcRel sz indexed) := by
  cases sz <;> cases indexed <;> exact .of_fields rfl fun _ _ => rfl

theorem roundTrips_moves (sz : Size) (toMem : Bool) (rn : RegR) (e : EA) : RoundTrips (.moves sz toMem rn e) := by
  have hrn : (movesExt toMem rn).extractLsb' 12 4 = BitVec.ofFin rn := by
    rw [movesExt]
    rw [BitVec.extractLsb'_append_eq_of_le (by decide)]
    exact BitVec.extractLsb'_append_eq_left
  have hdir : (movesExt toMem rn).getLsbD 11 = toMem := by
    simp only [movesExt, BitVec.getLsbD_append, BitVec.getLsbD_ofBool]
    rfl
  refine .of_fields rfl fun hwf m => ?_
  simp only [decodeFields, decodeLine0, decodeLine0Static, Instr.exts, decodeSize_code, extWord_cons_zero, hrn, hdir]
  exact eaRow_self hwf _

/-- Line 0, rows that fill the size code 11 (rows 27–29). -/
theorem roundTrips_line0_rest (size2 : BitVec 2) (ea6 : BitVec 6) :
    ∀ i ∈ ([.cmp2Chk2 size2 ea6, .rtmCallm ea6, .cas size2 ea6] : List Instr), RoundTrips i := by
  simp only [List.forall_mem_cons, List.not_mem_nil, false_implies, implies_true, and_true]
  refine ⟨.of_fields rfl fun hwf m => ?_, .of_fields rfl fun hwf m => ?_, .of_fields rfl fun hwf m => ?_⟩
  · have hsize : size2 = 0 ∨ size2 = 1 ∨ size2 = 2 := by
      have : size2 ≠ 3 := by simpa [Instr.wellFormed] using hwf
      decide +revert
    rcases hsize with rfl | rfl | rfl <;>
    exact congrArg (fun x => some (Instr.cmp2Chk2 _ x)) (extract_append_six ea6)
  · exact congrArg (fun x => some (Instr.rtmCallm x)) (extract_append_six ea6)
  · simp only [Instr.wellFormed, Bool.and_eq_true, bne_iff_ne, Bool.not_eq_true', Bool.and_eq_false_iff, beq_eq_false_iff_ne] at hwf
    obtain ⟨h0, hcas2⟩ := hwf
    have hsize : size2 = 1 ∨ size2 = 2 ∨ size2 = 3 := by
      decide +revert
    rcases hsize with rfl | rfl | rfl
    · exact congrArg (fun x => some (Instr.cas 1 x)) (extract_append_six ea6)
    · simpa [decodeFields, decodeLine0, decodeLine0Static, extract_append_six, decodeSize] using hcas2
    · simpa [decodeFields, decodeLine0, decodeLine0Static, extract_append_six, decodeSize] using hcas2

/-! ### MOVE -/

theorem roundTrips_movea (sz : SizeWL) (e : EA) (an : Reg) : RoundTrips (.movea sz e an) := by
  have hea (hfits : e.fits sz.toSize .all = true) : decodeEA e.mode e.reg sz.toSize e.exts = some e := by
    simpa using decodeEA_exts (Bool.and_eq_true_iff.1 hfits).2 []
  cases sz <;>
  · refine .of_fields rfl fun hwf m => ?_
    have hsrc := hea hwf
    simp only [SizeWL.toSize] at hsrc
    simp [decodeFields, decodeMove, Instr.exts, hsrc]

theorem decodeMove_self {sz : Size} {src dst : EA} (hwf : (Instr.move sz src dst).wellFormed = true) :
    decodeMove sz dst.reg dst.mode src.mode src.reg (src.exts ++ dst.exts) = some (.move sz src dst) := by
  obtain ⟨hsrc, hdst⟩ := Bool.and_eq_true_iff.1 hwf
  obtain ⟨hclass, hsize⟩ := Bool.and_eq_true_iff.1 hsrc
  have hmode : ¬ dst.mode = 1 := mode_ne_one hdst
  rw [decodeMove, decodeEA_exts hsize]
  simp only [hmode, hclass, if_true, if_false, List.drop_left]
  exact eaRow_self hdst _

theorem roundTrips_move (sz : Size) (src dst : EA) : RoundTrips (.move sz src dst) := by
  refine .of_fields rfl fun hwf m => ?_
  have hmove := decodeMove_self hwf
  rw [← ofBool_append_mode dst.mode] at hmove
  cases sz <;> exact hmove

/-! ### Line 4 -/

theorem roundTrips_illegal : RoundTrips .illegal :=
  .of_fields (by decide : 0x4AFC = opWord 4 5 false 3 7 4) fun _ _ => rfl

/-- The control words 0x4E70–0x4E77 (rows 33–42). -/
theorem roundTrips_control (v : HWord) :
    ∀ i ∈ ([.reset, .nop, .stop v, .rte, .rtd v, .rts, .trapv, .rtr] : List Instr), RoundTrips i := by
  simp only [List.forall_mem_cons, List.not_mem_nil, false_implies, implies_true, and_true]
  refine ⟨.of_fields (by decide : 0x4E70 = opWord 4 7 false 1 6 0) ?_, .of_fields (by decide : 0x4E71 = opWord 4 7 false 1 6 1) ?_,
    .of_fields (by decide : 0x4E72 = opWord 4 7 false 1 6 2) ?_, .of_fields (by decide : 0x4E73 = opWord 4 7 false 1 6 3) ?_,
    .of_fields (by decide : 0x4E74 = opWord 4 7 false 1 6 4) ?_, .of_fields (by decide : 0x4E75 = opWord 4 7 false 1 6 5) ?_,
    .of_fields (by decide : 0x4E76 = opWord 4 7 false 1 6 6) ?_, .of_fields (by decide : 0x4E77 = opWord 4 7 false 1 6 7) ?_⟩ <;>
  exact fun _ _ => rfl

theorem roundTrips_movec (c : BitVec 12) (rn : RegR) :
    ∀ i ∈ ([.movecFrom c rn, .movecTo rn c] : List Instr), RoundTrips i := by
  simp only [List.forall_mem_cons, List.not_mem_nil, false_implies, implies_true, and_true]
  have hrn : (movecExt rn c).extractLsb' 12 4 = BitVec.ofFin rn :=
    (BitVec.extractLsb'_append_eq_of_le (by decide)).trans BitVec.extractLsb'_eq_self
  have hc : (movecExt rn c).extractLsb' 0 12 = c := BitVec.extractLsb'_append_eq_right
  refine ⟨.of_fields (by decide : 0x4E7A = opWord 4 7 false 1 7 2) fun _ m => ?_,
    .of_fields (by decide : 0x4E7B = opWord 4 7 false 1 7 3) fun _ m => ?_⟩ <;>
  simp [decodeFields, decodeLine4, decodeControl, Instr.exts, hrn, hc]

theorem roundTrips_trap (v : BitVec 4) : RoundTrips (.trap v) := by
  refine .of_fields rfl fun _ m => ?_
  have hv : decodeControl (0#2 ++ v.extractLsb' 3 1) (v.extractLsb' 0 3) [] = some (.trap v) := by decide +revert
  exact hv

theorem roundTrips_line4_registers (n : Reg) (d : HWord) :
    ∀ i ∈ ([.link n d, .unlk n, .moveToUsp n, .moveFromUsp n, .swap n, .bkpt n, .linkL n, .extW n, .extL n,
      .extbL n] : List Instr), RoundTrips i := by
  simp only [List.forall_mem_cons, List.not_mem_nil, false_implies, implies_true, and_true]
  refine ⟨.of_fields rfl ?_, .of_fields rfl ?_, .of_fields rfl ?_, .of_fields rfl ?_, .of_fields rfl ?_, .of_fields rfl ?_,
    .of_fields rfl ?_, .of_fields rfl ?_, .of_fields rfl ?_, .of_fields rfl ?_⟩ <;>
  exact fun _ _ => rfl

theorem roundTrips_line4_ea6 (n : Reg) (ea6 : BitVec 6) :
    ∀ i ∈ ([.mulL ea6, .divL ea6, .chkL n ea6] : List Instr), RoundTrips i := by
  simp only [List.forall_mem_cons, List.not_mem_nil, false_implies, implies_true, and_true]
  refine ⟨.of_fields rfl fun _ _ => ?_, .of_fields rfl fun _ _ => ?_, .of_fields rfl fun _ _ => ?_⟩
  · exact congrArg (fun x => some (Instr.mulL x)) (extract_append_six ea6)
  · exact congrArg (fun x => some (Instr.divL x)) (extract_append_six ea6)
  · exact congrArg (fun x => some (Instr.chkL n x)) (extract_append_six ea6)

theorem roundTrips_line4_sized (sz : Size) (e : EA) :
    ∀ i ∈ ([.negx sz e, .clr sz e, .neg sz e, .notEa sz e, .tst sz e] : List Instr), RoundTrips i := by
  simp only [List.forall_mem_cons, List.not_mem_nil, false_implies, implies_true, and_true]
  refine ⟨.of_fields rfl fun hwf _ => ?_, .of_fields rfl fun hwf _ => ?_, .of_fields rfl fun hwf _ => ?_,
    .of_fields rfl fun hwf _ => ?_, .of_fields rfl fun hwf _ => ?_⟩ <;>
  simp [decodeFields, decodeLine4, Instr.exts, eaRow_self hwf]

theorem roundTrips_tst020 (sz : Size) (ea6 : BitVec 6) : RoundTrips (.tst020 sz ea6) := by
  refine .of_fields rfl fun hwf _ => ?_
  obtain ⟨htst, h020⟩ := eaRow_tst020 hwf
  simp [decodeFields, decodeLine4, Instr.exts, htst, extract_append_six, h020]

theorem roundTrips_line4_status (e : EA) :
    ∀ i ∈ ([.moveFromSr e, .moveFromCcr e, .moveToCcr e, .moveToSr e] : List Instr), RoundTrips i := by
  simp only [List.forall_mem_cons, List.not_mem_nil, false_implies, implies_true, and_true]
  refine ⟨.of_fields rfl fun hwf _ => ?_, .of_fields rfl fun hwf _ => ?_, .of_fields rfl fun hwf _ => ?_,
    .of_fields rfl fun hwf _ => ?_⟩ <;>
  simp [decodeFields, decodeLine4, Instr.exts, decodeSize, eaRow_self hwf]

theorem roundTrips_line4_control (e : EA) (n : Reg) :
    ∀ i ∈ ([.jsr e, .jmp e, .pea e, .lea e n] : List Instr), RoundTrips i := by
  simp only [List.forall_mem_cons, List.not_mem_nil, false_implies, implies_true, and_true]
  refine ⟨.of_fields rfl fun hwf _ => ?_, .of_fields rfl fun hwf _ => ?_, .of_fields rfl fun hwf _ => ?_,
    .of_fields rfl fun hwf _ => ?_⟩ <;>
  simp [decodeFields, decodeLine4, decodeLine4Misc, Instr.exts, mode_ne_zero hwf, mode_ne_one hwf, eaRow_self hwf]

theorem roundTrips_line4_bytes (e : EA) :
    ∀ i ∈ ([.nbcd e, .tas e] : List Instr), RoundTrips i := by
  simp only [List.forall_mem_cons, List.not_mem_nil, false_implies, implies_true, and_true]
  refine ⟨.of_fields rfl fun hwf _ => ?_, .of_fields rfl fun hwf _ => ?_⟩ <;>
  simp [decodeFields, decodeLine4, decodeLine4Misc, Instr.exts, decodeSize, mode_ne_one hwf, ea6_ne hwf, eaRow_self hwf]

theorem roundTrips_movem (sz : SizeWL) (mask : HWord) (e : EA) :
    ∀ i ∈ ([.movemToMem sz mask e, .movemToReg sz e mask] : List Instr), RoundTrips i := by
  simp only [List.forall_mem_cons, List.not_mem_nil, false_implies, implies_true, and_true]
  refine ⟨.of_fields rfl fun hwf _ => ?_, .of_fields rfl fun hwf _ => ?_⟩
  · have hmode : ¬ e.mode = 0#3 := mode_ne_zero hwf
    cases sz <;> exact (if_neg hmode).trans (eaRow_self hwf _)
  · cases sz <;> exact eaRow_self hwf _

theorem roundTrips_chkW (e : EA) (n : Reg) : RoundTrips (.chkW e n) := .of_fields rfl fun hwf _ => eaRow_self hwf _

/-! ### Lines 5 to 7 -/

theorem roundTrips_quick (sz : Size) (q : BitVec 3) (e : EA) :
    ∀ i ∈ ([.addq sz q e, .subq sz q e] : List Instr), RoundTrips i := by
  simp only [List.forall_mem_cons, List.not_mem_nil, false_implies, implies_true, and_true]
  refine ⟨.of_fields rfl fun hwf _ => ?_, .of_fields rfl fun hwf _ => ?_⟩ <;>
  simp [decodeFields, decodeLine5, Instr.exts, eaRow_self hwf]

theorem roundTrips_line5 (cond : Cond) (n : Reg) (d : HWord) (opmode : BitVec 3) (e : EA) :
    ∀ i ∈ ([.dbcc cond n d, .trapcc cond opmode, .scc cond e] : List Instr), RoundTrips i := by
  simp only [List.forall_mem_cons, List.not_mem_nil, false_implies, implies_true, and_true]
  refine ⟨.of_fields rfl fun hwf _ => ?_, .of_fields rfl fun hwf _ => ?_, .of_fields rfl fun hwf _ => ?_⟩
  · simp [decodeFields, decodeLine5, Instr.exts, decodeSize]
  · have hop : opmode = 2#3 ∨ opmode = 3#3 ∨ opmode = 4#3 := by simpa [Instr.wellFormed, or_assoc] using hwf
    simp [decodeFields, decodeLine5, decodeSize, hop]
  · have hmode : ¬ (e.mode = 7#3 ∧ (e.reg = 2#3 ∨ e.reg = 3#3 ∨ e.reg = 4#3)) := by
      rintro ⟨h7, hr⟩
      rcases reg_of_mode_seven hwf (.inl rfl) h7 with h | h <;> simp [h] at hr
    simp [decodeFields, decodeLine5, Instr.exts, decodeSize, mode_ne_one hwf, hmode, eaRow_self hwf]

theorem roundTrips_bccL (cond : Cond) : RoundTrips (.bccL cond) := by
  intro m _ hon
  have h020 : m.is020plus = true := (Bool.and_eq_true_iff.1 hon).1
  refine decode_branchWord ?_ h020
  simp [decodeLine6, h020]

/-- A displacement that is not the mark of row 81 reads back (R310, R345). -/
theorem decodeLine6_field {m : Model} {cc : BitVec 4} {d : BranchDisp} (hok : d.ok = true)
    (hskip : ∀ b, d = .short b → (b == 0xFF && m.is020plus) = false) :
    decodeLine6 m cc d.field d.exts =
      match cc.toNat with
      | 0 => some (.bra d)
      | 1 => some (.bsr d)
      | _ => some (.bcc (Cond.ofCode cc) d) := by
  have hrow : ¬ (d.field = 0xFF ∧ m.is020plus = true) := by
    cases d with
    | short b => simpa [BranchDisp.field] using hskip b rfl
    | word w => simp [BranchDisp.field]
  have hdisp : decodeBranchDisp d.field d.exts = d := by
    cases d with
    | short b => exact if_neg (by simpa [BranchDisp.ok, BranchDisp.field] using hok)
    | word w => rfl
  rw [decodeLine6, if_neg hrow, hdisp] <;> rfl

theorem roundTrips_branch (d : BranchDisp) (cond : Cond) :
    ∀ i ∈ ([.bra d, .bsr d, .bcc cond d] : List Instr), RoundTrips i := by
  simp only [List.forall_mem_cons, List.not_mem_nil, false_implies, implies_true, and_true]
  refine ⟨fun m hwf hon => ?_, fun m hwf hon => ?_, fun m hwf hon => ?_⟩ <;>
  have hskip : ∀ b, d = .short b → (b == 0xFF && m.is020plus) = false := by
    rintro b rfl
    exact (Bool.not_eq_true' _).mp (Bool.and_eq_true_iff.1 hon).2
  · exact decode_branchWord (decodeLine6_field hwf hskip) rfl
  · exact decode_branchWord (decodeLine6_field hwf hskip) rfl
  · obtain ⟨hok, hf⟩ := Bool.and_eq_true_iff.1 hwf
    obtain ⟨hok, ht⟩ := Bool.and_eq_true_iff.1 hok
    refine decode_branchWord ((decodeLine6_field hok hskip).trans ?_) rfl
    cases cond
    case t => cases ht
    case f => cases hf
    all_goals rfl

theorem roundTrips_moveq (v : BitVec 8) (n : Reg) : RoundTrips (.moveq v n) :=
  .of_fields rfl fun _ _ => congrArg (fun x => some (Instr.moveq x n)) (extract_append_eight v)

/-! ### Lines 8 to 13 -/

theorem roundTrips_divMul (e : EA) (n : Reg) :
    ∀ i ∈ ([.divuW e n, .divsW e n, .muluW e n, .mulsW e n] : List Instr), RoundTrips i := by
  simp only [List.forall_mem_cons, List.not_mem_nil, false_implies, implies_true, and_true]
  refine ⟨.of_fields rfl ?_, .of_fields rfl ?_, .of_fields rfl ?_, .of_fields rfl ?_⟩ <;>
  exact fun hwf _ => eaRow_self hwf _

theorem roundTrips_decimal (n k : Reg) :
    ∀ i ∈ ([.sbcdReg n k, .sbcdMem n k, .abcdReg n k, .abcdMem n k] : List Instr), RoundTrips i := by
  simp only [List.forall_mem_cons, List.not_mem_nil, false_implies, implies_true, and_true]
  refine ⟨.of_fields rfl ?_, .of_fields rfl ?_, .of_fields rfl ?_, .of_fields rfl ?_⟩ <;>
  exact fun _ _ => rfl

theorem roundTrips_pack (n k : Reg) (rm : Bool) :
    ∀ i ∈ ([.pack n rm k, .unpk n rm k] : List Instr), RoundTrips i := by
  simp only [List.forall_mem_cons, List.not_mem_nil, false_implies, implies_true, and_true]
  cases rm <;> exact ⟨.of_fields rfl fun _ _ => rfl, .of_fields rfl fun _ _ => rfl⟩

theorem roundTrips_exg (n k : Reg) :
    ∀ i ∈ ([.exgDD n k, .exgAA n k, .exgDA n k] : List Instr), RoundTrips i := by
  simp only [List.forall_mem_cons, List.not_mem_nil, false_implies, implies_true, and_true]
  refine ⟨.of_fields rfl ?_, .of_fields rfl ?_, .of_fields rfl ?_⟩ <;>
  exact fun _ _ => rfl

theorem roundTrips_extended (sz : Size) (n k : Reg) :
    ∀ i ∈ ([.subxReg sz n k, .subxMem sz n k, .addxReg sz n k, .addxMem sz n k, .cmpm sz n k] : List Instr), RoundTrips i := by
  simp only [List.forall_mem_cons, List.not_mem_nil, false_implies, implies_true, and_true]
  cases sz <;>
  refine ⟨.of_fields rfl ?_, .of_fields rfl ?_, .of_fields rfl ?_, .of_fields rfl ?_, .of_fields rfl ?_⟩ <;>
  exact fun _ _ => rfl

theorem roundTrips_toAn (sz : SizeWL) (e : EA) (n : Reg) :
    ∀ i ∈ ([.suba sz e n, .cmpa sz e n, .adda sz e n] : List Instr), RoundTrips i := by
  simp only [List.forall_mem_cons, List.not_mem_nil, false_implies, implies_true, and_true]
  refine ⟨.of_fields rfl fun hwf _ => ?_, .of_fields rfl fun hwf _ => ?_, .of_fields rfl fun hwf _ => ?_⟩ <;>
  cases sz <;> exact eaRow_self hwf _

theorem roundTrips_toDn (sz : Size) (e : EA) (n : Reg) :
    ∀ i ∈ ([.orEaDn sz e n, .subEaDn sz e n, .cmpEaDn sz e n, .andEaDn sz e n, .addEaDn sz e n] : List Instr), RoundTrips i := by
  simp only [List.forall_mem_cons, List.not_mem_nil, false_implies, implies_true, and_true]
  refine ⟨.of_fields rfl fun hwf _ => ?_, .of_fields rfl fun hwf _ => ?_, .of_fields rfl fun hwf _ => ?_,
    .of_fields rfl fun hwf _ => ?_, .of_fields rfl fun hwf _ => ?_⟩ <;>
  cases sz <;> exact eaRow_self hwf _

theorem roundTrips_fromDn (sz : Size) (n : Reg) (e : EA) :
    ∀ i ∈ ([.orDnEa sz n e, .subDnEa sz n e, .andDnEa sz n e, .addDnEa sz n e] : List Instr), RoundTrips i := by
  simp only [List.forall_mem_cons, List.not_mem_nil, false_implies, implies_true, and_true]
  refine ⟨.of_fields rfl fun hwf _ => ?_, .of_fields rfl fun hwf _ => ?_, .of_fields rfl fun hwf _ => ?_,
    .of_fields rfl fun hwf _ => ?_⟩ <;>
  simp [decodeFields, decodeLine8, decodeLine9, decodeLineC, decodeLineD, Instr.exts, mode_ne_zero hwf, mode_ne_one hwf,
    eaRow_self hwf]

theorem roundTrips_eor (sz : Size) (n : Reg) (e : EA) : RoundTrips (.eorDnEa sz n e) := by
  refine .of_fields rfl fun hwf _ => ?_
  simp [decodeFields, decodeLineB, Instr.exts, mode_ne_one hwf, eaRow_self hwf]

/-! ### Lines 10, 14 and 15 -/

theorem roundTrips_lines (bits : BitVec 12) :
    ∀ i ∈ ([.lineA bits, .lineF bits] : List Instr), RoundTrips i := by
  simp only [List.forall_mem_cons, List.not_mem_nil, false_implies, implies_true, and_true]
  exact
  ⟨fun m _ _ => decode_lineWord_ten m bits [], fun m _ _ => decode_lineWord_fifteen m bits []⟩

/-- The words of line 14 that no memory shift takes (row 118). -/
theorem decodeLineE_bitField {r : BitVec 3} (hr : 4 ≤ r.toNat) (b : Bool) (mode reg : BitVec 3) (ws : List HWord) :
    decodeLineE r b 3 mode reg ws = some (.bitField (r.extractLsb' 0 2 ++ BitVec.ofBool b) (mode ++ reg)) := by
  have hcases : r = 4 ∨ r = 5 ∨ r = 6 ∨ r = 7 := by decide +revert
  rcases hcases with rfl | rfl | rfl | rfl <;> rfl

theorem roundTrips_bitField (ty : BitVec 3) (ea6 : BitVec 6) : RoundTrips (.bitField ty ea6) := by
  refine .of_fields rfl fun _ m => ?_
  have htype : ∀ ty : BitVec 3, 4 ≤ (1#1 ++ ty.extractLsb' 1 2).toNat ∧
      (1#1 ++ ty.extractLsb' 1 2).extractLsb' 0 2 ++ BitVec.ofBool (ty.getLsbD 0) = ty := by decide
  obtain ⟨hr, hty⟩ := htype ty
  have hrow := decodeLineE_bitField hr (ty.getLsbD 0) (ea6.extractLsb' 3 3) (ea6.extractLsb' 0 3) []
  rw [hty, extract_append_six] at hrow
  exact hrow

theorem roundTrips_shiftMem (e : EA) :
    ∀ i ∈ ([.asrMem e, .aslMem e, .lsrMem e, .lslMem e, .roxrMem e, .roxlMem e, .rorMem e, .rolMem e] : List Instr), RoundTrips i := by
  simp only [List.forall_mem_cons, List.not_mem_nil, false_implies, implies_true, and_true]
  refine ⟨.of_fields rfl ?_, .of_fields rfl ?_, .of_fields rfl ?_, .of_fields rfl ?_, .of_fields rfl ?_, .of_fields rfl ?_,
    .of_fields rfl ?_, .of_fields rfl ?_⟩ <;>
  exact fun hwf _ => eaRow_self hwf _

theorem roundTrips_shiftReg (sz : Size) (c : ShiftCount) (n : Reg) :
    ∀ i ∈ ([.asrReg sz c n, .aslReg sz c n, .lsrReg sz c n, .lslReg sz c n, .roxrReg sz c n, .roxlReg sz c n,
      .rorReg sz c n, .rolReg sz c n] : List Instr), RoundTrips i := by
  simp only [List.forall_mem_cons, List.not_mem_nil, false_implies, implies_true, and_true]
  cases c <;> cases sz <;>
  refine ⟨.of_fields rfl ?_, .of_fields rfl ?_, .of_fields rfl ?_, .of_fields rfl ?_, .of_fields rfl ?_, .of_fields rfl ?_,
    .of_fields rfl ?_, .of_fields rfl ?_⟩ <;>
  exact fun _ _ => rfl

/-- Settles O1: row by row, the fields of the opcode word lead the decoder to the row, which reads the operands back. -/
theorem encodingRoundTrips : Obligations.EncodingRoundTrips := by
  suffices hall : ∀ i, RoundTrips i from fun m i => hall i m
  intro i
  cases i
  case oriToCcr v | andiToCcr v | eoriToCcr v => exact roundTrips_ccr v _ (by simp)
  case oriToSr v | andiToSr v | eoriToSr v => exact roundTrips_sr v _ (by simp)
  case cas2W | cas2L => exact roundTrips_cas2 _ (by simp)
  case movepToReg sz ay d dx | movepToMem sz dx ay d => exact roundTrips_movep sz ay dx d _ (by simp)
  case btstDn dn e | bchgDn dn e | bclrDn dn e | bsetDn dn e => exact roundTrips_bitDn dn e _ (by simp)
  case btstImm n e | bchgImm n e | bclrImm n e | bsetImm n e => exact roundTrips_bitImm n e _ (by simp)
  case ori v e | andi v e | subi v e | addi v e | eori v e | cmpi v e => exact roundTrips_imm v e _ (by simp)
  case cmp2Chk2 size2 ea6 | cas size2 ea6 => exact roundTrips_line0_rest size2 ea6 _ (by simp)
  case rtmCallm ea6 => exact roundTrips_line0_rest 0 ea6 _ (by simp)
  case reset | nop | rte | rts | trapv | rtr => exact roundTrips_control 0 _ (by simp)
  case stop v | rtd v => exact roundTrips_control v _ (by simp)
  case movecFrom c rn | movecTo rn c => exact roundTrips_movec c rn _ (by simp)
  case link n d => exact roundTrips_line4_registers n d _ (by simp)
  case unlk n | moveToUsp n | moveFromUsp n | swap n | bkpt n | linkL n | extW n | extL n | extbL n =>
    exact roundTrips_line4_registers n 0 _ (by simp)
  case mulL ea6 | divL ea6 => exact roundTrips_line4_ea6 0 ea6 _ (by simp)
  case chkL n ea6 => exact roundTrips_line4_ea6 n ea6 _ (by simp)
  case negx sz e | clr sz e | neg sz e | notEa sz e | tst sz e => exact roundTrips_line4_sized sz e _ (by simp)
  case moveFromSr e | moveFromCcr e | moveToCcr e | moveToSr e => exact roundTrips_line4_status e _ (by simp)
  case jsr e | jmp e | pea e => exact roundTrips_line4_control e 0 _ (by simp)
  case lea e n => exact roundTrips_line4_control e n _ (by simp)
  case nbcd e | tas e => exact roundTrips_line4_bytes e _ (by simp)
  case movemToMem sz mask e | movemToReg sz e mask => exact roundTrips_movem sz mask e _ (by simp)
  case addq sz q e | subq sz q e => exact roundTrips_quick sz q e _ (by simp)
  case dbcc cond n d => exact roundTrips_line5 cond n d 0 (.dn 0) _ (by simp)
  case trapcc cond opmode => exact roundTrips_line5 cond 0 0 opmode (.dn 0) _ (by simp)
  case scc cond e => exact roundTrips_line5 cond 0 0 0 e _ (by simp)
  case bra d | bsr d => exact roundTrips_branch d .t _ (by simp)
  case bcc cond d => exact roundTrips_branch d cond _ (by simp)
  case divuW e n | divsW e n | muluW e n | mulsW e n => exact roundTrips_divMul e n _ (by simp)
  case sbcdReg n k | sbcdMem n k | abcdReg n k | abcdMem n k => exact roundTrips_decimal n k _ (by simp)
  case pack n rm k | unpk n rm k => exact roundTrips_pack n k rm _ (by simp)
  case exgDD n k | exgAA n k | exgDA n k => exact roundTrips_exg n k _ (by simp)
  case subxReg sz n k | subxMem sz n k | addxReg sz n k | addxMem sz n k | cmpm sz n k =>
    exact roundTrips_extended sz n k _ (by simp)
  case suba sz e n | cmpa sz e n | adda sz e n => exact roundTrips_toAn sz e n _ (by simp)
  case orEaDn sz e n | subEaDn sz e n | cmpEaDn sz e n | andEaDn sz e n | addEaDn sz e n =>
    exact roundTrips_toDn sz e n _ (by simp)
  case orDnEa sz n e | subDnEa sz n e | andDnEa sz n e | addDnEa sz n e => exact roundTrips_fromDn sz n e _ (by simp)
  case lineA bits | lineF bits => exact roundTrips_lines bits _ (by simp)
  case asrMem e | aslMem e | lsrMem e | lslMem e | roxrMem e | roxlMem e | rorMem e | rolMem e =>
    exact roundTrips_shiftMem e _ (by simp)
  case asrReg sz c n | aslReg sz c n | lsrReg sz c n | lslReg sz c n | roxrReg sz c n | roxlReg sz c n
  | rorReg sz c n | rolReg sz c n => exact roundTrips_shiftReg sz c n _ (by simp)
  case cmpiPcRel sz indexed => exact roundTrips_cmpiPcRel sz indexed
  case moves sz toMem rn e => exact roundTrips_moves sz toMem rn e
  case movea sz e an => exact roundTrips_movea sz e an
  case move sz src dst => exact roundTrips_move sz src dst
  case illegal => exact roundTrips_illegal
  case trap v => exact roundTrips_trap v
  case tst020 sz ea6 => exact roundTrips_tst020 sz ea6
  case chkW e n => exact roundTrips_chkW e n
  case bccL cond => exact roundTrips_bccL cond
  case moveq v n => exact roundTrips_moveq v n
  case eorDnEa sz n e => exact roundTrips_eor sz n e
  case bitField ty ea6 => exact roundTrips_bitField ty ea6

end Sys2Proof
end

section
/-! What decodes (30_encoding.md, R303, R310): the row that takes a word is well formed, has the word as its opcode word, and
depends on no extension word. Each line of the table is split on the fields that its decoder reads. -/

namespace Sys2Proof

theorem bitVec3_cases (v : BitVec 3) : v = 0 ∨ v = 1 ∨ v = 2 ∨ v = 3 ∨ v = 4 ∨ v = 5 ∨ v = 6 ∨ v = 7 := by decide +revert

theorem bitVec2_cases (v : BitVec 2) : v = 0 ∨ v = 1 ∨ v = 2 ∨ v = 3 := by decide +revert

/-- The mode and register fields of an operand say which mode it is of, and so which classes it is in (R410, R411). -/
theorem inClass_congr {e e' : EA} (hm : e.mode = e'.mode) (hr : e.reg = e'.reg) (sz : Size) (c : EAClass) :
    e.inClass sz c = e'.inClass sz c := by
  have hAn (e : EA) : e.isAn = (e.mode == 1) := by cases e <;> rfl
  have hPredec (e : EA) : e.isPredec = (e.mode == 4) := by cases e <;> rfl
  have hPostinc (e : EA) : e.isPostinc = (e.mode == 3) := by cases e <;> rfl
  have hImm (e : EA) : e.isImm = (e.mode == 7 && e.reg == 4) := by cases e <;> rfl
  have hPcRel (e : EA) : e.isPcRel = (e.mode == 7 && (e.reg == 2 || e.reg == 3)) := by cases e <;> rfl
  have hControl (e : EA) : e.isControl =
      (e.mode == 2 || e.mode == 5 || e.mode == 6 || (e.mode == 7 && e.reg != 4)) := by cases e <;> rfl
  have hMemory (e : EA) : e.isMemoryAlterable = (e.isControl && !e.isPcRel || e.isPredec || e.isPostinc) := by
    cases e <;> rfl
  have hData (e : EA) : e.isDataAlterable = (e.isMemoryAlterable || e.mode == 0) := by cases e <;> rfl
  cases c <;> simp only [EA.inClass, hData, hMemory, hControl, hPcRel, hImm, hPostinc, hPredec, hAn, hm, hr]

/-- An operand that a mode/register pair stands for at a size, and one that differs from it in the values of its extension
words only. -/
structure DecodesAs (mode reg : BitVec 3) (sz : Size) (e e' : EA) : Prop where
  mode_eq : e.mode = mode
  reg_eq : e.reg = reg
  mode_eq' : e'.mode = mode
  reg_eq' : e'.reg = reg
  sizeOk : e.sizeOk sz = true
  length : e.exts.length = e'.exts.length

/-- Whether a mode/register pair is an EA, and how many words it has, does not depend on the words (R310). -/
theorem decodeEA_rel (mode reg : BitVec 3) (sz : Size) (ws ws' : List HWord) :
    Option.Rel (DecodesAs mode reg sz) (decodeEA mode reg sz ws) (decodeEA mode reg sz ws') := by
  have himm (ws : List HWord) : (decodeImm sz ws).size = sz := by cases sz <;> rfl
  have hlen : (decodeImm sz ws).exts.length = (decodeImm sz ws').exts.length := by
    cases sz <;> simp [decodeImm, Imm.exts]
  rcases bitVec3_cases mode with rfl | rfl | rfl | rfl | rfl | rfl | rfl | rfl
  case inr.inr.inr.inr.inr.inr.inr =>
    rcases bitVec3_cases reg with rfl | rfl | rfl | rfl | rfl | rfl | rfl | rfl
    case inr.inr.inr.inr.inl => exact .some ⟨rfl, rfl, rfl, rfl, by simp [EA.sizeOk, himm], hlen⟩
    case inl | inr.inl | inr.inr.inl | inr.inr.inr.inl => exact .some ⟨rfl, rfl, rfl, rfl, rfl, by simp [EA.exts]⟩
    all_goals exact .none
  all_goals exact .some ⟨rfl, rfl, rfl, rfl, rfl, by simp [EA.exts]⟩

/-- An instruction that is well formed and has an opcode word; and one that differs from it in the values of its extension
words only. -/
structure DecodesTo (m : Model) (w : HWord) (i j : Instr) : Prop where
  wf : i.wellFormed = true
  opcode : i.opcode = w
  length : i.exts.length = j.exts.length
  models : i.columns.1 = j.columns.1
  active : i.columns.1.contain m = true → i.decodesOn m = true

/-- What two lists of extension words make of an opcode word: neither is an instruction, or they are two that differ in the
values of their extension words only (R303, R310). -/
def IsRow (m : Model) (w : HWord) (o o' : Option Instr) : Prop := Option.Rel (DecodesTo m w) o o'

namespace IsRow

variable {m : Model} {line : BitVec 4} {r : BitVec 3} {b : Bool} {ss : BitVec 2} {mode reg : BitVec 3} {ws ws' : List HWord}

/-- The instructions other than branches are active where their rows are. -/
theorem active {c : Bool} (h : c = true) : (c && true) = true := (Bool.and_true c).trans h

theorem ea_of {w : HWord} {c : EAClass} {sz : Size} {k k' : EA → Instr}
    (hk : ∀ e e', e.mode = mode → e.reg = reg → e.fits sz c = true → e.exts.length = e'.exts.length →
      DecodesTo m w (k e) (k' e')) :
    IsRow m w (eaRow c sz mode reg ws k) (eaRow c sz mode reg ws' k') := by
  have hrel := decodeEA_rel mode reg sz ws ws'
  unfold eaRow
  generalize decodeEA mode reg sz ws = o, decodeEA mode reg sz ws' = o' at hrel
  cases hrel with
  | none => exact .none
  | @some e e' h =>
    obtain ⟨hmode, hreg, hmode', hreg', hsz, hlen⟩ := h
    have hclass := inClass_congr (hmode.trans hmode'.symm) (hreg.trans hreg'.symm) sz c
    cases hc : e.inClass sz c with
    | false =>
      simp only [hc, ← hclass, Bool.false_eq_true, if_false]
      exact .none
    | true =>
      simp only [hc, ← hclass, if_true]
      exact .some (hk e e' hmode hreg (by simp [EA.fits, hc, hsz]) hlen)

/-- A row whose operand is in the last six bits of the opcode word. -/
theorem ea {c : EAClass} {sz : Size} {k k' : EA → Instr}
    (hk : ∀ e e', e.fits sz c = true → e.exts.length = e'.exts.length →
      DecodesTo m (opWord line r b ss e.mode e.reg) (k e) (k' e')) :
    IsRow m (opWord line r b ss mode reg) (eaRow c sz mode reg ws k) (eaRow c sz mode reg ws' k') := by
  refine ea_of fun e e' hmode hreg h hlen => ?_
  subst hmode hreg
  exact hk e e' h hlen

theorem or {w : HWord} {o1 o1' o2 o2' : Option Instr} (h1 : IsRow m w o1 o1') (h2 : IsRow m w o2 o2') :
    IsRow m w (o1.or o2) (o1'.or o2') := by
  cases h1 with
  | none => exact h2
  | some h => exact .some h

/-! ### Fields that are read and written back -/

theorem high_ofCode (r : BitVec 3) (b : Bool) : (Cond.ofCode (r ++ BitVec.ofBool b)).high = r := by
  rw [Cond.high, Machine.code_ofCode]
  decide +revert

theorem low_ofCode (r : BitVec 3) (b : Bool) : (Cond.ofCode (r ++ BitVec.ofBool b)).low = b := by
  rw [Cond.low, Machine.code_ofCode]
  decide +revert

theorem ea6Word_append (line : BitVec 4) (r : BitVec 3) (b : Bool) (ss : BitVec 2) (mode reg : BitVec 3) :
    ea6Word line r b ss (mode ++ reg) = opWord line r b ss mode reg := by
  have hmode : (mode ++ reg).extractLsb' 3 3 = mode :=
    (BitVec.extractLsb'_append_eq_of_le (by decide)).trans BitVec.extractLsb'_eq_self
  have hreg : (mode ++ reg).extractLsb' 0 3 = reg := BitVec.extractLsb'_append_eq_right
  rw [ea6Word, hmode, hreg]

theorem lineWord_append (line : BitVec 4) (r : BitVec 3) (b : Bool) (ss : BitVec 2) (mode reg : BitVec 3) :
    lineWord line (r ++ BitVec.ofBool b ++ ss ++ mode ++ reg) = opWord line r b ss mode reg := by
  apply BitVec.eq_of_toNat_eq
  simp only [lineWord, opWord, BitVec.toNat_append, Nat.shiftLeft_or_distrib, ← Nat.shiftLeft_add, Nat.or_assoc]

/-! ### Line 0 -/

theorem imm {sz : Size} {k : Imm → EA → Instr} (hss : ss = sz.code)
    (hk : ∀ v v' e e', e.fits v.size .dataAlterable = true → v.exts.length = v'.exts.length →
      e.exts.length = e'.exts.length → DecodesTo m (opWord 0 r false v.size.code e.mode e.reg) (k v e) (k v' e')) :
    IsRow m (opWord 0 r false ss mode reg) (immRow sz mode reg ws k) (immRow sz mode reg ws' k) := by
  subst hss
  have hsize (ws : List HWord) : (decodeImm sz ws).size = sz := by cases sz <;> rfl
  have hlen : (decodeImm sz ws).exts.length = (decodeImm sz ws').exts.length := by
    cases sz <;> simp [decodeImm, Imm.exts]
  refine .ea fun e e' h hlen' => ?_
  rw [← hsize ws] at h
  have := hk (decodeImm sz ws) (decodeImm sz ws') e e' h hlen hlen'
  rwa [hsize] at this

/-- The six rows of an immediate and an alterable operand (rows 19–24). -/
theorem immLength {v v' : Imm} {e e' : EA} (hv : v.exts.length = v'.exts.length) (he : e.exts.length = e'.exts.length) :
    (v.exts ++ e.exts).length = (v'.exts ++ e'.exts).length := by
  rw [List.length_append, List.length_append, hv, he]

theorem ite {w : HWord} {c : Prop} [Decidable c] {o1 o1' o2 o2' : Option Instr} (h1 : c → IsRow m w o1 o1')
    (h2 : ¬ c → IsRow m w o2 o2') : IsRow m w (if c then o1 else o2) (if c then o1' else o2') := by
  split
  · exact h1 ‹_›
  · exact h2 ‹_›

theorem ea6_split {mode reg : BitVec 3} {x : BitVec 6} (h : mode ++ reg = x) : mode = x.extractLsb' 3 3 ∧ reg = x.extractLsb' 0 3 := by
  subst h
  exact ⟨((BitVec.extractLsb'_append_eq_of_le (by decide)).trans BitVec.extractLsb'_eq_self).symm,
    BitVec.extractLsb'_append_eq_right.symm⟩

/-- A row of one word that shares its line with others. -/
theorem word {i j : Instr} {mode reg : BitVec 3} (hea6 : mode ++ reg = 0b111100#6) (h : DecodesTo m (opWord line r b ss 7 4) i j) :
    IsRow m (opWord line r b ss mode reg) (some i) (some j) := by
  obtain ⟨rfl, rfl⟩ := ea6_split hea6
  exact .some h

theorem decodeLine0Static (r : BitVec 3) (ss : BitVec 2) (mode reg : BitVec 3) (ws ws' : List HWord) :
    IsRow m (opWord 0 r false ss mode reg) (Sys2Proof.decodeLine0Static r ss mode reg ws)
      (Sys2Proof.decodeLine0Static r ss mode reg ws') := by
  rcases bitVec3_cases r with rfl | rfl | rfl | rfl | rfl | rfl | rfl | rfl
  · -- ORI, CMP2 and CHK2
    refine .ite (fun h => ?_) fun h0 => .ite (fun h => ?_) fun h1 => ?_
    · obtain ⟨rfl, hea6⟩ := h
      exact word hea6 ⟨rfl, (by decide : 0x003C = opWord 0 0 false 0 7 4), rfl, rfl, active⟩
    · obtain ⟨rfl, hea6⟩ := h
      exact word hea6 ⟨rfl, (by decide : 0x007C = opWord 0 0 false 1 7 4), rfl, rfl, active⟩
    · rcases bitVec2_cases ss with rfl | rfl | rfl | rfl
      case inr.inr.inr => exact .some ⟨rfl, ea6Word_append .., rfl, rfl, active⟩
      all_goals exact .imm rfl fun v v' e e' h hv he => ⟨h, rfl, immLength hv he, rfl, active⟩
  · -- ANDI, CMP2 and CHK2
    refine .ite (fun h => ?_) fun h0 => .ite (fun h => ?_) fun h1 => ?_
    · obtain ⟨rfl, hea6⟩ := h
      exact word hea6 ⟨rfl, (by decide : 0x023C = opWord 0 1 false 0 7 4), rfl, rfl, active⟩
    · obtain ⟨rfl, hea6⟩ := h
      exact word hea6 ⟨rfl, (by decide : 0x027C = opWord 0 1 false 1 7 4), rfl, rfl, active⟩
    · rcases bitVec2_cases ss with rfl | rfl | rfl | rfl
      case inr.inr.inr => exact .some ⟨rfl, ea6Word_append .., rfl, rfl, active⟩
      all_goals exact .imm rfl fun v v' e e' h hv he => ⟨h, rfl, immLength hv he, rfl, active⟩
  · -- SUBI, CMP2 and CHK2
    rcases bitVec2_cases ss with rfl | rfl | rfl | rfl
    case inr.inr.inr => exact .some ⟨rfl, ea6Word_append .., rfl, rfl, active⟩
    all_goals exact .imm rfl fun v v' e e' h hv he => ⟨h, rfl, immLength hv he, rfl, active⟩
  · -- ADDI, RTM and CALLM
    rcases bitVec2_cases ss with rfl | rfl | rfl | rfl
    case inr.inr.inr => exact .some ⟨rfl, ea6Word_append .., rfl, rfl, active⟩
    all_goals exact .imm rfl fun v v' e e' h hv he => ⟨h, rfl, immLength hv he, rfl, active⟩
  · -- the bit instructions with a bit number
    rcases bitVec2_cases ss with rfl | rfl | rfl | rfl <;>
    exact .ea fun e e' h he => ⟨h, rfl, congrArg (· + 1) he, rfl, active⟩
  · -- EORI, CAS
    refine .ite (fun h => ?_) fun h0 => .ite (fun h => ?_) fun h1 => ?_
    · obtain ⟨rfl, hea6⟩ := h
      exact word hea6 ⟨rfl, (by decide : 0x0A3C = opWord 0 5 false 0 7 4), rfl, rfl, active⟩
    · obtain ⟨rfl, hea6⟩ := h
      exact word hea6 ⟨rfl, (by decide : 0x0A7C = opWord 0 5 false 1 7 4), rfl, rfl, active⟩
    · rcases bitVec2_cases ss with rfl | rfl | rfl | rfl
      case inr.inr.inr => exact .some ⟨by simp [Instr.wellFormed], ea6Word_append .., rfl, rfl, active⟩
      all_goals exact .imm rfl fun v v' e e' h hv he => ⟨h, rfl, immLength hv he, rfl, active⟩
  · -- CMPI, CAS
    rcases bitVec2_cases ss with rfl | rfl | rfl | rfl
    case inr.inr.inr =>
      refine .ite (fun h => ?_) fun h => ?_
      · exact word h ⟨rfl, (by decide : 0x0CFC = opWord 0 6 false 3 7 4), rfl, rfl, active⟩
      · exact .some ⟨by simpa [Instr.wellFormed] using h, ea6Word_append .., rfl, rfl, active⟩
    all_goals
      refine .ite (fun h => ?_) fun _ => .ite (fun h => ?_) fun _ => ?_
      · obtain ⟨rfl, rfl⟩ := ea6_split h
        exact .some ⟨rfl, rfl, rfl, rfl, active⟩
      · obtain ⟨rfl, rfl⟩ := ea6_split h
        exact .some ⟨rfl, rfl, rfl, rfl, active⟩
      · exact .imm rfl fun v v' e e' h hv he => ⟨h, rfl, immLength hv he, rfl, active⟩
  · -- MOVES, CAS
    rcases bitVec2_cases ss with rfl | rfl | rfl | rfl
    case inr.inr.inr =>
      refine .ite (fun h => ?_) fun h => ?_
      · exact word h ⟨rfl, (by decide : 0x0EFC = opWord 0 7 false 3 7 4), rfl, rfl, active⟩
      · exact .some ⟨by simpa [Instr.wellFormed] using h, ea6Word_append .., rfl, rfl, active⟩
    all_goals exact .ea fun e e' h he => ⟨h, rfl, congrArg (· + 1) he, rfl, active⟩

theorem decodeLine0 (r : BitVec 3) (b : Bool) (ss : BitVec 2) (mode reg : BitVec 3) (ws ws' : List HWord) :
    IsRow m (opWord 0 r b ss mode reg) (Sys2Proof.decodeLine0 r b ss mode reg ws)
      (Sys2Proof.decodeLine0 r b ss mode reg ws') := by
  cases b
  · exact decodeLine0Static r ss mode reg ws ws'
  · refine .ite (fun _ => .ite (fun h => ?_) fun _ => ?_) fun h => absurd rfl h
    · subst h
      rcases bitVec2_cases ss with rfl | rfl | rfl | rfl <;>
      exact .some ⟨rfl, rfl, rfl, rfl, active⟩
    · rcases bitVec2_cases ss with rfl | rfl | rfl | rfl <;>
      exact .ea fun e e' h he => ⟨h, rfl, he, rfl, active⟩

/-! ### MOVE and MOVEA -/

theorem decodeMove {m : Model} (sz : Size) (r : BitVec 3) (b : Bool) (ss : BitVec 2) (mode reg : BitVec 3)
    (ws ws' : List HWord) :
    IsRow m (opWord (0#2 ++ sz.moveCode) r b ss mode reg) (Sys2Proof.decodeMove sz r (BitVec.ofBool b ++ ss) mode reg ws)
      (Sys2Proof.decodeMove sz r (BitVec.ofBool b ++ ss) mode reg ws') := by
  have hsplit : ∀ (b : Bool) (ss : BitVec 2), (BitVec.ofBool b ++ ss).getLsbD 2 = b ∧ (BitVec.ofBool b ++ ss).extractLsb' 0 2 = ss ∧
      (BitVec.ofBool b ++ ss = 1 → b = false ∧ ss = 1) := by decide
  obtain ⟨hb, hss, hmovea⟩ := hsplit b ss
  have hrel := decodeEA_rel mode reg sz ws ws'
  unfold Sys2Proof.decodeMove
  generalize decodeEA mode reg sz ws = o, decodeEA mode reg sz ws' = o' at hrel
  cases hrel with
  | none => exact .none
  | @some src src' h =>
    obtain ⟨rfl, rfl, hm, hr, hsz, hlen⟩ := h
    have hclass := inClass_congr hm.symm hr.symm sz .allNoAnByte
    refine .ite (fun h1 => ?_) fun _ => ?_
    · obtain ⟨rfl, rfl⟩ := hmovea h1
      cases sz with
      | b => exact .none
      | w => exact .some ⟨hsz, rfl, hlen, rfl, active⟩
      | l => exact .some ⟨hsz, rfl, hlen, rfl, active⟩
    · cases hc : src.inClass sz .allNoAnByte with
      | false =>
        simp only [← hclass, hc, Bool.false_eq_true, if_false]
        exact .none
      | true =>
        simp only [← hclass, hc, if_true]
        have hsrc : src.fits sz .allNoAnByte = true := by simp [EA.fits, hc, hsz]
        refine ea_of fun dst dst' hmode hreg h he =>
          ⟨Bool.and_eq_true_iff.2 ⟨hsrc, h⟩, ?_, by simp [Instr.exts, hlen, he], rfl, active⟩
        rw [Instr.opcode, hmode, hreg, hb, hss]

/-! ### Line 4 -/

/-- The vector of TRAP is bit 3 and the register field (R311). -/
theorem opcode_trap (k : BitVec 3) (hk : k = 0 ∨ k = 1) (reg : BitVec 3) :
    (Instr.trap (k.extractLsb' 0 1 ++ reg)).opcode = opWord 4 7 false 1 k reg := by
  have hv : ∀ reg : BitVec 3, ∀ k ∈ [(0 : BitVec 3), 1], 0#2 ++ (k.extractLsb' 0 1 ++ reg).extractLsb' 3 1 = k ∧
      (k.extractLsb' 0 1 ++ reg).extractLsb' 0 3 = reg := by decide
  obtain ⟨hmode, hreg⟩ := hv reg k (by simpa using hk)
  rw [Instr.opcode, hmode, hreg]

theorem decodeControl (mode reg : BitVec 3) (ws ws' : List HWord) :
    IsRow m (opWord 4 7 false 1 mode reg) (Sys2Proof.decodeControl mode reg ws) (Sys2Proof.decodeControl mode reg ws') := by
  rcases bitVec3_cases mode with rfl | rfl | rfl | rfl | rfl | rfl | rfl | rfl
  · exact .some ⟨rfl, opcode_trap 0 (.inl rfl) reg, rfl, rfl, active⟩
  · exact .some ⟨rfl, opcode_trap 1 (.inr rfl) reg, rfl, rfl, active⟩
  · exact .some ⟨rfl, rfl, rfl, rfl, active⟩
  · exact .some ⟨rfl, rfl, rfl, rfl, active⟩
  · exact .some ⟨rfl, rfl, rfl, rfl, active⟩
  · exact .some ⟨rfl, rfl, rfl, rfl, active⟩
  · rcases bitVec3_cases reg with rfl | rfl | rfl | rfl | rfl | rfl | rfl | rfl
    · exact .some ⟨rfl, (by decide : 0x4E70 = opWord 4 7 false 1 6 0), rfl, rfl, active⟩
    · exact .some ⟨rfl, (by decide : 0x4E71 = opWord 4 7 false 1 6 1), rfl, rfl, active⟩
    · exact .some ⟨rfl, (by decide : 0x4E72 = opWord 4 7 false 1 6 2), rfl, rfl, active⟩
    · exact .some ⟨rfl, (by decide : 0x4E73 = opWord 4 7 false 1 6 3), rfl, rfl, active⟩
    · exact .some ⟨rfl, (by decide : 0x4E74 = opWord 4 7 false 1 6 4), rfl, rfl, active⟩
    · exact .some ⟨rfl, (by decide : 0x4E75 = opWord 4 7 false 1 6 5), rfl, rfl, active⟩
    · exact .some ⟨rfl, (by decide : 0x4E76 = opWord 4 7 false 1 6 6), rfl, rfl, active⟩
    · exact .some ⟨rfl, (by decide : 0x4E77 = opWord 4 7 false 1 6 7), rfl, rfl, active⟩
  · rcases bitVec3_cases reg with rfl | rfl | rfl | rfl | rfl | rfl | rfl | rfl
    · exact .none
    · exact .none
    · exact .some ⟨rfl, (by decide : 0x4E7A = opWord 4 7 false 1 7 2), rfl, rfl, active⟩
    · exact .some ⟨rfl, (by decide : 0x4E7B = opWord 4 7 false 1 7 3), rfl, rfl, active⟩
    all_goals exact .none

theorem decodeLine4Misc (ss : BitVec 2) (mode reg : BitVec 3) (ws ws' : List HWord) :
    IsRow m (opWord 4 4 false ss mode reg) (Sys2Proof.decodeLine4Misc ss mode reg ws)
      (Sys2Proof.decodeLine4Misc ss mode reg ws') := by
  rcases bitVec2_cases ss with rfl | rfl | rfl | rfl
  · refine .ite (fun h => ?_) fun _ => .ea fun e e' h he => ⟨h, rfl, he, rfl, active⟩
    subst h
    exact .some ⟨rfl, rfl, rfl, rfl, active⟩
  · refine .ite (fun h => ?_) fun _ => .ite (fun h => ?_) fun _ => .ea fun e e' h he => ⟨h, rfl, he, rfl, active⟩
    · subst h
      exact .some ⟨rfl, rfl, rfl, rfl, active⟩
    · subst h
      exact .some ⟨rfl, rfl, rfl, rfl, active⟩
  · refine .ite (fun h => ?_) fun _ => .ea fun e e' h he => ⟨h, rfl, congrArg (· + 1) he, rfl, active⟩
    subst h
    exact .some ⟨rfl, rfl, rfl, rfl, active⟩
  · refine .ite (fun h => ?_) fun _ => .ea fun e e' h he => ⟨h, rfl, congrArg (· + 1) he, rfl, active⟩
    subst h
    exact .some ⟨rfl, rfl, rfl, rfl, active⟩

/-- The bits of an operand that only MC68020 and later know in TST (R411). -/
theorem tst020Field_of_inClass {e : EA} {sz : Size} (h : e.inClass sz .tst020 = true) :
    tst020Field sz (e.mode ++ e.reg) = true := by
  cases e with
  | an n =>
    have hmode : (EA.mode (.an n) ++ EA.reg (.an n)).extractLsb' 3 3 = 1 :=
      (BitVec.extractLsb'_append_eq_of_le (by decide)).trans BitVec.extractLsb'_eq_self
    have hsz : (sz != .b) = true := by simpa [EA.inClass, EA.isAn, EA.isPcRel, EA.isImm] using h
    simp [tst020Field, hmode, hsz]
  | pcDisp | pcIndex | imm => simp [tst020Field, EA.mode, EA.reg]
  | _ => cases h

theorem tst {sz : Size} (hss : ss = sz.code) :
    IsRow m (opWord 4 5 false ss mode reg) (Sys2Proof.decodeLine4 5 false ss mode reg ws)
      (Sys2Proof.decodeLine4 5 false ss mode reg ws') := by
  subst hss
  have hform (ws : List HWord) : Sys2Proof.decodeLine4 5 false sz.code mode reg ws =
      (eaRow .dataAlterable sz mode reg ws (.tst sz)).or (eaRow .tst020 sz mode reg ws fun _ => .tst020 sz (mode ++ reg)) := by
    simp only [Sys2Proof.decodeLine4, decodeSize_code, Bool.false_eq_true, if_false]
    show (match eaRow .dataAlterable sz mode reg ws (.tst sz) with | some i => some i | none => _) = _
    cases eaRow .dataAlterable sz mode reg ws (.tst sz) <;> rfl
  rw [hform, hform]
  refine .or (.ea fun e e' h he => ⟨h, rfl, he, rfl, active⟩) (ea_of fun e e' hmode hreg h he => ?_)
  subst hmode hreg
  exact ⟨tst020Field_of_inClass (Bool.and_eq_true_iff.1 h).1, ea6Word_append .., rfl, rfl, active⟩

theorem decodeLine4 (r : BitVec 3) (b : Bool) (ss : BitVec 2) (mode reg : BitVec 3) (ws ws' : List HWord) :
    IsRow m (opWord 4 r b ss mode reg) (Sys2Proof.decodeLine4 r b ss mode reg ws)
      (Sys2Proof.decodeLine4 r b ss mode reg ws') := by
  cases b
  case true =>
    rcases bitVec2_cases ss with rfl | rfl | rfl | rfl
    · exact .some ⟨rfl, ea6Word_append .., rfl, rfl, active⟩
    · exact .none
    · exact .ea fun e e' h he => ⟨h, rfl, he, rfl, active⟩
    · refine .ite (fun h => ?_) fun _ => .ea fun e e' h he => ⟨h, rfl, he, rfl, active⟩
      obtain ⟨rfl, rfl⟩ := h
      exact .some ⟨rfl, rfl, rfl, rfl, active⟩
  case false =>
    rcases bitVec3_cases r with rfl | rfl | rfl | rfl | rfl | rfl | rfl | rfl
    case inr.inr.inr.inr.inl => exact decodeLine4Misc ss mode reg ws ws'
    case inr.inr.inr.inr.inr.inl =>
      rcases bitVec2_cases ss with rfl | rfl | rfl | rfl
      · exact tst (sz := .b) rfl
      · exact tst (sz := .w) rfl
      · exact tst (sz := .l) rfl
      · refine .ite (fun h => ?_) fun _ => .ea fun e e' h he => ⟨h, rfl, he, rfl, active⟩
        exact word h ⟨rfl, (by decide : 0x4AFC = opWord 4 5 false 3 7 4), rfl, rfl, active⟩
    case inr.inr.inr.inr.inr.inr.inl =>
      rcases bitVec2_cases ss with rfl | rfl | rfl | rfl
      · exact .some ⟨rfl, ea6Word_append .., rfl, rfl, active⟩
      · exact .some ⟨rfl, ea6Word_append .., rfl, rfl, active⟩
      · exact .ea fun e e' h he => ⟨h, rfl, congrArg (· + 1) he, rfl, active⟩
      · exact .ea fun e e' h he => ⟨h, rfl, congrArg (· + 1) he, rfl, active⟩
    case inr.inr.inr.inr.inr.inr.inr =>
      rcases bitVec2_cases ss with rfl | rfl | rfl | rfl
      · exact .none
      · exact decodeControl mode reg ws ws'
      · exact .ea fun e e' h he => ⟨h, rfl, he, rfl, active⟩
      · exact .ea fun e e' h he => ⟨h, rfl, he, rfl, active⟩
    all_goals
      rcases bitVec2_cases ss with rfl | rfl | rfl | rfl <;>
      exact .ea fun e e' h he => ⟨h, rfl, he, rfl, active⟩

/-! ### Lines 5 to 7 -/

theorem decodeLine5 (r : BitVec 3) (b : Bool) (ss : BitVec 2) (mode reg : BitVec 3) (ws ws' : List HWord) :
    IsRow m (opWord 5 r b ss mode reg) (Sys2Proof.decodeLine5 r b ss mode reg ws)
      (Sys2Proof.decodeLine5 r b ss mode reg ws') := by
  rcases bitVec2_cases ss with rfl | rfl | rfl | rfl
  case inr.inr.inr =>
    refine .ite (fun h => ?_) fun _ => .ite (fun h => ?_) fun _ => .ea fun e e' h he => ⟨h, ?_, he, rfl, active⟩
    · subst h
      exact .some ⟨rfl, by rw [Instr.opcode, high_ofCode, low_ofCode]; rfl, rfl, rfl, active⟩
    · obtain ⟨rfl, h⟩ := h
      exact .some ⟨by simpa [Instr.wellFormed, or_assoc] using h, by rw [Instr.opcode, high_ofCode, low_ofCode], rfl, rfl, active⟩
    · rw [Instr.opcode, high_ofCode, low_ofCode]; rfl
  all_goals cases b <;> exact .ea fun e e' h he => ⟨h, rfl, he, rfl, active⟩

theorem branchWord_append (r : BitVec 3) (b : Bool) (ss : BitVec 2) (mode reg : BitVec 3) :
    branchWord (r ++ BitVec.ofBool b) (ss ++ mode ++ reg) = opWord 6 r b ss mode reg := by
  apply BitVec.eq_of_toNat_eq
  simp only [branchWord, opWord, BitVec.toNat_append, Nat.shiftLeft_or_distrib, ← Nat.shiftLeft_add, Nat.or_assoc]
  rfl

theorem decodeLine6 (cc : BitVec 4) (d : BitVec 8) (ws ws' : List HWord) :
    IsRow m (branchWord cc d) (Sys2Proof.decodeLine6 m cc d ws) (Sys2Proof.decodeLine6 m cc d ws') := by
  refine .ite (fun h => ?_) fun h => ?_
  · obtain ⟨rfl, h020⟩ := h
    exact .some ⟨rfl, by rw [Instr.opcode, Machine.code_ofCode], rfl, rfl, active⟩
  · have hfield (ws : List HWord) : (decodeBranchDisp d ws).field = d := by
      unfold decodeBranchDisp
      split
      · exact (‹d = 0›).symm
      · rfl
    have hok : (decodeBranchDisp d ws).ok = true := by
      unfold decodeBranchDisp
      split
      · rfl
      · simpa [BranchDisp.ok]
    have hlen : (decodeBranchDisp d ws).exts.length = (decodeBranchDisp d ws').exts.length := by
      unfold decodeBranchDisp
      split <;> rfl
    have hskip : ∀ b, decodeBranchDisp d ws = .short b → (!(b == 0xFF && m.is020plus)) = true := by
      rintro b hb
      have hd : b = d := by rw [← hfield ws, hb]; rfl
      rw [hd]
      cases hb : d == 0xFF && m.is020plus with
      | false => rfl
      | true => exact absurd (by simpa using hb) h
    have hactive (i : Instr) (hi : ∃ c, i = .bra (decodeBranchDisp d ws) ∨ i = .bsr (decodeBranchDisp d ws) ∨
        i = .bcc c (decodeBranchDisp d ws)) : i.decodesOn m = true := by
      cases hdisp : decodeBranchDisp d ws with
      | short b =>
        rw [hdisp] at hi
        obtain ⟨c, rfl | rfl | rfl⟩ := hi <;> exact hskip b hdisp
      | word v =>
        rw [hdisp] at hi
        obtain ⟨c, rfl | rfl | rfl⟩ := hi <;> rfl
    obtain ⟨cond, rfl⟩ : ∃ cond : Cond, cond.code = cc := ⟨Cond.ofCode cc, Machine.code_ofCode cc⟩
    have hword (cc : BitVec 4) : branchWord cc (decodeBranchDisp d ws).field = branchWord cc d := by rw [hfield]
    cases cond
    case t => exact .some ⟨hok, hword _, hlen, rfl, fun _ => hactive _ ⟨.t, .inl rfl⟩⟩
    case f => exact .some ⟨hok, hword _, hlen, rfl, fun _ => hactive _ ⟨.t, .inr (.inl rfl)⟩⟩
    all_goals
      exact .some ⟨congrArg (fun x => x && true && true) hok, hword _, hlen, rfl, fun _ => hactive _ ⟨_, .inr (.inr rfl)⟩⟩

theorem decodeLine7 (r : BitVec 3) (b : Bool) (ss : BitVec 2) (mode reg : BitVec 3) :
    IsRow m (opWord 7 r b ss mode reg) (if b then none else some (.moveq (ss ++ mode ++ reg) r.toFin))
      (if b then none else some (.moveq (ss ++ mode ++ reg) r.toFin)) := by
  cases b
  · have hss : (ss ++ mode ++ reg : BitVec 8).extractLsb' 6 2 = ss := by
      iterate 1 rw [BitVec.extractLsb'_append_eq_of_le (by decide)]
      exact BitVec.extractLsb'_append_eq_left
    have hmode : (ss ++ mode ++ reg : BitVec 8).extractLsb' 3 3 = mode := by
      rw [BitVec.extractLsb'_append_eq_of_le (by decide)]
      exact BitVec.extractLsb'_append_eq_right
    have hreg : (ss ++ mode ++ reg : BitVec 8).extractLsb' 0 3 = reg := BitVec.extractLsb'_append_eq_right
    exact .some ⟨rfl, by rw [Instr.opcode, hss, hmode, hreg]; rfl, rfl, rfl, active⟩
  · exact .none

/-! ### Lines 8 to 14 -/

/-- The rows that share their line by mode: two of registers, and the rest with an operand. -/
theorem byMode {o0 o0' o1 o1' o2 o2' : Option Instr} (h0 : IsRow m (opWord line r b ss 0 reg) o0 o0')
    (h1 : IsRow m (opWord line r b ss 1 reg) o1 o1') (h2 : IsRow m (opWord line r b ss mode reg) o2 o2') :
    IsRow m (opWord line r b ss mode reg) (if mode = 0 then o0 else if mode = 1 then o1 else o2)
      (if mode = 0 then o0' else if mode = 1 then o1' else o2') :=
  .ite (fun h => h ▸ h0) fun _ => .ite (fun h => h ▸ h1) fun _ => h2

theorem decodeLine8 (r : BitVec 3) (b : Bool) (ss : BitVec 2) (mode reg : BitVec 3) (ws ws' : List HWord) :
    IsRow m (opWord 8 r b ss mode reg) (Sys2Proof.decodeLine8 r b ss mode reg ws)
      (Sys2Proof.decodeLine8 r b ss mode reg ws') := by
  rcases bitVec2_cases ss with rfl | rfl | rfl | rfl <;> cases b
  case inr.inr.inr.true | inr.inr.inr.false => exact .ea fun e e' h he => ⟨h, rfl, he, rfl, active⟩
  case inl.false | inr.inl.false | inr.inr.inl.false => exact .ea fun e e' h he => ⟨h, rfl, he, rfl, active⟩
  all_goals
    exact byMode (.some ⟨rfl, rfl, rfl, rfl, active⟩) (.some ⟨rfl, rfl, rfl, rfl, active⟩)
      (.ea fun e e' h he => ⟨h, rfl, he, rfl, active⟩)

theorem decodeLine9 (r : BitVec 3) (b : Bool) (ss : BitVec 2) (mode reg : BitVec 3) (ws ws' : List HWord) :
    IsRow m (opWord 9 r b ss mode reg) (Sys2Proof.decodeLine9 r b ss mode reg ws)
      (Sys2Proof.decodeLine9 r b ss mode reg ws') := by
  rcases bitVec2_cases ss with rfl | rfl | rfl | rfl <;> cases b
  case inr.inr.inr.true | inr.inr.inr.false => exact .ea fun e e' h he => ⟨h, rfl, he, rfl, active⟩
  case inl.false | inr.inl.false | inr.inr.inl.false => exact .ea fun e e' h he => ⟨h, rfl, he, rfl, active⟩
  all_goals
    exact byMode (.some ⟨rfl, rfl, rfl, rfl, active⟩) (.some ⟨rfl, rfl, rfl, rfl, active⟩)
      (.ea fun e e' h he => ⟨h, rfl, he, rfl, active⟩)

theorem decodeLineB (r : BitVec 3) (b : Bool) (ss : BitVec 2) (mode reg : BitVec 3) (ws ws' : List HWord) :
    IsRow m (opWord 11 r b ss mode reg) (Sys2Proof.decodeLineB r b ss mode reg ws)
      (Sys2Proof.decodeLineB r b ss mode reg ws') := by
  rcases bitVec2_cases ss with rfl | rfl | rfl | rfl <;> cases b
  case inr.inr.inr.true | inr.inr.inr.false => exact .ea fun e e' h he => ⟨h, rfl, he, rfl, active⟩
  case inl.false | inr.inl.false | inr.inr.inl.false => exact .ea fun e e' h he => ⟨h, rfl, he, rfl, active⟩
  all_goals
    refine .ite (fun h => ?_) fun _ => .ea fun e e' h he => ⟨h, rfl, he, rfl, active⟩
    subst h
    exact .some ⟨rfl, rfl, rfl, rfl, active⟩

theorem decodeLineC (r : BitVec 3) (b : Bool) (ss : BitVec 2) (mode reg : BitVec 3) (ws ws' : List HWord) :
    IsRow m (opWord 12 r b ss mode reg) (Sys2Proof.decodeLineC r b ss mode reg ws)
      (Sys2Proof.decodeLineC r b ss mode reg ws') := by
  rcases bitVec2_cases ss with rfl | rfl | rfl | rfl <;> cases b
  case inr.inr.inr.true | inr.inr.inr.false => exact .ea fun e e' h he => ⟨h, rfl, he, rfl, active⟩
  case inl.false | inr.inl.false | inr.inr.inl.false => exact .ea fun e e' h he => ⟨h, rfl, he, rfl, active⟩
  case inr.inr.inl.true =>
    exact byMode .none (.some ⟨rfl, rfl, rfl, rfl, active⟩) (.ea fun e e' h he => ⟨h, rfl, he, rfl, active⟩)
  all_goals
    exact byMode (.some ⟨rfl, rfl, rfl, rfl, active⟩) (.some ⟨rfl, rfl, rfl, rfl, active⟩)
      (.ea fun e e' h he => ⟨h, rfl, he, rfl, active⟩)

theorem decodeLineD (r : BitVec 3) (b : Bool) (ss : BitVec 2) (mode reg : BitVec 3) (ws ws' : List HWord) :
    IsRow m (opWord 13 r b ss mode reg) (Sys2Proof.decodeLineD r b ss mode reg ws)
      (Sys2Proof.decodeLineD r b ss mode reg ws') := by
  rcases bitVec2_cases ss with rfl | rfl | rfl | rfl <;> cases b
  case inr.inr.inr.true | inr.inr.inr.false => exact .ea fun e e' h he => ⟨h, rfl, he, rfl, active⟩
  case inl.false | inr.inl.false | inr.inr.inl.false => exact .ea fun e e' h he => ⟨h, rfl, he, rfl, active⟩
  all_goals
    exact byMode (.some ⟨rfl, rfl, rfl, rfl, active⟩) (.some ⟨rfl, rfl, rfl, rfl, active⟩)
      (.ea fun e e' h he => ⟨h, rfl, he, rfl, active⟩)

theorem decodeLineE (r : BitVec 3) (b : Bool) (ss : BitVec 2) (mode reg : BitVec 3) (ws ws' : List HWord) :
    IsRow m (opWord 14 r b ss mode reg) (Sys2Proof.decodeLineE r b ss mode reg ws)
      (Sys2Proof.decodeLineE r b ss mode reg ws') := by
  rcases bitVec2_cases ss with rfl | rfl | rfl | rfl
  case inr.inr.inr =>
    rcases bitVec3_cases r with rfl | rfl | rfl | rfl | rfl | rfl | rfl | rfl
    iterate 4 cases b <;> exact .ea fun e e' h he => ⟨h, rfl, he, rfl, active⟩
    all_goals cases b <;> exact .some ⟨rfl, ea6Word_append .., rfl, rfl, active⟩
  all_goals
    rcases bitVec3_cases mode with rfl | rfl | rfl | rfl | rfl | rfl | rfl | rfl <;> cases b <;>
    exact .some ⟨rfl, rfl, rfl, rfl, active⟩

/-! ### All lines -/

theorem decodeFields (line : BitVec 4) (r : BitVec 3) (b : Bool) (ss : BitVec 2) (mode reg : BitVec 3) (ws ws' : List HWord) :
    IsRow m (opWord line r b ss mode reg) (Sys2Proof.decodeFields m line r b ss mode reg ws)
      (Sys2Proof.decodeFields m line r b ss mode reg ws') := by
  have hlines : ∀ v : BitVec 4, v = 0 ∨ v = 1 ∨ v = 2 ∨ v = 3 ∨ v = 4 ∨ v = 5 ∨ v = 6 ∨ v = 7 ∨ v = 8 ∨ v = 9 ∨ v = 10 ∨
      v = 11 ∨ v = 12 ∨ v = 13 ∨ v = 14 ∨ v = 15 := by decide
  rcases hlines line with rfl | rfl | rfl | rfl | rfl | rfl | rfl | rfl | rfl | rfl | rfl | rfl | rfl | rfl | rfl | rfl
  · exact decodeLine0 r b ss mode reg ws ws'
  · exact decodeMove .b r b ss mode reg ws ws'
  · exact decodeMove .l r b ss mode reg ws ws'
  · exact decodeMove .w r b ss mode reg ws ws'
  · exact decodeLine4 r b ss mode reg ws ws'
  · exact decodeLine5 r b ss mode reg ws ws'
  · rw [← branchWord_append]
    exact decodeLine6 _ _ ws ws'
  · exact decodeLine7 r b ss mode reg
  · exact decodeLine8 r b ss mode reg ws ws'
  · exact decodeLine9 r b ss mode reg ws ws'
  · exact .some ⟨rfl, lineWord_append .., rfl, rfl, active⟩
  · exact decodeLineB r b ss mode reg ws ws'
  · exact decodeLineC r b ss mode reg ws ws'
  · exact decodeLineD r b ss mode reg ws ws'
  · exact decodeLineE r b ss mode reg ws ws'
  · exact .some ⟨rfl, lineWord_append .., rfl, rfl, active⟩

end IsRow

/-- What two lists of extension words make of an opcode word (R303, R340). -/
theorem decode_rel (m : Model) (ir : HWord) (ws ws' : List HWord) :
    (∃ i j, decode m ir ws = .ok i ∧ decode m ir ws' = .ok j ∧ i.columns.1.contain m = true ∧ DecodesTo m ir i j) ∨
      ∃ e, decode m ir ws = .error e ∧ decode m ir ws' = .error e := by
  have hrow := IsRow.decodeFields (m := m) (ir.extractLsb' 12 4) (ir.extractLsb' 9 3) (ir.getLsbD 8) (ir.extractLsb' 6 2)
    (ir.extractLsb' 3 3) (ir.extractLsb' 0 3) ws ws'
  rw [opWord_fields] at hrow
  unfold decode
  generalize decodeFields m (ir.extractLsb' 12 4) (ir.extractLsb' 9 3) (ir.getLsbD 8) (ir.extractLsb' 6 2)
    (ir.extractLsb' 3 3) (ir.extractLsb' 0 3) ws = o, decodeFields m (ir.extractLsb' 12 4) (ir.extractLsb' 9 3) (ir.getLsbD 8)
    (ir.extractLsb' 6 2) (ir.extractLsb' 3 3) (ir.extractLsb' 0 3) ws' = o' at hrow
  cases hrow with
  | none => exact .inr ⟨_, rfl, rfl⟩
  | @some i j h =>
    cases hm : i.columns.1.contain m with
    | true => exact .inl ⟨i, j, if_pos hm, if_pos (h.models ▸ hm), hm, h⟩
    | false => exact .inr ⟨_, if_neg (by simp [hm]), if_neg (by simp [← h.models, hm])⟩

/-- Settles O2: both lists of extension words make the same row of the word, so the first says what is well formed and the two
together what does not depend on them. -/
theorem decodedInstructionsAreWellFormed : Obligations.DecodedInstructionsAreWellFormed := by
  intro m ir ws ws'
  rcases decode_rel m ir ws ws' with ⟨i, j, hi, hj, hm, h⟩ | ⟨e, he, he'⟩
  · refine ⟨fun k hk => ?_, ?_⟩
    · obtain rfl : i = k := by simpa [hi] using hk
      exact ⟨h.wf, h.active hm, h.opcode⟩
    · rw [hi, hj]
      have hle := Laws.Lengths.exts_le i
      exact ⟨congrArg (· + 1) h.length, Nat.le_add_left .., Nat.succ_le_succ hle⟩
  · refine ⟨fun k hk => by simp [he] at hk, ?_⟩
    rw [he, he']

end Sys2Proof
end

section
/-! The model's stop on an operand outside its row's class (log entry 8): no part of a step reaches it but an address asked of an
operand that has none, and a write to an operand that cannot be written. -/

namespace Sys2Proof.Machine

variable {α β : Type}

/-- The part of a step does not end in the model's fault. -/
def NoFault (x : Exec α) : Prop := ∀ s f t, x s ≠ .error (.fault f) t

namespace NoFault

theorem bind {x : Exec α} {f : α → Exec β} (hx : NoFault x) (hf : ∀ a, NoFault (f a)) : NoFault (x >>= f) := by
  intro s r t h
  rw [run_bind] at h
  cases hs : x s with
  | ok a u => rw [hs] at h; exact hf a u r t h
  | error e u => rw [hs] at h; cases h; exact hx s r _ hs

theorem pure (a : α) : NoFault (Pure.pure a : Exec α) := fun _ _ _ h => by cases h
theorem look (f : State → α) : NoFault (Machine.look f) := fun _ _ _ h => by cases h
theorem update (f : State → State) : NoFault (Machine.update f) := fun _ _ _ h => by cases h
theorem refuse (r : Refusal) : NoFault (Machine.refuse r : Exec α) := fun _ _ _ h => by cases h
theorem halt : NoFault (Machine.halt : Exec α) := fun _ _ _ h => by cases h
theorem drawBit : NoFault Machine.drawBit := fun _ _ _ h => by cases h
theorem drawByte : NoFault Machine.drawByte := fun _ _ _ h => by cases h
theorem drawLong : NoFault Machine.drawLong := fun _ _ _ h => by cases h
theorem getD (n : Reg) (sz : Size) : NoFault (Machine.getD n sz) := look _
theorem putD (n : Reg) (sz : Size) (v : Long) : NoFault (Machine.putD n sz v) := update _
theorem getA (n : Reg) : NoFault (Machine.getA n) := look _
theorem putA (n : Reg) (v : Long) : NoFault (Machine.putA n v) := update _
theorem getR (k : RegR) : NoFault (Machine.getR k) := look _
theorem putR (k : RegR) (v : Long) : NoFault (Machine.putR k v) := update _
theorem getPc : NoFault Machine.getPc := look _
theorem putPc (v : Long) : NoFault (Machine.putPc v) := update _
theorem getFlags : NoFault Machine.getFlags := look _
theorem putFlags (f : Ccr) : NoFault (Machine.putFlags f) := update _
theorem getModel : NoFault Machine.getModel := look _

theorem ended : NoFault (Machine.stopWith .ended : Exec α) := fun _ _ _ h => by cases h

theorem ite {c : Prop} [Decidable c] {x y : Exec α} (hx : NoFault x) (hy : NoFault y) : NoFault (if c then x else y) := by
  split
  · exact hx
  · exact hy

theorem setSR (v : HWord) : NoFault (Machine.setSR v) := bind getModel fun _ => ite (refuse _) (update _)

/-! ### Memory, the stack, exceptions -/

theorem memReadFC (addr : Long) (sz : Size) (fc : BitVec 3) : NoFault (Machine.memReadFC addr sz fc) := by
  intro s f t h
  rw [run_memReadFC] at h
  split at h
  · cases h
  · split at h <;> cases h

theorem memWriteFC (addr : Long) (sz : Size) (fc : BitVec 3) (v : Long) : NoFault (Machine.memWriteFC addr sz fc v) := by
  intro s f t h
  rw [run_memWriteFC] at h
  split at h
  · cases h
  · split at h <;> cases h

theorem memRead (addr : Long) (sz : Size) : NoFault (Machine.memRead addr sz) := bind (look _) fun _ => memReadFC _ _ _
theorem memWrite (addr : Long) (sz : Size) (v : Long) : NoFault (Machine.memWrite addr sz v) :=
  bind (look _) fun _ => memWriteFC _ _ _ _
theorem push (sz : Size) (v : Long) : NoFault (Machine.push sz v) :=
  bind (getA _) fun _ => bind (putA _ _) fun _ => memWrite _ _ _
theorem pop (sz : Size) : NoFault (Machine.pop sz) :=
  bind (getA _) fun _ => bind (memRead _ _) fun _ => bind (putA _ _) fun _ => pure _

theorem pushFrame (vec : Nat) (p : Long) (ia : Option Long) (old : HWord) : NoFault (Machine.pushFrame vec p ia old) := by
  refine bind getModel fun m => ite (bind (push _ _) fun _ => push _ _) ?_
  split
  · exact bind (push _ _) fun _ => bind (push _ _) fun _ => bind (push _ _) fun _ => push _ _
  · exact bind (push _ _) fun _ => bind (push _ _) fun _ => push _ _

theorem enterException (vec : Nat) (p : Long) (ia : Option Long) : NoFault (Machine.enterException vec p ia) := by
  refine bind (look _) fun mode => ?_
  cases mode with
  | halt => exact halt
  | vector =>
    exact bind (look _) fun _ => bind (setSR _) fun _ => bind (pushFrame _ _ _ _) fun _ => bind (look _) fun _ =>
      bind (memReadFC _ _ _) fun _ => putPc _

theorem raise (vec : Nat) (p : Long) (ia : Option Long) : NoFault (Machine.raise vec p ia : Exec α) :=
  bind (enterException _ _ _) fun _ => ended

theorem restoreFrame (size : Long) : NoFault (Machine.restoreFrame size) :=
  bind (getA _) fun _ => bind (memRead _ _) fun _ => bind (memRead _ _) fun _ => bind (putA _ _) fun _ =>
    bind (setSR _) fun _ => putPc _

theorem returnFromException (ia : Long) : NoFault (Machine.returnFromException ia) := by
  refine bind getModel fun m => ite (restoreFrame _) (bind (getA _) fun _ => bind (memRead _ _) fun _ => ?_)
  split
  · exact restoreFrame _
  · exact refuse _
  · exact raise _ _ _

/-! ### Operands (R411, R418, R419) -/

theorem indexValue (x : IndexExt) : NoFault (Machine.indexValue x) :=
  bind (getR _) fun _ => bind getModel fun _ => ite (ite (refuse _) (pure _)) (pure _)

theorem addrOf {e : EA} (he : e.isControl = true) (xa : Long) : NoFault (Machine.addrOf xa e) := by
  cases e with
  | dn | an | postinc | predec | imm => cases he
  | ind => exact getA _
  | disp => exact bind (getA _) fun _ => pure _
  | index => exact bind (getA _) fun _ => bind (indexValue _) fun _ => pure _
  | pcIndex => exact bind (indexValue _) fun _ => pure _
  | absW | absL | pcDisp => exact pure _

theorem postincrement (n : Reg) (sz : Size) : NoFault (Machine.postincrement n sz) :=
  bind (getA _) fun _ => bind (putA _ _) fun _ => pure _

theorem predecrement (n : Reg) (sz : Size) : NoFault (Machine.predecrement n sz) :=
  bind (getA _) fun _ => bind (putA _ _) fun _ => pure _

/-- Every operand resolves: an address is asked only of the modes that have one. -/
theorem resolveEA (xa : Long) (e : EA) (sz : Size) : NoFault (Machine.resolveEA xa e sz) := by
  cases e with
  | dn | an | imm => exact pure _
  | postinc => exact bind (postincrement _ _) fun _ => pure _
  | predec => exact bind (predecrement _ _) fun _ => pure _
  | ind | disp | index | absW | absL | pcDisp | pcIndex => exact bind (addrOf rfl xa) fun _ => pure _

theorem readMem (a : Long) (sp : Space) (sz : Size) : NoFault (Machine.readMem a sp sz) :=
  bind (look _) fun _ => memReadFC _ _ _

theorem readLoc (l : Loc) (sz : Size) : NoFault (Machine.readLoc l sz) := by
  cases l with
  | regD => exact getD _ _
  | regA => exact bind (getA _) fun _ => pure _
  | mem => exact readMem _ _ _
  | imm => exact pure _

theorem readEA (xa : Long) (e : EA) (sz : Size) : NoFault (Machine.readEA xa e sz) :=
  bind (resolveEA _ _ _) fun _ => readLoc _ _

end NoFault

/-- A location that can be written (R419). -/
def Loc.writable : Loc → Prop
  | .regD _ | .regA _ | .mem _ .data => True
  | .mem _ .program | .imm _ => False

namespace NoFault

theorem writeLoc {l : Loc} (h : l.writable) (sz : Size) (v : Long) : NoFault (Machine.writeLoc l sz v) := by
  cases l with
  | regD => exact putD _ _ _
  | regA => exact putA _ _
  | mem a sp =>
    cases sp with
    | data => exact memWrite _ _ _
    | program => cases h
  | imm => cases h

/-- An operand that can be written resolves to a location that can (R411, R418); so does an address register. -/
theorem writable_of_resolveEA {xa : Long} {e : EA} {sz : Size} (he : (e.isDataAlterable || e.isAn) = true) {s t : State} {l : Loc}
    (h : Machine.resolveEA xa e sz s = .ok l t) : l.writable := by
  have mem {x : Exec Long} (h : (do let a ← x; return Loc.mem a .data : Exec Loc) s = .ok l t) : l.writable := by
    obtain ⟨a, u, -, h⟩ := bind_ok h
    cases h
    trivial
  cases e with
  | dn | an => cases h; trivial
  | pcDisp | pcIndex | imm => cases he
  | ind | postinc | predec | disp | index | absW | absL => exact mem h

/-- An operand that can be written is resolved, and then something is done to its location. -/
theorem withDestination {xa : Long} {e : EA} {sz : Size} {f : Loc → Exec β} (he : (e.isDataAlterable || e.isAn) = true)
    (hf : ∀ l, l.writable → NoFault (f l)) : NoFault (Machine.resolveEA xa e sz >>= f) := by
  intro s r t h
  rw [run_bind] at h
  cases hs : Machine.resolveEA xa e sz s with
  | ok l u => rw [hs] at h; exact hf l (writable_of_resolveEA he hs) u r t h
  | error c u => rw [hs] at h; cases h; exact resolveEA xa e sz s r _ hs

theorem memoryAddress {xa : Long} {e : EA} {sz : Size} (he : e.isMemoryAlterable = true) :
    NoFault (Machine.memoryAddress xa e sz) := by
  have mem {x : Exec Long} (hx : NoFault x) : NoFault (do
      let l ← (do let a ← x; return Loc.mem a .data : Exec Loc)
      match l with
      | .mem a _ => return a
      | .regD _ | .regA _ | .imm _ => Machine.stopWith (.fault .operandNotInClass) : Exec Long) := by
    intro s r t h
    simp only [run_bind] at h
    cases hs : x s with
    | ok a u => rw [hs] at h; cases h
    | error c u => rw [hs] at h; cases h; exact hx s r _ hs
  cases e with
  | dn | an | pcDisp | pcIndex | imm => cases he
  | postinc => exact mem (postincrement _ _)
  | predec => exact mem (predecrement _ _)
  | ind | disp | index | absW | absL => exact mem (addrOf rfl xa)

end NoFault

end Sys2Proof.Machine
end

section
/-! No step ends in the model's fault (log entries 8, 9): the meaning of every well-formed instruction accesses its operands as
their class allows, and what decodes is well formed. -/

namespace Sys2Proof.Machine

/-! ### What a class says of an operand (R411) -/

theorem alterable_of_fits {e : EA} {sz : Size} {c : EAClass} (h : e.fits sz c = true)
    (hc : c = .dataAlterable ∨ c = .alterableNoAnByte ∨ c = .memoryAlterable := by decide) :
    (e.isDataAlterable || e.isAn) = true := by
  obtain ⟨hclass, -⟩ := Bool.and_eq_true_iff.1 h
  cases e with
  | pcDisp | pcIndex | imm => rcases hc with rfl | rfl | rfl <;> cases hclass
  | dn | an | ind | postinc | predec | disp | index | absW | absL => rfl

theorem inClass_of_fits {e : EA} {sz : Size} {c : EAClass} (h : e.fits sz c = true) : e.inClass sz c = true :=
  (Bool.and_eq_true_iff.1 h).1

theorem control_of_fits {e : EA} {sz : Size} (h : e.fits sz .control = true) : e.isControl = true :=
  (Bool.and_eq_true_iff.1 h).1

theorem memory_of_fits {e : EA} {sz : Size} (h : e.fits sz .memoryAlterable = true) : e.isMemoryAlterable = true :=
  (Bool.and_eq_true_iff.1 h).1

namespace NoFault

/-! ### The shared parts of the handlers -/

theorem flagsThenWrite {l : Loc} (hl : l.writable) (sz : Size) (a : Alu) : NoFault (Machine.flagsThenWrite l sz a) :=
  bind (putFlags _) fun _ => writeLoc hl _ _

theorem writeThenLogic {l : Loc} (hl : l.writable) (sz : Size) (r : Long) : NoFault (Machine.writeThenLogic l sz r) :=
  bind (writeLoc hl _ _) fun _ => bind getFlags fun _ => putFlags _

section

variable {ea : EA} (hea : (ea.isDataAlterable || ea.isAn) = true)
include hea

theorem writeEA (xa : Long) (sz : Size) (v : Long) : NoFault (Machine.writeEA xa ea sz v) :=
  withDestination hea fun _ hl => writeLoc hl _ _

theorem arithToEA (op : BinOp) (sz : Size) (xa v : Long) : NoFault (Machine.arithToEA op sz xa ea v) :=
  withDestination hea fun _ hl => bind (readLoc _ _) fun _ => bind getFlags fun _ => flagsThenWrite hl _ _

theorem arithFromDn (op : BinOp) (sz : Size) (xa : Long) (dn : Reg) : NoFault (Machine.arithFromDn op sz xa dn ea) :=
  bind (getD _ _) fun _ => arithToEA hea _ _ _ _

theorem arithUnary (op : UnOp) (sz : Size) (xa : Long) : NoFault (Machine.arithUnary op sz xa ea) :=
  withDestination hea fun _ hl => bind (readLoc _ _) fun _ => bind getFlags fun _ => flagsThenWrite hl _ _

theorem logicToEA (op : Long → Long → Long) (sz : Size) (xa v : Long) : NoFault (Machine.logicToEA op sz xa ea v) :=
  withDestination hea fun _ hl => bind (readLoc _ _) fun _ => writeThenLogic hl _ _

theorem logicFromDn (op : Long → Long → Long) (sz : Size) (xa : Long) (dn : Reg) :
    NoFault (Machine.logicFromDn op sz xa dn ea) := bind (getD _ _) fun _ => logicToEA hea _ _ _ _

theorem shiftMem (k : ShiftKind) (xa : Long) : NoFault (Machine.shiftMem k xa ea) :=
  withDestination hea fun _ hl => bind (readLoc _ _) fun _ => bind getFlags fun _ => bind (putFlags _) fun _ =>
    writeLoc hl _ _

theorem bitUpdate (op : Long → Nat → Long) (xa b : Long) : NoFault (Machine.bitUpdate op xa b ea) :=
  withDestination hea fun _ hl => bind (readLoc _ _) fun _ => bind getFlags fun _ => bind (putFlags _) fun _ =>
    writeLoc hl _ _

end

theorem arithToDn (op : BinOp) (sz : Size) (xa : Long) (ea : EA) (dn : Reg) : NoFault (Machine.arithToDn op sz xa ea dn) :=
  bind (readEA _ _ _) fun _ => bind (getD _ _) fun _ => bind getFlags fun _ => flagsThenWrite (l := .regD dn) trivial _ _

theorem extendedReg (op : BinOp) (sz : Size) (dy dx : Reg) : NoFault (Machine.extendedReg op sz dy dx) :=
  bind (getD _ _) fun _ => bind (getD _ _) fun _ => bind getFlags fun _ => flagsThenWrite (l := .regD dx) trivial _ _

theorem extendedMem (op : BinOp) (sz : Size) (ay ax : Reg) : NoFault (Machine.extendedMem op sz ay ax) :=
  bind (predecrement _ _) fun _ => bind (readMem _ _ _) fun _ => bind (predecrement _ _) fun ad =>
    bind (readMem _ _ _) fun _ => bind getFlags fun _ => flagsThenWrite (l := .mem ad .data) trivial _ _

theorem multiply (op : Long → Long → Long) (xa : Long) (ea : EA) (dn : Reg) : NoFault (Machine.multiply op xa ea dn) :=
  bind (readEA _ _ _) fun _ => bind (getD _ _) fun _ => bind (putD _ _ _) fun _ => bind getFlags fun _ => putFlags _

theorem divide (op : Long → Long → Division) (ia : Long) (ea : EA) (dn : Reg) : NoFault (Machine.divide op ia ea dn) := by
  refine bind (readEA _ _ _) fun v => bind (getD _ _) fun d => ?_
  cases op v d with
  | zeroDivide =>
    exact bind drawBit fun _ => bind drawBit fun _ => bind drawBit fun _ => bind getFlags fun _ => bind (putFlags _) fun _ =>
      bind getPc fun _ => raise _ _ _
  | overflow => exact bind drawBit fun _ => bind drawBit fun _ => bind getFlags fun _ => putFlags _
  | result q m => exact bind (putD _ _ _) fun _ => bind getFlags fun _ => putFlags _

theorem logicToDn (op : Long → Long → Long) (sz : Size) (xa : Long) (ea : EA) (dn : Reg) :
    NoFault (Machine.logicToDn op sz xa ea dn) :=
  bind (readEA _ _ _) fun _ => bind (getD _ _) fun _ => writeThenLogic (l := .regD dn) trivial _ _

theorem shiftReg (k : ShiftKind) (sz : Size) (c : ShiftCount) (dy : Reg) : NoFault (Machine.shiftReg k sz c dy) :=
  bind (look _) fun _ => bind (getD _ _) fun _ => bind getFlags fun _ => bind (putFlags _) fun _ => putD _ _ _

theorem bitTest (xa b : Long) (ea : EA) : NoFault (Machine.bitTest xa b ea) :=
  bind (readEA _ _ _) fun _ => bind getFlags fun _ => putFlags _

theorem bcdTo {l : Loc} (hl : l.writable) (op : BcdOp) (s d : Long) : NoFault (Machine.bcdTo op l s d) :=
  bind getFlags fun _ =>
    bind (ite (pure _) (bind drawByte fun _ => bind drawBit fun _ => pure _)) fun _ => bind (writeLoc hl _ _) fun _ =>
      bind drawBit fun _ => bind drawBit fun _ => bind getFlags fun _ => putFlags _

theorem bcdReg (op : BcdOp) (dy dx : Reg) : NoFault (Machine.bcdReg op dy dx) :=
  bind (getD _ _) fun _ => bind (getD _ _) fun _ => bcdTo (l := .regD dx) trivial _ _ _

theorem bcdMem (op : BcdOp) (ay ax : Reg) : NoFault (Machine.bcdMem op ay ax) :=
  bind (predecrement _ _) fun _ => bind (readMem _ _ _) fun _ => bind (predecrement _ _) fun ad =>
    bind (readMem _ _ _) fun _ => bcdTo (l := .mem ad .data) trivial _ _ _

theorem movemStoreDown (sz : Size) (mask : HWord) (ks : List RegR) (a : Long) :
    NoFault (Machine.movemStoreDown sz mask ks a) := by
  induction ks generalizing a with
  | nil => exact pure _
  | cons k ks ih => exact ite (bind (getR _) fun _ => bind (memWrite _ _ _) fun _ => ih _) (ih _)

theorem movemStoreUp (sz : Size) (mask : HWord) (ks : List RegR) (a : Long) : NoFault (Machine.movemStoreUp sz mask ks a) := by
  induction ks generalizing a with
  | nil => exact pure _
  | cons k ks ih => exact ite (bind (getR _) fun _ => bind (memWrite _ _ _) fun _ => ih _) (ih _)

theorem movemLoad (sz : Size) (sp : Space) (mask : HWord) (ks : List RegR) (a : Long) :
    NoFault (Machine.movemLoad sz sp mask ks a) := by
  induction ks generalizing a with
  | nil => exact pure _
  | cons k ks ih => exact ite (bind (readMem _ _ _) fun _ => bind (putR _ _) fun _ => ih _) (ih _)

theorem movepRead (n : Nat) (a v : Long) : NoFault (Machine.movepRead n a v) := by
  induction n generalizing a v with
  | zero => exact pure _
  | succ n ih => exact bind (memRead _ _) fun _ => ih _ _

theorem movepWrite (n : Nat) (a v : Long) : NoFault (Machine.movepWrite n a v) := by
  induction n generalizing a v with
  | zero => exact pure _
  | succ n ih => exact bind (memWrite _ _ _) fun _ => ih _ _

theorem movesStore {ea : EA} (hea : ea.isMemoryAlterable = true) (sz : Size) (rn : RegR) (xa : Long) :
    NoFault (Machine.movesStore sz rn xa ea) :=
  bind (ite (bind drawLong fun _ => pure _) (bind (getR _) fun _ => pure _)) fun _ => bind (memoryAddress hea) fun _ =>
    bind (look _) fun _ => memWriteFC _ _ _ _

theorem movesLoad {ea : EA} (hea : ea.isMemoryAlterable = true) (sz : Size) (rn : RegR) (xa : Long) :
    NoFault (Machine.movesLoad sz rn xa ea) :=
  bind (memoryAddress hea) fun _ => bind (look _) fun _ => bind (memReadFC _ _ _) fun _ => ite (putD _ _ _) (putR _ _)

theorem branchIf (cond : Cond) (target : Long) : NoFault (Machine.branchIf cond target) :=
  bind getFlags fun _ => ite (putPc _) (pure _)

theorem callTo (target : Long) : NoFault (Machine.callTo target) := bind getPc fun _ => bind (push _ _) fun _ => putPc _

/-! ### Every instruction -/

/-- The meaning of a well-formed instruction is a handler that does not fault. -/
theorem exists_handler {i : Instr} (hwf : i.wellFormed = true) :
    ∃ handler, (∀ s, exec i s = runInstr i handler s) ∧ ∀ ia, NoFault (handler ia) := by
  cases i <;> refine ⟨_, fun s => by rw [exec]; rfl, fun ia => ?_⟩
  case oriToCcr | andiToCcr | eoriToCcr => exact update _
  case oriToSr | andiToSr | eoriToSr => exact bind (look _) fun _ => setSR _
  case cas2W | cas2L | cmpiPcRel | cmp2Chk2 | rtmCallm | cas | linkL | extbL | mulL | divL | tst020 | chkL | trapcc | pack
  | unpk | bitField => exact refuse _
  case movepToReg => exact bind (getA _) fun _ => bind (movepRead _ _ _) fun _ => putD _ _ _
  case movepToMem => exact bind (getA _) fun _ => bind (getD _ _) fun _ => movepWrite _ _ _
  case btstDn => exact bind (getD _ _) fun _ => bitTest _ _ _
  case btstImm => exact bitTest _ _ _
  case bchgDn | bclrDn | bsetDn => exact bind (getD _ _) fun _ => bitUpdate (alterable_of_fits hwf) _ _ _
  case bchgImm | bclrImm | bsetImm => exact bitUpdate (alterable_of_fits hwf) _ _ _
  case ori | andi | eori => exact logicToEA (alterable_of_fits hwf) _ _ _ _
  case subi | addi => exact arithToEA (alterable_of_fits hwf) _ _ _ _
  case cmpi | tst => exact bind (readEA _ _ _) fun _ => bind getFlags fun _ => putFlags _
  case moves => exact ite (movesStore (memory_of_fits hwf) _ _ _) (movesLoad (memory_of_fits hwf) _ _ _)
  case movea => exact bind (readEA _ _ _) fun _ => putA _ _
  case move =>
    exact bind (readEA _ _ _) fun _ => bind (writeEA (alterable_of_fits (Bool.and_eq_true_iff.1 hwf).2) _ _ _) fun _ =>
      bind getFlags fun _ => putFlags _
  case illegal | lineA => exact raise _ _ _
  case reset | nop => exact pure _
  case stop => exact bind (setSR _) fun _ => update _
  case rte => exact returnFromException _
  case rtd => exact bind (pop _) fun _ => bind (getA _) fun _ => bind (putA _ _) fun _ => putPc _
  case rts => exact bind (pop _) fun _ => putPc _
  case trapv => exact bind getFlags fun _ => bind getPc fun _ => ite (raise _ _ _) (pure _)
  case rtr => exact bind (pop _) fun _ => bind (update _) fun _ => bind (pop _) fun _ => putPc _
  case movecFrom =>
    refine bind getModel fun _ => ?_
    split
    · exact update _
    · exact update _
    · exact update _
    · exact update _
    · exact refuse _
    · exact raise _ _ _
  case movecTo =>
    refine bind getModel fun _ => bind (getR _) fun _ => ?_
    split
    · exact update _
    · exact update _
    · exact update _
    · exact update _
    · exact refuse _
    · exact raise _ _ _
  case trap => exact bind getPc fun _ => raise _ _ _
  case link =>
    exact bind (getA _) fun _ => bind (push _ _) fun _ => bind (getA _) fun _ => bind (putA _ _) fun _ =>
      bind (getA _) fun _ => putA _ _
  case unlk => exact bind (getA _) fun _ => bind (putA _ _) fun _ => bind (pop _) fun _ => putA _ _
  case moveToUsp => exact bind (getA _) fun _ => update _
  case moveFromUsp => exact bind (look _) fun _ => putA _ _
  case jsr => exact bind (addrOf (control_of_fits hwf) _) fun _ => callTo _
  case jmp => exact bind (addrOf (control_of_fits hwf) _) fun _ => putPc _
  case pea => exact bind (addrOf (control_of_fits hwf) _) fun _ => push _ _
  case lea => exact bind (addrOf (control_of_fits hwf) _) fun _ => putA _ _
  case swap | extW | extL => exact bind (getD _ _) fun _ => bind (putD _ _ _) fun _ => bind getFlags fun _ => putFlags _
  case bkpt => exact update _
  case nbcd => exact withDestination (alterable_of_fits hwf) fun _ hl => bind (readLoc _ _) fun _ => bcdTo hl _ _ _
  case movemToMem sz mask ea =>
    cases ea with
    | predec => exact bind getModel fun _ => ite (refuse _) (bind (getA _) fun _ => bind (movemStoreDown _ _ _ _) fun _ => putA _ _)
    | ind | disp | index | absW | absL => exact bind (addrOf rfl _) fun _ => movemStoreUp _ _ _ _
    | dn | an | postinc | pcDisp | pcIndex | imm => cases inClass_of_fits hwf
  case movemToReg sz ea mask =>
    cases ea with
    | postinc => exact bind (getA _) fun _ => bind (movemLoad _ _ _ _ _) fun _ => putA _ _
    | ind | disp | index | absW | absL | pcDisp | pcIndex =>
      exact bind (addrOf rfl _) fun _ => bind (movemLoad _ _ _ _ _) fun _ => pure _
    | dn | an | predec | imm => cases inClass_of_fits hwf
  case moveFromSr | moveFromCcr =>
    exact withDestination (alterable_of_fits hwf) fun _ hl => bind (look _) fun _ => writeLoc hl _ _
  case negx | neg => exact arithUnary (alterable_of_fits hwf) _ _ _
  case clr => exact bind (writeEA (alterable_of_fits hwf) _ _ _) fun _ => bind getFlags fun _ => putFlags _
  case moveToCcr => exact bind (readEA _ _ _) fun _ => update _
  case moveToSr => exact bind (readEA _ _ _) fun _ => setSR _
  case notEa =>
    exact withDestination (alterable_of_fits hwf) fun _ hl => bind (readLoc _ _) fun _ => writeThenLogic hl _ _
  case tas =>
    exact withDestination (alterable_of_fits hwf) fun _ hl => bind (readLoc _ _) fun _ => bind getFlags fun _ =>
      bind (putFlags _) fun _ => writeLoc hl _ _
  case chkW =>
    exact bind (readEA _ _ _) fun _ => bind (getD _ _) fun _ => bind drawBit fun _ => bind drawBit fun _ =>
      bind drawBit fun _ => bind getFlags fun _ => bind getPc fun _ =>
        ite (bind (putFlags _) fun _ => raise _ _ _) (ite (bind (putFlags _) fun _ => raise _ _ _)
          (bind drawBit fun _ => putFlags _))
  case dbcc =>
    exact bind getFlags fun _ => ite (pure _) (bind (getD _ _) fun _ => bind (putD _ _ _) fun _ => ite (pure _) (putPc _))
  case scc => exact withDestination (alterable_of_fits hwf) fun _ hl => bind getFlags fun _ => writeLoc hl _ _
  case addq sz q ea | subq sz q ea =>
    cases ea with
    | an n => exact bind (getA _) fun _ => putA _ _
    | dn | ind | postinc | predec | disp | index | absW | absL | pcDisp | pcIndex | imm =>
      exact arithToEA (alterable_of_fits hwf) _ _ _ _
  case bccL cond =>
    cases cond with
    | t => exact putPc _
    | f => exact callTo _
    | hi | ls | cc | cs | ne | eq | vc | vs | pl | mi | ge | lt | gt | le => exact branchIf _ _
  case bra => exact putPc _
  case bsr => exact callTo _
  case bcc => exact branchIf _ _
  case moveq => exact bind (putD _ _ _) fun _ => bind getFlags fun _ => putFlags _
  case sbcdReg | abcdReg => exact bcdReg _ _ _
  case sbcdMem | abcdMem => exact bcdMem _ _ _
  case divuW | divsW => exact divide _ _ _ _
  case muluW | mulsW => exact multiply _ _ _ _
  case orEaDn | andEaDn => exact logicToDn _ _ _ _ _
  case orDnEa | andDnEa | eorDnEa => exact logicFromDn (alterable_of_fits hwf) _ _ _ _
  case subxReg | addxReg => exact extendedReg _ _ _ _
  case subxMem | addxMem => exact extendedMem _ _ _ _
  case suba | adda => exact bind (readEA _ _ _) fun _ => bind (getA _) fun _ => putA _ _
  case subEaDn | addEaDn => exact arithToDn _ _ _ _ _
  case subDnEa | addDnEa => exact arithFromDn (alterable_of_fits hwf) _ _ _ _
  case cmpm =>
    exact bind (postincrement _ _) fun _ => bind (readMem _ _ _) fun _ => bind (postincrement _ _) fun _ =>
      bind (readMem _ _ _) fun _ => bind getFlags fun _ => putFlags _
  case cmpa => exact bind (readEA _ _ _) fun _ => bind (getA _) fun _ => bind getFlags fun _ => putFlags _
  case cmpEaDn => exact bind (readEA _ _ _) fun _ => bind (getD _ _) fun _ => bind getFlags fun _ => putFlags _
  case exgDD => exact bind (getD _ _) fun _ => bind (getD _ _) fun _ => bind (putD _ _ _) fun _ => putD _ _ _
  case exgAA => exact bind (getA _) fun _ => bind (getA _) fun _ => bind (putA _ _) fun _ => putA _ _
  case exgDA => exact bind (getD _ _) fun _ => bind (getA _) fun _ => bind (putD _ _ _) fun _ => putA _ _
  case asrMem | aslMem | lsrMem | lslMem | roxrMem | roxlMem | rorMem | rolMem =>
    exact shiftMem (alterable_of_fits hwf) _ _
  case asrReg | aslReg | lsrReg | lslReg | roxrReg | roxlReg | rorReg | rolReg => exact shiftReg _ _ _ _
  case lineF => exact bind getModel fun _ => ite (refuse _) (raise _ _ _)

end NoFault

/-! ### A step -/

theorem finish_ne_fault {x : Exec Unit} (hx : NoFault x) (s : State) (f : Fault) : finish x s ≠ .fault f := by
  intro h
  unfold finish at h
  split at h
  · cases h
  · cases h
  · rename_i hs
    exact hx s _ _ hs
  · cases h

theorem exec_ne_fault {i : Instr} (hwf : i.wellFormed = true) (s : State) (f : Fault) : exec i s ≠ .fault f := by
  obtain ⟨handler, hexec, hquiet⟩ := NoFault.exists_handler hwf
  rw [hexec]
  cases hrow : rowVerdict s.model i with
  | illegal =>
    rw [runInstr_illegal hrow]
    exact finish_ne_fault (NoFault.raise _ _ _) _ f
  | refused => simp [runInstr_refused hrow]
  | entry =>
    cases hviol : privilegeViolation i s with
    | true =>
      rw [runInstr_violation hrow hviol]
      exact finish_ne_fault (NoFault.raise _ _ _) _ f
    | false =>
      rw [runInstr_entry hrow hviol]
      exact finish_ne_fault (hquiet _) _ f

theorem noFault_fetchWord : NoFault fetchWord := by
  intro s f t h
  unfold fetchWord at h
  split at h
  · cases h
  · split at h <;> cases h

theorem noFault_fetchWords (n : Nat) : NoFault (fetchWords n) := by
  induction n with
  | zero => exact .pure _
  | succ n ih => exact .bind noFault_fetchWord fun _ => .bind ih fun _ => .pure _

theorem noFault_fetchInstr : NoFault fetchInstr := by
  refine .bind .getModel fun m => .bind noFault_fetchWord fun ir => ?_
  split
  · exact .pure _
  · refine .bind (noFault_fetchWords _) fun ws => ?_
    split
    · exact .pure _
    · exact .pure _

/-- What is fetched is well formed (R303). -/
theorem wellFormed_of_fetchInstr {s t : State} {i : Instr} (h : fetchInstr s = .ok (some i) t) : i.wellFormed = true := by
  obtain ⟨m, u, -, h⟩ := bind_ok h
  obtain ⟨ir, u, -, h⟩ := bind_ok h
  cases hrow : decode m ir [] with
  | error e => simp only [hrow] at h; cases h
  | ok j =>
    simp only [hrow] at h
    obtain ⟨ws, u, -, h⟩ := bind_ok h
    cases hdecode : decode m ir ws with
    | error e => simp only [hdecode] at h; cases h
    | ok k =>
      simp only [hdecode] at h
      cases h
      exact ((decodedInstructionsAreWellFormed m ir ws []).1 _ hdecode).1

theorem executeOne_ne_fault (s : State) (f : Fault) : executeOne s ≠ .fault f := by
  intro h
  unfold executeOne at h
  split at h
  · cases h
  · split at h
    · rename_i hfetch
      exact exec_ne_fault (wellFormed_of_fetchInstr hfetch) s f h
    · exact finish_ne_fault (NoFault.raise _ _ _) _ f h
    · rename_i r t hfetch
      cases r with
      | fault g => exact noFault_fetchInstr s g t hfetch
      | ended => cases h
      | refused r => cases h

/-- Settles O11: the reset sequence only reads, and what a step fetches is well formed. -/
theorem stepNeverFaults : Obligations.StepNeverFaults := by
  intro s f
  by_cases h1 : s.condition = .startup
  · rw [step_of_startup h1, finish_resetSequence]
    simp
  · by_cases h2 : s.condition = .normal
    · rw [step_of_normal h2]
      exact executeOne_ne_fault s f
    · rw [step_of_waiting h1 h2]
      simp

end Sys2Proof.Machine
end

section
/-! A step runs the instruction its words decode to (R300, R305, R402), and words of each family decode. -/

namespace Sys2Proof.Machine

/-- The fetch reads the opcode word, and then as many words as the row it takes has, whatever their values (R305, R310). -/
theorem fetchInstr_eq {s : State} {ir : HWord} {ws : List HWord} {i : Instr} (heven : s.pc.getLsbD 0 = false)
    (hdecode : decode s.model ir ws = .ok i) (hlen : ws.length + 1 = i.words) (hwords : s.holdsWords s.pc (ir :: ws)) :
    ∃ t, fetchInstr s = .ok (some i) t := by
  obtain ⟨hword, hrest⟩ := hwords
  rcases decode_rel s.model ir [] ws with ⟨j, k, hj, hk, -, h⟩ | ⟨e, -, he⟩
  · obtain rfl : k = i := by simpa [hdecode] using hk.symm
    have hcount : j.words - 1 = ws.length := by
      have hjk : j.words = k.words := congrArg (· + 1) h.length
      omega
    obtain ⟨t, ht⟩ := fetchWords_eq (s := s.setPc (s.pc + 2)) ((add_two_even s.pc).trans heven) (holdsWords_setPc hrest)
    refine ⟨t, ?_⟩
    rw [fetchInstr, run_bind_ok (run_getModel s), run_bind_ok (fetchWord_eq heven hword)]
    simp only [hj]
    rw [hcount, run_bind_ok ht]
    simp only [hdecode]
    rfl
  · simp [hdecode] at he

/-- Settles O4: the fetch answers the instruction, and the step is its meaning in the state before. -/
theorem stepRunsTheDecodedInstruction : Obligations.StepRunsTheDecodedInstruction := by
  intro s ir ws i hn ht heven hdecode hlen hwords
  obtain ⟨t, hfetch⟩ := fetchInstr_eq heven hdecode hlen hwords
  simp only [step_of_normal hn, executeOne, ht, Bool.false_eq_true, if_false, hfetch]

/-- Settles O3: each word's fields lead to its row, and each operand reads back. -/
theorem decodeWords : Obligations.DecodeWords := by
  unfold Obligations.DecodeWords
  decide

end Sys2Proof.Machine
end

section
/-! The status register and the reset state (10_state.md, R110–R112, R160): short consequences of the laws of the state. -/

namespace Sys2Proof.Machine

/-- Settles O9: the reset state's memory lists nothing, and its one region fills the address space. -/
theorem invariantAtReset : Obligations.InvariantAtReset := by
  unfold Obligations.InvariantAtReset State.Inv
  decide

/-- Settles O8: the first step of a constructed processor, run. -/
theorem resetStateFollowsFromConstruction : Obligations.ResetStateFollowsFromConstruction := by
  refine ⟨?_, rfl, rfl, rfl⟩
  rw [resetSequenceLoadsTheVectors _ rfl]
  rfl

/-- Settles O22: SetSR tests the refused bit on MC68020 and later, and masks what it writes. -/
theorem setSrWritesTheImplementedBits : Obligations.SetSrWritesTheImplementedBits := by
  intro s v impl
  have himpl : impl = srImplemented s.model := rfl
  rw [himpl]
  refine ⟨fun h020 hbit => ?_, fun hnot => ⟨?_, s.setSrBits_srLegal v⟩⟩
  · rw [run_setSR, if_pos (by simp [srRefused, h020, hbit])]
  · rw [run_setSR, if_neg (by simpa [srRefused] using hnot)]

/-- A write of the flags keeps the other eleven bits of the SR (log entry 17). -/
theorem setFlags_sr_high (s : State) (f : Ccr) : (s.setFlags f).sr &&& 0xFFE0 = s.sr &&& 0xFFE0 := by
  have hmask : ∀ k : Fin 16, k.val < 5 → (0xFFE0#16).getLsbD k.val = false := by decide
  apply BitVec.eq_of_getLsbD_eq
  intro k hk
  rw [BitVec.getLsbD_and, BitVec.getLsbD_and, s.setFlags_sr_getLsbD f k hk]
  split
  · have h0 : (0xFFE0 : HWord).getLsbD k = false := hmask ⟨k, hk⟩ ‹_›
    rw [h0, Bool.and_false, Bool.and_false]
  · rfl

/-- Settles O23: what the two writes of the flags change of the SR. -/
theorem flagsAreTheLowBitsOfTheSr : Obligations.FlagsAreTheLowBitsOfTheSr := fun s v f =>
  ⟨rfl, s.setCCR_systemByte v, s.setFlags_ccr f, setFlags_sr_high s f, rfl⟩

end Sys2Proof.Machine
end

section
/-! Translation (20_memory.md, R202, R210–R213): the first region that contains the address decides. -/

namespace Sys2Proof.Machine

/-- The region found is the one behind a prefix of regions that do not contain the address (R202). -/
theorem findRegion_eq_some_iff {k a i : Nat} {rs : List Region} {r : Region} : findRegion k a rs = some (i, r) ↔
    ∃ before after, rs = before ++ r :: after ∧ (∀ q ∈ before, ¬ (q.start ≤ a ∧ a < q.start + q.size)) ∧
      (r.start ≤ a ∧ a < r.start + r.size) ∧ i = k + before.length := by
  induction rs generalizing k with
  | nil => simp [findRegion]
  | cons q rest ih =>
    rw [findRegion]
    split
    · rename_i hq
      constructor
      · intro h
        cases h
        exact ⟨[], rest, rfl, by simp, hq, rfl⟩
      · rintro ⟨_ | ⟨q', before⟩, after, heq, hbefore, -, hi⟩
        · cases heq
          rw [hi]
          rfl
        · cases heq
          exact absurd hq (hbefore q (List.mem_cons_self ..))
    · rename_i hq
      rw [ih]
      constructor
      · rintro ⟨before, after, rfl, hbefore, hr, rfl⟩
        exact ⟨q :: before, after, rfl, List.forall_mem_cons.2 ⟨hq, hbefore⟩, hr, by rw [List.length_cons]; omega⟩
      · rintro ⟨_ | ⟨q', before⟩, after, heq, hbefore, hr, rfl⟩
        · cases heq
          exact absurd hr hq
        · cases heq
          exact ⟨before, after, rfl, (List.forall_mem_cons.1 hbefore).2, hr, by rw [List.length_cons]; omega⟩

/-- A translation succeeds when the region found has the bytes, and neither of its rules denies the access (R210–R213). -/
theorem translate_eq_some_iff {c : Config} {addr : Long} {len : Nat} {fc : BitVec 3} {kind : AccessKind} {cell : Nat} :
    translate c addr len fc kind = some cell ↔
      ∃ i r, findRegion 0 (maskedAddress c addr) c.regions = some (i, r) ∧
        maskedAddress c addr - r.start + len ≤ r.size ∧ lowmemDenies r fc kind (maskedAddress c addr - r.start) = false ∧
        policyAllows r fc kind (maskedAddress c addr - r.start) len = true ∧ cell = cellOf i (maskedAddress c addr) := by
  constructor
  · intro h
    obtain ⟨i, r, hfind, -, -, -, hfits, hlow, hpolicy, hcell⟩ := translate_some h
    exact ⟨i, r, hfind, hfits, hlow, hpolicy, hcell⟩
  · rintro ⟨i, r, hfind, hfits, hlow, hpolicy, rfl⟩
    simp [translate, hfind, hfits, hlow, hpolicy]

/-- The low-memory rule, written out (R212). -/
theorem lowmemDenies_eq_false_iff {r : Region} {fc : BitVec 3} {kind : AccessKind} {off : Nat} :
    lowmemDenies r fc kind off = false ↔
      ¬ (r.lowmem = true ∧ off < 1024 ∧ (fc.getLsbD 2 = false ∨ kind = .execute)) := by
  rw [← Bool.not_eq_true]
  simp [lowmemDenies, isUserCode, and_assoc]

/-- Settles O18: the two laws above, put together. -/
theorem translationFollowsTheRegions : Obligations.TranslationFollowsTheRegions := by
  intro c addr len fc kind cell a
  have ha : maskedAddress c addr = a := rfl
  rw [translate_eq_some_iff, ha]
  constructor
  · rintro ⟨i, r, hfind, hfits, hlow, hpolicy, hcell⟩
    obtain ⟨before, after, hregions, hbefore, ⟨hstart, hend⟩, rfl⟩ := findRegion_eq_some_iff.1 hfind
    exact ⟨before, r, after, hregions, hbefore, hstart, hend, hfits, lowmemDenies_eq_false_iff.1 hlow, hpolicy,
      by rw [hcell, cellOf, Nat.zero_add]⟩
  · rintro ⟨before, r, after, hregions, hbefore, hstart, hend, hfits, hlow, hpolicy, hcell⟩
    exact ⟨before.length, r, findRegion_eq_some_iff.2 ⟨before, after, hregions, hbefore, ⟨hstart, hend⟩, (Nat.zero_add _).symm⟩,
      hfits, lowmemDenies_eq_false_iff.2 hlow, hpolicy, hcell⟩

end Sys2Proof.Machine
end


section
/-! MOVE and the arithmetic on address registers (R501, R502, R603, R610): the operand is read, then the destination is
resolved in the state the read leaves. -/

namespace Sys2Proof.Machine

variable {s : State}

/-- Settles O29: the source is read, the destination resolved and written after it, and the flags set last. -/
theorem moveCopiesItsOperand : Obligations.MoveCopiesItsOperand := by
  intro s sz src dst s0 s1 v xa hread hwrite
  show execMove sz src dst s = _
  refine runInstr_next rfl rfl ?_
  rw [run_bind_ok (readEA_eq hread), run_bind_ok (writeEA_eq v hwrite)]
  have hccr : s1.ccr = s.ccr := s0.afterEA_ccr src sz
  simp only [run_bind, run_getFlags, run_putFlags, State.putLoc_ccr, State.afterEA_ccr, hccr]
  rfl

/-- Settles O30: the operand is read first, so An is what its side effect leaves. -/
theorem addressRegisterArithmetic : Obligations.AddressRegisterArithmetic := by
  intro s sz ea an i f hi s0 s1 hread
  simp only [List.mem_cons, List.not_mem_nil, or_false, Prod.mk.injEq] at hi
  rcases hi with ⟨rfl, rfl⟩ | ⟨rfl, rfl⟩ | ⟨rfl, rfl⟩
  · show execMovea sz ea an s = _
    refine runInstr_next rfl rfl ?_
    rw [run_bind_ok (readEA_eq hread)]
    rfl
  · show execAdda sz ea an s = _
    refine runInstr_next rfl rfl ?_
    rw [run_bind_ok (readEA_eq hread)]
    rfl
  · show execSuba sz ea an s = _
    refine runInstr_next rfl rfl ?_
    rw [run_bind_ok (readEA_eq hread)]
    rfl

end Sys2Proof.Machine
end

section
/-! Integer arithmetic, compares and logical instructions (42_integer_arithmetic.md, 43_logical.md): each handler is one of
the shared operations, whose equations `Laws/Operations.lean` has. -/

namespace Sys2Proof.Machine

variable {s : State}

theorem arithFromDn_eq {op : BinOp} {sz : Size} {xa : Long} {ea : EA} {dn : Reg} (h : s.canUpdate xa ea sz = true) :
    arithFromDn op sz xa dn ea s =
      .ok () (s.updated xa ea sz (op sz (truncTo sz (s.readD dn)) (s.operand xa ea sz) s.ccr)) := by
  unfold arithFromDn
  rw [run_bind_ok (run_getD dn sz s)]
  exact arithToEA_eq h

theorem extendedReg_eq (op : BinOp) (sz : Size) (dy dx : Reg) :
    extendedReg op sz dy dx s =
      .ok () (s.resultTo dx sz (op sz (truncTo sz (s.readD dy)) (truncTo sz (s.readD dx)) s.ccr)) := by
  simp only [extendedReg, run_bind, run_getD, run_getFlags, flagsThenWrite, run_putFlags, run_writeLoc_regD]
  rfl

theorem logicFromDn_eq {op : Long → Long → Long} {sz : Size} {xa : Long} {ea : EA} {dn : Reg}
    (h : s.canUpdate xa ea sz = true) :
    logicFromDn op sz xa dn ea s = .ok () (s.updated xa ea sz
      ⟨op (s.operand xa ea sz) (truncTo sz (s.readD dn)),
        logicFlags sz (op (s.operand xa ea sz) (truncTo sz (s.readD dn))) s.ccr⟩) := by
  unfold logicFromDn
  rw [run_bind_ok (run_getD dn sz s)]
  exact logicToEA_eq h

/-- ADDQ to an operand that is not An (R605). -/
theorem exec_addq {sz : Size} {q : BitVec 3} {ea : EA} (hAn : ea.isAn = false)
    (h : (s.pastWords (.addq sz q ea)).canUpdate (firstExt s.pc) ea sz = true) :
    exec (.addq sz q ea) s = .next ((s.pastWords (.addq sz q ea)).updated (firstExt s.pc) ea sz
      (addOp sz (quickValue q) ((s.pastWords (.addq sz q ea)).operand (firstExt s.pc) ea sz) s.ccr)) := by
  show execAddq sz q ea s = _
  refine runInstr_next rfl rfl ?_
  split
  · cases hAn
  · exact arithToEA_eq h

/-- SUBQ from an operand that is not An (R612). -/
theorem exec_subq {sz : Size} {q : BitVec 3} {ea : EA} (hAn : ea.isAn = false)
    (h : (s.pastWords (.subq sz q ea)).canUpdate (firstExt s.pc) ea sz = true) :
    exec (.subq sz q ea) s = .next ((s.pastWords (.subq sz q ea)).updated (firstExt s.pc) ea sz
      (subOp sz (quickValue q) ((s.pastWords (.subq sz q ea)).operand (firstExt s.pc) ea sz) s.ccr)) := by
  show execSubq sz q ea s = _
  refine runInstr_next rfl rfl ?_
  split
  · cases hAn
  · exact arithToEA_eq h

/-- Settles O32: the forms into Dn, the forms to an operand, and the quick forms to An. -/
theorem addAndSubtract : Obligations.AddAndSubtract := by
  refine ⟨?_, ?_, ?_⟩
  · intro s sz ea dn i op hi s0 hread
    simp only [List.mem_cons, List.not_mem_nil, or_false, Prod.mk.injEq] at hi
    rcases hi with ⟨rfl, rfl⟩ | ⟨rfl, rfl⟩
    · show execAddEaDn sz ea dn s = _
      exact runInstr_next rfl rfl (arithToDn_eq hread)
    · show execSubEaDn sz ea dn s = _
      exact runInstr_next rfl rfl (arithToDn_eq hread)
  · intro s sz dn imm q ea i op z v xa hi hAn s0 hupd
    simp only [List.mem_cons, List.not_mem_nil, or_false, Prod.mk.injEq] at hi
    rcases hi with ⟨rfl, rfl, rfl, rfl, rfl⟩ | ⟨rfl, rfl, rfl, rfl, rfl⟩ | ⟨rfl, rfl, rfl, rfl, rfl⟩ |
      ⟨rfl, rfl, rfl, rfl, rfl⟩ | ⟨rfl, rfl, rfl, rfl, rfl⟩ | ⟨rfl, rfl, rfl, rfl, rfl⟩
    · show execAddDnEa z dn ea s = _
      exact runInstr_next rfl rfl (arithFromDn_eq hupd)
    · show execSubDnEa z dn ea s = _
      exact runInstr_next rfl rfl (arithFromDn_eq hupd)
    · show execAddi imm ea s = _
      exact runInstr_next rfl rfl (arithToEA_eq hupd)
    · show execSubi imm ea s = _
      exact runInstr_next rfl rfl (arithToEA_eq hupd)
    · exact exec_addq hAn hupd
    · exact exec_subq hAn hupd
  · intro s sz q n v
    constructor
    · show execAddq sz q (.an n) s = _
      exact runInstr_next rfl rfl rfl
    · show execSubq sz q (.an n) s = _
      exact runInstr_next rfl rfl rfl

/-- Settles O33: the register form and the memory form are `extendedReg` and `extendedMem` for both instructions. -/
theorem extendedArithmetic : Obligations.ExtendedArithmetic := by
  intro s sz ry rx op ir im hi
  simp only [List.mem_cons, List.not_mem_nil, or_false, Prod.mk.injEq] at hi
  rcases hi with ⟨rfl, rfl, rfl⟩ | ⟨rfl, rfl, rfl⟩
  · refine ⟨?_, fun hsrc hdst => ?_⟩
    · show execAddxReg sz ry rx s = _
      exact runInstr_next rfl rfl (extendedReg_eq addxOp sz ry rx)
    · show execAddxMem sz ry rx s = _
      exact runInstr_next rfl rfl (extendedMem_eq hsrc hdst)
  · refine ⟨?_, fun hsrc hdst => ?_⟩
    · show execSubxReg sz ry rx s = _
      exact runInstr_next rfl rfl (extendedReg_eq subxOp sz ry rx)
    · show execSubxMem sz ry rx s = _
      exact runInstr_next rfl rfl (extendedMem_eq hsrc hdst)

/-- Settles O34: the operands are read, and only the flags are set. -/
theorem compareSetsFlags : Obligations.CompareSetsFlags := by
  intro s sz wl imm ea rx ry
  refine ⟨?_, ?_, ?_, ?_⟩
  · intro s0 hread
    show execCmpEaDn sz ea rx s = _
    refine runInstr_next rfl rfl ?_
    rw [run_bind_ok (readEA_eq hread)]
    simp only [run_bind, run_getD, run_getFlags, run_putFlags, State.afterEA_readD, State.afterEA_ccr]
    rfl
  · intro s0 s1 hread
    show execCmpa wl ea rx s = _
    refine runInstr_next rfl rfl ?_
    rw [run_bind_ok (readEA_eq hread)]
    simp only [run_bind, run_getA, run_getFlags, run_putFlags, State.afterEA_ccr]
    rfl
  · intro s0 xa hread
    show execCmpi imm ea s = _
    refine runInstr_next rfl rfl ?_
    rw [run_bind_ok (readEA_eq hread)]
    simp only [run_bind, run_getFlags, run_putFlags, State.afterEA_ccr]
    rfl
  · intro s0 s1 hsrc hdst
    show execCmpm sz ry rx s = _
    refine runInstr_next rfl rfl ?_
    rw [postincrement_read 0 hsrc, postincrement_read 0 hdst]
    have hccr : s1.ccr = s.ccr := s0.afterEA_ccr (.postinc ry) sz
    simp only [run_bind, run_getFlags, run_putFlags, State.afterEA_ccr, hccr]

theorem exec_notEa {sz : Size} {ea : EA} (h : (s.pastWords (.notEa sz ea)).canUpdate (firstExt s.pc) ea sz = true) :
    exec (.notEa sz ea) s =
      let r := truncTo sz (~~~((s.pastWords (.notEa sz ea)).operand (firstExt s.pc) ea sz))
      .next ((s.pastWords (.notEa sz ea)).updated (firstExt s.pc) ea sz ⟨r, logicFlags sz r s.ccr⟩) := by
  obtain ⟨hres, hread, hwrite⟩ := canUpdate_parts h
  show execNotEa sz ea s = _
  refine runInstr_next rfl rfl ?_
  rw [run_bind_ok (resolveEA_eq _ sz hres), run_bind_ok (readLoc_eq hread)]
  unfold writeThenLogic
  rw [run_bind_ok (writeLoc_eq _ hwrite)]
  simp only [run_bind, run_getFlags, run_putFlags, State.putLoc_ccr, State.updated, State.afterEA_ccr]
  rfl

theorem exec_clr {sz : Size} {ea : EA} (h : (s.pastWords (.clr sz ea)).canWriteEA (firstExt s.pc) ea sz = true) :
    exec (.clr sz ea) s =
      .next ((s.pastWords (.clr sz ea)).updated (firstExt s.pc) ea sz ⟨0, clrFlags s.ccr⟩) := by
  show execClr sz ea s = _
  refine runInstr_next rfl rfl ?_
  rw [run_bind_ok (writeEA_eq 0 h)]
  simp only [run_bind, run_getFlags, run_putFlags, State.putLoc_ccr, State.updated, State.afterEA_ccr]
  rfl

theorem exec_tst {sz : Size} {ea : EA} (h : (s.pastWords (.tst sz ea)).canReadEA (firstExt s.pc) ea sz = true) :
    exec (.tst sz ea) s = .next (((s.pastWords (.tst sz ea)).afterEA ea sz).setFlags
      (logicFlags sz ((s.pastWords (.tst sz ea)).operand (firstExt s.pc) ea sz) s.ccr)) := by
  show execTst sz ea s = _
  refine runInstr_next rfl rfl ?_
  rw [run_bind_ok (readEA_eq h)]
  simp only [run_bind, run_getFlags, run_putFlags, State.afterEA_ccr]
  rfl

theorem exec_tas {ea : EA} (h : (s.pastWords (.tas ea)).canUpdate (firstExt s.pc) ea .b = true) :
    exec (.tas ea) s =
      let v := (s.pastWords (.tas ea)).operand (firstExt s.pc) ea .b
      .next ((s.pastWords (.tas ea)).updated (firstExt s.pc) ea .b ⟨v ||| 0x80, logicFlags .b v s.ccr⟩) := by
  obtain ⟨hres, hread, hwrite⟩ := canUpdate_parts h
  show execTas ea s = _
  refine runInstr_next rfl rfl ?_
  rw [run_bind_ok (resolveEA_eq _ .b hres), run_bind_ok (readLoc_eq hread)]
  simp only [run_bind, run_getFlags, run_putFlags]
  rw [writeLoc_setFlags hwrite]
  simp only [State.updated, State.afterEA_ccr]
  rfl

/-- Settles O35: the three read-modify-write instructions, CLR, TST and TAS, each by its equation. -/
theorem unaryAndTest : Obligations.UnaryAndTest := by
  refine ⟨fun s sz ea i op hi => ⟨?_, exec_clr⟩, fun s sz ea => ⟨exec_tst, exec_tas⟩⟩
  intro s0 hupd
  simp only [List.mem_cons, List.not_mem_nil, or_false, Prod.mk.injEq] at hi
  rcases hi with ⟨rfl, rfl⟩ | ⟨rfl, rfl⟩ | ⟨rfl, rfl⟩
  · show execNeg sz ea s = _
    exact runInstr_next rfl rfl (arithUnary_eq hupd)
  · show execNegx sz ea s = _
    exact runInstr_next rfl rfl (arithUnary_eq hupd)
  · exact exec_notEa hupd

/-- Settles O36: the forms into Dn, from Dn and from an immediate. -/
theorem logicalOperations : Obligations.LogicalOperations := by
  intro s sz dn imm ea
  refine ⟨?_, ?_⟩
  · intro i op hi s0 r hread
    simp only [List.mem_cons, List.not_mem_nil, or_false, Prod.mk.injEq] at hi
    rcases hi with ⟨rfl, rfl⟩ | ⟨rfl, rfl⟩
    · show execAndEaDn sz ea dn s = _
      exact runInstr_next rfl rfl (logicToDn_eq hread)
    · show execOrEaDn sz ea dn s = _
      exact runInstr_next rfl rfl (logicToDn_eq hread)
  · intro i op z v xa hi s0 r hupd
    simp only [List.mem_cons, List.not_mem_nil, or_false, Prod.mk.injEq] at hi
    rcases hi with ⟨rfl, rfl, rfl, rfl, rfl⟩ | ⟨rfl, rfl, rfl, rfl, rfl⟩ | ⟨rfl, rfl, rfl, rfl, rfl⟩ |
      ⟨rfl, rfl, rfl, rfl, rfl⟩ | ⟨rfl, rfl, rfl, rfl, rfl⟩ | ⟨rfl, rfl, rfl, rfl, rfl⟩
    · show execAndDnEa z dn ea s = _
      exact runInstr_next rfl rfl (logicFromDn_eq hupd)
    · show execOrDnEa z dn ea s = _
      exact runInstr_next rfl rfl (logicFromDn_eq hupd)
    · show execEorDnEa z dn ea s = _
      exact runInstr_next rfl rfl (logicFromDn_eq hupd)
    · show execAndi imm ea s = _
      exact runInstr_next rfl rfl (logicToEA_eq hupd)
    · show execOri imm ea s = _
      exact runInstr_next rfl rfl (logicToEA_eq hupd)
    · show execEori imm ea s = _
      exact runInstr_next rfl rfl (logicToEA_eq hupd)

end Sys2Proof.Machine
end


section
/-! Multiplication and division (42_integer_arithmetic.md, R624–R627): a word operand is its own low word. -/

namespace Sys2Proof.Machine

variable {s : State}

theorem truncTo_truncTo (sz : Size) (v : Long) : truncTo sz (truncTo sz v) = truncTo sz v := by
  rw [truncTo, truncTo, BitVec.and_assoc, BitVec.and_self]

theorem truncTo_w_valueAt (a : Long) (fc : BitVec 3) : truncTo .w (s.valueAt a .w fc) = s.valueAt a .w fc := by
  unfold State.valueAt
  split
  · exact truncTo_w_word _
  · rfl

/-- A word operand has no bits above its low word. -/
theorem truncTo_w_operand {ea : EA} (hsize : ea.sizeOk .w = true) (xa : Long) :
    truncTo .w (s.operand xa ea .w) = s.operand xa ea .w := by
  cases ea with
  | dn n => exact truncTo_truncTo .w _
  | an n => exact truncTo_truncTo .w _
  | ind n => exact truncTo_w_valueAt _ _
  | postinc n => exact truncTo_w_valueAt _ _
  | predec n => exact truncTo_w_valueAt _ _
  | disp n d => exact truncTo_w_valueAt _ _
  | index n x => exact truncTo_w_valueAt _ _
  | absW a => exact truncTo_w_valueAt _ _
  | absL a => exact truncTo_w_valueAt _ _
  | pcDisp d => exact truncTo_w_valueAt _ _
  | pcIndex x => exact truncTo_w_valueAt _ _
  | imm v =>
    cases v with
    | b v => cases hsize
    | w v => exact truncTo_w_word v
    | l v => cases hsize

theorem signed16_truncTo (v : Long) : signed16 (truncTo .w v) = (v.setWidth 16).toInt := by
  rw [signed16, truncTo_w_low, BitVec.setWidth_eq_extractLsb' (by decide)]

theorem mulUnsigned_words (v d : Long) (hv : truncTo .w v = v) :
    mulUnsigned v (truncTo .w d) = BitVec.ofNat 32 ((d.setWidth 16).toNat * (v.setWidth 16).toNat) := by
  rw [mulUnsigned, truncTo_w_toNat, ← hv, truncTo_w_toNat, hv]

theorem mulSigned_words (v d : Long) :
    mulSigned v (truncTo .w d) = BitVec.ofInt 32 ((d.setWidth 16).toInt * (v.setWidth 16).toInt) := by
  rw [mulSigned, signed16_truncTo, signed16]

theorem multiply_eq {op : Long → Long → Long} {xa : Long} {ea : EA} {dn : Reg} (h : s.canReadEA xa ea .w = true) :
    multiply op xa ea dn s = .ok () ((s.afterEA ea .w).resultTo dn .l
      ⟨op (s.operand xa ea .w) (truncTo .w (s.readD dn)),
        logicFlags .l (op (s.operand xa ea .w) (truncTo .w (s.readD dn))) s.ccr⟩) := by
  unfold multiply
  rw [run_bind_ok (readEA_eq h), run_bind_ok (run_getD dn .w _)]
  have hput := putD_logicFlags_eq (s := s.afterEA ea .w) dn .l (op (s.operand xa ea .w) (truncTo .w (s.readD dn)))
  rw [State.afterEA_ccr] at hput
  rw [State.afterEA_readD]
  exact hput

/-- Settles O37: the product of the two low words, as R624 and R625 write it over longwords. -/
theorem multiplication : Obligations.Multiplication := by
  intro s ea dn i op hi s0 r hsize hread
  simp only [List.mem_cons, List.not_mem_nil, or_false, Prod.mk.injEq] at hi
  rcases hi with ⟨rfl, rfl⟩ | ⟨rfl, rfl⟩
  · have hr : mulUnsigned (s0.operand (firstExt s.pc) ea .w) (truncTo .w (s0.readD dn)) = r :=
      mulUnsigned_words _ _ (truncTo_w_operand hsize _)
    show execMuluW ea dn s = _
    refine runInstr_next rfl rfl ?_
    rw [← hr]
    exact multiply_eq hread
  · have hr : mulSigned (s0.operand (firstExt s.pc) ea .w) (truncTo .w (s0.readD dn)) = r := mulSigned_words _ _
    show execMulsW ea dn s = _
    refine runInstr_next rfl rfl ?_
    rw [← hr]
    exact multiply_eq hread

/-- What a division does once its operand is read (R626, R627). -/
theorem divide_eq {op : Long → Long → Division} {ia : Long} {ea : EA} {dn : Reg}
    (h : s.canReadEA (firstExt ia) ea .w = true) :
    divide op ia ea dn s =
      finishDivision ia dn (op (s.operand (firstExt ia) ea .w) (s.readD dn)) (s.afterEA ea .w) := by
  unfold divide
  rw [run_bind_ok (readEA_eq h), run_bind_ok (run_getD dn .l _), truncTo_l, State.afterEA_readD]

theorem finishDivision_result (ia : Long) (dn : Reg) (q m : HWord) :
    finishDivision ia dn (.result q m) s = .ok () (s.resultTo dn .l
      ⟨m ++ q, { s.ccr with n := q.getLsbD 15, z := q == 0, v := false, c := false }⟩) := by
  simp only [finishDivision, run_bind, run_putD, run_getFlags, run_putFlags, State.setD_ccr, State.resultTo]

theorem finishDivision_overflow (ia : Long) (dn : Reg) :
    finishDivision ia dn .overflow s = .ok () (s.countDraw.countDraw.setFlags
      { s.ccr with n := Config.freeBit s.draws, z := Config.freeBit (s.draws + 1), v := true, c := false }) := rfl

/-- The flags of a zero divide, and the draws that name them (R626). -/
def State.zeroDivided (s : State) : State :=
  s.countDraw.countDraw.countDraw.setFlags { s.ccr with
    n := Config.freeBit s.draws, z := Config.freeBit (s.draws + 1), v := Config.freeBit (s.draws + 2), c := false }

theorem finishDivision_zeroDivide {ia : Long} {dn : Reg}
    (h : s.zeroDivided.canEnter 5 s.zeroDivided.pc (some ia) = true) :
    finishDivision ia dn .zeroDivide s = .error .ended (s.zeroDivided.entered 5 s.zeroDivided.pc (some ia)) :=
  raise_eq h

/-- DIVU and DIVS from the division they share; `hexec` is the instruction's arm. -/
theorem exec_of_division {i : Instr} {op : Long → Long → Division} {ea : EA} {dn : Reg}
    (hexec : exec i s = runInstr i (fun ia => divide op ia ea dn) s) (hrow : rowVerdict s.model i = .entry)
    (hpriv : privilegeViolation i s = false) (hread : (s.pastWords i).canReadEA (firstExt s.pc) ea .w = true) :
    let s1 := (s.pastWords i).afterEA ea .w
    let r := op ((s.pastWords i).operand (firstExt s.pc) ea .w) (s.readD dn)
    (∀ q m, r = .result q m → exec i s = .next (s1.resultTo dn .l
      ⟨m ++ q, { s1.ccr with n := q.getLsbD 15, z := q == 0, v := false, c := false }⟩)) ∧
    (r = .overflow → exec i s = .next (s1.countDraw.countDraw.setFlags
      { s1.ccr with n := Config.freeBit s1.draws, z := Config.freeBit (s1.draws + 1), v := true, c := false })) ∧
    (r = .zeroDivide → s1.zeroDivided.canEnter 5 s1.zeroDivided.pc (some s.pc) = true →
      exec i s = .next (s1.zeroDivided.entered 5 s1.zeroDivided.pc (some s.pc))) := by
  intro s1 r
  have hrun : divide op s.pc ea dn (s.pastWords i) = finishDivision s.pc dn r s1 := divide_eq hread
  refine ⟨fun q m hr => ?_, fun hr => ?_, fun hr hEnter => ?_⟩
  · rw [hr] at hrun
    exact hexec.trans (runInstr_next hrow hpriv (hrun.trans (finishDivision_result _ _ q m)))
  · rw [hr] at hrun
    exact hexec.trans (runInstr_next hrow hpriv (hrun.trans (finishDivision_overflow _ _)))
  · rw [hr] at hrun
    exact hexec.trans (runInstr_taken hrow hpriv (hrun.trans (finishDivision_zeroDivide hEnter)))

/-- Settles O38: one division for both instructions, whose operand leaves the flags and the draws as they were. -/
theorem divisionCompletes : Obligations.DivisionCompletes := by
  intro s ea dn i op hi s0 s1 r hread
  have hdivision : (exec i s = runInstr i (fun ia => divide op ia ea dn) s) ∧ rowVerdict s.model i = .entry ∧
      privilegeViolation i s = false := by
    simp only [List.mem_cons, List.not_mem_nil, or_false, Prod.mk.injEq] at hi
    rcases hi with ⟨rfl, rfl⟩ | ⟨rfl, rfl⟩
    · exact ⟨rfl, rfl, rfl⟩
    · exact ⟨rfl, rfl, rfl⟩
  obtain ⟨hexec, hrow, hpriv⟩ := hdivision
  have hccr : s.ccr = s1.ccr := (s0.afterEA_ccr ea .w).symm
  have hdraws : s.draws = s1.draws := (s0.afterEA_draws ea .w).symm
  rw [hccr, hdraws]
  exact exec_of_division hexec hrow hpriv hread

end Sys2Proof.Machine
end


section
/-! Shifts, bit instructions and decimal instructions (44_shift_rotate.md, 45_bit_manipulation.md, 46_bcd.md). -/

namespace Sys2Proof.Machine

variable {s : State}

theorem shiftReg_eq (k : ShiftKind) (sz : Size) (c : ShiftCount) (dy : Reg) :
    shiftReg k sz c dy s =
      .ok () (s.resultTo dy sz (shiftOp k sz (truncTo sz (s.readD dy)) (shiftCount c s) s.ccr)) := rfl

/-- A register shift's and a memory shift's meanings, from their arms. -/
theorem exec_shift {k : ShiftKind} {sz : Size} {c : ShiftCount} {dy : Reg} {ea : EA} {ir im : Instr}
    (hreg : exec ir s = runInstr ir (fun _ => shiftReg k sz c dy) s)
    (hmem : exec im s = runInstr im (fun ia => shiftMem k (firstExt ia) ea) s)
    (hrow : rowVerdict s.model ir = .entry ∧ rowVerdict s.model im = .entry)
    (hpriv : privilegeViolation ir s = false ∧ privilegeViolation im s = false) :
    exec ir s = .next ((s.pastWords ir).resultTo dy sz (shiftOp k sz (truncTo sz (s.readD dy)) (shiftCount c s) s.ccr)) ∧
    ((s.pastWords im).canUpdate (firstExt s.pc) ea .w = true →
      exec im s = .next ((s.pastWords im).updated (firstExt s.pc) ea .w
        (shiftOp k .w ((s.pastWords im).operand (firstExt s.pc) ea .w) 1 s.ccr))) := by
  refine ⟨hreg.trans (runInstr_next hrow.1 hpriv.1 ?_), fun h => hmem.trans (runInstr_next hrow.2 hpriv.2 (shiftMem_eq h))⟩
  have hcount : shiftCount c (s.pastWords ir) = shiftCount c s := by cases c <;> rfl
  rw [shiftReg_eq, hcount]
  rfl

/-- Settles O39: the sixteen instructions are two handlers at the eight kinds of shift. -/
theorem shiftsAndRotates : Obligations.ShiftsAndRotates := by
  intro s sz c dy ea k ir im hi
  simp only [List.mem_cons, List.not_mem_nil, or_false, Prod.mk.injEq] at hi
  rcases hi with ⟨rfl, rfl, rfl⟩ | ⟨rfl, rfl, rfl⟩ | ⟨rfl, rfl, rfl⟩ | ⟨rfl, rfl, rfl⟩ | ⟨rfl, rfl, rfl⟩ |
    ⟨rfl, rfl, rfl⟩ | ⟨rfl, rfl, rfl⟩ | ⟨rfl, rfl, rfl⟩ <;>
  exact exec_shift rfl rfl ⟨rfl, rfl⟩ ⟨rfl, rfl⟩

/-! ### Bit instructions -/

theorem bitTest_eq {xa b : Long} {ea : EA} (h : s.canReadEA xa ea (bitSize ea) = true) :
    bitTest xa b ea s = .ok () ((s.afterEA ea (bitSize ea)).setFlags
      { s.ccr with z := !(s.operand xa ea (bitSize ea)).getLsbD (bitIndex ea b) }) := by
  unfold bitTest
  rw [run_bind_ok (readEA_eq h)]
  simp only [run_bind, run_getFlags, run_putFlags, State.afterEA_ccr, bitFlags]

/-- A bit instruction with its number in Dn: `x` is the part of `bitTest` or `bitUpdate` that takes the number. -/
theorem exec_bit_of_dn {i : Instr} {dn : Reg} {t : State} (x : Long → Long → Exec Unit)
    (hexec : exec i s = runInstr i (fun ia => do
      let b ← getD dn .l
      x (firstExt ia) b) s)
    (hrow : rowVerdict s.model i = .entry) (hpriv : privilegeViolation i s = false)
    (hrun : x (firstExt s.pc) (s.readD dn) (s.pastWords i) = .ok () t) : exec i s = .next t := by
  refine hexec.trans (runInstr_next hrow hpriv ?_)
  rw [run_bind_ok (run_getD dn .l _), truncTo_l]
  exact hrun

/-- A bit number in a byte of the instruction or in a longword of a register (R900). -/
theorem bitIndex_setWidth (ea : EA) (n : BitVec 8) : bitIndex ea (n.setWidth 32) = n.toNat % (bitSize ea).width := by
  have hn : (n.setWidth 32).toNat = n.toNat := by
    rw [BitVec.toNat_setWidth]
    exact Nat.mod_eq_of_lt (by omega)
  rw [bitIndex, hn]

/-- Settles O40: the bit's number comes from Dn or the instruction, then one of two operations runs. -/
theorem bitInstructions : Obligations.BitInstructions := by
  intro s dn n ea z bit
  have hz : z = bitSize ea := by cases ea <;> rfl
  have hbit : ∀ b, bit b = b % (bitSize ea).width := by intro b; cases ea <;> rfl
  have himm := bitIndex_setWidth ea n
  rw [hz]
  simp only [hbit]
  refine ⟨?_, ?_⟩
  · intro i b xa hi hread
    simp only [List.mem_cons, List.not_mem_nil, or_false, Prod.mk.injEq] at hi
    rcases hi with ⟨rfl, rfl, rfl⟩ | ⟨rfl, rfl, rfl⟩
    · exact exec_bit_of_dn (bitTest · · ea) rfl rfl rfl (bitTest_eq hread)
    · rw [← himm]
      show execBtstImm n ea s = _
      exact runInstr_next rfl rfl (bitTest_eq hread)
  · intro i op b xa hi hupd
    simp only [List.mem_cons, List.not_mem_nil, or_false, Prod.mk.injEq] at hi
    rcases hi with ⟨rfl, rfl, rfl, rfl⟩ | ⟨rfl, rfl, rfl, rfl⟩ | ⟨rfl, rfl, rfl, rfl⟩ | ⟨rfl, rfl, rfl, rfl⟩ |
      ⟨rfl, rfl, rfl, rfl⟩ | ⟨rfl, rfl, rfl, rfl⟩
    · exact exec_bit_of_dn (bitUpdate changeBit · · ea) rfl rfl rfl (bitUpdate_eq hupd)
    · exact exec_bit_of_dn (bitUpdate clearBit · · ea) rfl rfl rfl (bitUpdate_eq hupd)
    · exact exec_bit_of_dn (bitUpdate setBit · · ea) rfl rfl rfl (bitUpdate_eq hupd)
    · rw [← himm]
      show execBchgImm n ea s = _
      exact runInstr_next rfl rfl (bitUpdate_eq hupd)
    · rw [← himm]
      show execBclrImm n ea s = _
      exact runInstr_next rfl rfl (bitUpdate_eq hupd)
    · rw [← himm]
      show execBsetImm n ea s = _
      exact runInstr_next rfl rfl (bitUpdate_eq hupd)

/-! ### Decimal instructions -/

theorem truncTo_b_setWidth (v : Long) : (truncTo .b v).setWidth 8 = v.setWidth 8 := by
  rw [truncTo_b_low, BitVec.setWidth_eq_extractLsb' (by decide)]

theorem bcdReg_eq (op : BcdOp) (dy dx : Reg) :
    let r := s.decimal op ((s.readD dy).setWidth 8) ((s.readD dx).setWidth 8)
    bcdReg op dy dx s = .ok () ((r.2.setD dx .b (r.1.1.setWidth 32)).decimalFlags r.1) := by
  unfold bcdReg
  rw [run_bind_ok (run_getD dy .b s), run_bind_ok (run_getD dx .b s), bcdTo_eq rfl, truncTo_b_setWidth, truncTo_b_setWidth]
  rfl

theorem bcdMem_eq {op : BcdOp} {ry rx : Reg} (hsrc : s.canReadEA 0 (.predec ry) .b = true)
    (hdst : (s.afterEA (.predec ry) .b).canUpdate 0 (.predec rx) .b = true) :
    let s1 := s.afterEA (.predec ry) .b
    let r := (s1.afterEA (.predec rx) .b).decimal op
      ((s.operand 0 (.predec ry) .b).setWidth 8) ((s1.operand 0 (.predec rx) .b).setWidth 8)
    bcdMem op ry rx s =
      .ok () ((r.2.putLoc (s1.location 0 (.predec rx) .b) .b (r.1.1.setWidth 32)).decimalFlags r.1) := by
  unfold bcdMem
  rw [predecrement_read 0 hsrc, predecrement_read 0 (canUpdate_canReadEA hdst)]
  exact bcdTo_eq (canUpdate_parts hdst).2.2

/-- NBCD (R1005). -/
theorem exec_nbcd {ea : EA} (h : (s.pastWords (.nbcd ea)).canUpdate (firstExt s.pc) ea .b = true) :
    let s0 := s.pastWords (.nbcd ea)
    let r := (s0.afterEA ea .b).decimal sbcdValue ((s0.operand (firstExt s.pc) ea .b).setWidth 8) 0
    exec (.nbcd ea) s =
      .next ((r.2.putLoc (s0.location (firstExt s.pc) ea .b) .b (r.1.1.setWidth 32)).decimalFlags r.1) := by
  obtain ⟨hres, hread, hwrite⟩ := canUpdate_parts h
  show execNbcd ea s = _
  refine runInstr_next rfl rfl ?_
  rw [run_bind_ok (resolveEA_eq _ .b hres), run_bind_ok (readLoc_eq hread)]
  exact bcdTo_eq hwrite

/-- Settles O41: the register and the memory forms are one handler each at the two operations. -/
theorem decimalArithmetic : Obligations.DecimalArithmetic := by
  intro s ry rx ea op ir im hi
  simp only [List.mem_cons, List.not_mem_nil, or_false, Prod.mk.injEq] at hi
  rcases hi with ⟨rfl, rfl, rfl⟩ | ⟨rfl, rfl, rfl⟩
  · refine ⟨?_, fun hsrc hdst => ?_, exec_nbcd⟩
    · show execAbcdReg ry rx s = _
      exact runInstr_next rfl rfl (bcdReg_eq abcdValue ry rx)
    · show execAbcdMem ry rx s = _
      exact runInstr_next rfl rfl (bcdMem_eq hsrc hdst)
  · refine ⟨?_, fun hsrc hdst => ?_, exec_nbcd⟩
    · show execSbcdReg ry rx s = _
      exact runInstr_next rfl rfl (bcdReg_eq sbcdValue ry rx)
    · show execSbcdMem ry rx s = _
      exact runInstr_next rfl rfl (bcdMem_eq hsrc hdst)

end Sys2Proof.Machine
end


section
/-! Addresses, register lists and alternate bytes (41_data_movement.md, R504–R512; R1106, R1107). -/

namespace Sys2Proof.Machine

variable {s : State}

/-- The address of a control operand does not depend on the pc, and a meaning's first step leaves it as it was. -/
theorem addrOf_pastWords {ea : EA} (hcontrol : ea.isControl = true) (hres : s.resolves ea = true) (i : Instr) (xa : Long)
    (sz : Size) : addrOf xa ea (s.pastWords i) = .ok (s.address xa ea sz) (s.pastWords i) :=
  addrOf_eq (s := s.pastWords i) xa sz hcontrol hres

theorem callTo_eq {target : Long} (h : s.canPush .l = true) :
    callTo target s = .ok () ((s.pushed .l s.pc).setPc target) := by
  rw [callTo, run_bind_ok (run_getPc s), run_bind_ok (push_eq _ h)]
  rfl

/-- Settles O42: the address is computed first; then it is kept, pushed or gone to. -/
theorem addressesAndFrames : Obligations.AddressesAndFrames := by
  refine ⟨?_, ?_⟩
  · intro s ea an hcontrol hres a
    refine ⟨?_, fun hpush => ?_, ?_, fun hpush => ?_⟩
    · show execLea ea an s = _
      refine runInstr_next rfl rfl ?_
      rw [run_bind_ok (addrOf_pastWords hcontrol hres _ _ .l)]
      rfl
    · show execPea ea s = _
      refine runInstr_next rfl rfl ?_
      rw [run_bind_ok (addrOf_pastWords hcontrol hres _ _ .l)]
      exact push_eq _ hpush
    · show execJmp ea s = _
      refine runInstr_next rfl rfl ?_
      rw [run_bind_ok (addrOf_pastWords hcontrol hres _ _ .l)]
      rfl
    · show execJsr ea s = _
      refine runInstr_next rfl rfl ?_
      rw [run_bind_ok (addrOf_pastWords hcontrol hres _ _ .l)]
      exact callTo_eq hpush
  · intro s an d
    refine ⟨?_, ?_⟩
    · intro s1 s2 hpush
      show execLink an d s = _
      refine runInstr_next rfl rfl ?_
      rw [run_bind_ok (run_getA an _), run_bind_ok (push_eq (s := s.pastWords (.link an d)) _ hpush)]
      rfl
    · intro s1 hpop
      show execUnlk an s = _
      refine runInstr_next rfl rfl ?_
      rw [run_bind_ok (run_getA an _), run_bind_ok (run_putA 7 _ _)]
      exact run_bind_ok (pop_eq (s := s1) hpop)

/-! ### MOVEM -/

theorem movemToPredec_eq {sz : Size} {mask : HWord} {r : Reg}
    (hlist : (s.model.is020plus && mask.getLsbD (7 - r.val)) = false)
    (hstore : s.canStoreDown sz (maskRegsDown mask) (s.readA r) = true) :
    movemToPredec sz mask r s = .ok () ((s.storedDown sz (maskRegsDown mask) (s.readA r)).writeA r
      (s.readA r - BitVec.ofNat 32 (maskRegsDown mask).length * byteCount sz)) := by
  rw [movemToPredec, run_bind_ok (run_getModel s), hlist, if_neg Bool.false_ne_true, run_bind_ok (run_getA r s),
    run_bind_ok (movemStoreDown_eq hstore)]
  rfl

theorem movemToPredec_refused {sz : Size} {mask : HWord} {r : Reg}
    (hlist : (s.model.is020plus && mask.getLsbD (7 - r.val)) = true) :
    movemToPredec sz mask r s = .error (.refused .movemPredecBaseInList) s := by
  rw [movemToPredec, run_bind_ok (run_getModel s), hlist, if_pos rfl]
  rfl

/-- MOVEM to a control operand (R504). -/
theorem exec_movemToMem_control {sz : SizeWL} {mask : HWord} {ea : EA} (hcontrol : ea.isControl = true)
    (hres : s.resolves ea = true)
    (hstore : (s.pastWords (.movemToMem sz mask ea)).canStoreUp sz.toSize (maskRegs mask)
      (s.address (extAfter s.pc 1) ea sz.toSize) = true) :
    exec (.movemToMem sz mask ea) s = .next ((s.pastWords (.movemToMem sz mask ea)).storedUp sz.toSize (maskRegs mask)
      (s.address (extAfter s.pc 1) ea sz.toSize)) := by
  show execMovemToMem sz mask ea s = _
  refine runInstr_next rfl rfl ?_
  split
  · cases hcontrol
  · rw [run_bind_ok (addrOf_pastWords hcontrol hres _ _ sz.toSize)]
    exact movemStoreUp_eq hstore

theorem movemFromPostinc_eq {sz : Size} {mask : HWord} {r : Reg}
    (hload : s.canLoadUp sz .data (maskRegs mask) (s.readA r) = true) :
    movemFromPostinc sz mask r s = .ok () ((s.loadedUp sz .data (maskRegs mask) (s.readA r)).writeA r
      (s.readA r + BitVec.ofNat 32 (maskRegs mask).length * byteCount sz)) := by
  rw [movemFromPostinc, run_bind_ok (run_getA r s), run_bind_ok (movemLoad_eq hload)]
  rfl

/-- MOVEM from a control operand (R505). -/
theorem exec_movemToReg_control {sz : SizeWL} {mask : HWord} {ea : EA} (hcontrol : ea.isControl = true)
    (hres : s.resolves ea = true)
    (hload : (s.pastWords (.movemToReg sz ea mask)).canLoadUp sz.toSize (if ea.isPcRel then .program else .data)
      (maskRegs mask) (s.address (extAfter s.pc 1) ea sz.toSize) = true) :
    exec (.movemToReg sz ea mask) s = .next ((s.pastWords (.movemToReg sz ea mask)).loadedUp sz.toSize
      (if ea.isPcRel then .program else .data) (maskRegs mask) (s.address (extAfter s.pc 1) ea sz.toSize)) := by
  show execMovemToReg sz ea mask s = _
  refine runInstr_next rfl rfl ?_
  split
  · cases hcontrol
  · rw [movemFromControl, run_bind_ok (addrOf_pastWords hcontrol hres _ _ sz.toSize), run_bind_ok (movemLoad_eq hload)]
    rfl

/-- Settles O43: the predecrement and postincrement forms, and the control forms. -/
theorem movemMovesARegisterList : Obligations.MovemMovesARegisterList := by
  refine ⟨fun s sz mask => ⟨fun r hlist hstore => ?_, fun r h20 hbit => ?_,
    fun ea hcontrol _ hres hstore => exec_movemToMem_control hcontrol hres hstore⟩,
    fun s sz mask => ⟨fun r hload => ?_, fun ea hcontrol hres hload => exec_movemToReg_control hcontrol hres hload⟩⟩
  · show execMovemToMem sz mask (.predec r) s = _
    exact runInstr_next rfl rfl (movemToPredec_eq hlist hstore)
  · show execMovemToMem sz mask (.predec r) s = _
    have hlist : (s.model.is020plus && mask.getLsbD (7 - r.val)) = true := by rw [h20, hbit]; rfl
    exact runInstr_refuses rfl rfl (movemToPredec_refused hlist)
  · show execMovemToReg sz (.postinc r) mask s = _
    exact runInstr_next rfl rfl (movemFromPostinc_eq hload)

/-! ### MOVEP -/

theorem getLsbD_truncTo_b (v : Long) {i : Nat} (hi : i < 32) : (truncTo .b v).getLsbD i = (decide (i < 8) && v.getLsbD i) := by
  have hmask : (sizeMask .b).getLsbD i = decide (i < 8) := ones_getLsbD 8 hi
  rw [truncTo, BitVec.getLsbD_and, hmask, Bool.and_comm]

/-- The byte of a longword that starts at a bit, as `movepWrite` shifts it out (R507). -/
theorem truncTo_b_shiftRight (v : Long) (k : Nat) : truncTo .b (v >>> k) = (v.extractLsb' k 8).setWidth 32 := by
  apply BitVec.eq_of_getLsbD_eq
  intro i hi
  rw [getLsbD_truncTo_b _ hi, BitVec.getLsbD_setWidth, BitVec.getLsbD_extractLsb', BitVec.getLsbD_ushiftRight]
  simp [hi]

theorem movepRead_succ {a : Long} (n : Nat) (v : Long) (h : s.canRead a .b s.dataFC = true) :
    movepRead (n + 1) a v s = movepRead n (a + 2) ((v <<< 8) ||| s.valueAt a .b s.dataFC) s := by
  rw [movepRead, run_bind, run_memRead, memReadFC_eq h]

theorem movepWrite_succ {a : Long} (n : Nat) (v : Long) (h : s.canWrite a .b s.dataFC = true) :
    movepWrite (n + 1) a v s =
      movepWrite n (a + 2) v (s.stored a .b s.dataFC ((v.extractLsb' (8 * n) 8).setWidth 32)) := by
  rw [movepWrite, run_bind, run_memWrite, memWriteFC_eq _ h, truncTo_b_shiftRight]

theorem zero_shiftLeft_or (b : Long) : ((0 : Long) <<< 8) ||| b = b := BitVec.zero_or

theorem add_two_add_two (a : Long) : a + 2 + 2 = a + 4 := by rw [BitVec.add_assoc]; rfl

theorem add_four_add_two (a : Long) : a + 4 + 2 = a + 6 := by rw [BitVec.add_assoc]; rfl

/-- Two bytes from every second address (R506). -/
theorem movepRead_two {a : Long} (h0 : s.canRead a .b s.dataFC = true) (h1 : s.canRead (a + 2) .b s.dataFC = true) :
    movepRead 2 a 0 s = .ok ((s.valueAt a .b s.dataFC <<< 8) ||| s.valueAt (a + 2) .b s.dataFC) s := by
  rw [movepRead_succ 1 0 h0, movepRead_succ 0 _ h1, zero_shiftLeft_or]
  rfl

/-- Four bytes from every second address (R506). -/
theorem movepRead_four {a : Long} (h0 : s.canRead a .b s.dataFC = true) (h1 : s.canRead (a + 2) .b s.dataFC = true)
    (h2 : s.canRead (a + 4) .b s.dataFC = true) (h3 : s.canRead (a + 6) .b s.dataFC = true) :
    movepRead 4 a 0 s = .ok ((s.valueAt a .b s.dataFC <<< 24) ||| (s.valueAt (a + 2) .b s.dataFC <<< 16) |||
      (s.valueAt (a + 4) .b s.dataFC <<< 8) ||| s.valueAt (a + 6) .b s.dataFC) s := by
  rw [movepRead_succ 3 0 h0, movepRead_succ 2 _ h1, add_two_add_two, movepRead_succ 1 _ h2, add_four_add_two,
    movepRead_succ 0 _ h3, zero_shiftLeft_or]
  simp only [BitVec.shiftLeft_or_distrib, ← BitVec.shiftLeft_add]
  rfl

/-- Two bytes to every second address (R507). -/
theorem movepWrite_two {a : Long} (v : Long) (h0 : s.canWrite a .b s.dataFC = true)
    (h1 : s.canWrite (a + 2) .b s.dataFC = true) :
    movepWrite 2 a v s = .ok () ((s.stored a .b s.dataFC ((v.extractLsb' 8 8).setWidth 32)).stored (a + 2) .b s.dataFC
      ((v.extractLsb' 0 8).setWidth 32)) := by
  rw [movepWrite_succ 1 v h0, movepWrite_succ 0 v (by rwa [State.canWrite_congr (s := s) (by simp), State.stored_dataFC]),
    State.stored_dataFC]
  rfl

/-- Four bytes to every second address (R507): the first two, then the last two. -/
theorem movepWrite_four {a : Long} (v : Long) (h0 : s.canWrite a .b s.dataFC = true)
    (h1 : s.canWrite (a + 2) .b s.dataFC = true) (h2 : s.canWrite (a + 4) .b s.dataFC = true)
    (h3 : s.canWrite (a + 6) .b s.dataFC = true) :
    movepWrite 4 a v s = .ok () ((((s.stored a .b s.dataFC ((v.extractLsb' 24 8).setWidth 32)).stored (a + 2) .b s.dataFC
      ((v.extractLsb' 16 8).setWidth 32)).stored (a + 4) .b s.dataFC ((v.extractLsb' 8 8).setWidth 32)).stored (a + 6) .b
      s.dataFC ((v.extractLsb' 0 8).setWidth 32)) := by
  rw [movepWrite_succ 3 v h0, movepWrite_succ 2 v (by rwa [State.canWrite_congr (s := s) (by simp), State.stored_dataFC]),
    add_two_add_two,
    movepWrite_two v (by rwa [State.canWrite_congr (s := s) (by simp), State.stored_dataFC, State.stored_dataFC])
      (by rwa [add_four_add_two, State.canWrite_congr (s := s) (by simp), State.stored_dataFC, State.stored_dataFC]),
    add_four_add_two]
  simp only [State.stored_dataFC]

/-- Settles O44: two or four bytes, read or written at every second address. -/
theorem movepAlternatesBytes : Obligations.MovepAlternatesBytes := by
  intro s rx ry d a fc byte v
  have hzero : byte 0 = s.valueAt a .b fc := congrArg (fun x => s.valueAt x .b fc) (BitVec.add_zero a)
  have hv : truncTo .l v = v := truncTo_l v
  refine ⟨fun h0 h1 => ?_, fun h0 h1 h2 h3 => ?_, fun h0 h1 => ?_, fun h0 h1 h2 h3 => ?_⟩
  · show execMovepToReg .w ry d rx s = _
    refine runInstr_next rfl rfl ?_
    rw [hzero]
    exact run_bind_ok (movepRead_two (s := s.pastWords (.movepToReg .w ry d rx)) h0 h1)
  · show execMovepToReg .l ry d rx s = _
    refine runInstr_next rfl rfl ?_
    rw [hzero]
    exact run_bind_ok (movepRead_four (s := s.pastWords (.movepToReg .l ry d rx)) h0 h1 h2 h3)
  · show execMovepToMem .w rx ry d s = _
    refine runInstr_next rfl rfl ?_
    rw [run_bind_ok (run_getA ry _), run_bind_ok (run_getD rx .l _), State.pastWords_readD, hv]
    exact movepWrite_two (s := s.pastWords (.movepToMem .w rx ry d)) v h0 h1
  · show execMovepToMem .l rx ry d s = _
    refine runInstr_next rfl rfl ?_
    rw [run_bind_ok (run_getA ry _), run_bind_ok (run_getD rx .l _), State.pastWords_readD, hv]
    exact movepWrite_four (s := s.pastWords (.movepToMem .l rx ry d)) v h0 h1 h2 h3

end Sys2Proof.Machine
end


section
/-! Program control (47_program_control.md, R1100–R1111): branches, conditions and returns. -/

namespace Sys2Proof.Machine

variable {s : State}

theorem branchIf_eq (cond : Cond) (target : Long) :
    branchIf cond target s = .ok () (if condHolds cond s.ccr then s.setPc target else s) := by
  rw [branchIf, run_bind_ok (run_getFlags s)]
  split <;> rfl

/-- A branch with an 8-bit displacement of 0xFF runs below MC68020 only (R345). -/
theorem rowVerdict_branch {m : Model} {d : BranchDisp}
    (h : ∀ b, d = .short b → m.is020plus = true → b ≠ 0xFF) (cond : Cond) :
    rowVerdict m (.bcc cond d) = .entry ∧ rowVerdict m (.bra d) = .entry ∧ rowVerdict m (.bsr d) = .entry := by
  cases d with
  | word w => exact ⟨rfl, rfl, rfl⟩
  | short b =>
    have hb : ¬(b = 0xFF ∧ m.is020plus = true) := fun hb => h b rfl hb.2 hb.1
    exact ⟨if_neg hb, if_neg hb, if_neg hb⟩

theorem rowVerdict_bccL {m : Model} (h : m.is020plus = false) (cond : Cond) : rowVerdict m (.bccL cond) = .entry := by
  rw [rowVerdict, h]
  rfl

/-- The handler of row 81 for a condition other than F (log entry 13). -/
theorem exec_bccL {cond : Cond} (h020 : s.model.is020plus = false) (hf : cond ≠ .f) :
    exec (.bccL cond) s = .next (if condHolds cond s.ccr then
      (s.pastWords (.bccL cond)).setPc (branchTarget s.pc (sext8 0xFF)) else s.pastWords (.bccL cond)) := by
  show execBccL cond s = _
  refine runInstr_next (rowVerdict_bccL h020 cond) rfl ?_
  cases cond with
  | t => rfl
  | f => exact absurd rfl hf
  | _ => exact branchIf_eq _ _

/-- The low word of a longword, as a longword. -/
theorem truncTo_w_eq (v : Long) : truncTo .w v = (v.setWidth 16).setWidth 32 := by
  apply BitVec.eq_of_toNat_eq
  exact (truncTo_w_toNat v).trans (BitVec.toNat_setWidth_of_le (by decide)).symm

theorem setWidth_truncTo_w (v : Long) : (truncTo .w v).setWidth 16 = v.setWidth 16 := by
  rw [truncTo_w_eq, BitVec.setWidth_setWidth_of_le _ (by decide), BitVec.setWidth_eq]

/-- DBcc counts in the low word (R1104). -/
theorem truncTo_w_pred (v : Long) : truncTo .w (truncTo .w v - 1) = (v.setWidth 16 - 1#16).setWidth 32 := by
  have hneg : (-1 : Long).setWidth 16 = -1#16 := by decide
  rw [truncTo_w_eq, BitVec.sub_eq_add_neg, BitVec.setWidth_add _ _ (by decide), setWidth_truncTo_w, hneg,
    ← BitVec.sub_eq_add_neg]

theorem setWidth_32_inj {a b : HWord} : a.setWidth 32 = b.setWidth 32 ↔ a = b := by
  refine ⟨fun h => ?_, congrArg _⟩
  have := congrArg (BitVec.setWidth 16) h
  rwa [BitVec.setWidth_setWidth_of_le _ (by decide), BitVec.setWidth_setWidth_of_le _ (by decide), BitVec.setWidth_eq,
    BitVec.setWidth_eq] at this

/-- DBcc (R1104). -/
theorem exec_dbcc (cond : Cond) (dn : Reg) (d : BitVec 16) :
    let s0 := s.pastWords (.dbcc cond dn d)
    let count := (s.readD dn).setWidth 16 - 1#16
    exec (.dbcc cond dn d) s = .next (
      if condHolds cond s.ccr then s0
      else if count = 0xFFFF then s0.setD dn .w (count.setWidth 32)
      else (s0.setD dn .w (count.setWidth 32)).setPc (s.pc + 2 + d.signExtend 32)) := by
  intro s0 count
  have hcount : truncTo .w (truncTo .w (s0.readD dn) - 1) = count.setWidth 32 := truncTo_w_pred _
  show execDbcc cond dn d s = _
  refine runInstr_next rfl rfl ?_
  rw [run_bind_ok (run_getFlags _), State.pastWords_ccr]
  split
  · rfl
  · rw [run_bind_ok (run_getD dn .w _), run_bind_ok (run_putD dn .w _ _), hcount]
    have hiff : count.setWidth 32 = (0xFFFF : Long) ↔ count = 0xFFFF := setWidth_32_inj (b := 0xFFFF)
    by_cases hout : count = 0xFFFF
    · rw [if_pos hout, if_pos (hiff.2 hout)]
      rfl
    · rw [if_neg hout, if_neg (mt hiff.1 hout)]
      rfl

/-- Scc (R1105). -/
theorem exec_scc {cond : Cond} {ea : EA} (h : (s.pastWords (.scc cond ea)).canWriteEA (firstExt s.pc) ea .b = true) :
    let s0 := s.pastWords (.scc cond ea)
    exec (.scc cond ea) s = .next ((s0.afterEA ea .b).putLoc (s0.location (firstExt s.pc) ea .b) .b
      (if condHolds cond s.ccr then 0xFF else 0)) := by
  obtain ⟨hres, hwrite⟩ := canWriteEA_parts h
  show execScc cond ea s = _
  refine runInstr_next rfl rfl ?_
  rw [run_bind_ok (resolveEA_eq _ .b hres), run_bind_ok (run_getFlags _), State.afterEA_ccr, State.pastWords_ccr]
  exact writeLoc_eq _ hwrite

/-- Settles O45: the branches by their common target, row 81's constructor, DBcc, Scc and NOP. -/
theorem branchesAndConditions : Obligations.BranchesAndConditions := by
  refine ⟨fun s cond d => ?_, fun s cond dn d ea => ⟨exec_dbcc cond dn d, exec_scc, rfl⟩⟩
  intro offset target odd
  have htarget : branchTarget s.pc (branchOffset d) = target := by cases d <;> rfl
  refine ⟨fun hFF => ?_, fun h020 => ⟨fun hf => exec_bccL h020 hf, fun hpush => ?_⟩⟩
  · obtain ⟨hbcc, hbra, hbsr⟩ := rowVerdict_branch hFF cond
    refine ⟨?_, ?_, fun hpush => ?_⟩
    · show execBcc cond d s = _
      rw [← htarget]
      exact runInstr_next hbcc rfl (branchIf_eq cond _)
    · show execBra d s = _
      rw [← htarget]
      exact runInstr_next hbra rfl rfl
    · show execBsr d s = _
      rw [← htarget]
      exact runInstr_next hbsr rfl (callTo_eq hpush)
  · show execBccL .f s = _
    exact runInstr_next (rowVerdict_bccL h020 .f) rfl (callTo_eq hpush)

/-- Settles O46: each pop is of the state the one before it leaves. -/
theorem returns : Obligations.Returns := by
  intro s d
  refine ⟨fun hpop => ?_, ?_, ?_⟩
  · show execRts s = _
    refine runInstr_next rfl rfl ?_
    exact run_bind_ok (pop_eq (s := s.pastWords .rts) hpop)
  · intro s1 hccr hpc
    show execRtr s = _
    refine runInstr_next rfl rfl ?_
    rw [run_bind_ok (pop_eq (s := s.pastWords .rtr) hccr), run_bind_ok (run_update _ _)]
    exact run_bind_ok (pop_eq (s := s1) hpc)
  · intro s1 h010 hpop
    show execRtd d s = _
    refine runInstr_next (if_pos h010) rfl ?_
    exact run_bind_ok (pop_eq (s := s.pastWords (.rtd d)) hpop)

end Sys2Proof.Machine
end

section
/-! The condition-code and status registers (48_system_control.md, R1201–R1217). -/

namespace Sys2Proof.Machine

variable {s : State}

/-- Settles O47: SetCCR of a computed byte, and the CCR stored as a word. -/
theorem ccrInstructions : Obligations.CcrInstructions := by
  intro s imm ea ccr
  refine ⟨rfl, rfl, rfl, ?_, ?_⟩
  · intro s0 hread
    show execMoveToCcr ea s = _
    refine runInstr_next rfl rfl ?_
    exact run_bind_ok (readEA_eq hread)
  · intro s0 h010 hwrite
    show execMoveFromCcr ea s = _
    refine runInstr_next (if_pos h010) rfl ?_
    obtain ⟨hres, hwrite⟩ := canWriteEA_parts hwrite
    rw [run_bind_ok (resolveEA_eq _ .w hres), run_bind_ok (run_look _ _), State.afterEA_sr]
    exact writeLoc_eq _ hwrite

theorem setSR_eq {v : HWord} (h : srRefused s.model v = false) :
    setSR v s = .ok () (s.setSrBits (v &&& srImplemented s.model)) := by
  rw [run_setSR, h]
  rfl

theorem updateSr_eq {op : HWord → HWord} (h : srRefused s.model (op s.sr) = false) :
    updateSr op s = .ok () (s.setSrBits (op s.sr &&& srImplemented s.model)) := by
  rw [updateSr, run_bind_ok (run_look _ _)]
  exact setSR_eq h

/-- MOVE to SR (R1209). -/
theorem exec_moveToSr {ea : EA} (hsup : s.supervisor = true) :
    let s0 := s.pastWords (.moveToSr ea)
    let v := (s0.operand (firstExt s.pc) ea .w).setWidth 16
    s0.canReadEA (firstExt s.pc) ea .w = true → srRefused s.model v = false →
    exec (.moveToSr ea) s = .next ((s0.afterEA ea .w).setSrBits (v &&& srImplemented (s0.afterEA ea .w).model)) := by
  intro s0 v hread hsr
  show execMoveToSr ea s = _
  refine runInstr_next rfl (no_violation hsup) ?_
  rw [run_bind_ok (readEA_eq hread)]
  exact setSR_eq (by rw [State.afterEA_model]; exact hsr)

/-- MOVE from SR is privileged on all models but MC68000 (R306, R1210). -/
theorem exec_moveFromSr {ea : EA} (hpriv : s.model.is010plus = true → s.supervisor = true) :
    let s0 := s.pastWords (.moveFromSr ea)
    s0.canWriteEA (firstExt s.pc) ea .w = true →
    exec (.moveFromSr ea) s =
      .next ((s0.afterEA ea .w).putLoc (s0.location (firstExt s.pc) ea .w) .w (s.sr.setWidth 32)) := by
  intro s0 hwrite
  have hviol : privilegeViolation (.moveFromSr ea) s = false := by
    cases h010 : s.model.is010plus with
    | true => exact no_violation (hpriv h010)
    | false =>
      have h000 : s.model.is000 = true := by
        revert h010
        cases s.model <;> decide
      show ((!s.model.is000) && !s.supervisor) = false
      rw [h000]
      rfl
  show execMoveFromSr ea s = _
  refine runInstr_next rfl hviol ?_
  obtain ⟨hres, hwrite⟩ := canWriteEA_parts hwrite
  rw [run_bind_ok (resolveEA_eq _ .w hres), run_bind_ok (run_look _ _), State.afterEA_sr]
  exact writeLoc_eq _ hwrite

/-- Settles O48: SetSR of the value of each instruction, MOVE from SR, and the three that write no SR. -/
theorem statusRegisterInstructions : Obligations.StatusRegisterInstructions := by
  refine ⟨fun s imm ea => ?_, fun s an hsup => ⟨?_, ?_, ?_⟩⟩
  · intro written
    refine ⟨fun hsup => ⟨fun hsr => ?_, fun hsr => ?_, fun hsr => ?_, fun hsr => ?_, exec_moveToSr hsup⟩, exec_moveFromSr⟩
    · show execAndiToSr imm s = _
      exact runInstr_next rfl (no_violation hsup) (updateSr_eq (s := s.pastWords (.andiToSr imm)) hsr)
    · show execOriToSr imm s = _
      exact runInstr_next rfl (no_violation hsup) (updateSr_eq (s := s.pastWords (.oriToSr imm)) hsr)
    · show execEoriToSr imm s = _
      exact runInstr_next rfl (no_violation hsup) (updateSr_eq (s := s.pastWords (.eoriToSr imm)) hsr)
    · show execStop imm s = _
      refine runInstr_next rfl (no_violation hsup) ?_
      exact run_bind_ok (setSR_eq (s := s.pastWords (.stop imm)) hsr)
  · show execMoveToUsp an s = _
    exact runInstr_next rfl (no_violation hsup) rfl
  · show execMoveFromUsp an s = _
    exact runInstr_next rfl (no_violation hsup) rfl
  · show execReset s = _
    exact runInstr_next rfl (no_violation hsup) rfl

end Sys2Proof.Machine
end


section
/-! Control registers and alternate spaces (48_system_control.md section 4, R122, R1213–R1215). -/

namespace Sys2Proof.Machine

variable {s : State}

/-! ### MOVEC -/

/-- The control register numbers that MC68040 alone refuses, as a list and as `controlReg` bounds them. -/
theorem mem_refusedOn040 (c : BitVec 12) :
    c ∈ ([0x003, 0x004, 0x005, 0x006, 0x007, 0x805, 0x806, 0x807] : List (BitVec 12)) ↔
      (0x003 ≤ c.toNat ∧ c.toNat ≤ 0x007) ∨ (0x805 ≤ c.toNat ∧ c.toNat ≤ 0x807) := by
  simp only [List.mem_cons, List.not_mem_nil, or_false]
  bv_omega

theorem mem_refusedOn020 (c : BitVec 12) :
    c ∈ ([0x002, 0x802, 0x803, 0x804] : List (BitVec 12)) ↔ c = 0x002 ∨ c = 0x802 ∨ c = 0x803 ∨ c = 0x804 := by
  simp only [List.mem_cons, List.not_mem_nil, or_false]

/-- The numbers of the registers the spec does not model on `m` (R122). -/
def refusedControl (c : BitVec 12) (m : Model) : Prop :=
  m.is020plus = true ∧ c ∈ ([0x002, 0x802, 0x803, 0x804] : List (BitVec 12)) ∨
    m = .mc68040 ∧ c ∈ ([0x003, 0x004, 0x005, 0x006, 0x007, 0x805, 0x806, 0x807] : List (BitVec 12))

theorem controlReg_refused {c : BitVec 12} {m : Model} (hc : c ∉ [(0x000 : BitVec 12), 0x001, 0x800, 0x801])
    (h : refusedControl c m) : controlReg c m = .refused := by
  simp only [List.mem_cons, List.not_mem_nil, or_false, not_or] at hc
  obtain ⟨hsfc, hdfc, husp, hvbr⟩ := hc
  rw [refusedControl, mem_refusedOn020, mem_refusedOn040] at h
  rw [controlReg, if_neg hsfc, if_neg hdfc, if_neg husp, if_neg hvbr]
  rcases h with h | h
  · exact if_pos h
  · rw [if_pos h, ite_self]

theorem controlReg_unknown {c : BitVec 12} {m : Model} (hc : c ∉ [(0x000 : BitVec 12), 0x001, 0x800, 0x801])
    (h : ¬refusedControl c m) : controlReg c m = .unknown := by
  simp only [List.mem_cons, List.not_mem_nil, or_false, not_or] at hc
  obtain ⟨hsfc, hdfc, husp, hvbr⟩ := hc
  rw [refusedControl, mem_refusedOn020, mem_refusedOn040, not_or] at h
  rw [controlReg, if_neg hsfc, if_neg hdfc, if_neg husp, if_neg hvbr, if_neg h.1, if_neg h.2]

/-- No refused number is that of a modelled register. -/
theorem not_listed_of_refused {c : BitVec 12} {m : Model} (h : refusedControl c m) :
    c ∉ [(0x000 : BitVec 12), 0x001, 0x800, 0x801] := by
  have hlists : ∀ c ∈ ([0x002, 0x802, 0x803, 0x804] ++ [0x003, 0x004, 0x005, 0x006, 0x007, 0x805, 0x806, 0x807] :
      List (BitVec 12)), c ∉ [(0x000 : BitVec 12), 0x001, 0x800, 0x801] := by decide
  exact hlists c (List.mem_append.2 (h.imp And.right And.right))

section
variable {rn : RegR} {c : BitVec 12} (hsup : s.supervisor = true) (h010 : s.model.is010plus = true)
include hsup h010

theorem exec_movecFrom_refused (h : controlReg c s.model = .refused) :
    exec (.movecFrom c rn) s = .refused .controlRegisterNotModelled := by
  show execMovecFrom c rn s = _
  refine runInstr_refuses (if_pos h010) (no_violation hsup) (t := s.pastWords (.movecFrom c rn)) ?_
  rw [run_bind_ok (run_getModel _), State.pastWords_model, h]
  rfl

theorem exec_movecTo_refused (h : controlReg c s.model = .refused) :
    exec (.movecTo rn c) s = .refused .controlRegisterNotModelled := by
  show execMovecTo rn c s = _
  refine runInstr_refuses (if_pos h010) (no_violation hsup) (t := s.pastWords (.movecTo rn c)) ?_
  rw [run_bind_ok (run_getModel _), run_bind_ok (run_getR rn _), State.pastWords_model, h]
  rfl

theorem exec_movecFrom_unknown (h : controlReg c s.model = .unknown)
    (hEnter : (s.pastWords (.movecFrom c rn)).canEnter 4 s.pc none = true) :
    exec (.movecFrom c rn) s = .next ((s.pastWords (.movecFrom c rn)).entered 4 s.pc none) := by
  show execMovecFrom c rn s = _
  refine runInstr_taken (if_pos h010) (no_violation hsup) ?_
  rw [run_bind_ok (run_getModel _), State.pastWords_model, h]
  exact raise_eq hEnter

theorem exec_movecTo_unknown (h : controlReg c s.model = .unknown)
    (hEnter : (s.pastWords (.movecTo rn c)).canEnter 4 s.pc none = true) :
    exec (.movecTo rn c) s = .next ((s.pastWords (.movecTo rn c)).entered 4 s.pc none) := by
  show execMovecTo rn c s = _
  refine runInstr_taken (if_pos h010) (no_violation hsup) ?_
  rw [run_bind_ok (run_getModel _), run_bind_ok (run_getR rn _), State.pastWords_model, h]
  exact raise_eq hEnter

/-- The four modelled registers, read and written (R1213, R1214). -/
theorem exec_movec_listed {v : Long} {put : State → State}
    (hc : (c, v, put) ∈ [((0x000 : BitVec 12), s.sfc.setWidth 32, fun t => t.setSfc ((s.readR rn).setWidth 3)),
      (0x001, s.dfc.setWidth 32, fun t => t.setDfc ((s.readR rn).setWidth 3)),
      (0x800, s.usp, fun t => t.setUsp (s.readR rn)), (0x801, s.vbr, fun t => t.setVbr (s.readR rn))]) :
    exec (.movecFrom c rn) s = .next ((s.pastWords (.movecFrom c rn)).writeR rn v) ∧
      exec (.movecTo rn c) s = .next (put (s.pastWords (.movecTo rn c))) := by
  have hpriv : ∀ i, privilegeViolation i s = false := fun i => no_violation hsup
  simp only [List.mem_cons, List.not_mem_nil, or_false, Prod.mk.injEq] at hc
  constructor
  · show execMovecFrom c rn s = _
    refine runInstr_next (if_pos h010) (hpriv _) ?_
    rcases hc with ⟨rfl, rfl, rfl⟩ | ⟨rfl, rfl, rfl⟩ | ⟨rfl, rfl, rfl⟩ | ⟨rfl, rfl, rfl⟩ <;> rfl
  · show execMovecTo rn c s = _
    refine runInstr_next (if_pos h010) (hpriv _) ?_
    rcases hc with ⟨rfl, rfl, rfl⟩ | ⟨rfl, rfl, rfl⟩ | ⟨rfl, rfl, rfl⟩ | ⟨rfl, rfl, rfl⟩ <;> rfl

end

/-- Settles O49: the modelled numbers, the refused ones, and the others. -/
theorem movecMovesControlRegisters : Obligations.MovecMovesControlRegisters := by
  intro s rn hsup h010
  refine ⟨fun c v put hc => exec_movec_listed hsup h010 hc, ?_⟩
  intro refusedOn020 refusedOn040 refused
  refine ⟨fun c (hc : refusedControl c s.model) => ?_, fun c (hc : ¬refusedControl c s.model) hlisted => ?_⟩
  · have hreg := controlReg_refused (not_listed_of_refused hc) hc
    exact ⟨exec_movecFrom_refused hsup h010 hreg, exec_movecTo_refused hsup h010 hreg⟩
  · have hreg := controlReg_unknown hlisted hc
    exact ⟨exec_movecFrom_unknown hsup h010 hreg, exec_movecTo_unknown hsup h010 hreg⟩

/-! ### MOVES -/

theorem State.afterEA_sfc (e : EA) (sz : Size) : (s.afterEA e sz).sfc = s.sfc := by cases e <;> simp [afterEA]

theorem State.afterEA_dfc (e : EA) (sz : Size) : (s.afterEA e sz).dfc = s.dfc := by cases e <;> simp [afterEA]

/-- The store of MOVES, once the value is known (R1215). -/
theorem movesStore_eq {sz : Size} {rn : RegR} {xa v : Long} {ea : EA} {t : State}
    (hv : movesValue sz rn ea s = .ok v t) (ha : ea.isMemoryAlterable = true) (hres : t.resolves ea = true)
    (hwrite : t.canWrite (t.address xa ea sz) sz t.dfc = true) :
    movesStore sz rn xa ea s = .ok () ((t.afterEA ea sz).stored (t.address xa ea sz) sz t.dfc v) := by
  rw [movesStore, run_bind_ok hv, run_bind_ok (memoryAddress_eq ha hres), run_bind_ok (run_look _ _), State.afterEA_dfc]
  exact memWriteFC_eq v (by rwa [State.canWrite_congr (s := t) (by simp)])

theorem movesValue_of_other {sz : Size} {rn : RegR} {ea : EA} (h : movesSameRegister rn ea = false) :
    movesValue sz rn ea s = .ok (truncTo sz (s.readR rn)) s := by
  rw [movesValue, h]
  rfl

theorem movesValue_of_same {sz : Size} {rn : RegR} {ea : EA} (h : movesSameRegister rn ea = true) :
    movesValue sz rn ea s = .ok (truncTo sz (Config.freeLong s.draws)) s.countDraw := by
  rw [movesValue, h]
  rfl

theorem State.afterEA_countDraw (e : EA) (sz : Size) : s.countDraw.afterEA e sz = (s.afterEA e sz).countDraw := by
  have hwrite : ∀ (n : Reg) (v : Long), s.countDraw.writeA n v = (s.writeA n v).countDraw := by
    intro n v
    simp only [writeA, countDraw_supervisor, apply_dite State.countDraw, apply_ite State.countDraw]
    rfl
  cases e with
  | postinc n => exact hwrite n _
  | predec n => exact hwrite n _
  | _ => rfl

/-- The load of MOVES (R1215). -/
theorem movesLoad_eq {sz : Size} {rn : RegR} {xa : Long} {ea : EA} (ha : ea.isMemoryAlterable = true)
    (hres : s.resolves ea = true) (hread : s.canRead (s.address xa ea sz) sz s.sfc = true) :
    let v := s.valueAt (s.address xa ea sz) sz s.sfc
    movesLoad sz rn xa ea s = .ok () (if rn.val < 8 then (s.afterEA ea sz).setD (lowReg rn) sz v
      else (s.afterEA ea sz).writeA (lowReg rn) (signExtendFrom sz v)) := by
  intro v
  have hmem : memReadFC (s.address xa ea sz) sz s.sfc (s.afterEA ea sz) = .ok v (s.afterEA ea sz) := by
    rw [memReadFC_eq (by rwa [State.canRead_congr (s := s) (by simp)]), State.valueAt_congr (s := s) (by simp) (by simp)]
  rw [movesLoad, run_bind_ok (memoryAddress_eq ha hres), run_bind_ok (run_look _ _), State.afterEA_sfc,
    run_bind_ok hmem]
  by_cases hd : rn.val < 8
  · rw [if_pos hd, if_pos hd]
    rfl
  · rw [if_neg hd, if_neg hd, run_putR, State.writeR, if_neg hd]

/-- Settles O50: a store in the DFC space, of the register or of a drawn value, and a load from the SFC space. -/
theorem movesUsesTheAlternateSpaces : Obligations.MovesUsesTheAlternateSpaces := by
  intro s sz rn ea hsup h010 ha
  refine ⟨?_, ?_⟩
  · intro s0 a hres hwrite
    refine ⟨fun hother => ?_, fun hsame => ?_⟩
    · show execMoves sz true rn ea s = _
      exact runInstr_next (if_pos h010) (no_violation hsup)
        (movesStore_eq (movesValue_of_other (s := s0) hother) ha hres hwrite)
    · show execMoves sz true rn ea s = _
      refine runInstr_next (if_pos h010) (no_violation hsup) ?_
      rw [← State.afterEA_countDraw]
      exact movesStore_eq (movesValue_of_same (s := s0) hsame) ha hres hwrite
  · intro s0 a v hres hread
    show execMoves sz false rn ea s = _
    exact runInstr_next (if_pos h010) (no_violation hsup) (movesLoad_eq (s := s0) ha hres hread)

end Sys2Proof.Machine
end


section
/-! RTE, the traps, CHK and BKPT (48_system_control.md sections 5 and 6, R1218–R1225). -/

namespace Sys2Proof.Machine

variable {s : State}

/-! ### RTE -/

theorem is000_of_not_is010plus {m : Model} (h : m.is010plus = true) : m.is000 = false := by
  rw [Model.is010plus] at h
  simpa using h

/-- RTE on MC68000 takes six bytes (R1218). -/
theorem returnFromException_000 (ia : Long) (h : s.model.is000 = true) :
    returnFromException ia s = restoreFrame 6 s := by
  rw [returnFromException, run_bind_ok (run_getModel s), if_pos h]

/-- What RTE does with a frame of a format, on the models that have formats (R1218). -/
def returnByFormat (ia : Long) (f : FrameFormat) : Exec Unit :=
  match f with
  | .valid size => restoreFrame size
  | .refused => refuse .frameFormatNotModelled
  | .invalid => raise 14 ia none

/-- RTE on later models goes by the format of the frame (R1218). -/
theorem returnFromException_010 (ia : Long) (h : s.model.is010plus = true)
    (hread : s.canRead (s.readA 7 + 6) .w s.dataFC = true) :
    returnFromException ia s =
      returnByFormat ia (frameFormat ((s.valueAt (s.readA 7 + 6) .w s.dataFC).extractLsb' 12 4) s.model) s := by
  have h000 : ¬s.model.is000 = true := by rw [is000_of_not_is010plus h]; exact Bool.false_ne_true
  have hword : memRead (s.readA 7 + 6) .w s = .ok (s.valueAt (s.readA 7 + 6) .w s.dataFC) s := memReadFC_eq hread
  rw [returnFromException, run_bind_ok (run_getModel s), if_neg h000, run_bind_ok (run_getA 7 s), run_bind_ok hword]
  rfl

/-- Settles O51: the frame's size is 6 on MC68000 and its format's later; an invalid or unmodelled format ends otherwise. -/
theorem rteRestoresItsFrame : Obligations.RteRestoresItsFrame := by
  intro s hsup s0 sr p format
  have hreturn (h010 : s.model.is010plus = true) (hread : s.canRead (s.readA 7 + 6) .w s.dataFC = true) :
      returnFromException s.pc s0 = returnByFormat s.pc format s0 := returnFromException_010 s.pc (s := s0) h010 hread
  refine ⟨fun size hsize hsr hpc hrefused => ?_, fun h010 hread hformat hEnter => ?_, fun h010 hread hformat => ?_⟩
  · show execRte s = _
    refine runInstr_next rfl (no_violation hsup) ?_
    have hrestore := restoreFrame_eq (s := s0) (size := size) hsr hpc hrefused
    rcases hsize with ⟨h000, rfl⟩ | ⟨h010, hread, hformat⟩
    · exact (returnFromException_000 s.pc (s := s0) h000).trans hrestore
    · rw [hformat] at hreturn
      exact (hreturn h010 hread).trans hrestore
  · show execRte s = _
    refine runInstr_taken rfl (no_violation hsup) ?_
    rw [hformat] at hreturn
    exact (hreturn h010 hread).trans (raise_eq hEnter)
  · show execRte s = _
    refine runInstr_refuses rfl (no_violation hsup) (t := s0) ?_
    rw [hformat] at hreturn
    exact hreturn h010 hread

/-! ### Traps and checks -/

theorem exec_lineF_illegal {bits : BitVec 12} (h020 : s.model.is020plus = false)
    (hEnter : (s.pastWords (.lineF bits)).canEnter 11 s.pc none = true) :
    exec (.lineF bits) s = .next ((s.pastWords (.lineF bits)).entered 11 s.pc none) := by
  show execLineF bits s = _
  refine runInstr_taken rfl rfl ?_
  rw [run_bind_ok (run_getModel _), State.pastWords_model, h020, if_neg Bool.false_ne_true]
  exact raise_eq hEnter

/-- TRAPV (R1220). -/
theorem exec_trapv :
    (s.ccr.v = false → exec .trapv s = .next (s.pastWords .trapv)) ∧
    (s.ccr.v = true → (s.pastWords .trapv).canEnter 7 (s.pastWords .trapv).pc (some s.pc) = true →
      exec .trapv s = .next ((s.pastWords .trapv).entered 7 (s.pastWords .trapv).pc (some s.pc))) := by
  refine ⟨fun hv => ?_, fun hv hEnter => ?_⟩
  · show execTrapv s = _
    refine runInstr_next rfl rfl ?_
    rw [run_bind_ok (run_getFlags _), run_bind_ok (run_getPc _), State.pastWords_ccr, hv]
    rfl
  · show execTrapv s = _
    refine runInstr_taken rfl rfl ?_
    rw [run_bind_ok (run_getFlags _), run_bind_ok (run_getPc _), State.pastWords_ccr, hv]
    exact raise_eq hEnter

theorem finish_congr {x y : Exec Unit} {t : State} (h : x s = y t) : finish x s = finish y t := by
  rw [finish, finish, h]

/-- The end of CHK, once its operand is read and three flags are drawn: Dn below 0, above the bound, or within (R1221). -/
def checkBounds (ia pc : Long) (bound d : Int) (flags : Bool → Ccr) : Exec Unit :=
  if d < 0 then do
    putFlags (flags true)
    raise 6 pc (some ia)
  else if bound < d then do
    putFlags (flags false)
    raise 6 pc (some ia)
  else do
    let n ← drawBit
    putFlags (flags n)

theorem checkBounds_within {ia pc : Long} {bound d : Int} {flags : Bool → Ccr} (h0 : 0 ≤ d) (hb : d ≤ bound) :
    checkBounds ia pc bound d flags s = .ok () (s.countDraw.setFlags (flags (Config.freeBit s.draws))) := by
  rw [checkBounds, if_neg (not_lt.2 h0), if_neg (not_lt.2 hb)]
  rfl

theorem checkBounds_outside {ia pc : Long} {bound d : Int} {flags : Bool → Ccr} (h : d < 0 ∨ bound < d)
    (hEnter : (s.setFlags (flags (decide (d < 0)))).canEnter 6 pc (some ia) = true) :
    checkBounds ia pc bound d flags s =
      .error .ended ((s.setFlags (flags (decide (d < 0)))).entered 6 pc (some ia)) := by
  by_cases hneg : d < 0
  · rw [decide_eq_true hneg] at hEnter ⊢
    rw [checkBounds, if_pos hneg, run_bind_ok (run_putFlags _ _)]
    exact raise_eq hEnter
  · rw [decide_eq_false hneg] at hEnter ⊢
    rw [checkBounds, if_neg hneg, if_pos (h.resolve_left hneg), run_bind_ok (run_putFlags _ _)]
    exact raise_eq hEnter

/-- CHK after its operand and the draws of Z, V and C (R1221). -/
theorem exec_chkW {ea : EA} {dn : Reg} (hread : (s.pastWords (.chkW ea dn)).canReadEA (firstExt s.pc) ea .w = true) :
    let s0 := s.pastWords (.chkW ea dn)
    let s1 := (s0.afterEA ea .w).countDraw.countDraw.countDraw
    let flags (n : Bool) : Ccr := { s.ccr with
      n := n, z := Config.freeBit s.draws, v := Config.freeBit (s.draws + 1), c := Config.freeBit (s.draws + 2) }
    exec (.chkW ea dn) s = finish (checkBounds s.pc s1.pc ((s0.operand (firstExt s.pc) ea .w).setWidth 16).toInt
      ((s.readD dn).setWidth 16).toInt flags) s1 := by
  intro s0 s1 flags
  have hd : signed16 (truncTo .w (s0.readD dn)) = ((s.readD dn).setWidth 16).toInt := signed16_truncTo _
  have hccr : (s0.afterEA ea .w).ccr = s.ccr := s0.afterEA_ccr ea .w
  have hdraws : (s0.afterEA ea .w).draws = s.draws := s0.afterEA_draws ea .w
  show execChkW ea dn s = _
  refine (runInstr_entry rfl rfl).trans (finish_congr ((run_bind_ok (readEA_eq (s := s0) hread)).trans ?_))
  rw [run_bind_ok (run_getD dn .w _), run_bind_ok (run_drawBit _), run_bind_ok (run_drawBit _),
    run_bind_ok (run_drawBit _), run_bind_ok (run_getFlags _), run_bind_ok (run_getPc _), State.afterEA_readD, hd]
  simp only [State.countDraw_draws, State.countDraw_ccr, hdraws, hccr]
  rfl

/-- Settles O52: each trap raises its exception at once; CHK after its operand and three draws. -/
theorem trapsAndChecks : Obligations.TrapsAndChecks := by
  refine ⟨?_, fun s ea dn v => ⟨exec_trapv, ?_, rfl⟩⟩
  · intro s v bits i vec p hi h020 hEnter
    simp only [List.mem_cons, List.not_mem_nil, or_false, Prod.mk.injEq] at hi
    rcases hi with ⟨rfl, rfl, rfl⟩ | ⟨rfl, rfl, rfl⟩ | ⟨rfl, rfl, rfl⟩ | ⟨rfl, rfl, rfl⟩
    · show execTrap v s = _
      exact runInstr_taken rfl rfl (raise_eq hEnter)
    · show execIllegal s = _
      exact runInstr_taken rfl rfl (raise_eq hEnter)
    · show execLineA bits s = _
      exact runInstr_taken rfl rfl (raise_eq hEnter)
    · exact exec_lineF_illegal (h020 rfl) hEnter
  · intro s0 bound d s1 flags hread
    have hdraws : s1.draws = s.draws + 3 := congrArg (· + 3) (s0.afterEA_draws ea .w)
    refine ⟨fun h0 hbound => ?_, fun hout => ?_⟩
    · rw [← hdraws]
      exact (exec_chkW hread).trans (finish_ok (checkBounds_within h0 hbound))
    · intro s2 hEnter
      exact (exec_chkW hread).trans (finish_ended (checkBounds_outside hout hEnter))

end Sys2Proof.Machine
end


section
/-! The rows of MC68020 and later, and the full format (30_encoding.md section 5, 40_addressing.md section 2, R417, R1226):
what is refused, and where a handler finds the operand it refuses. -/

namespace Sys2Proof.Machine

variable {s : State} {i : Instr} {handler : Long → Exec Unit} {α β : Type}

/-! ### Rows that do not run -/

theorem exec_of_illegal (h : rowVerdict s.model i = .illegal) :
    exec i s = finish (illegalInstruction s.pc) (s.setPc (s.pc + 2)) := by
  obtain ⟨handler, hexec⟩ := exec_eq_runInstr i
  rw [hexec, runInstr_illegal h]

theorem exec_of_refused (h : rowVerdict s.model i = .refused) : exec i s = .refused .mc68020InstructionNotModelled := by
  obtain ⟨handler, hexec⟩ := exec_eq_runInstr i
  rw [hexec, runInstr, h]

/-- A row of MC68020 and later: illegal below, refused from there on (R303, R1226). -/
theorem exec_of_from020 (hrow : ∀ m, rowVerdict m i = if m.is020plus then .refused else .illegal) :
    (s.model.is020plus = false → (s.setPc (s.pc + 2)).canEnter 4 s.pc none = true →
      exec i s = .next ((s.setPc (s.pc + 2)).entered 4 s.pc none)) ∧
    (s.model.is020plus = true → exec i s = .refused .mc68020InstructionNotModelled) := by
  refine ⟨fun h020 hEnter => ?_, fun h020 => exec_of_refused ((hrow _).trans (if_pos h020))⟩
  have hillegal : rowVerdict s.model i = .illegal := (hrow _).trans (by rw [h020]; rfl)
  exact (exec_of_illegal hillegal).trans (finish_raise hEnter)

/-! ### Handlers that meet a full-format operand -/

/-- The computation is refused for a full-format extension word. -/
def RefusesFull (x : Exec α) (s : State) : Prop := ∃ t, x s = .error (.refused .fullFormatExtension) t

namespace RefusesFull

theorem bind {x : Exec α} (h : RefusesFull x s) (f : α → Exec β) : RefusesFull (x >>= f) s := by
  obtain ⟨t, ht⟩ := h
  exact ⟨t, run_bind_error ht⟩

theorem after {x : Exec α} {f : α → Exec β} {a : α} {t : State} (hx : x s = .ok a t) (h : RefusesFull (f a) t) :
    RefusesFull (x >>= f) s := by
  obtain ⟨u, hu⟩ := h
  exact ⟨u, (run_bind_ok hx).trans hu⟩

/-- The meaning of an instruction whose handler is refused. -/
theorem runInstr (hrow : rowVerdict s.model i = .entry) (hpriv : privilegeViolation i s = false)
    (h : RefusesFull (handler s.pc) (s.pastWords i)) : Machine.runInstr i handler s = .refused .fullFormatExtension := by
  obtain ⟨t, ht⟩ := h
  exact runInstr_refuses hrow hpriv ht

section
variable {e : EA} (hres : s.resolves e = false)
include hres

theorem addrOf (xa : Long) : RefusesFull (Machine.addrOf xa e) s := ⟨s, addrOf_unresolved xa hres⟩

theorem resolveEA (xa : Long) (sz : Size) : RefusesFull (Machine.resolveEA xa e sz) s := ⟨s, resolveEA_unresolved xa sz hres⟩

theorem readEA (xa : Long) (sz : Size) : RefusesFull (Machine.readEA xa e sz) s := bind (resolveEA hres xa sz) _

theorem writeEA (xa : Long) (sz : Size) (v : Long) : RefusesFull (Machine.writeEA xa e sz v) s :=
  bind (resolveEA hres xa sz) _

theorem memoryAddress (xa : Long) (sz : Size) : RefusesFull (Machine.memoryAddress xa e sz) s :=
  bind (resolveEA hres xa sz) _

theorem arithToEA (op : BinOp) (sz : Size) (xa v : Long) : RefusesFull (Machine.arithToEA op sz xa e v) s :=
  bind (resolveEA hres xa sz) _

theorem arithFromDn (op : BinOp) (sz : Size) (xa : Long) (dn : Reg) : RefusesFull (Machine.arithFromDn op sz xa dn e) s :=
  after (run_getD dn sz s) (arithToEA hres op sz xa _)

theorem arithUnary (op : UnOp) (sz : Size) (xa : Long) : RefusesFull (Machine.arithUnary op sz xa e) s :=
  bind (resolveEA hres xa sz) _

theorem arithToDn (op : BinOp) (sz : Size) (xa : Long) (dn : Reg) : RefusesFull (Machine.arithToDn op sz xa e dn) s :=
  bind (readEA hres xa sz) _

theorem logicToEA (op : Long → Long → Long) (sz : Size) (xa v : Long) : RefusesFull (Machine.logicToEA op sz xa e v) s :=
  bind (resolveEA hres xa sz) _

theorem logicFromDn (op : Long → Long → Long) (sz : Size) (xa : Long) (dn : Reg) :
    RefusesFull (Machine.logicFromDn op sz xa dn e) s :=
  after (run_getD dn sz s) (logicToEA hres op sz xa _)

theorem logicToDn (op : Long → Long → Long) (sz : Size) (xa : Long) (dn : Reg) :
    RefusesFull (Machine.logicToDn op sz xa e dn) s :=
  bind (readEA hres xa sz) _

theorem multiply (op : Long → Long → Long) (xa : Long) (dn : Reg) : RefusesFull (Machine.multiply op xa e dn) s :=
  bind (readEA hres xa .w) _

theorem divide (op : Long → Long → Division) (ia : Long) (dn : Reg) : RefusesFull (Machine.divide op ia e dn) s :=
  bind (readEA hres _ .w) _

theorem bitTest (xa b : Long) : RefusesFull (Machine.bitTest xa b e) s := bind (readEA hres xa _) _

theorem bitUpdate (op : Long → Nat → Long) (xa b : Long) : RefusesFull (Machine.bitUpdate op xa b e) s :=
  bind (resolveEA hres xa _) _

theorem shiftMem (k : ShiftKind) (xa : Long) : RefusesFull (Machine.shiftMem k xa e) s := bind (resolveEA hres xa .w) _

/-- The value of a MOVES store is found, or drawn, before its address (R1215). -/
theorem movesStore (sz : Size) (rn : RegR) (xa : Long) : RefusesFull (Machine.movesStore sz rn xa e) s := by
  cases hsame : movesSameRegister rn e with
  | false => exact after (movesValue_of_other hsame) (bind (memoryAddress hres xa sz) _)
  | true =>
    have hdrawn : s.countDraw.resolves e = false := hres
    exact after (movesValue_of_same hsame) (bind (memoryAddress hdrawn xa sz) _)

theorem movesLoad (sz : Size) (rn : RegR) (xa : Long) : RefusesFull (Machine.movesLoad sz rn xa e) s :=
  bind (memoryAddress hres xa sz) _

end

end RefusesFull

/-! ### The instructions that take an operand -/

/-- An index operand with a full-format extension word does not resolve on MC68020 and later (R417). -/
theorem not_resolves_of_full {x : IndexExt} {e : EA} {ra : Reg} (h020 : s.model.is020plus = true) (hfull : x.full = true)
    (he : e ∈ [EA.index ra x, .pcIndex x]) : s.resolves e = false := by
  have hnot : (!(s.model.is020plus && x.full)) = false := by rw [h020, hfull]; rfl
  simp only [List.mem_cons, List.not_mem_nil, or_false] at he
  rcases he with rfl | rfl
  · exact hnot
  · exact hnot

theorem is010plus_of_is020plus {m : Model} (h : m.is020plus = true) : m.is010plus = true := by
  cases m <;> first | rfl | cases h

/-- An instruction that writes an operand it resolves first (R417). -/
theorem exec_destination_unresolved {xa : Long} {e : EA} {z : Size} (hd : i.destination s.pc = some (xa, e, z))
    (h020 : s.model.is020plus = true) (hpriv : privilegeViolation i s = false) (hres : s.resolves e = false) :
    exec i s = .refused .fullFormatExtension := by
  have hres0 : ∀ j, (s.pastWords j).resolves e = false := fun _ => hres
  cases i <;> simp only [Instr.destination, reduceCtorEq, Option.some.injEq, Prod.mk.injEq] at hd <;>
    obtain ⟨rfl, rfl, rfl⟩ := hd <;> rw [exec]
  case ori | andi | eori => exact RefusesFull.runInstr rfl hpriv (.logicToEA (hres0 _) _ _ _ _)
  case addi | subi => exact RefusesFull.runInstr rfl hpriv (.arithToEA (hres0 _) _ _ _ _)
  case bchgDn | bclrDn | bsetDn =>
    exact RefusesFull.runInstr rfl hpriv (.after (run_getD _ .l _) (.bitUpdate (hres0 _) _ _ _))
  case bchgImm | bclrImm | bsetImm => exact RefusesFull.runInstr rfl hpriv (.bitUpdate (hres0 _) _ _ _)
  case orDnEa | andDnEa | eorDnEa => exact RefusesFull.runInstr rfl hpriv (.logicFromDn (hres0 _) _ _ _ _)
  case addDnEa | subDnEa => exact RefusesFull.runInstr rfl hpriv (.arithFromDn (hres0 _) _ _ _ _)
  case neg | negx => exact RefusesFull.runInstr rfl hpriv (.arithUnary (hres0 _) _ _ _)
  case addq | subq =>
    refine RefusesFull.runInstr rfl hpriv ?_
    split
    · cases hres
    · exact .arithToEA (hres0 _) _ _ _ _
  case clr => exact RefusesFull.runInstr rfl hpriv (.bind (.writeEA (hres0 _) _ _ _) _)
  case notEa | nbcd | tas | scc | moveFromSr =>
    exact RefusesFull.runInstr rfl hpriv (.bind (.resolveEA (hres0 _) _ _) _)
  case moveFromCcr =>
    exact RefusesFull.runInstr (if_pos (is010plus_of_is020plus h020)) hpriv (.bind (.resolveEA (hres0 _) _ _) _)
  case asrMem | aslMem | lsrMem | lslMem | roxrMem | roxlMem | rorMem | rolMem =>
    exact RefusesFull.runInstr rfl hpriv (.shiftMem (hres0 _) _ _)

/-- MOVE resolves its destination after it has read its source (R417, R501). -/
theorem exec_move_destination_unresolved {sz : Size} {src e : EA} (hpriv : privilegeViolation (.move sz src e) s = false)
    (hread : (s.pastWords (.move sz src e)).canReadEA (firstExt s.pc) src sz = true) (hres : s.resolves e = false) :
    exec (.move sz src e) s = .refused .fullFormatExtension := by
  have hres1 : ((s.pastWords (.move sz src e)).afterEA src sz).resolves e = false := by
    have hmodel := (s.pastWords (.move sz src e)).afterEA_model src sz
    cases e <;> simp_all [State.resolves]
  rw [exec]
  exact RefusesFull.runInstr rfl hpriv (.after (readEA_eq hread) (.bind (.writeEA hres1 _ _ _) _))

/-- An instruction that reads an operand, or takes its address, before anything else can stop it (R417). -/
theorem exec_source_unresolved {sz : Size} {wl : SizeWL} {e : EA} {rb : Reg} {imm : Imm} {n : BitVec 8} {b : Bool}
    {k : RegR} {mask : HWord} {src : EA}
    (hi : i ∈ [Instr.move sz e src, .movea wl e rb, .adda wl e rb, .suba wl e rb, .cmpa wl e rb, .addEaDn sz e rb,
      .subEaDn sz e rb, .cmpEaDn sz e rb, .andEaDn sz e rb, .orEaDn sz e rb, .muluW e rb, .mulsW e rb, .divuW e rb,
      .divsW e rb, .chkW e rb, .tst sz e, .cmpi imm e, .btstDn rb e, .btstImm n e, .moveToCcr e, .moveToSr e,
      .moves sz b k e, .movemToMem wl mask e, .movemToReg wl e mask, .lea e rb, .pea e, .jmp e, .jsr e])
    (h020 : s.model.is020plus = true) (hpriv : privilegeViolation i s = false) (hres : s.resolves e = false) :
    exec i s = .refused .fullFormatExtension := by
  have hres0 : ∀ j, (s.pastWords j).resolves e = false := fun _ => hres
  cases i <;> simp only [List.mem_cons, List.not_mem_nil, or_false, reduceCtorEq, false_or] at hi <;>
    cases hi <;> rw [exec]
  case addEaDn | subEaDn => exact RefusesFull.runInstr rfl hpriv (.arithToDn (hres0 _) _ _ _ _)
  case andEaDn | orEaDn => exact RefusesFull.runInstr rfl hpriv (.logicToDn (hres0 _) _ _ _ _)
  case muluW | mulsW => exact RefusesFull.runInstr rfl hpriv (.multiply (hres0 _) _ _ _)
  case divuW | divsW => exact RefusesFull.runInstr rfl hpriv (.divide (hres0 _) _ _ _)
  case btstDn => exact RefusesFull.runInstr rfl hpriv (.after (run_getD _ .l _) (.bitTest (hres0 _) _ _))
  case btstImm => exact RefusesFull.runInstr rfl hpriv (.bitTest (hres0 _) _ _)
  case lea | pea | jmp | jsr => exact RefusesFull.runInstr rfl hpriv (.bind (.addrOf (hres0 _) _) _)
  case moves =>
    refine RefusesFull.runInstr (if_pos (is010plus_of_is020plus h020)) hpriv ?_
    cases b
    · exact .movesLoad (hres0 _) _ _ _
    · exact .movesStore (hres0 _) _ _ _
  case movemToMem =>
    refine RefusesFull.runInstr rfl hpriv ?_
    split
    · cases hres
    · exact .bind (.addrOf (hres0 _) _) _
  case movemToReg =>
    refine RefusesFull.runInstr rfl hpriv ?_
    split
    · cases hres
    · exact .bind (.addrOf (hres0 _) _) _
  case move | movea | adda | suba | cmpa | cmpEaDn | chkW | tst | cmpi | moveToCcr | moveToSr =>
    exact RefusesFull.runInstr rfl hpriv (.bind (.readEA (hres0 _) _ _) _)

theorem exec_lineF_refused {bits : BitVec 12} (h020 : s.model.is020plus = true) :
    exec (.lineF bits) s = .refused .coprocessorSpace := by
  show execLineF bits s = _
  refine runInstr_refuses rfl rfl (t := s.pastWords (.lineF bits)) ?_
  rw [run_bind_ok (run_getModel _), State.pastWords_model, h020, if_pos rfl]
  rfl

/-- Settles O53: the sixteen rows by their verdict, and the full-format operands by where the handler resolves them. -/
theorem mc68020Rows : Obligations.Mc68020Rows := by
  intro s sz b size2 ea6 ra rb cond b3 i hi
  have hrow : ∀ m, rowVerdict m i = if m.is020plus then .refused else .illegal := by
    intro m
    simp only [List.mem_cons, List.not_mem_nil, or_false] at hi
    rcases hi with rfl | rfl | rfl | rfl | rfl | rfl | rfl | rfl | rfl | rfl | rfl | rfl | rfl | rfl | rfl | rfl <;> rfl
  obtain ⟨hbelow, hfrom⟩ := exec_of_from020 (s := s) hrow
  refine ⟨hbelow, fun h020 => ⟨hfrom h020, exec_of_refused (if_pos h020), fun _ => exec_lineF_refused h020, ?_⟩⟩
  intro x e src wl imm k n mask j hfull he hpriv hj
  have hres : s.resolves e = false := not_resolves_of_full h020 hfull he
  rcases hj with ⟨xa, z, hd⟩ | ⟨rfl, hread⟩ | hj
  · exact exec_destination_unresolved hd h020 hpriv hres
  · exact exec_move_destination_unresolved hpriv hread hres
  · exact exec_source_unresolved hj h020 hpriv hres

end Sys2Proof.Machine
end


section
/-! Where an instruction stores (20_memory.md section 3, 40_addressing.md section 3): a handler finds the address of its store in
the state it starts in, and every byte outside the store's own cells stays as it was. -/

namespace Sys2Proof.Machine

variable {s u : State} {C : Nat → Prop} {α β : Type}

/-! ### Stores inside a set of cells -/

/-- `t` addresses memory as `s` does, and every byte of memory outside the cells `C` reads as it does in `s`. -/
structure State.StoresIn (s : State) (C : Nat → Prop) (t : State) : Prop where
  cfg        : t.cfg = s.cfg
  supervisor : t.supervisor = s.supervisor
  dfc        : t.dfc = s.dfc
  mem        : ∀ c, ¬C c → Memory.read t.mem c = Memory.read s.mem c

/-- The cells a write of the size at the address names in `s` (R210). -/
def State.cellsOf (s : State) (a : Long) (sz : Size) (fc : BitVec 3) (c : Nat) : Prop :=
  ∃ k, translate s.cfg a sz.bytes fc .write = some k ∧ k ≤ c ∧ c < k + sz.bytes

/-- Anything but a store. -/
def Permit.noStore : Permit := { Permit.all with stores := False }

/-- What is kept from a state that stores in `C` alone. -/
abbrev KeepsStoresIn (s : State) (C : Nat → Prop) (t u : State) : Prop := s.StoresIn C t → s.StoresIn C u

namespace State.StoresIn

theorem refl (s : State) (C : Nat → Prop) : s.StoresIn C s := ⟨rfl, rfl, rfl, fun _ _ => rfl⟩

theorem sameMemoryBut {a : Long} {sz : Size} {fc : BitVec 3} {t : State} (h : s.StoresIn (s.cellsOf a sz fc) t) :
    s.sameMemoryBut a sz fc t := by
  intro c hout
  refine h.mem c fun ⟨k, hk, hlo, hhi⟩ => ?_
  rcases hout k hk with hbelow | habove
  · exact absurd hlo (not_le.2 hbelow)
  · exact absurd hhi (not_lt.2 habove)

theorem dataFC {t : State} (h : s.StoresIn C t) : t.dataFC = s.dataFC := by rw [State.dataFC, State.dataFC, h.supervisor]

/-- A store whose cells are all in `C`. -/
theorem store {t : State} (h : s.StoresIn C t) {a : Long} {sz : Size} {fc : BitVec 3} {k : Nat}
    (hC : ∀ c, s.cellsOf a sz fc c → C c) (hk : translate t.cfg a sz.bytes fc .write = some k) (v : Long) :
    s.StoresIn C (t.setMem (Memory.writeSized t.mem k sz v)) := by
  refine ⟨h.cfg, h.supervisor, h.dfc, fun c hc => ?_⟩
  have hout : c < k ∨ k + sz.bytes ≤ c := by
    by_contra hin
    exact hc (hC c ⟨k, h.cfg ▸ hk, by omega, by omega⟩)
  exact (Memory.read_writeSized_other sz v hout).trans (h.mem c hc)

end State.StoresIn

theorem ordinary_storesIn (s : State) (C : Nat → Prop) : Ordinary .noStore (KeepsStoresIn s C) where
  refl := fun _ h => h
  trans := fun _ _ _ h1 h2 h => h2 (h1 h)
  writeD := fun _ _ _ _ h => ⟨h.cfg, h.supervisor, h.dfc, h.mem⟩
  writeA := fun t n v _ h => ⟨by simpa using h.cfg, by simpa using h.supervisor, by simpa using h.dfc,
    by simpa using h.mem⟩
  setPc := fun _ _ h => ⟨h.cfg, h.supervisor, h.dfc, h.mem⟩
  setFlags := fun t f _ h => ⟨h.cfg, (t.setFlags_supervisor f).trans h.supervisor, h.dfc, h.mem⟩
  setCCR := fun t v _ h => ⟨h.cfg, (t.setCCR_supervisor v).trans h.supervisor, h.dfc, h.mem⟩
  countDraw := fun _ h => ⟨h.cfg, h.supervisor, h.dfc, h.mem⟩
  halted := fun _ h => ⟨h.cfg, h.supervisor, h.dfc, h.mem⟩
  store := fun _ _ _ _ _ _ hno _ => hno.elim

/-! ### Handlers from one state -/

/-- However `x` ends from `t`, it has stored in `C` alone. -/
def LeavesStoresIn (s : State) (C : Nat → Prop) (x : Exec α) (t : State) : Prop := s.StoresIn C (endState (x t))

namespace LeavesStoresIn

variable {t : State}

theorem of_always {x : Exec α} (hx : Always (KeepsStoresIn s C) x) (ht : s.StoresIn C t) : LeavesStoresIn s C x t :=
  hx t ht

theorem bind {x : Exec α} {f : α → Exec β} (hx : LeavesStoresIn s C x t)
    (hf : ∀ a u, x t = .ok a u → s.StoresIn C u → LeavesStoresIn s C (f a) u) : LeavesStoresIn s C (x >>= f) t := by
  unfold LeavesStoresIn at *
  rw [run_bind]
  cases h : x t with
  | ok a u =>
    rw [h] at hx
    exact hf a u h hx
  | error r u =>
    rw [h] at hx
    exact hx

/-- The state a handler leaves from a state whose first step is known. -/
theorem after {x : Exec α} {f : α → Exec β} {a : α} (hx : x t = .ok a u) (hf : LeavesStoresIn s C (f a) u) :
    LeavesStoresIn s C (x >>= f) t := by
  unfold LeavesStoresIn
  rw [run_bind_ok hx]
  exact hf

/-- What an instruction's handler leaves is what the instruction leaves. -/
theorem runInstr {i : Instr} {handler : Long → Exec Unit} (hrow : rowVerdict s.model i = .entry)
    (hpriv : privilegeViolation i s = false) (h : Machine.runInstr i handler s = .next t)
    (hrun : LeavesStoresIn s C (handler s.pc) (s.pastWords i)) : s.StoresIn C t := by
  rw [runInstr_entry hrow hpriv] at h
  unfold LeavesStoresIn at hrun
  rcases finish_next h with h | h
  · rwa [show handler s.pc (s.pastWords i) = .ok () t from h] at hrun
  · rwa [show handler s.pc (s.pastWords i) = .error .ended t from h] at hrun

theorem pastWords (i : Instr) : s.StoresIn C (s.pastWords i) := ⟨rfl, rfl, rfl, fun _ _ => rfl⟩

end LeavesStoresIn

/-! ### The primitives -/

namespace Always

open Always

variable {a : Long} {sz : Size}

theorem memWriteFC_storesIn {fc : BitVec 3} (hC : ∀ c, s.cellsOf a sz fc c → C c) (v : Long) :
    Always (KeepsStoresIn s C) (Machine.memWriteFC a sz fc v) := by
  intro t ht
  rw [run_memWriteFC]
  split
  · exact (ordinary_storesIn s C).halted t ht
  · split
    · exact (ordinary_storesIn s C).halted t ht
    · exact ht.store hC ‹_› v

theorem memWrite_storesIn (hC : ∀ c, s.cellsOf a sz s.dataFC c → C c) (v : Long) :
    Always (KeepsStoresIn s C) (Machine.memWrite a sz v) := by
  intro t ht
  rw [run_memWrite, ht.dataFC]
  exact memWriteFC_storesIn hC v t ht

end Always

end Sys2Proof.Machine
end


section
/-! The stores of the instructions (R206, R419, R420): each handler's one store, at the location its operand resolved to, or at
the addresses of its rule. -/

namespace Sys2Proof.Machine

variable {s u : State} {C : Nat → Prop} {α β : Type}

namespace Always

/-! ### A destination in memory, once it is resolved -/

section
variable {a : Long} {sz : Size} (hC : ∀ c, s.cellsOf a sz s.dataFC c → C c)
include hC

theorem writeLoc_storesIn (v : Long) : Always (KeepsStoresIn s C) (Machine.writeLoc (.mem a .data) sz v) :=
  memWrite_storesIn hC v

theorem flagsThenWrite_storesIn (r : Alu) : Always (KeepsStoresIn s C) (Machine.flagsThenWrite (.mem a .data) sz r) :=
  have H := ordinary_storesIn s C
  bind H (putFlags H _ trivial) fun _ => writeLoc_storesIn hC _

theorem writeThenLogic_storesIn (r : Long) : Always (KeepsStoresIn s C) (Machine.writeThenLogic (.mem a .data) sz r) :=
  have H := ordinary_storesIn s C
  bind H (writeLoc_storesIn hC _) fun _ => bind H (getFlags H) fun _ => putFlags H _ trivial

/-- The flags of a computed result set, and then its write (R800, R900, R1113). -/
theorem putFlags_writeLoc_storesIn (f : Ccr) (v : Long) : Always (KeepsStoresIn s C) (do
    Machine.putFlags f
    Machine.writeLoc (.mem a .data) sz v) :=
  have H := ordinary_storesIn s C
  bind H (putFlags H _ trivial) fun _ => writeLoc_storesIn hC _

end

theorem bcdTo_storesIn {a : Long} (hC : ∀ c, s.cellsOf a .b s.dataFC c → C c) (op : BcdOp) (v d : Long) :
    Always (KeepsStoresIn s C) (Machine.bcdTo op (.mem a .data) v d) :=
  have H := ordinary_storesIn s C
  bind H (getFlags H) fun _ => bind H (bcdResult H _ _ _ _) fun _ => bind H (writeLoc_storesIn hC _) fun _ =>
    bind H (drawBit H) fun _ => bind H (drawBit H) fun _ => bind H (getFlags H) fun _ => putFlags H _ trivial

end Always

/-! ### A destination resolved first -/

theorem resolveEA_ok {xa : Long} {e : EA} {sz : Size} {t : State} {l : Loc} (h : resolveEA xa e sz s = .ok l t) :
    l = s.location xa e sz ∧ t = s.afterEA e sz := by
  cases hres : s.resolves e with
  | true =>
    rw [resolveEA_eq xa sz hres] at h
    cases h
    exact ⟨rfl, rfl⟩
  | false =>
    rw [resolveEA_unresolved xa sz hres] at h
    cases h

theorem readLoc_ok {t : State} {l : Loc} {sz : Size} {v : Long} (h : Machine.readLoc l sz s = .ok v t) : t = s := by
  cases l with
  | regD n => cases h; rfl
  | regA n => cases h; rfl
  | imm w => cases h; rfl
  | mem a sp => cases sp <;> exact (memReadFC_ok h).1

theorem readEA_ok {t : State} {xa : Long} {e : EA} {sz : Size} {v : Long} (h : Machine.readEA xa e sz s = .ok v t) :
    t = s.afterEA e sz := by
  obtain ⟨l, u, hl, hread⟩ := bind_ok h
  rw [readLoc_ok hread, (resolveEA_ok hl).2]

/-- Every register may be written by a handler that stores in `C` alone. -/
theorem updates_noStore (e : EA) : ∀ k ∈ e.updates, Permit.noStore.reg k := by
  intro k _
  unfold Permit.reg
  split <;> trivial

/-- An operand resolved to memory, and then something done to its location. -/
theorem LeavesStoresIn.withDestination {t : State} {xa a : Long} {e : EA} {sz : Size} {f : Loc → Exec β}
    (ht : s.StoresIn C t) (hloc : t.location xa e sz = .mem a .data)
    (hf : Always (KeepsStoresIn s C) (f (.mem a .data))) : LeavesStoresIn s C (resolveEA xa e sz >>= f) t := by
  have H := ordinary_storesIn s C
  refine bind (of_always (Always.resolveEA H xa e sz (updates_noStore e)) ht) fun l u hl hu => ?_
  rw [(resolveEA_ok hl).1, hloc]
  exact of_always hf hu

namespace Always

/-- An instruction that resolves its destination first stores there alone (R420). -/
theorem storesIn_destination {i : Instr} {t : State} {xa a : Long} {ea : EA} {sz : Size}
    (hd : i.destination s.pc = some (xa, ea, sz)) (hrow : rowVerdict s.model i = .entry)
    (hpriv : privilegeViolation i s = false) (hloc : (s.pastWords i).location xa ea sz = .mem a .data)
    (h : Machine.exec i s = .next t) : s.StoresIn (s.cellsOf a sz s.dataFC) t := by
  have H := ordinary_storesIn s (s.cellsOf a sz s.dataFC)
  have hC : ∀ c, s.cellsOf a sz s.dataFC c → s.cellsOf a sz s.dataFC c := fun _ hc => hc
  have hstart : s.StoresIn (s.cellsOf a sz s.dataFC) (s.pastWords i) := LeavesStoresIn.pastWords i
  cases i <;> simp only [Instr.destination, reduceCtorEq, Option.some.injEq, Prod.mk.injEq] at hd <;>
    obtain ⟨rfl, rfl, rfl⟩ := hd <;> rw [Machine.exec] at h
  all_goals refine LeavesStoresIn.runInstr hrow hpriv h ?_
  case ori | andi | eori =>
    exact .withDestination hstart hloc (bind H (readLoc H _ _) fun _ => writeThenLogic_storesIn hC _)
  case addi | subi =>
    exact .withDestination hstart hloc
      (bind H (readLoc H _ _) fun _ => bind H (getFlags H) fun _ => flagsThenWrite_storesIn hC _)
  case bchgDn | bclrDn | bsetDn =>
    exact .after (run_getD _ .l _) (.withDestination hstart hloc
      (bind H (readLoc H _ _) fun _ => bind H (getFlags H) fun _ => putFlags_writeLoc_storesIn hC _ _))
  case bchgImm | bclrImm | bsetImm | tas | asrMem | aslMem | lsrMem | lslMem | roxrMem | roxlMem | rorMem | rolMem =>
    exact .withDestination hstart hloc
      (bind H (readLoc H _ _) fun _ => bind H (getFlags H) fun _ => putFlags_writeLoc_storesIn hC _ _)
  case orDnEa | andDnEa | eorDnEa =>
    exact .after (run_getD _ _ _) (.withDestination hstart hloc
      (bind H (readLoc H _ _) fun _ => writeThenLogic_storesIn hC _))
  case addDnEa | subDnEa =>
    exact .after (run_getD _ _ _) (.withDestination hstart hloc
      (bind H (readLoc H _ _) fun _ => bind H (getFlags H) fun _ => flagsThenWrite_storesIn hC _))
  case addq | subq =>
    split
    · cases hloc
    · exact .withDestination hstart hloc
        (bind H (readLoc H _ _) fun _ => bind H (getFlags H) fun _ => flagsThenWrite_storesIn hC _)
  case neg | negx =>
    exact .withDestination hstart hloc
      (bind H (readLoc H _ _) fun _ => bind H (getFlags H) fun _ => flagsThenWrite_storesIn hC _)
  case notEa =>
    exact .withDestination hstart hloc (bind H (readLoc H _ _) fun _ => writeThenLogic_storesIn hC _)
  case nbcd => exact .withDestination hstart hloc (bind H (readLoc H _ _) fun _ => bcdTo_storesIn hC _ _ _)
  case clr =>
    exact .bind (.withDestination hstart hloc (writeLoc_storesIn hC 0)) fun _ _ _ hu =>
      .of_always (bind H (getFlags H) fun _ => putFlags H _ trivial) hu
  case scc | moveFromSr | moveFromCcr =>
    exact .withDestination hstart hloc (bind H (look H _) fun _ => writeLoc_storesIn hC _)

/-- MOVE stores to the destination that it resolves after its source (R420, R501). -/
theorem storesIn_move {sz : Size} {src dst : EA} {t : State} {a : Long}
    (hloc : ((s.pastWords (.move sz src dst)).afterEA src sz).location (extAfter s.pc src.exts.length) dst sz = .mem a .data)
    (h : Machine.exec (.move sz src dst) s = .next t) : s.StoresIn (s.cellsOf a sz s.dataFC) t := by
  have H := ordinary_storesIn s (s.cellsOf a sz s.dataFC)
  rw [Machine.exec] at h
  refine LeavesStoresIn.runInstr rfl rfl h ?_
  refine .bind (.of_always (readEA H _ _ _ (updates_noStore src)) (LeavesStoresIn.pastWords _)) fun v u hv hu => ?_
  rw [readEA_ok hv] at hu ⊢
  exact .bind (.withDestination hu hloc (writeLoc_storesIn (fun _ hc => hc) v)) fun _ _ _ hu' =>
    .of_always (bind H (getFlags H) fun _ => putFlags H _ trivial) hu'

end Always

/-- Settles O57: each handler resolves its destination, and then stores there or nowhere. -/
theorem storesStayInTheDestination : Obligations.StoresStayInTheDestination :=
  ⟨fun _ _ _ _ _ _ _ hd hrow hpriv hloc h => (Always.storesIn_destination hd hrow hpriv hloc h).sameMemoryBut,
    fun _ _ _ _ _ _ hloc h => (Always.storesIn_move hloc h).sameMemoryBut⟩

end Sys2Proof.Machine
end


section
/-! The stores of the other instructions (R16, R504, R507, R607, R1002, R1215): a push below the stack pointer, the destination
of two predecrements, every second byte, the DFC space, and a register list. -/

namespace Sys2Proof.Machine

variable {s : State} {C : Nat → Prop}

/-- The address of a control operand, and the state it leaves as it was (R418). -/
theorem addrOf_ok {t : State} {xa a : Long} {e : EA} (sz : Size) (h : addrOf xa e s = .ok a t) :
    a = s.address xa e sz ∧ t = s := by
  cases hres : s.resolves e with
  | false =>
    rw [addrOf_unresolved xa hres] at h
    cases h
  | true =>
    cases hcontrol : e.isControl with
    | true =>
      rw [addrOf_eq xa sz hcontrol hres] at h
      cases h
      exact ⟨rfl, rfl⟩
    | false =>
      cases e with
      | dn n => cases h
      | an n => cases h
      | postinc n => cases h
      | predec n => cases h
      | imm v => cases h
      | _ => cases hcontrol

/-- The address of a memory operand accessed with a function code of its own (R1215). -/
theorem memoryAddress_ok {t : State} {xa a : Long} {e : EA} {sz : Size} (h : memoryAddress xa e sz s = .ok a t) :
    a = s.address xa e sz := by
  obtain ⟨l, u, hl, hmatch⟩ := bind_ok h
  rw [(resolveEA_ok hl).1] at hmatch
  cases e <;> cases hmatch <;> rfl

theorem run_predecrement (n : Reg) (sz : Size) :
    predecrement n sz s = .ok (s.readA n - eaStep n sz) (s.writeA n (s.readA n - eaStep n sz)) := rfl

theorem readA_setPc_writeA (v w : Long) (n m : Reg) : ((s.setPc v).writeA n w).readA m = (s.writeA n w).readA m := by
  by_cases h : n = m
  · subst h
    simp only [State.readA_writeA_same]
  · rw [State.readA_writeA_other _ w h, State.readA_writeA_other _ w h]
    rfl

namespace LeavesStoresIn

variable {t : State}

/-! ### Pushes -/

section
variable (ht : s.StoresIn C t) (h7 : t.readA 7 = s.readA 7) (hC : ∀ c, s.cellsOf (s.readA 7 - 4) .l s.dataFC c → C c)
include ht h7 hC

/-- A push of a longword, while A7 is what it was (R16). -/
theorem push (v : Long) : LeavesStoresIn s C (Machine.push .l v) t := by
  have H := ordinary_storesIn s C
  refine after (run_getA 7 t) (bind (of_always (Always.putA H 7 _ trivial) ht) fun _ _ _ hu => ?_)
  rw [h7]
  exact of_always (Always.memWrite_storesIn hC v) hu

theorem callTo (target : Long) : LeavesStoresIn s C (Machine.callTo target) t :=
  after (run_getPc t) (bind (push ht h7 hC _) fun _ _ _ hu => of_always (Always.putPc (ordinary_storesIn s C) _) hu)

end

/-- A push or a call after the address of an operand. -/
theorem addrOf_then {xa : Long} {e : EA} {f : Long → Exec Unit} (ht : s.StoresIn C t)
    (hf : ∀ a, LeavesStoresIn s C (f a) t) : LeavesStoresIn s C (Machine.addrOf xa e >>= f) t :=
  bind (of_always (Always.addrOf (ordinary_storesIn s C) xa e) ht) fun a u ha _ => by
    rw [(addrOf_ok .l ha).2]
    exact hf a

/-! ### Two predecremented operands -/

/-- The second of two predecremented operands, read and stored to (R607, R1002). -/
theorem predecrements {i : Instr} {ay ax : Reg} {sz : Size} {f : Long → Long → Long → Exec Unit}
    (hf : ∀ v d, Always (KeepsStoresIn s C)
      (f ((s.writeA ay (s.readA ay - eaStep ay sz)).readA ax - eaStep ax sz) v d)) :
    LeavesStoresIn s C (do
      let as ← predecrement ay sz
      let v ← readMem as .data sz
      let ad ← predecrement ax sz
      let d ← readMem ad .data sz
      f ad v d) (s.pastWords i) := by
  have H := ordinary_storesIn s C
  refine bind (of_always (Always.predecrement H ay sz trivial) (pastWords i)) fun a u ha hu => ?_
  rw [run_predecrement] at ha
  cases ha
  refine bind (of_always (Always.readMem H _ _ _) hu) fun v u hv hu => ?_
  rw [readLoc_ok (l := .mem _ .data) hv] at hu ⊢
  have had := readA_setPc_writeA (s := s) (pcNext i s.pc) (s.readA ay - eaStep ay sz) ay ax
  refine bind (of_always (Always.predecrement H ax sz trivial) hu) fun a u ha hu => ?_
  rw [run_predecrement] at ha
  cases ha
  refine bind (of_always (Always.readMem H _ _ _) hu) fun d u _ hu => ?_
  have hstore := hf v d
  rw [← had] at hstore
  exact of_always hstore hu

end LeavesStoresIn

namespace Always

/-! ### MOVEP -/

/-- A MOVEP store writes the bytes at every second address from `a` on (R507). -/
theorem movepWrite_storesIn {n : Nat} {a : Long} (v : Long)
    (hC : ∀ j < n, ∀ c, s.cellsOf (a + BitVec.ofNat 32 (2 * j)) .b s.dataFC c → C c) :
    Always (KeepsStoresIn s C) (Machine.movepWrite n a v) := by
  have H := ordinary_storesIn s C
  induction n generalizing a with
  | zero => exact pure H _
  | succ n ih =>
    refine bind H (memWrite_storesIn (fun c hc => hC 0 (Nat.zero_lt_succ n) c ?_) _) fun _ => ih fun j hj c hc => ?_
    · rwa [show a + BitVec.ofNat 32 (2 * 0) = a from BitVec.add_zero a]
    · refine hC (j + 1) (Nat.succ_lt_succ hj) c ?_
      rwa [Nat.mul_add, Nat.add_comm, BitVec.ofNat_add, ← BitVec.add_assoc]

/-! ### MOVEM -/

/-- A predecrement store of a register list goes down from `a` (R504). -/
theorem movemStoreDown_storesIn {sz : Size} {mask : HWord} {ks : List RegR} {a : Long}
    (hC : ∀ j < (ks.filter fun k => mask.getLsbD (15 - k.val)).length, ∀ c,
      s.cellsOf (a - BitVec.ofNat 32 (j + 1) * byteCount sz) sz s.dataFC c → C c) :
    Always (KeepsStoresIn s C) (Machine.movemStoreDown sz mask ks a) := by
  have H := ordinary_storesIn s C
  induction ks generalizing a with
  | nil => exact pure H _
  | cons k ks ih =>
    unfold Machine.movemStoreDown
    by_cases hm : mask.getLsbD (15 - k.val) = true
    · rw [if_pos hm]
      rw [List.filter_cons, if_pos hm, List.length_cons] at hC
      refine bind H (getR H k) fun v => bind H (memWrite_storesIn (fun c hc => hC 0 (Nat.zero_lt_succ _) c ?_) _) fun _ =>
        ih fun j hj c hc => ?_
      · rwa [show BitVec.ofNat 32 (0 + 1) * byteCount sz = byteCount sz from BitVec.one_mul _]
      · refine hC (j + 1) (Nat.succ_lt_succ hj) c ?_
        rwa [BitVec.ofNat_add (j + 1) 1, BitVec.add_mul, BitVec.add_comm,
          show BitVec.ofNat 32 1 * byteCount sz = byteCount sz from BitVec.one_mul _, ← BitVec.sub_sub]
    · rw [if_neg hm]
      rw [List.filter_cons, if_neg hm] at hC
      exact ih hC

/-- A store of a register list in a control mode goes up from `a` (R504). -/
theorem movemStoreUp_storesIn {sz : Size} {mask : HWord} {ks : List RegR} {a : Long}
    (hC : ∀ j < (ks.filter fun k => mask.getLsbD k.val).length, ∀ c,
      s.cellsOf (a + BitVec.ofNat 32 j * byteCount sz) sz s.dataFC c → C c) :
    Always (KeepsStoresIn s C) (Machine.movemStoreUp sz mask ks a) := by
  have H := ordinary_storesIn s C
  induction ks generalizing a with
  | nil => exact pure H _
  | cons k ks ih =>
    unfold Machine.movemStoreUp
    by_cases hm : mask.getLsbD k.val = true
    · rw [if_pos hm]
      rw [List.filter_cons, if_pos hm, List.length_cons] at hC
      refine bind H (getR H k) fun v => bind H (memWrite_storesIn (fun c hc => hC 0 (Nat.zero_lt_succ _) c ?_) _) fun _ =>
        ih fun j hj c hc => ?_
      · rwa [BitVec.zero_mul, BitVec.add_zero]
      · refine hC (j + 1) (Nat.succ_lt_succ hj) c ?_
        rwa [BitVec.ofNat_add j 1, BitVec.add_mul, BitVec.add_comm (BitVec.ofNat 32 j * _),
          show BitVec.ofNat 32 1 * byteCount sz = byteCount sz from BitVec.one_mul _, ← BitVec.add_assoc]
    · rw [if_neg hm]
      rw [List.filter_cons, if_neg hm] at hC
      exact ih hC

end Always

/-! ### The statements -/

section
open LeavesStoresIn

/-- The pushes of PEA, JSR, BSR, LINK and row 81's constructor (R16). -/
theorem storesIn_push {i : Instr} {t : State} {ea : EA} {an : Reg} {d : BitVec 16} {b : BranchDisp}
    (hi : i ∈ [.pea ea, .jsr ea, .bsr b, .link an d, .bccL .f]) (hrow : rowVerdict s.model i = .entry)
    (h : exec i s = .next t) : s.StoresIn (s.cellsOf (s.readA 7 - 4) .l s.dataFC) t := by
  have hC : ∀ c, s.cellsOf (s.readA 7 - 4) .l s.dataFC c → s.cellsOf (s.readA 7 - 4) .l s.dataFC c := fun _ hc => hc
  have hstart : s.StoresIn (s.cellsOf (s.readA 7 - 4) .l s.dataFC) (s.pastWords i) := pastWords i
  simp only [List.mem_cons, List.not_mem_nil, or_false] at hi
  rcases hi with rfl | rfl | rfl | rfl | rfl <;> rw [exec] at h
  · exact LeavesStoresIn.runInstr hrow rfl h (addrOf_then hstart fun _ => .push hstart rfl hC _)
  · exact LeavesStoresIn.runInstr hrow rfl h (addrOf_then hstart fun _ => .callTo hstart rfl hC _)
  · exact LeavesStoresIn.runInstr hrow rfl h (.callTo hstart rfl hC _)
  · have H := ordinary_storesIn s (s.cellsOf (s.readA 7 - 4) .l s.dataFC)
    exact LeavesStoresIn.runInstr hrow rfl h (after (run_getA an _) (.bind (.push hstart rfl hC _) fun _ _ _ hu =>
      of_always (.bind H (.getA H _) fun _ => .bind H (.putA H _ _ trivial) fun _ => .bind H (.getA H _) fun _ =>
        .putA H _ _ trivial) hu))
  · exact LeavesStoresIn.runInstr hrow rfl h (.callTo hstart rfl hC _)

/-- ADDX, SUBX, ABCD and SBCD in memory store to the second operand they predecrement. -/
theorem storesIn_predecrements {i : Instr} {t : State} {sz : Size} {ay ax : Reg}
    (hi : i ∈ [.addxMem sz ay ax, .subxMem sz ay ax] ∨ (sz = .b ∧ i ∈ [.abcdMem ay ax, .sbcdMem ay ax]))
    (h : exec i s = .next t) :
    s.StoresIn (s.cellsOf ((s.writeA ay (s.readA ay - eaStep ay sz)).readA ax - eaStep ax sz) sz s.dataFC) t := by
  have H := ordinary_storesIn s
    (s.cellsOf ((s.writeA ay (s.readA ay - eaStep ay sz)).readA ax - eaStep ax sz) sz s.dataFC)
  simp only [List.mem_cons, List.not_mem_nil, or_false] at hi
  rcases hi with (rfl | rfl) | ⟨rfl, rfl | rfl⟩ <;> rw [exec] at h
  · exact LeavesStoresIn.runInstr rfl rfl h (predecrements fun v d =>
      .bind H (.getFlags H) fun _ => Always.flagsThenWrite_storesIn (fun _ hc => hc) _)
  · exact LeavesStoresIn.runInstr rfl rfl h (predecrements fun v d =>
      .bind H (.getFlags H) fun _ => Always.flagsThenWrite_storesIn (fun _ hc => hc) _)
  · exact LeavesStoresIn.runInstr rfl rfl h (predecrements fun v d => Always.bcdTo_storesIn (fun _ hc => hc) _ _ _)
  · exact LeavesStoresIn.runInstr rfl rfl h (predecrements fun v d => Always.bcdTo_storesIn (fun _ hc => hc) _ _ _)

/-- MOVEP to memory (R507). -/
theorem storesIn_movep {t : State} {sz : SizeWL} {dx ay : Reg} {d : BitVec 16}
    (h : exec (.movepToMem sz dx ay d) s = .next t) :
    s.StoresIn (fun c => ∃ j < sz.toSize.bytes,
      s.cellsOf (s.readA ay + d.signExtend 32 + BitVec.ofNat 32 (2 * j)) .b s.dataFC c) t := by
  rw [exec] at h
  exact LeavesStoresIn.runInstr rfl rfl h (after (run_getA ay _) (after (run_getD dx .l _)
    (of_always (Always.movepWrite_storesIn _ fun j hj c hc => ⟨j, hj, hc⟩) (pastWords _))))

theorem always_movesValue {p : Permit} {P : State → State → Prop} (H : Ordinary p P) (sz : Size) (rn : RegR) (ea : EA) :
    Always P (movesValue sz rn ea) := by
  unfold movesValue
  split
  · exact .bind H (.drawLong H) fun _ => .pure H _
  · exact .bind H (.getR H _) fun _ => .pure H _

/-- The value of a MOVES store is found without a change of the address (R1215). -/
theorem movesValue_address {u t : State} {sz : Size} {rn : RegR} {ea : EA} {v : Long}
    (h : movesValue sz rn ea t = .ok v u) (xa : Long) : u.address xa ea sz = t.address xa ea sz := by
  cases hsame : movesSameRegister rn ea with
  | false =>
    rw [movesValue_of_other hsame] at h
    cases h
    rfl
  | true =>
    rw [movesValue_of_same hsame] at h
    cases h
    rfl

/-- MOVES to memory stores in the DFC space (R1215). -/
theorem storesIn_moves {t : State} {sz : Size} {rn : RegR} {ea : EA} (hsup : s.supervisor = true)
    (h010 : s.model.is010plus = true) (h : exec (.moves sz true rn ea) s = .next t) :
    s.StoresIn (s.cellsOf (s.address (extAfter s.pc 1) ea sz) sz s.dfc) t := by
  have H := ordinary_storesIn s (s.cellsOf (s.address (extAfter s.pc 1) ea sz) sz s.dfc)
  rw [exec] at h
  refine LeavesStoresIn.runInstr (i := .moves sz true rn ea) (if_pos h010) (no_violation hsup) h ?_
  refine bind (of_always (always_movesValue H sz rn ea) (pastWords _)) fun v u hv hu => ?_
  refine bind (of_always (Always.memoryAddress H _ ea sz (updates_noStore ea)) hu) fun a u' ha hu' => ?_
  have haddress : a = s.address (extAfter s.pc 1) ea sz := (memoryAddress_ok ha).trans (movesValue_address hv _)
  rw [haddress]
  refine after (run_look _ u') ?_
  rw [hu'.dfc]
  exact of_always (Always.memWriteFC_storesIn (fun _ hc => hc) v) hu'

/-- MOVEM to a predecremented operand (R504). -/
theorem storesIn_movem_predec {t : State} {sz : SizeWL} {mask : HWord} {r : Reg}
    (h : exec (.movemToMem sz mask (.predec r)) s = .next t) :
    s.StoresIn (fun c => ∃ j < (maskRegsDown mask).length,
      s.cellsOf (s.readA r - BitVec.ofNat 32 (j + 1) * byteCount sz.toSize) sz.toSize s.dataFC c) t := by
  have H := ordinary_storesIn s (fun c => ∃ j < (maskRegsDown mask).length,
    s.cellsOf (s.readA r - BitVec.ofNat 32 (j + 1) * byteCount sz.toSize) sz.toSize s.dataFC c)
  rw [exec] at h
  refine LeavesStoresIn.runInstr rfl rfl h (after (run_getModel _) ?_)
  split
  · exact of_always (.refuse H _) (pastWords _)
  · exact after (run_getA r _) (of_always (.bind H
      (Always.movemStoreDown_storesIn fun j hj c hc => ⟨j, hj, hc⟩) fun _ => .putA H _ _ trivial) (pastWords _))

/-- MOVEM to an operand of another mode (R504). -/
theorem storesIn_movem_up {t : State} {sz : SizeWL} {mask : HWord} {ea : EA} (hne : ∀ r, ea ≠ .predec r)
    (h : exec (.movemToMem sz mask ea) s = .next t) :
    s.StoresIn (fun c => ∃ j < (maskRegs mask).length,
      s.cellsOf (s.address (extAfter s.pc 1) ea sz.toSize + BitVec.ofNat 32 j * byteCount sz.toSize) sz.toSize
        s.dataFC c) t := by
  have H := ordinary_storesIn s (fun c => ∃ j < (maskRegs mask).length,
    s.cellsOf (s.address (extAfter s.pc 1) ea sz.toSize + BitVec.ofNat 32 j * byteCount sz.toSize) sz.toSize s.dataFC c)
  rw [exec] at h
  refine LeavesStoresIn.runInstr rfl rfl h ?_
  split
  · exact absurd rfl (hne _)
  · refine bind (of_always (.addrOf H _ _) (pastWords _)) fun a u ha hu => ?_
    have haddress : a = s.address (extAfter s.pc 1) ea sz.toSize := (addrOf_ok sz.toSize ha).1
    rw [haddress]
    exact of_always (Always.movemStoreUp_storesIn fun j hj c hc => ⟨j, hj, hc⟩) hu

/-- A byte outside each of the listed accesses is outside the cells of all of them. -/
theorem State.StoresIn.read_of_outside {t : State} {n : Nat} {a : Nat → Long} {sz : Size} {fc : BitVec 3} {c : Nat}
    (h : s.StoresIn (fun c => ∃ j < n, s.cellsOf (a j) sz fc c) t)
    (hout : ∀ j < n, ∀ k, translate s.cfg (a j) sz.bytes fc .write = some k → c < k ∨ k + sz.bytes ≤ c) :
    Memory.read t.mem c = Memory.read s.mem c := by
  refine h.mem c fun ⟨j, hj, k, hk, hlo, hhi⟩ => ?_
  rcases hout j hj k hk with hbelow | habove
  · exact absurd hlo (not_le.2 hbelow)
  · exact absurd hhi (not_lt.2 habove)

/-- Settles O58: each kind of store by the cells it stays in. -/
theorem storesOfTheOtherInstructions : Obligations.StoresOfTheOtherInstructions := by
  intro s t i h
  refine ⟨fun ea an d b hi hrow => (storesIn_push hi hrow h).sameMemoryBut,
    fun sz ay ax hi => (storesIn_predecrements hi h).sameMemoryBut, ?_, ?_, ?_⟩
  · rintro sz dx ay d rfl c hout
    refine (storesIn_movep h).read_of_outside fun j hj k hk => ?_
    exact (lt_or_gt_of_ne (hout j hj k hk)).imp id Nat.succ_le_of_lt
  · rintro sz rn ea rfl hsup h010
    exact (storesIn_moves hsup h010 h).sameMemoryBut
  · rintro sz mask ea rfl ks c hout
    cases ea with
    | predec r => exact (storesIn_movem_predec h).read_of_outside hout
    | _ => exact (storesIn_movem_up (fun _ => by simp) h).read_of_outside hout

end

end Sys2Proof.Machine
end


section
/-! RTE after an entry (R1218, R1330): what the entry pushed is the frame that RTE takes back. -/

namespace Sys2Proof.Machine

variable {s : State}

/-- The frame of an entry has format 2 (R1312). -/
def isFormat2 (m : Model) (ia : Option Long) : Bool := m.is020plus && ia.isSome

/-- The bytes of a frame by its kind (R1312). -/
theorem pushBytes_frameOf (m : Model) (vec : Nat) (p : Long) (ia : Option Long) (old : HWord) :
    pushBytes (frameOf m vec p ia old) = if m.is000 then 6 else if isFormat2 m ia then 12 else 8 := by
  rw [frameOf_eq]
  split
  · rfl
  · unfold isFormat2
    split <;> rfl

/-- The formats that an entry builds are valid ones, with the sizes of their frames (R1218). -/
theorem frameFormat_of_built (m : Model) (ia : Option Long) :
    frameFormat (if isFormat2 m ia then 2 else 0) m = .valid (if isFormat2 m ia then 12 else 8) := by
  cases m <;> cases ia <;> rfl

/-- The format number of a frame's format/vector word (R1312). -/
theorem extractLsb'_formatWord {vec : Nat} (hvec : vec < 256) (format2 : Bool) :
    (truncTo .w (formatWord (if format2 then 2 else 0) vec)).extractLsb' 12 4 = if format2 then 2 else 0 := by
  have hword : truncTo .w (formatWord (if format2 then 2 else 0) vec) =
      BitVec.ofNat 32 ((if format2 then 2 else 0) * 4096 + 4 * vec) :=
    truncTo_w_ofNat (by split <;> omega)
  rw [hword]
  apply BitVec.eq_of_toNat_eq
  rw [BitVec.extractLsb'_toNat, BitVec.toNat_ofNat, Nat.shiftRight_eq_div_pow]
  cases format2
  · simp; omega
  · simp; omega

/-- A legal SR is its own implemented bits (R112). -/
theorem and_srImplemented_of_srLegal (h : s.srLegal = true) : s.sr &&& srImplemented s.model = s.sr := by
  apply BitVec.eq_of_getLsbD_eq
  intro k hk
  rw [BitVec.getLsbD_and]
  cases himpl : (srImplemented s.model).getLsbD k with
  | true => exact Bool.and_true _
  | false => rw [(State.srLegal_iff s).1 h k hk himpl, Bool.and_false]

/-- A legal SR does not ask for the master stack (R112). -/
theorem srRefused_of_srLegal (h : s.srLegal = true) : srRefused s.model s.sr = false := by
  have hbit : (srImplemented s.model).getLsbD 12 = false := by cases s.model <;> rfl
  rw [srRefused, (State.srLegal_iff s).1 h 12 (by decide) hbit, Bool.and_false]

section
variable {vec : Nat} {p : Long} {ia : Option Long} (hinv : s.Inv) (hmask : s.cfg.addressMask = 0xFFFFFFFF)
  (hvec : vec < 256) (hEnter : s.canEnter vec p ia = true)
  (hread : ∀ off sz, (off, sz) ∈ [((0 : Long), Size.w), (2, .l), (6, .w)] → (s.model.is000 = true → off ≠ 6) →
    (s.entered vec p ia).canRead ((s.entered vec p ia).ssp + off) sz 5 = true)
include hinv hmask hEnter hread

/-- The SR and the pc that RTE reads back (R1312). -/
theorem frame_of_entered :
    (s.entered vec p ia).valueAt (s.entered vec p ia).ssp .w 5 = s.sr.setWidth 32 ∧
      (s.entered vec p ia).valueAt ((s.entered vec p ia).ssp + 2) .l 5 = p := by
  obtain ⟨hsr, hpc, -, -⟩ := mem_pushSlots_frameOf s.model vec p ia s.sr
  have hsrRead := hread 0 .w (by simp) fun _ => by decide
  have hpcRead := hread 2 .l (by simp) fun _ => by decide
  have hzero : (s.entered vec p ia).ssp + 0 = (s.entered vec p ia).ssp := BitVec.add_zero _
  refine ⟨?_, (State.valueAt_entered hinv hmask hEnter hpc hpcRead).trans (truncTo_l _)⟩
  rw [← hzero]
  exact (State.valueAt_entered hinv hmask hEnter hsr hsrRead).trans (truncTo_w_word _)

include hvec

/-- The format that RTE reads back (R1218). -/
theorem format_of_entered (h000 : s.model.is000 = false) :
    frameFormat (((s.entered vec p ia).valueAt ((s.entered vec p ia).ssp + 6) .w 5).extractLsb' 12 4) s.model =
      .valid (if isFormat2 s.model ia then 12 else 8) := by
  obtain ⟨-, -, hformat, -⟩ := mem_pushSlots_frameOf s.model vec p ia s.sr
  have hformatRead := hread 6 .w (by simp) fun h => by simp [h] at h000
  have hvalue := State.valueAt_entered hinv hmask hEnter (hformat h000) hformatRead
  have hbits := extractLsb'_formatWord hvec (isFormat2 s.model ia)
  rw [← frameFormat_of_built, ← hbits]
  exact congrArg (fun v => frameFormat (v.extractLsb' 12 4) s.model) hvalue

end

/-- RTE in the state of an entry, whose SR, pc and frame size are those read back (R1218). -/
theorem exec_rte_of_frame {t : State} {size p : Long} {sr : HWord} (hsup : t.supervisor = true)
    (hsize : t.model.is000 = true ∧ size = 6 ∨ t.model.is010plus = true ∧ t.canRead (t.ssp + 6) .w 5 = true ∧
      frameFormat ((t.valueAt (t.ssp + 6) .w 5).extractLsb' 12 4) t.model = .valid size)
    (hsrRead : t.canRead t.ssp .w 5 = true) (hpcRead : t.canRead (t.ssp + 2) .l 5 = true)
    (hsr : t.valueAt t.ssp .w 5 = sr.setWidth 32) (hpc : t.valueAt (t.ssp + 2) .l 5 = p)
    (hlegal : srRefused t.model sr = false ∧ sr &&& srImplemented t.model = sr) :
    exec .rte t = .next ((((t.pastWords .rte).setSsp (t.ssp + size)).setSrBits sr).setPc p) := by
  have h7 : t.readA 7 = t.ssp := by rw [State.readA_seven, hsup]; rfl
  have hfc : t.dataFC = 5 := by rw [State.dataFC, hsup]; rfl
  have hword : (sr.setWidth 32).setWidth 16 = sr := by
    rw [BitVec.setWidth_setWidth_of_le _ (by decide), BitVec.setWidth_eq]
  obtain ⟨hrestores, -, -⟩ := rteRestoresItsFrame t hsup
  have hnext := hrestores size
  rw [h7, hfc, hsr, hpc, hword, hlegal.2, State.writeA_seven_of_supervisor (s := t.pastWords .rte) hsup] at hnext
  exact hnext hsize hsrRead hpcRead hlegal.1

/-- Settles O17: the frame has the size of its pushes, so RTE's stack pointer is the one before the entry. -/
theorem rteUndoesAnEntry : Obligations.RteUndoesAnEntry := by
  intro s vec p ia hinv hmask hvec hEnter t hread
  obtain ⟨m, h, ht⟩ := s.exists_entered_eq vec p ia
  have ht : t = _ := ht
  have hmodel : t.model = s.model := by rw [ht]; rfl
  have hsup : t.supervisor = true := by rw [ht]; exact s.supervisor_of_handlerSr
  obtain ⟨hsr, hpc⟩ := frame_of_entered hinv hmask hEnter hread
  have hlegal : s.srLegal = true := by
    obtain ⟨-, -, -, hlegal⟩ := hinv
    exact hlegal
  have hsrRead : t.canRead t.ssp .w 5 = true := by
    have := hread 0 .w (by simp) fun _ => by decide
    rwa [show t.ssp + 0 = t.ssp from BitVec.add_zero _] at this
  have hsize : t.model.is000 = true ∧ BitVec.ofNat 32 (pushBytes (frameOf s.model vec p ia s.sr)) = 6 ∨
      t.model.is010plus = true ∧ t.canRead (t.ssp + 6) .w 5 = true ∧
        frameFormat ((t.valueAt (t.ssp + 6) .w 5).extractLsb' 12 4) t.model =
          .valid (BitVec.ofNat 32 (pushBytes (frameOf s.model vec p ia s.sr))) := by
    rw [hmodel, pushBytes_frameOf]
    cases h000 : s.model.is000 with
    | true => exact .inl ⟨rfl, rfl⟩
    | false =>
      refine .inr ⟨by rw [Model.is010plus, h000]; rfl, hread 6 .w (by simp) fun h => by simp [h] at h000, ?_⟩
      rw [format_of_entered hinv hmask hvec hEnter hread h000]
      split <;> rfl
  have hrte := exec_rte_of_frame hsup hsize hsrRead (hread 2 .l (by simp) fun _ => by decide) hsr hpc
    (by rw [hmodel]; exact ⟨srRefused_of_srLegal hlegal, and_srImplemented_of_srLegal hlegal⟩)
  have husp : t.usp = s.usp := by rw [ht]; rfl
  have hd : ∀ n, t.readD n = s.readD n := fun n => by rw [ht]; rfl
  have hcondition : t.condition = s.condition := by rw [ht]; rfl
  refine ⟨_, hrte, rfl, rfl, ?_, husp, hd, rfl, hcondition⟩
  have hssp : t.ssp = s.ssp - BitVec.ofNat 32 (pushBytes (frameOf s.model vec p ia s.sr)) := by
    rw [ht]; rfl
  show t.ssp + _ = s.ssp
  rw [hssp, BitVec.sub_add_cancel]

end Sys2Proof.Machine
end


section
/-! Decimal arithmetic and division over the integers (46_bcd.md, 42_integer_arithmetic.md section 6). -/

namespace Sys2Proof.Machine

/-! ### Two-digit decimal numbers (R1000) -/

theorem bcdDec_lt_of_valid {b : Byte} (h : bcdValid b = true) : bcdDec b < 100 := by
  simp only [bcdValid, Bool.and_eq_true, decide_eq_true_eq] at h
  obtain ⟨htens, hones⟩ := h
  unfold bcdDec
  omega

/-- A number below 100 is what its two digits say. -/
theorem bcdOf_two_digits {t : Nat} (h : t < 100) : bcdValid (bcdOf t) = true ∧ bcdDec (bcdOf t) = t := by
  have hbyte : (bcdOf t).toNat = 16 * (t / 10) + t % 10 := by
    rw [bcdOf, BitVec.toNat_ofNat]
    exact Nat.mod_eq_of_lt (by omega)
  have htens : (bcdOf t).toNat / 16 = t / 10 := by omega
  have hones : (bcdOf t).toNat % 16 = t % 10 := by omega
  constructor
  · rw [bcdValid, htens, hones, Bool.and_eq_true, decide_eq_true_eq, decide_eq_true_eq]
    omega
  · rw [bcdDec, htens, hones]
    omega

/-- Settles O28: the digits of the sum or difference mod 100, and the carry or borrow that was dropped. -/
theorem decimalArithmeticIsExact : Obligations.DecimalArithmeticIsExact := by
  intro a b x ha hb digit
  have hdigit : digit = (x.toNat : Int) := by cases x <;> rfl
  have hx : x.toNat ≤ 1 := x.toNat_le
  have ha := bcdDec_lt_of_valid ha
  have hb := bcdDec_lt_of_valid hb
  rw [hdigit]
  refine ⟨?_, ?_⟩
  · intro r
    obtain ⟨hvalid, hdec⟩ := bcdOf_two_digits (Nat.mod_lt (bcdDec b + bcdDec a + x.toNat) (by decide : 0 < 100))
    refine ⟨hvalid, ?_⟩
    show (bcdDec (bcdOf _) : Int) = _ - (if decide _ = true then 100 else 0)
    rw [hdec]
    simp only [decide_eq_true_eq]
    split <;> omega
  · intro r
    have hlt : (((bcdDec b : Int) - bcdDec a - x.toNat) % 100).toNat < 100 := by omega
    obtain ⟨hvalid, hdec⟩ := bcdOf_two_digits hlt
    refine ⟨hvalid, ?_⟩
    show (bcdDec (bcdOf _) : Int) = _ + (if decide _ = true then 100 else 0)
    rw [hdec]
    simp only [decide_eq_true_eq]
    split <;> omega

/-! ### Division (R626, R627) -/

/-- The unsigned division of a longword by a word. -/
theorem divUnsigned_exact (v d : Long) :
    (divUnsigned v d = .zeroDivide ↔ v = 0) ∧
    (∀ q m, divUnsigned v d = .result q m → v.toNat < 2 ^ 16 →
      d.toNat = q.toNat * v.toNat + m.toNat ∧ m.toNat < v.toNat) ∧
    (divUnsigned v d = .overflow ↔ v ≠ 0 ∧ 2 ^ 16 * v.toNat ≤ d.toNat) := by
  unfold divUnsigned
  by_cases hv : v = 0
  · rw [if_pos hv]
    exact ⟨⟨fun _ => hv, fun _ => rfl⟩, fun q m h => (nomatch h), ⟨fun h => (nomatch h), fun h => absurd hv h.1⟩⟩
  have hpos : 0 < v.toNat := by
    rcases Nat.eq_zero_or_pos v.toNat with h | h
    · exact absurd (BitVec.eq_of_toNat_eq h) hv
    · exact h
  rw [if_neg hv]
  dsimp only
  by_cases hq : 0xFFFF < d.toNat / v.toNat
  · have hle : 2 ^ 16 * v.toNat ≤ d.toNat := (Nat.le_div_iff_mul_le hpos).1 hq
    rw [if_pos hq]
    exact ⟨⟨fun h => (nomatch h), fun h => absurd h hv⟩, fun q m h => (nomatch h), ⟨fun _ => ⟨hv, hle⟩, fun _ => rfl⟩⟩
  · have hlt : ¬2 ^ 16 * v.toNat ≤ d.toNat := fun h => hq ((Nat.le_div_iff_mul_le hpos).2 h)
    rw [if_neg hq]
    refine ⟨⟨fun h => (nomatch h), fun h => absurd h hv⟩, fun q m h hword => ?_,
      ⟨fun h => (nomatch h), fun h => absurd h.2 hlt⟩⟩
    cases h
    have hm := Nat.mod_lt d.toNat hpos
    rw [BitVec.toNat_ofNat, BitVec.toNat_ofNat, Nat.mod_eq_of_lt (by omega), Nat.mod_eq_of_lt (by omega)]
    exact ⟨(Nat.div_add_mod' _ _).symm, hm⟩

/-- The signed value of a word operand. -/
theorem signed16_eq_zero {v : Long} (h : v.toNat < 2 ^ 16) : signed16 v = 0 ↔ v = 0 := by
  have hlow : (v.setWidth 16).toNat = v.toNat := by rw [BitVec.toNat_setWidth, Nat.mod_eq_of_lt h]
  have hzero : v = 0 ↔ v.toNat = 0 := ⟨fun h => by rw [h]; rfl, fun h => BitVec.eq_of_toNat_eq h⟩
  rw [signed16, BitVec.toInt_eq_toNat_cond, hlow, hzero]
  split <;> omega

theorem natAbs_signed16_le (v : Long) : (signed16 v).natAbs ≤ 2 ^ 15 := by
  have hlo := (v.setWidth 16).le_toInt
  have hhi := (v.setWidth 16).toInt_lt
  unfold signed16
  omega

theorem toInt_ofInt_16 {i : Int} (hlo : -2 ^ 15 ≤ i) (hhi : i < 2 ^ 15) : (BitVec.ofInt 16 i).toInt = i := by
  rw [BitVec.toInt_ofInt]
  exact Int.bmod_eq_of_le_mul_two (by omega) (by omega)

/-- The remainder of a truncating division has the dividend's sign. -/
theorem tmod_neg_iff (d v : Int) (h : d.tmod v ≠ 0) : d.tmod v < 0 ↔ d < 0 := by
  constructor
  · intro hneg
    by_contra hd
    exact absurd (Int.tmod_nonneg v (not_lt.1 hd)) (not_le.2 hneg)
  · intro hd
    have hnonneg := Int.tmod_nonneg v (show 0 ≤ -d by omega)
    rw [Int.neg_tmod] at hnonneg
    omega

/-- The signed division of a longword by a word. -/
theorem divSigned_exact (v d : Long) (hword : v.toNat < 2 ^ 16) :
    (divSigned v d = .zeroDivide ↔ v = 0) ∧
    (∀ q m, divSigned v d = .result q m →
      d.toInt = q.toInt * signed16 v + m.toInt ∧ m.toInt.natAbs < (signed16 v).natAbs ∧
        (m.toInt ≠ 0 → (m.toInt < 0 ↔ d.toInt < 0))) ∧
    (divSigned v d = .overflow ↔
      v ≠ 0 ∧ (d.toInt.tdiv (signed16 v) < -2 ^ 15 ∨ 2 ^ 15 ≤ d.toInt.tdiv (signed16 v))) := by
  have hzero := signed16_eq_zero hword
  unfold divSigned
  by_cases hv : v = 0
  · dsimp only
    rw [if_pos (hzero.2 hv)]
    exact ⟨⟨fun _ => hv, fun _ => rfl⟩, fun q m h => (nomatch h), ⟨fun h => (nomatch h), fun h => absurd hv h.1⟩⟩
  have hsv : signed16 v ≠ 0 := fun h => hv (hzero.1 h)
  dsimp only
  rw [if_neg hsv]
  by_cases hq : d.toInt.tdiv (signed16 v) < -32768 ∨ 32767 < d.toInt.tdiv (signed16 v)
  · rw [if_pos hq]
    exact ⟨⟨fun h => (nomatch h), fun h => absurd h hv⟩, fun q m h => (nomatch h), ⟨fun _ => ⟨hv, by omega⟩, fun _ => rfl⟩⟩
  · rw [if_neg hq]
    refine ⟨⟨fun h => (nomatch h), fun h => absurd h hv⟩, fun q m h => ?_,
      ⟨fun h => (nomatch h), fun h => absurd (by omega) hq⟩⟩
    cases h
    have hm : d.toInt - d.toInt.tdiv (signed16 v) * signed16 v = d.toInt.tmod (signed16 v) := by
      rw [Int.tmod_def, Int.mul_comm]
    have hlt : (d.toInt.tmod (signed16 v)).natAbs < (signed16 v).natAbs := by
      rw [Int.natAbs_tmod]
      exact Nat.mod_lt _ (Int.natAbs_pos.2 hsv)
    have hle := natAbs_signed16_le v
    rw [hm, toInt_ofInt_16 (by omega) (by omega), toInt_ofInt_16 (by omega) (by omega)]
    exact ⟨(Int.tdiv_mul_add_tmod _ _).symm, hlt, tmod_neg_iff _ _⟩

/-- Settles O26: quotient and remainder of Nat, and of Int rounding toward 0. -/
theorem divisionIsExact : Obligations.DivisionIsExact := by
  intro v d hword
  obtain ⟨hzero, hresult, hoverflow⟩ := divUnsigned_exact v d
  exact ⟨hzero, fun q m h => hresult q m h hword, hoverflow, divSigned_exact v d hword⟩

end Sys2Proof.Machine
end


section
/-! Additions, subtractions and compares over the integers (42_integer_arithmetic.md section 1, R600): operands and results as
the numbers below 2^w that they are. -/

namespace Sys2Proof.Machine

/-! ### The value and the sign of an operand of a size -/

/-- The size's modulus 2^w is twice the weight of its sign bit. -/
theorem two_pow_width (sz : Size) : 2 ^ sz.width = 2 * 2 ^ (sz.width - 1) := by cases sz <;> rfl

/-- msb_w of a value that has no bit above the size (R13). -/
theorem msb_iff {sz : Size} {v : Long} (h : v.toNat < 2 ^ sz.width) : msb sz v = true ↔ 2 ^ (sz.width - 1) ≤ v.toNat := by
  have hbit : msb sz v = decide (v.toNat / 2 ^ (sz.width - 1) % 2 = 1) := Nat.testBit_eq_decide_div_mod_eq
  have hlt : v.toNat / 2 ^ (sz.width - 1) < 2 := by
    rw [Nat.div_lt_iff_lt_mul (by positivity), ← two_pow_width]
    exact h
  have hpos : 1 ≤ v.toNat / 2 ^ (sz.width - 1) ↔ 2 ^ (sz.width - 1) ≤ v.toNat := by
    rw [Nat.le_div_iff_mul_le (by positivity), one_mul]
  rw [hbit, decide_eq_true_eq, ← hpos]
  generalize v.toNat / 2 ^ (sz.width - 1) = q at hlt ⊢
  omega

/-- A word of a width as the signed number it is. -/
theorem toInt_eq_ite {n : Nat} (hn : 0 < n) (x : BitVec n) :
    x.toInt = if 2 ^ (n - 1) ≤ x.toNat then (x.toNat : Int) - 2 ^ n else x.toNat := by
  have hpow : 2 ^ n = 2 * 2 ^ (n - 1) := by rw [← pow_succ', Nat.sub_add_cancel hn]
  rw [BitVec.toInt_eq_toNat_cond]
  by_cases h : 2 ^ (n - 1) ≤ x.toNat
  · rw [if_pos h, if_neg (by omega)]
    push_cast
    rfl
  · rw [if_neg h, if_pos (by omega)]

/-- sext_w of a value of the size is the value, less 2^w when its sign bit is set (R11). -/
theorem toInt_signExtendFrom {sz : Size} {v : Long} (h : v.toNat < 2 ^ sz.width) :
    (signExtendFrom sz v).toInt = if 2 ^ (sz.width - 1) ≤ v.toNat then (v.toNat : Int) - 2 ^ sz.width else v.toNat := by
  cases sz with
  | b =>
    have hlow : (v.setWidth 8).toNat = v.toNat := (BitVec.toNat_setWidth ..).trans (Nat.mod_eq_of_lt h)
    rw [signExtendFrom, BitVec.toInt_signExtend_of_le (by decide), toInt_eq_ite (by decide), hlow]
    rfl
  | w =>
    have hlow : (v.setWidth 16).toNat = v.toNat := (BitVec.toNat_setWidth ..).trans (Nat.mod_eq_of_lt h)
    rw [signExtendFrom, BitVec.toInt_signExtend_of_le (by decide), toInt_eq_ite (by decide), hlow]
    rfl
  | l => exact toInt_eq_ite (by decide) v

/-! ### The sum and the difference (R600) -/

/-- A number below 2H as a signed one, where H is the weight of its sign bit. -/
def signedBelow (H a : Nat) : Int := if H ≤ a then (a : Int) - 2 * H else a

theorem toInt_eq_signedBelow {sz : Size} {v : Long} (h : v.toNat < 2 ^ sz.width) :
    (signExtendFrom sz v).toInt = signedBelow (2 ^ (sz.width - 1)) v.toNat := by
  rw [toInt_signExtendFrom h, signedBelow]
  cases sz <;> rfl

/-- The signed sum leaves the size exactly when both operands have one sign and the wrapped sum the other. -/
theorem add_overflow_iff {H a b x : Nat} (ha : a < 2 * H) (hb : b < 2 * H) (hx : x ≤ 1) :
    ((H ≤ a ↔ H ≤ b) ∧ ¬(H ≤ (b + a + x) % (2 * H) ↔ H ≤ b)) ↔
      signedBelow H b + signedBelow H a + x < -H ∨ H ≤ signedBelow H b + signedBelow H a + x := by
  have hmod : (b + a + x) % (2 * H) = if b + a + x < 2 * H then b + a + x else b + a + x - 2 * H := by
    split
    · exact Nat.mod_eq_of_lt ‹_›
    · rw [Nat.mod_eq_sub_mod (by omega), Nat.mod_eq_of_lt (by omega)]
  rw [hmod]
  unfold signedBelow
  split <;> split <;> split <;> omega

/-- The signed difference leaves the size exactly when the operands' signs differ and the wrapped difference has the
subtrahend's. -/
theorem sub_overflow_iff {H a b x r : Nat} (ha : a < 2 * H) (hb : b < 2 * H) (hx : x ≤ 1)
    (hr : (r : Int) = ((b : Int) - a - x) % (2 * H : Nat)) :
    (¬(H ≤ a ↔ H ≤ b) ∧ ¬(H ≤ r ↔ H ≤ b)) ↔
      signedBelow H b - signedBelow H a - x < -H ∨ H ≤ signedBelow H b - signedBelow H a - x := by
  have hmod : (r : Int) = if a + x ≤ b then (b : Int) - a - x else (b : Int) - a - x + (2 * H : Nat) := by
    rw [hr]
    split
    · exact Int.emod_eq_of_lt (by omega) (by omega)
    · rw [← Int.add_emod_right]
      exact Int.emod_eq_of_lt (by omega) (by omega)
  unfold signedBelow
  split at hmod <;> split <;> split <;> omega

/-- What the statements say of a result but for its Z: `u` and `i` are the exact unsigned and signed results. -/
structure Alu.ExactAt (a : Alu) (sz : Size) (u i : Int) : Prop where
  result   : (a.r.toNat : Int) = u % 2 ^ sz.width
  carry    : a.f.c = true ↔ u < 0 ∨ 2 ^ sz.width ≤ u
  extend   : a.f.x = a.f.c
  overflow : a.f.v = true ↔ i < -2 ^ (sz.width - 1) ∨ 2 ^ (sz.width - 1) ≤ i
  negative : a.f.n = true ↔ (signExtendFrom sz a.r).toInt < 0

theorem two_pow_width_le (sz : Size) : 2 ^ sz.width ≤ 2 ^ 32 := by cases sz <;> decide

/-- The powers of the size as integers. -/
theorem int_two_pow_width (sz : Size) :
    (2 : Int) ^ sz.width = ((2 ^ sz.width : Nat) : Int) ∧ (2 : Int) ^ (sz.width - 1) = ((2 ^ (sz.width - 1) : Nat) : Int) := by
  constructor <;> push_cast <;> rfl

theorem negative_iff {sz : Size} {r : Long} (hr : r.toNat < 2 ^ sz.width) :
    msb sz r = true ↔ (signExtendFrom sz r).toInt < 0 := by
  have hpow := two_pow_width sz
  rw [msb_iff hr, toInt_eq_signedBelow hr]
  generalize 2 ^ (sz.width - 1) = H at *
  unfold signedBelow
  split <;> omega

theorem beq_iff_iff {p q : Bool} : ((p == q) = true) ↔ (p = true ↔ q = true) := by cases p <;> cases q <;> decide

theorem bne_iff_not_iff {p q : Bool} : ((p != q) = true) ↔ ¬(p = true ↔ q = true) := by cases p <;> cases q <;> decide

section
variable {sz : Size} {a b : Long} (x : Bool) (old : Ccr) (ha : a.toNat < 2 ^ sz.width) (hb : b.toNat < 2 ^ sz.width)
include ha hb

theorem addF_exact : (addF sz a b x old).ExactAt sz (b.toNat + a.toNat + x.toNat)
    ((signExtendFrom sz b).toInt + (signExtendFrom sz a).toInt + x.toNat) := by
  have hresult : (addF sz a b x old).r.toNat = (b.toNat + a.toNat + x.toNat) % 2 ^ sz.width :=
    (BitVec.toNat_ofNat ..).trans
      (Nat.mod_eq_of_lt (lt_of_lt_of_le (Nat.mod_lt _ (by positivity)) (two_pow_width_le sz)))
  have hr : (addF sz a b x old).r.toNat < 2 ^ sz.width := by
    rw [hresult]
    exact Nat.mod_lt _ (by positivity)
  have hpow := int_two_pow_width sz
  refine ⟨?_, ?_, rfl, ?_, negative_iff hr⟩
  · rw [hresult, hpow.1]
    push_cast
    rfl
  · show decide (2 ^ sz.width ≤ b.toNat + a.toNat + x.toNat) = true ↔ _
    rw [decide_eq_true_eq, hpow.1]
    omega
  · show ((msb sz a == msb sz b) && (msb sz (addF sz a b x old).r != msb sz b)) = true ↔ _
    rw [Bool.and_eq_true, beq_iff_iff, bne_iff_not_iff, msb_iff ha, msb_iff hb, msb_iff hr, toInt_eq_signedBelow ha,
      toInt_eq_signedBelow hb, hresult, hpow.2]
    rw [two_pow_width] at ha hb ⊢
    exact add_overflow_iff ha hb x.toNat_le

theorem subF_exact : (subF sz a b x old).ExactAt sz (b.toNat - a.toNat - x.toNat)
    ((signExtendFrom sz b).toInt - (signExtendFrom sz a).toInt - x.toNat) := by
  have hpow := int_two_pow_width sz
  have hpos : (0 : Int) < 2 ^ sz.width := by positivity
  have hle := two_pow_width_le sz
  have hresult : ((subF sz a b x old).r.toNat : Int) = ((b.toNat : Int) - a.toNat - x.toNat) % 2 ^ sz.width := by
    have h0 := Int.emod_nonneg ((b.toNat : Int) - a.toNat - x.toNat) hpos.ne'
    have h1 := Int.emod_lt_of_pos ((b.toNat : Int) - a.toNat - x.toNat) hpos
    show (((BitVec.ofInt 32 _).toNat : Nat) : Int) = _
    rw [BitVec.toNat_ofInt, Int.toNat_of_nonneg (Int.emod_nonneg _ (by positivity))]
    refine Int.emod_eq_of_lt h0 (lt_of_lt_of_le h1 ?_)
    rw [hpow.1]
    exact_mod_cast hle
  have hr : (subF sz a b x old).r.toNat < 2 ^ sz.width := by
    have h1 := Int.emod_lt_of_pos ((b.toNat : Int) - a.toNat - x.toNat) hpos
    rw [← hresult] at h1
    exact_mod_cast h1
  refine ⟨hresult, ?_, rfl, ?_, negative_iff hr⟩
  · show decide (b.toNat < a.toNat + x.toNat) = true ↔ _
    rw [decide_eq_true_eq, hpow.1]
    omega
  · show ((msb sz a != msb sz b) && (msb sz (subF sz a b x old).r != msb sz b)) = true ↔ _
    rw [Bool.and_eq_true, bne_iff_not_iff, bne_iff_not_iff, msb_iff ha, msb_iff hb, msb_iff hr, toInt_eq_signedBelow ha,
      toInt_eq_signedBelow hb, hpow.2]
    rw [hpow.1] at hresult
    rw [two_pow_width] at ha hb hresult
    exact sub_overflow_iff ha hb x.toNat_le hresult

end

end Sys2Proof.Machine
end


section
/-! The results and flags of additions, subtractions, compares, moves and decimal results (R500, R600, R1000). -/

namespace Sys2Proof.Machine

variable {sz : Size}

/-- What O25 says of one of its operations. -/
def Alu.MeetsStatement (alu : Alu) (sz : Size) (u i : Int) (sticky : Bool) (old : Ccr) : Prop :=
  (alu.r.toNat : Int) = u % 2 ^ sz.width ∧
    (alu.f.c = true ↔ u < 0 ∨ 2 ^ sz.width ≤ u) ∧ alu.f.x = alu.f.c ∧
    (alu.f.v = true ↔ i < -2 ^ (sz.width - 1) ∨ 2 ^ (sz.width - 1) ≤ i) ∧
    (alu.f.n = true ↔ (signExtendFrom sz alu.r).toInt < 0) ∧
    (alu.f.z = true ↔ alu.r = 0 ∧ (sticky = true → old.z = true))

theorem Alu.ExactAt.toNat_lt {a : Alu} {u i : Int} (h : a.ExactAt sz u i) : a.r.toNat < 2 ^ sz.width := by
  have hlt := Int.emod_lt_of_pos u (show (0 : Int) < 2 ^ sz.width by positivity)
  rw [← h.result] at hlt
  exact_mod_cast hlt

theorem Alu.ExactAt.zOrdinary {a : Alu} {u i : Int} (h : a.ExactAt sz u i) (old : Ccr) :
    a.zOrdinary.MeetsStatement sz u i false old := by
  refine ⟨h.result, h.carry, h.extend, h.overflow, h.negative, ?_⟩
  show (a.r == 0) = true ↔ a.r = 0 ∧ (false = true → old.z = true)
  simp

theorem Alu.ExactAt.zSticky {a : Alu} {u i : Int} {old : Ccr} (h : a.ExactAt sz u i) (hz : a.f.z = old.z) :
    a.zSticky.MeetsStatement sz u i true old := by
  refine ⟨h.result, h.carry, h.extend, h.overflow, h.negative, ?_⟩
  show (a.f.z && a.r == 0) = true ↔ a.r = 0 ∧ (true = true → old.z = true)
  rw [hz]
  simp [and_comm]

theorem toInt_signExtendFrom_zero (sz : Size) : (signExtendFrom sz 0).toInt = 0 := by cases sz <;> decide

/-- Settles O25: each operation is one sum or difference, with or without X, and one of the two rules for Z. -/
theorem additionAndSubtractionAreExact : Obligations.AdditionAndSubtractionAreExact := by
  intro sz a b old ha hb alu u i sticky x sa sb hmem
  have hx : x = (old.x.toNat : Int) := by
    show (if old.x = true then (1 : Int) else 0) = _
    cases old.x <;> rfl
  have hzero : (0 : Long).toNat < 2 ^ sz.width := by
    show 0 < _
    positivity
  have hno : ((false.toNat : Nat) : Int) = 0 := rfl
  simp only [List.mem_cons, List.not_mem_nil, or_false, Prod.mk.injEq] at hmem
  show alu.MeetsStatement sz u i sticky old
  rcases hmem with ⟨rfl, rfl, rfl, rfl⟩ | ⟨rfl, rfl, rfl, rfl⟩ | ⟨rfl, rfl, rfl, rfl⟩ | ⟨rfl, rfl, rfl, rfl⟩ |
    ⟨rfl, rfl, rfl, rfl⟩ | ⟨rfl, rfl, rfl, rfl⟩
  · have h := (addF_exact false old ha hb).zOrdinary old
    rwa [hno, add_zero, add_zero] at h
  · rw [hx]
    exact (addF_exact old.x old ha hb).zSticky rfl
  · have h := (subF_exact false old ha hb).zOrdinary old
    rwa [hno, sub_zero, sub_zero] at h
  · rw [hx]
    exact (subF_exact old.x old ha hb).zSticky rfl
  · have h := (subF_exact false old hb hzero).zOrdinary old
    rwa [hno, sub_zero, sub_zero, toInt_signExtendFrom_zero, zero_sub, show ((0 : Long).toNat : Int) = 0 from rfl,
      zero_sub] at h
  · have h := (subF_exact old.x old hb hzero).zSticky (old := old) rfl
    rw [hx]
    rwa [toInt_signExtendFrom_zero, zero_sub, show ((0 : Long).toNat : Int) = 0 from rfl, zero_sub] at h

/-! ### The flag functions -/

/-- trunc_w (R11) as a number. -/
theorem toNat_truncTo (sz : Size) (v : Long) : (truncTo sz v).toNat = v.toNat % 2 ^ sz.width := by
  have hmask : (sizeMask sz).toNat = 2 ^ sz.width - 1 := by cases sz <;> rfl
  rw [truncTo, BitVec.toNat_and, hmask, Nat.and_two_pow_sub_one_eq_mod]

/-- msb_w of any longword is that of its low w bits (R13). -/
theorem msb_iff_mod (sz : Size) (v : Long) : msb sz v = true ↔ 2 ^ (sz.width - 1) ≤ v.toNat % 2 ^ sz.width := by
  have hlow : msb sz (truncTo sz v) = msb sz v := by
    have hmask : (sizeMask sz).getLsbD (sz.width - 1) = true := by cases sz <;> rfl
    rw [msb, truncTo, BitVec.getLsbD_and, hmask, Bool.and_true, msb]
  have hlt : (truncTo sz v).toNat < 2 ^ sz.width := by
    rw [toNat_truncTo]
    exact Nat.mod_lt _ (by positivity)
  rw [← hlow, msb_iff hlt, toNat_truncTo]

theorem logicFlags_exact (sz : Size) (v : Long) (old : Ccr) :
    ((logicFlags sz v old).n = true ↔ 2 ^ (sz.width - 1) ≤ v.toNat % 2 ^ sz.width) ∧
      ((logicFlags sz v old).z = true ↔ v.toNat % 2 ^ sz.width = 0) := by
  refine ⟨msb_iff_mod sz v, ?_⟩
  show (truncTo sz v == 0) = true ↔ _
  rw [beq_iff_eq, ← BitVec.toNat_inj, toNat_truncTo]
  rfl

/-- C is the unsigned borrow (R600). -/
theorem cmpFlags_carry (sz : Size) (s d : Long) (old : Ccr) : (cmpFlags sz s d old).c = true ↔ d.toNat < s.toNat := by
  show decide (d.toNat < s.toNat + 0) = true ↔ _
  rw [decide_eq_true_eq, Nat.add_zero]

section
variable {s d : Long} (old : Ccr) (hs : s.toNat < 2 ^ sz.width) (hd : d.toNat < 2 ^ sz.width)
include hs hd

/-- The wrapped difference is the signed one mod 2^w (R600). -/
theorem toNat_subOp : ((subOp sz s d old).r.toNat : Int) =
    ((signExtendFrom sz d).toInt - (signExtendFrom sz s).toInt) % 2 ^ sz.width := by
  have hsigned {v : Long} (hv : v.toNat < 2 ^ sz.width) :
      ∃ k : Int, (signExtendFrom sz v).toInt = (v.toNat : Int) + 2 ^ sz.width * k := by
    rw [toInt_signExtendFrom hv]
    split
    · exact ⟨-1, by omega⟩
    · exact ⟨0, by omega⟩
  obtain ⟨j, hj⟩ := hsigned hd
  obtain ⟨k, hk⟩ := hsigned hs
  have hresult := (subF_exact false old hs hd).result
  have hdiff : (signExtendFrom sz d).toInt - (signExtendFrom sz s).toInt =
      (d.toNat : Int) - s.toNat - (false.toNat : Nat) + 2 ^ sz.width * (j - k) := by
    rw [hj, hk, show ((false.toNat : Nat) : Int) = 0 from rfl]
    ring
  rw [hdiff, Int.add_mul_emod_self_left]
  exact hresult

/-- Z says that the operands are equal (R600). -/
theorem cmpFlags_zero : (cmpFlags sz s d old).z = true ↔ d = s := by
  have hresult := (subF_exact false old hs hd).result
  rw [show ((false.toNat : Nat) : Int) = 0 from rfl, sub_zero, (int_two_pow_width sz).1] at hresult
  show ((subF sz s d false old).r == 0) = true ↔ _
  rw [beq_iff_eq, ← BitVec.toNat_inj, ← BitVec.toNat_inj]
  constructor
  · intro h
    rw [h, show ((0 : Long).toNat : Int) = 0 from rfl] at hresult
    have hdvd := Int.dvd_of_emod_eq_zero hresult.symm
    have := Int.eq_zero_of_abs_lt_dvd hdvd (by rw [abs_lt]; omega)
    omega
  · intro h
    rw [h, sub_self, Int.zero_emod] at hresult
    exact_mod_cast hresult

theorem cmpFlags_exact :
    ((cmpFlags sz s d old).v = true ↔
      (signExtendFrom sz d).toInt - (signExtendFrom sz s).toInt < -2 ^ (sz.width - 1) ∨
        2 ^ (sz.width - 1) ≤ (signExtendFrom sz d).toInt - (signExtendFrom sz s).toInt) ∧
    ((cmpFlags sz s d old).n = true ↔
      2 ^ (sz.width - 1) ≤ ((signExtendFrom sz d).toInt - (signExtendFrom sz s).toInt) % 2 ^ sz.width) := by
  have hexact := subF_exact false old hs hd
  rw [show ((false.toNat : Nat) : Int) = 0 from rfl, sub_zero, sub_zero] at hexact
  refine ⟨hexact.overflow, ?_⟩
  have hr : (subOp sz s d old).r.toNat < 2 ^ sz.width := hexact.toNat_lt
  show msb sz (subOp sz s d old).r = true ↔ _
  rw [← toNat_subOp old hs hd, msb_iff hr, (int_two_pow_width sz).2]
  exact Int.ofNat_le.symm

end

/-- Settles O59: the compare by its difference, the others by the bits they name. -/
theorem flagFunctions : Obligations.FlagFunctions := by
  intro sz s d v old hs hd
  obtain ⟨hv, hn⟩ := cmpFlags_exact old hs hd
  obtain ⟨hln, hlz⟩ := logicFlags_exact sz v old
  refine ⟨⟨rfl, cmpFlags_carry sz s d old, hv, hn, cmpFlags_zero old hs hd⟩, ⟨rfl, rfl, rfl, hln, hlz⟩, ?_⟩
  intro r c n w
  refine ⟨rfl, rfl, rfl, rfl, ?_⟩
  show (old.z && r == 0) = true ↔ _
  simp

end Sys2Proof.Machine
end


section
/-! Rotations of a number below 2^K by single steps (44_shift_rotate.md, R809–R816). -/

namespace Sys2Proof.Machine

/-- One step to the left in K bits: the top bit comes in at the bottom. -/
def rotateLeftOnce (K u : Nat) : Nat := 2 * u % 2 ^ K + u / 2 ^ (K - 1)

/-- One step to the right in K bits: the bottom bit comes in at the top. -/
def rotateRightOnce (K u : Nat) : Nat := u / 2 + u % 2 * 2 ^ (K - 1)

/-- A rotation to the left by k of K bits: the low K − k bits move up, and the top k bits come in at the bottom. -/
def rotateLeft (K k u : Nat) : Nat := u % 2 ^ (K - k) * 2 ^ k + u / 2 ^ (K - k)

theorem rotateLeft_zero {K u : Nat} (hu : u < 2 ^ K) : rotateLeft K 0 u = u := by
  rw [rotateLeft, Nat.sub_zero, Nat.mod_eq_of_lt hu, Nat.div_eq_of_lt hu, pow_zero, mul_one, add_zero]

theorem rotateLeft_self {K u : Nat} : rotateLeft K K u = u := by
  rw [rotateLeft, Nat.sub_self, pow_zero, Nat.mod_one, Nat.div_one, zero_mul, zero_add]

theorem rotateLeft_lt {K k u : Nat} (hk : k ≤ K) (hu : u < 2 ^ K) : rotateLeft K k u < 2 ^ K := by
  have hpow : 2 ^ K = 2 ^ (K - k) * 2 ^ k := by rw [← pow_add, Nat.sub_add_cancel hk]
  have hlow : u % 2 ^ (K - k) < 2 ^ (K - k) := Nat.mod_lt _ (by positivity)
  have hhigh : u / 2 ^ (K - k) < 2 ^ k := Nat.div_lt_of_lt_mul (hpow ▸ hu)
  calc rotateLeft K k u < u % 2 ^ (K - k) * 2 ^ k + 2 ^ k := Nat.add_lt_add_left hhigh _
    _ = (u % 2 ^ (K - k) + 1) * 2 ^ k := by ring
    _ ≤ 2 ^ (K - k) * 2 ^ k := Nat.mul_le_mul_right _ hlow
    _ = 2 ^ K := hpow.symm

/-- The closed form of the statements: the sum mod 2^K of what moved up and what came in. -/
theorem rotateLeft_eq_mod {K k u : Nat} (hk : k ≤ K) (hu : u < 2 ^ K) :
    rotateLeft K k u = (u * 2 ^ k + u / 2 ^ (K - k)) % 2 ^ K := by
  have hpow : 2 ^ K = 2 ^ (K - k) * 2 ^ k := by rw [← pow_add, Nat.sub_add_cancel hk]
  have hsplit : u * 2 ^ k % 2 ^ K = u % 2 ^ (K - k) * 2 ^ k := by rw [hpow, Nat.mul_mod_mul_right]
  rw [← Nat.mod_add_mod, hsplit]
  exact (Nat.mod_eq_of_lt (rotateLeft_lt hk hu)).symm

/-- One more step. -/
theorem rotateLeftOnce_rotateLeft {K k u : Nat} (hk : k < K) (hu : u < 2 ^ K) :
    rotateLeftOnce K (rotateLeft K k u) = rotateLeft K (k + 1) u := by
  have hsub : K - (k + 1) = K - k - 1 := by omega
  have hstep : 2 ^ (K - k) = 2 ^ (K - k - 1) * 2 := by rw [← pow_succ, Nat.sub_add_cancel (by omega)]
  have htop : 2 ^ (K - 1) = 2 ^ (K - k - 1) * 2 ^ k := by
    rw [← pow_add]
    congr 1
    omega
  have hK : 2 ^ K = 2 * 2 ^ (K - 1) := by rw [← pow_succ', Nat.sub_add_cancel (by omega)]
  rw [hK, htop] at hu
  rw [rotateLeftOnce, rotateLeft, rotateLeft, hK, Nat.mul_mod_mul_left, htop, hsub, hstep, pow_succ]
  generalize 2 ^ (K - k - 1) = L at hu ⊢
  generalize 2 ^ k = A at hu ⊢
  have hL : 0 < L := Nat.pos_of_ne_zero (by rintro rfl; simp at hu)
  have hhigh : u / (L * 2) < A := Nat.div_lt_of_lt_mul (by linarith)
  have hlow : u % L * A + u / (L * 2) < L * A := by
    have hle : (u % L + 1) * A ≤ L * A := Nat.mul_le_mul_right A (Nat.mod_lt u hL)
    linarith
  -- the bit that the next step takes out at the top
  have hbits : u % (L * 2) * A + u / (L * 2) = u % L * A + u / (L * 2) + L * A * (u / L % 2) := by
    rw [Nat.mod_mul]
    ring
  have hdiv : u / L = 2 * (u / (L * 2)) + u / L % 2 := by
    rw [← Nat.div_div_eq_div_mul, Nat.div_add_mod]
  rw [hbits, Nat.add_mul_mod_self_left, Nat.mod_eq_of_lt hlow, Nat.add_mul_div_left _ _ (Nat.zero_lt_of_lt hlow),
    Nat.div_eq_of_lt hlow]
  linarith

/-- A step to the right undoes a step to the left. -/
theorem rotateRightOnce_rotateLeftOnce {K u : Nat} (hK : 0 < K) (hu : u < 2 ^ K) :
    rotateRightOnce K (rotateLeftOnce K u) = u := by
  have hpow : 2 ^ K = 2 * 2 ^ (K - 1) := by rw [← pow_succ', Nat.sub_add_cancel hK]
  unfold rotateRightOnce rotateLeftOnce
  rw [hpow] at hu ⊢
  generalize 2 ^ (K - 1) = H at hu ⊢
  rcases lt_or_ge u H with h | h
  · rw [Nat.div_eq_of_lt h, Nat.mod_eq_of_lt (by omega)]
    rw [add_zero, Nat.mul_div_cancel_left u (by decide), Nat.mul_mod_right, zero_mul, add_zero]
  · have hq : u / H = 1 := Nat.div_eq_of_lt_le (by omega) (by omega)
    have hm : 2 * u % (2 * H) = 2 * u - 2 * H := by
      rw [Nat.mod_eq_sub_mod (by omega), Nat.mod_eq_of_lt (by omega)]
    rw [hq, hm]
    have h2 : (2 * u - 2 * H + 1) / 2 = u - H := by omega
    have h3 : (2 * u - 2 * H + 1) % 2 = 1 := by omega
    rw [h2, h3]
    omega

theorem rotateLeftOnce_lt {K u : Nat} (hK : 0 < K) (hu : u < 2 ^ K) : rotateLeftOnce K u < 2 ^ K := by
  have hpow : 2 ^ K = 2 * 2 ^ (K - 1) := by rw [← pow_succ', Nat.sub_add_cancel hK]
  unfold rotateLeftOnce
  rw [hpow] at hu ⊢
  generalize 2 ^ (K - 1) = H at hu ⊢
  rcases lt_or_ge u H with h | h
  · rw [Nat.div_eq_of_lt h, Nat.mod_eq_of_lt (by omega)]
    omega
  · have hq : u / H = 1 := Nat.div_eq_of_lt_le (by omega) (by omega)
    rw [hq, Nat.mod_eq_sub_mod (by omega), Nat.mod_eq_of_lt (by omega)]
    omega

/-- n steps to the left are a rotation by n mod K. -/
theorem iterate_rotateLeftOnce {K u : Nat} (hK : 0 < K) (hu : u < 2 ^ K) (n : Nat) :
    (rotateLeftOnce K)^[n] u = rotateLeft K (n % K) u := by
  induction n with
  | zero => exact (rotateLeft_zero hu).symm
  | succ n ih =>
    rw [Function.iterate_succ_apply', ih, rotateLeftOnce_rotateLeft (Nat.mod_lt _ hK) hu]
    rcases Nat.lt_or_ge (n % K + 1) K with h | h
    · rw [Nat.add_mod, Nat.mod_eq_of_lt (a := 1) (by omega), Nat.mod_eq_of_lt h]
    · have hend : n % K + 1 = K := Nat.le_antisymm (Nat.mod_lt _ hK) h
      have hzero : (n + 1) % K = 0 := by
        rw [← Nat.mod_add_mod, hend, Nat.mod_self]
      rw [hend, hzero, rotateLeft_self, rotateLeft_zero hu]

/-- n steps to the right are a rotation to the left by K less n mod K. -/
theorem iterate_rotateRightOnce {K u : Nat} (hK : 0 < K) (hu : u < 2 ^ K) (n : Nat) :
    (rotateRightOnce K)^[n] u = rotateLeft K (K - n % K) u := by
  induction n with
  | zero => exact rotateLeft_self.symm
  | succ n ih =>
    have hlt := Nat.mod_lt n hK
    have hback : rotateLeft K (K - n % K) u = rotateLeftOnce K (rotateLeft K (K - n % K - 1) u) := by
      rw [rotateLeftOnce_rotateLeft (by omega) hu, Nat.sub_add_cancel (by omega)]
    rw [Function.iterate_succ_apply', ih, hback, rotateRightOnce_rotateLeftOnce hK (rotateLeft_lt (by omega) hu)]
    rcases Nat.lt_or_ge (n % K + 1) K with h | h
    · rw [Nat.add_mod n 1, Nat.mod_eq_of_lt (a := 1) (by omega), Nat.mod_eq_of_lt h]
      rfl
    · have hend : n % K + 1 = K := Nat.le_antisymm hlt h
      have hzero : (n + 1) % K = 0 := by
        rw [← Nat.mod_add_mod, hend, Nat.mod_self]
      rw [hzero, show K - n % K - 1 = 0 by omega, Nat.sub_zero, rotateLeft_zero hu, rotateLeft_self]

/-- n steps to the right undo n steps to the left. -/
theorem iterate_rotateRightOnce_iterate_rotateLeftOnce {K u : Nat} (hK : 0 < K) (hu : u < 2 ^ K) (n : Nat) :
    (rotateRightOnce K)^[n] ((rotateLeftOnce K)^[n] u) = u := by
  induction n with
  | zero => rfl
  | succ n ih =>
    have hlt : (rotateLeftOnce K)^[n] u < 2 ^ K := by
      rw [iterate_rotateLeftOnce hK hu]
      exact rotateLeft_lt (Nat.mod_lt _ hK).le hu
    rw [Function.iterate_succ_apply' (rotateLeftOnce K), Function.iterate_succ_apply,
      rotateRightOnce_rotateLeftOnce hK hlt, ih]

end Sys2Proof.Machine
end


section
/-! The single steps of the shifts and rotates as arithmetic, and their loop (44_shift_rotate.md section 1, R800–R816). -/

namespace Sys2Proof.Machine

/-! ### The loop of R800 from its end -/

/-- What one step of the loop makes of what it carries. -/
def ShiftAcc.next (k : ShiftKind) (sz : Size) (a : ShiftAcc) : ShiftAcc := shiftLoop k sz 1 a

/-- The loop's last step is a step like the first. -/
theorem shiftLoop_succ (k : ShiftKind) (sz : Size) (n : Nat) (a : ShiftAcc) :
    shiftLoop k sz (n + 1) a = (shiftLoop k sz n a).next k sz := by
  induction n generalizing a with
  | zero => rfl
  | succ n ih => exact ih (a.next k sz)

theorem ShiftAcc.next_v (k : ShiftKind) (sz : Size) (a : ShiftAcc) :
    (a.next k sz).v = (shiftStep k sz a.v a.x).1 := rfl

theorem ShiftAcc.next_c (k : ShiftKind) (sz : Size) (a : ShiftAcc) :
    (a.next k sz).c = (shiftStep k sz a.v a.x).2 := rfl

/-- A rotation that leaves X alone keeps it over the whole loop. -/
theorem shiftLoop_x_of_not_writesX {k : ShiftKind} (hk : k.writesX = false) (sz : Size) (n : Nat) (a : ShiftAcc) :
    (shiftLoop k sz n a).x = a.x := by
  induction n with
  | zero => rfl
  | succ n ih =>
    rw [shiftLoop_succ, ← ih]
    exact if_neg (by rw [hk]; decide)

/-- The other instructions give X what they give C. -/
theorem ShiftAcc.next_x_of_writesX {k : ShiftKind} (hk : k.writesX = true) (sz : Size) (a : ShiftAcc) :
    (a.next k sz).x = (a.next k sz).c := if_pos hk

/-! ### The bits and the halves of an operand as numbers -/

variable {sz : Size} {v : Long}

theorem toNat_msb (h : v.toNat < 2 ^ sz.width) : (msb sz v).toNat = v.toNat / 2 ^ (sz.width - 1) := by
  have hiff := msb_iff h
  rw [two_pow_width] at h
  generalize 2 ^ (sz.width - 1) = H at h hiff ⊢
  cases hb : msb sz v with
  | false =>
    have hlt : v.toNat < H := not_le.1 fun hle => absurd (hiff.2 hle) (by rw [hb]; decide)
    exact (Nat.div_eq_of_lt hlt).symm
  | true =>
    have hle := hiff.1 hb
    exact (Nat.div_eq_of_lt_le (by rw [Bool.toNat_true, one_mul]; exact hle)
      (by rw [Bool.toNat_true]; linarith)).symm

theorem getLsbD_zero_iff (v : Long) : v.getLsbD 0 = true ↔ v.toNat % 2 = 1 := by
  rw [BitVec.getLsbD, Nat.testBit_zero, decide_eq_true_eq]

theorem toNat_getLsbD_zero (v : Long) : (v.getLsbD 0).toNat = v.toNat % 2 := by
  have hiff := getLsbD_zero_iff v
  cases hb : v.getLsbD 0 with
  | false =>
    have hne : v.toNat % 2 ≠ 1 := fun h => absurd (hiff.2 h) (by rw [hb]; decide)
    show 0 = _
    omega
  | true => exact (hiff.1 hb).symm

theorem toNat_double (sz : Size) (v : Long) : (truncTo sz (v <<< 1)).toNat = 2 * v.toNat % 2 ^ sz.width := by
  have hdvd : 2 ^ sz.width ∣ 2 ^ 32 := by cases sz <;> decide
  rw [toNat_truncTo, BitVec.toNat_shiftLeft, Nat.shiftLeft_eq, Nat.mod_mod_of_dvd _ hdvd, mul_comm]

/-- The doubled operand with a bit put in at the bottom. -/
theorem toNat_double_or (sz : Size) (v : Long) (b : Bool) :
    (truncTo sz (v <<< 1) ||| if b then 1 else 0).toNat = 2 * v.toNat % 2 ^ sz.width + b.toNat := by
  have hbit : (if b then (1 : Long) else 0).toNat = b.toNat := by cases b <;> rfl
  rw [BitVec.toNat_or, toNat_double, hbit, two_pow_width, Nat.mul_mod_mul_left]
  exact (Nat.two_pow_add_eq_or_of_lt (i := 1) (by have := b.toNat_le; omega) _).symm

/-- The halved operand with a bit put in at the top. -/
theorem toNat_half_or (h : v.toNat < 2 ^ sz.width) (b : Bool) :
    (v >>> 1 ||| if b then 1#32 <<< (sz.width - 1) else 0).toNat = v.toNat / 2 + b.toNat * 2 ^ (sz.width - 1) := by
  have hbit : (if b then 1#32 <<< (sz.width - 1) else 0).toNat = 2 ^ (sz.width - 1) * b.toNat := by
    cases b <;> cases sz <;> rfl
  rw [two_pow_width] at h
  rw [BitVec.toNat_or, hbit, BitVec.toNat_ushiftRight, Nat.shiftRight_eq_div_pow, pow_one, Nat.or_comm,
    ← Nat.two_pow_add_eq_or_of_lt (by omega), Nat.add_comm, Nat.mul_comm]

/-! ### The single steps (R801–R816) -/

/-- X and an operand as one number of w + 1 bits. -/
def withX (sz : Size) (x : Bool) (v : Long) : Nat := x.toNat * 2 ^ sz.width + v.toNat

section
variable (h : v.toNat < 2 ^ sz.width) (x : Bool)
include h

/-- No step leaves the size. -/
theorem shiftStep_lt (k : ShiftKind) : (shiftStep k sz v x).1.toNat < 2 ^ sz.width := by
  have hdouble (b : Bool) : (truncTo sz (v <<< 1) ||| if b then 1 else 0).toNat < 2 ^ sz.width := by
    rw [toNat_double_or, two_pow_width, Nat.mul_mod_mul_left]
    have := Nat.mod_lt v.toNat (show 0 < 2 ^ (sz.width - 1) by positivity)
    have := b.toNat_le
    omega
  have hhalf (b : Bool) : (v >>> 1 ||| if b then 1#32 <<< (sz.width - 1) else 0).toNat < 2 ^ sz.width := by
    rw [toNat_half_or h]
    rw [two_pow_width] at h ⊢
    have := Nat.mul_le_mul_right (2 ^ (sz.width - 1)) b.toNat_le
    omega
  have hplain : (truncTo sz (v <<< 1)).toNat < 2 ^ sz.width := by
    rw [toNat_truncTo]
    exact Nat.mod_lt _ (by positivity)
  cases k with
  | asl => exact hplain
  | lsl => exact hplain
  | asr => exact hhalf _
  | lsr =>
    show (v >>> 1).toNat < _
    rw [BitVec.toNat_ushiftRight]
    exact (Nat.shiftRight_le _ _).trans_lt h
  | rol => exact hdouble _
  | ror => exact hhalf _
  | roxl => exact hdouble _
  | roxr => exact hhalf _

theorem shiftStep_rol : (shiftStep .rol sz v x).1.toNat = rotateLeftOnce sz.width v.toNat := by
  rw [rotateLeftOnce, ← toNat_msb h]
  exact toNat_double_or sz v _

theorem shiftStep_ror : (shiftStep .ror sz v x).1.toNat = rotateRightOnce sz.width v.toNat := by
  rw [rotateRightOnce, ← toNat_getLsbD_zero]
  exact toNat_half_or h _

theorem withX_lt : withX sz x v < 2 ^ (sz.width + 1) := by
  have := Nat.mul_le_mul_right (2 ^ sz.width) x.toNat_le
  rw [withX, pow_succ]
  omega

theorem withX_div : withX sz x v / 2 ^ sz.width = x.toNat := by
  rw [withX, Nat.mul_comm, Nat.mul_add_div (by positivity), Nat.div_eq_of_lt h, add_zero]

theorem withX_mod : withX sz x v % 2 ^ sz.width = v.toNat := by
  rw [withX, Nat.mul_comm, Nat.mul_add_mod, Nat.mod_eq_of_lt h]

theorem shiftStep_roxl :
    withX sz (shiftStep .roxl sz v x).2 (shiftStep .roxl sz v x).1 = rotateLeftOnce (sz.width + 1) (withX sz x v) := by
  have hv := Nat.div_add_mod v.toNat (2 ^ (sz.width - 1))
  calc withX sz (shiftStep .roxl sz v x).2 (shiftStep .roxl sz v x).1
      = (msb sz v).toNat * 2 ^ sz.width + (truncTo sz (v <<< 1) ||| if x then 1 else 0).toNat := rfl
    _ = v.toNat / 2 ^ (sz.width - 1) * 2 ^ sz.width + (2 * (v.toNat % 2 ^ (sz.width - 1)) + x.toNat) := by
      rw [toNat_msb h, toNat_double_or, two_pow_width, Nat.mul_mod_mul_left]
    _ = 2 * v.toNat + x.toNat := by
      rw [two_pow_width]
      linarith
    _ = rotateLeftOnce (sz.width + 1) (withX sz x v) := by
      rw [rotateLeftOnce, pow_succ', Nat.mul_mod_mul_left, Nat.add_sub_cancel, withX_div h, withX_mod h]

theorem shiftStep_roxr :
    withX sz (shiftStep .roxr sz v x).2 (shiftStep .roxr sz v x).1 = rotateRightOnce (sz.width + 1) (withX sz x v) := by
  have hsum : withX sz x v = v.toNat + 2 * (x.toNat * 2 ^ (sz.width - 1)) := by
    rw [withX, two_pow_width]
    ring
  calc withX sz (shiftStep .roxr sz v x).2 (shiftStep .roxr sz v x).1
      = (v.getLsbD 0).toNat * 2 ^ sz.width + (v >>> 1 ||| if x then 1#32 <<< (sz.width - 1) else 0).toNat := rfl
    _ = v.toNat % 2 * 2 ^ sz.width + (v.toNat / 2 + x.toNat * 2 ^ (sz.width - 1)) := by
      rw [toNat_getLsbD_zero, toNat_half_or h]
    _ = rotateRightOnce (sz.width + 1) (withX sz x v) := by
      rw [rotateRightOnce, Nat.add_sub_cancel, hsum, Nat.add_mul_mod_self_left,
        Nat.add_mul_div_left _ _ (by decide), Nat.add_comm]

/-- The right shift that keeps the sign halves the signed value, rounding down. -/
theorem shiftStep_asr : (signExtendFrom sz (shiftStep .asr sz v x).1).toInt = (signExtendFrom sz v).toInt / 2 := by
  rw [toInt_eq_signedBelow (shiftStep_lt h x .asr), toInt_eq_signedBelow h]
  have hstep : (shiftStep .asr sz v x).1.toNat = v.toNat / 2 + (msb sz v).toNat * 2 ^ (sz.width - 1) := toNat_half_or h _
  have hiff := msb_iff h
  rw [hstep]
  rw [two_pow_width] at h
  generalize 2 ^ (sz.width - 1) = H at h hiff ⊢
  unfold signedBelow
  cases hb : msb sz v with
  | false =>
    have hlt : ¬H ≤ v.toNat := fun hle => absurd (hiff.2 hle) (by rw [hb]; decide)
    rw [if_neg hlt, Bool.toNat_false, zero_mul, add_zero, if_neg (by omega)]
    omega
  | true =>
    have hle := hiff.1 hb
    rw [if_pos hle, Bool.toNat_true, one_mul, if_pos (by omega)]
    omega

end

/-- X and the operand can be told from the number they make. -/
theorem withX_inj {x x' : Bool} {v' : Long} (h : v.toNat < 2 ^ sz.width) (h' : v'.toNat < 2 ^ sz.width)
    (heq : withX sz x v = withX sz x' v') : x = x' ∧ v = v' := by
  constructor
  · have hdiv := withX_div h x
    rw [heq, withX_div h' x'] at hdiv
    rw [Bool.eq_iff_iff, ← Bool.toNat_eq_one, ← hdiv, Bool.toNat_eq_one]
  · have hmod := withX_mod h x
    rw [heq, withX_mod h' x'] at hmod
    exact (BitVec.eq_of_toNat_eq hmod).symm

/-! ### The loop keeps to the size -/

theorem shiftLoop_lt (k : ShiftKind) (n : Nat) {a : ShiftAcc} (h : a.v.toNat < 2 ^ sz.width) :
    (shiftLoop k sz n a).v.toNat < 2 ^ sz.width := by
  induction n with
  | zero => exact h
  | succ n ih =>
    rw [shiftLoop_succ]
    exact shiftStep_lt ih _ k

/-- Whatever a single step does by a function of its own, the loop does by that function's iterate. -/
theorem shiftLoop_orbit {α : Type} (k : ShiftKind) (sz : Size) (f : ShiftAcc → α) (g : α → α)
    (hstep : ∀ a : ShiftAcc, a.v.toNat < 2 ^ sz.width → f (a.next k sz) = g (f a))
    (n : Nat) {a : ShiftAcc} (h : a.v.toNat < 2 ^ sz.width) : f (shiftLoop k sz n a) = g^[n] (f a) := by
  induction n with
  | zero => rfl
  | succ n ih => rw [shiftLoop_succ, hstep _ (shiftLoop_lt k n h), ih, Function.iterate_succ_apply']

end Sys2Proof.Machine
end


section
/-! The shifts and rotates in closed form (44_shift_rotate.md, R800–R816). -/

namespace Sys2Proof.Machine

/-! ### Iterated halves and doubles -/

theorem iterate_double_mod {M u : Nat} (hu : u < M) (n : Nat) : (fun t => 2 * t % M)^[n] u = u * 2 ^ n % M := by
  induction n with
  | zero => rw [pow_zero, mul_one, Nat.mod_eq_of_lt hu]; rfl
  | succ n ih =>
    rw [Function.iterate_succ_apply', ih, pow_succ, ← mul_assoc, mul_comm 2]
    exact Nat.mod_mul_mod ..

theorem iterate_half (u n : Nat) : (fun t => t / 2)^[n] u = u / 2 ^ n := by
  induction n with
  | zero => rw [pow_zero, Nat.div_one]; rfl
  | succ n ih => rw [Function.iterate_succ_apply', ih, Nat.div_div_eq_div_mul, ← pow_succ]

theorem iterate_half_int (i : Int) (n : Nat) : (fun t => t / 2)^[n] i = i / 2 ^ n := by
  induction n with
  | zero => rw [pow_zero, Int.ediv_one]; rfl
  | succ n ih => rw [Function.iterate_succ_apply', ih, Int.ediv_ediv_of_nonneg (by positivity), ← pow_succ]

/-! ### The operand after n steps -/

section
variable {sz : Size} (n : Nat) {a : ShiftAcc} (h : a.v.toNat < 2 ^ sz.width)
include h

theorem shiftLoop_asl : (shiftLoop .asl sz n a).v.toNat = a.v.toNat * 2 ^ n % 2 ^ sz.width := by
  rw [← iterate_double_mod h n]
  exact shiftLoop_orbit .asl sz (fun b => b.v.toNat) (fun t => 2 * t % 2 ^ sz.width)
    (fun b _ => toNat_double sz b.v) n h

theorem shiftLoop_lsl : (shiftLoop .lsl sz n a).v.toNat = a.v.toNat * 2 ^ n % 2 ^ sz.width := by
  rw [← iterate_double_mod h n]
  exact shiftLoop_orbit .lsl sz (fun b => b.v.toNat) (fun t => 2 * t % 2 ^ sz.width)
    (fun b _ => toNat_double sz b.v) n h

theorem shiftLoop_lsr : (shiftLoop .lsr sz n a).v.toNat = a.v.toNat / 2 ^ n := by
  rw [← iterate_half]
  exact shiftLoop_orbit .lsr sz (fun b => b.v.toNat) (fun t => t / 2)
    (fun b _ => BitVec.toNat_ushiftRight b.v 1) n h

theorem shiftLoop_asr :
    (signExtendFrom sz (shiftLoop .asr sz n a).v).toInt = (signExtendFrom sz a.v).toInt / 2 ^ n := by
  rw [← iterate_half_int]
  exact shiftLoop_orbit .asr sz (fun b => (signExtendFrom sz b.v).toInt) (fun t => t / 2)
    (fun b hb => shiftStep_asr hb b.x) n h

theorem shiftLoop_rol : (shiftLoop .rol sz n a).v.toNat = (rotateLeftOnce sz.width)^[n] a.v.toNat :=
  shiftLoop_orbit .rol sz (fun b => b.v.toNat) (rotateLeftOnce sz.width)
    (fun b hb => shiftStep_rol hb b.x) n h

theorem shiftLoop_ror : (shiftLoop .ror sz n a).v.toNat = (rotateRightOnce sz.width)^[n] a.v.toNat :=
  shiftLoop_orbit .ror sz (fun b => b.v.toNat) (rotateRightOnce sz.width)
    (fun b hb => shiftStep_ror hb b.x) n h

theorem shiftLoop_roxl : withX sz (shiftLoop .roxl sz n a).x (shiftLoop .roxl sz n a).v =
    (rotateLeftOnce (sz.width + 1))^[n] (withX sz a.x a.v) :=
  shiftLoop_orbit .roxl sz (fun b => withX sz b.x b.v) (rotateLeftOnce (sz.width + 1))
    (fun b hb => shiftStep_roxl hb b.x) n h

theorem shiftLoop_roxr : withX sz (shiftLoop .roxr sz n a).x (shiftLoop .roxr sz n a).v =
    (rotateRightOnce (sz.width + 1))^[n] (withX sz a.x a.v) :=
  shiftLoop_orbit .roxr sz (fun b => withX sz b.x b.v) (rotateRightOnce (sz.width + 1))
    (fun b hb => shiftStep_roxr hb b.x) n h

end

/-! ### V of ASL (R801) -/

/-- Doubling changes the sign bit exactly when twice the signed value leaves the size, and else doubles the signed value. -/
theorem signedBelow_double {H u : Nat} (hu : u < 2 * H) :
    (¬(H ≤ 2 * u % (2 * H) ↔ H ≤ u) ↔ 2 * signedBelow H u < -H ∨ H ≤ 2 * signedBelow H u) ∧
      ((H ≤ 2 * u % (2 * H) ↔ H ≤ u) → signedBelow H (2 * u % (2 * H)) = 2 * signedBelow H u) := by
  have hmod : 2 * u % (2 * H) = if u < H then 2 * u else 2 * u - 2 * H := by
    split
    · exact Nat.mod_eq_of_lt (by omega)
    · rw [Nat.mod_eq_sub_mod (by omega), Nat.mod_eq_of_lt (by omega)]
  rw [hmod]
  unfold signedBelow
  split <;> split <;> split <;> omega

/-- V is set once the signed product has left the size; till then the operand is the signed product. -/
theorem shiftLoop_asl_overflow {sz : Size} (n : Nat) {a : ShiftAcc} (h : a.v.toNat < 2 ^ sz.width)
    (hv : a.vflag = false) :
    let H := 2 ^ (sz.width - 1)
    let product := signedBelow H a.v.toNat * 2 ^ n
    let b := shiftLoop .asl sz n a
    (b.vflag = true ↔ product < -(H : Nat) ∨ (H : Nat) ≤ product) ∧
      (b.vflag = false → signedBelow H b.v.toNat = product) := by
  intro H
  have hpow : 2 ^ sz.width = 2 * H := two_pow_width sz
  induction n with
  | zero =>
    have hlt : a.v.toNat < 2 * H := hpow ▸ h
    simp only [shiftLoop, hv, pow_zero, mul_one]
    refine ⟨⟨fun hf => absurd hf (by decide), fun hout => ?_⟩, fun _ => trivial⟩
    unfold signedBelow at hout
    split at hout <;> omega
  | succ n ih =>
    obtain ⟨hiff, heq⟩ := ih
    have hb := shiftLoop_lt .asl n h
    rw [shiftLoop_succ, pow_succ, ← mul_assoc]
    generalize shiftLoop .asl sz n a = b at hiff heq hb
    generalize signedBelow H a.v.toNat * 2 ^ n = p at hiff heq
    have hstep : (b.next .asl sz).v.toNat = 2 * b.v.toNat % (2 * H) := hpow ▸ toNat_double sz b.v
    have hflag : (b.next .asl sz).vflag = true ↔
        b.vflag = true ∨ ¬(H ≤ 2 * b.v.toNat % (2 * H) ↔ H ≤ b.v.toNat) := by
      rw [← hstep, ShiftAcc.next_v, ← msb_iff hb, ← msb_iff (shiftStep_lt hb b.x .asl), ← bne_iff_not_iff, ← Bool.or_eq_true]
      rfl
    obtain ⟨hchange, hdouble⟩ := signedBelow_double (hpow ▸ hb)
    dsimp only
    rw [hstep, ← Bool.not_eq_true, hflag]
    cases hf : b.vflag with
    | false =>
      rw [heq hf] at hchange hdouble
      rw [hchange, mul_comm p]
      refine ⟨⟨fun hor => hor.resolve_left (by decide), .inr⟩, fun hno => hdouble ?_⟩
      exact not_not.1 fun hne => hno (.inr (hchange.1 hne))
    | true =>
      have hout := hiff.1 hf
      exact ⟨⟨fun _ => by omega, fun _ => .inl rfl⟩, fun hno => absurd (.inl rfl) hno⟩

end Sys2Proof.Machine
end


section
/-! The closed forms of the statements (44_shift_rotate.md, R800–R816). -/

namespace Sys2Proof.Machine

/-- What the loop of an instruction starts from (R800). -/
def ShiftAcc.start (v : Long) (old : Ccr) : ShiftAcc := { v := v, x := old.x, c := old.c, vflag := false }

theorem shiftOp_r (k : ShiftKind) (sz : Size) (v : Long) (n : Nat) (old : Ccr) :
    (shiftOp k sz v n old).r = (shiftLoop k sz n (.start v old)).v := rfl

theorem shiftOp_x (k : ShiftKind) (sz : Size) (v : Long) (n : Nat) (old : Ccr) :
    (shiftOp k sz v n old).f.x = (shiftLoop k sz n (.start v old)).x := rfl

/-- C after at least one step is the bit that the last step put out. -/
theorem shiftOp_succ_c (k : ShiftKind) (sz : Size) (v : Long) (n : Nat) (old : Ccr) :
    (shiftOp k sz v (n + 1) old).f.c =
      (shiftStep k sz (shiftOp k sz v n old).r (shiftOp k sz v n old).f.x).2 := by
  rw [shiftOp_r, shiftOp_x, ← ShiftAcc.next_c, ← shiftLoop_succ]
  exact if_neg (t := k.isRox && old.x) (Nat.succ_ne_zero n)

variable {sz : Size} {v : Long} (n : Nat) (old : Ccr)

section
variable (h : v.toNat < 2 ^ sz.width)
include h

theorem shiftOp_lt (k : ShiftKind) : (shiftOp k sz v n old).r.toNat < 2 ^ sz.width :=
  shiftLoop_lt k n (a := .start v old) h

theorem toNat_asl : (shiftOp .asl sz v n old).r.toNat = v.toNat * 2 ^ n % 2 ^ sz.width :=
  shiftLoop_asl n (a := .start v old) h

theorem toNat_lsl : (shiftOp .lsl sz v n old).r.toNat = v.toNat * 2 ^ n % 2 ^ sz.width :=
  shiftLoop_lsl n (a := .start v old) h

theorem toNat_lsr : (shiftOp .lsr sz v n old).r.toNat = v.toNat / 2 ^ n := shiftLoop_lsr n (a := .start v old) h

theorem toInt_asr :
    (signExtendFrom sz (shiftOp .asr sz v n old).r).toInt = (signExtendFrom sz v).toInt / 2 ^ n :=
  shiftLoop_asr n (a := .start v old) h

theorem toNat_rol_eq_iterate : (shiftOp .rol sz v n old).r.toNat = (rotateLeftOnce sz.width)^[n] v.toNat :=
  shiftLoop_rol n (a := .start v old) h

theorem toNat_ror_eq_iterate : (shiftOp .ror sz v n old).r.toNat = (rotateRightOnce sz.width)^[n] v.toNat :=
  shiftLoop_ror n (a := .start v old) h

theorem withX_roxl_eq_iterate : withX sz (shiftOp .roxl sz v n old).f.x (shiftOp .roxl sz v n old).r =
    (rotateLeftOnce (sz.width + 1))^[n] (withX sz old.x v) :=
  shiftLoop_roxl n (a := .start v old) h

theorem withX_roxr_eq_iterate : withX sz (shiftOp .roxr sz v n old).f.x (shiftOp .roxr sz v n old).r =
    (rotateRightOnce (sz.width + 1))^[n] (withX sz old.x v) :=
  shiftLoop_roxr n (a := .start v old) h

theorem shiftOp_asl_overflow : (shiftOp .asl sz v n old).f.v = true ↔
    (signExtendFrom sz v).toInt * 2 ^ n < -2 ^ (sz.width - 1) ∨
      2 ^ (sz.width - 1) ≤ (signExtendFrom sz v).toInt * 2 ^ n := by
  rw [toInt_eq_signedBelow h, (int_two_pow_width sz).2]
  exact (shiftLoop_asl_overflow n (a := .start v old) h rfl).1

theorem ror_of_rol : (shiftOp .ror sz (shiftOp .rol sz v n old).r n old).r = v := by
  have hpos : 0 < sz.width := by cases sz <;> decide
  apply BitVec.eq_of_toNat_eq
  rw [toNat_ror_eq_iterate n old (shiftOp_lt n old h .rol), toNat_rol_eq_iterate n old h]
  exact iterate_rotateRightOnce_iterate_rotateLeftOnce hpos h n

theorem roxr_of_roxl :
    let a := shiftOp .roxl sz v n old
    let b := shiftOp .roxr sz a.r n a.f
    b.r = v ∧ b.f.x = old.x := by
  intro a b
  have hlt := shiftOp_lt n old h .roxl
  have hsame : withX sz b.f.x b.r = withX sz old.x v := by
    rw [withX_roxr_eq_iterate n a.f hlt, withX_roxl_eq_iterate n old h]
    exact iterate_rotateRightOnce_iterate_rotateLeftOnce (Nat.succ_pos _) (withX_lt h old.x) n
  exact (withX_inj (shiftOp_lt n a.f hlt .roxr) h hsame).symm

end

/-- Settles O27: each step is a doubling, a halving or a rotation by one, and the loop is that step's iterate. -/
theorem shiftsInClosedForm : Obligations.ShiftsInClosedForm := by
  intro sz v n old h sgn
  exact ⟨toNat_asl n old h, toNat_lsl n old h, toNat_lsr n old h, toInt_asr n old h,
    shiftOp_asl_overflow n old h, ror_of_rol n old h, roxr_of_roxl n old h, fun _ => ⟨rfl, rfl, rfl⟩⟩

/-! ### The rotations and the flags -/

/-- The top bit of the product mod 2H is the bit that the next doubling puts out. -/
theorem le_mod_iff_double_div {H t : Nat} (hH : 0 < H) : H ≤ t % (2 * H) ↔ 2 * t / (2 * H) % 2 = 1 := by
  have hlt := Nat.mod_lt t hH
  have hsplit : t % (2 * H) = t % H + H * (t / H % 2) := by rw [mul_comm 2, Nat.mod_mul]
  rw [Nat.mul_div_mul_left _ _ (by decide), hsplit]
  rcases Nat.mod_two_eq_zero_or_one (t / H) with hb | hb <;> rw [hb] <;> omega

/-- The bit that a rotation to the left puts out is the bit it put in at the bottom. -/
theorem carry_rol (sz : Size) (v : Long) (n : Nat) (old : Ccr) :
    (shiftOp .rol sz v (n + 1) old).f.c = true ↔ (shiftOp .rol sz v (n + 1) old).r.toNat % 2 = 1 := by
  have hsum : (shiftOp .rol sz v (n + 1) old).r.toNat = 2 * (shiftOp .rol sz v n old).r.toNat % 2 ^ sz.width +
      (msb sz (shiftOp .rol sz v n old).r).toNat := by
    rw [shiftOp_r, shiftLoop_succ]
    exact toNat_double_or sz _ _
  rw [shiftOp_succ_c, hsum, two_pow_width, Nat.mul_mod_mul_left, Nat.mul_add_mod,
    Nat.mod_eq_of_lt (Nat.lt_succ_of_le (Bool.toNat_le _)), Bool.toNat_eq_one]
  rfl

section
variable (h : v.toNat < 2 ^ sz.width)
include h

theorem toNat_rol : (shiftOp .rol sz v n old).r.toNat =
    (v.toNat * 2 ^ (n % sz.width) + v.toNat / 2 ^ (sz.width - n % sz.width)) % 2 ^ sz.width := by
  have hpos : 0 < sz.width := by cases sz <;> decide
  rw [toNat_rol_eq_iterate n old h]
  exact (iterate_rotateLeftOnce hpos h n).trans (rotateLeft_eq_mod (Nat.mod_lt _ hpos).le h)

theorem toNat_ror : (shiftOp .ror sz v n old).r.toNat =
    (v.toNat / 2 ^ (n % sz.width) + v.toNat * 2 ^ (sz.width - n % sz.width)) % 2 ^ sz.width := by
  have hpos : 0 < sz.width := by cases sz <;> decide
  rw [toNat_ror_eq_iterate n old h]
  refine ((iterate_rotateRightOnce hpos h n).trans (rotateLeft_eq_mod (Nat.sub_le _ _) h)).trans ?_
  rw [Nat.sub_sub_self (Nat.mod_lt _ hpos).le, Nat.add_comm]

theorem withX_roxl :
    let a := shiftOp .roxl sz v n old
    let k := n % (sz.width + 1)
    withX sz a.f.x a.r =
      (withX sz old.x v * 2 ^ k + withX sz old.x v / 2 ^ (sz.width + 1 - k)) % 2 ^ (sz.width + 1) := by
  have hk := Nat.mod_lt n (Nat.succ_pos sz.width)
  have hu := withX_lt h old.x
  exact (withX_roxl_eq_iterate n old h).trans
    ((iterate_rotateLeftOnce (Nat.succ_pos _) hu n).trans (rotateLeft_eq_mod hk.le hu))

theorem withX_roxr :
    let a := shiftOp .roxr sz v n old
    let k := n % (sz.width + 1)
    withX sz a.f.x a.r =
      (withX sz old.x v / 2 ^ k + withX sz old.x v * 2 ^ (sz.width + 1 - k)) % 2 ^ (sz.width + 1) := by
  have hk := Nat.mod_lt n (Nat.succ_pos sz.width)
  have hu := withX_lt h old.x
  refine (withX_roxr_eq_iterate n old h).trans
    (((iterate_rotateRightOnce (Nat.succ_pos _) hu n).trans (rotateLeft_eq_mod (Nat.sub_le _ _) hu)).trans ?_)
  rw [Nat.sub_sub_self hk.le, Nat.add_comm]

/-- C of a left shift: bit w of the product. -/
theorem carry_of_left {k : ShiftKind} (hk : ∀ u x, (shiftStep k sz u x).2 = msb sz u)
    (hr : (shiftOp k sz v n old).r.toNat = v.toNat * 2 ^ n % 2 ^ sz.width) :
    (shiftOp k sz v (n + 1) old).f.c = true ↔ v.toNat * 2 ^ (n + 1) / 2 ^ sz.width % 2 = 1 := by
  have hdouble : v.toNat * 2 ^ (n + 1) = 2 * (v.toNat * 2 ^ n) := by ring
  rw [shiftOp_succ_c, hk, msb_iff (shiftOp_lt n old h k), hr, two_pow_width, hdouble]
  exact le_mod_iff_double_div (Nat.two_pow_pos _)

theorem carry_lsr : (shiftOp .lsr sz v (n + 1) old).f.c = true ↔ v.toNat / 2 ^ n % 2 = 1 := by
  rw [shiftOp_succ_c, ← toNat_lsr n old h]
  exact getLsbD_zero_iff _

/-- A signed value and its bits have one parity. -/
theorem signExtendFrom_mod_two : (signExtendFrom sz v).toInt % 2 = 1 ↔ v.toNat % 2 = 1 := by
  rw [toInt_eq_signedBelow h]
  unfold signedBelow
  split <;> omega

theorem carry_asr :
    (shiftOp .asr sz v (n + 1) old).f.c = true ↔ (signExtendFrom sz v).toInt / 2 ^ n % 2 = 1 := by
  rw [shiftOp_succ_c, ← toInt_asr n old h]
  exact (getLsbD_zero_iff _).trans (signExtendFrom_mod_two (shiftOp_lt n old h .asr)).symm

/-- The bit that a rotation to the right puts out is the bit it put in at the top. -/
theorem carry_ror :
    (shiftOp .ror sz v (n + 1) old).f.c = true ↔
      2 ^ (sz.width - 1) ≤ (shiftOp .ror sz v (n + 1) old).r.toNat := by
  have hlt := shiftOp_lt n old h .ror
  have hsum : (shiftOp .ror sz v (n + 1) old).r.toNat = (shiftOp .ror sz v n old).r.toNat / 2 +
      ((shiftOp .ror sz v n old).r.getLsbD 0).toNat * 2 ^ (sz.width - 1) := by
    rw [shiftOp_r, shiftLoop_succ]
    exact toNat_half_or hlt _
  rw [two_pow_width] at hlt
  rw [shiftOp_succ_c, hsum]
  show (shiftOp .ror sz v n old).r.getLsbD 0 = true ↔ _
  cases (shiftOp .ror sz v n old).r.getLsbD 0 with
  | false => exact iff_of_false (by decide) (by rw [Bool.toNat_false, zero_mul]; omega)
  | true => exact iff_of_true rfl (by rw [Bool.toNat_true, one_mul]; omega)

/-- The flags that every shift and rotate sets by one rule. -/
theorem shiftOp_flags (k : ShiftKind) :
    let a := shiftOp k sz v n old
    a.r.toNat < 2 ^ sz.width ∧ (k = .rol ∨ k = .ror → a.f.x = old.x) ∧
      (0 < n → k ≠ .rol → k ≠ .ror → a.f.x = a.f.c) ∧
      (a.f.n = true ↔ 2 ^ (sz.width - 1) ≤ a.r.toNat) ∧ (a.f.z = true ↔ a.r = 0) ∧ (k ≠ .asl → a.f.v = false) := by
  intro a
  have hlt := shiftOp_lt n old h k
  refine ⟨hlt, fun hk => ?_, fun hn hrol hror => ?_, msb_iff hlt, beq_iff_eq, fun hk => ?_⟩
  · have hwrites : k.writesX = false := by rcases hk with rfl | rfl <;> rfl
    exact shiftLoop_x_of_not_writesX hwrites sz n (.start v old)
  · have hwrites : k.writesX = true := by
      cases k with
      | rol => exact absurd rfl hrol
      | ror => exact absurd rfl hror
      | _ => rfl
    obtain ⟨m, rfl⟩ := Nat.exists_eq_succ_of_ne_zero hn.ne'
    show (shiftOp k sz v (m + 1) old).f.x = _
    rw [shiftOp_succ_c, shiftOp_x, shiftLoop_succ, ShiftAcc.next_x_of_writesX hwrites]
    rfl
  · show ((k == .asl) && _) = false
    rw [beq_eq_false_iff_ne.2 hk, Bool.false_and]

end

/-- The count of R800. -/
theorem shiftCount_imm (q : BitVec 3) (s : State) : shiftCount (.imm q) s = (q.toNat + 7) % 8 + 1 := by
  rcases bitVec3_cases q with rfl | rfl | rfl | rfl | rfl | rfl | rfl | rfl <;> rfl

/-- Settles O60: the rotations as iterates of one step, and C as the bit the last step put out. -/
theorem rotationsAndShiftFlags : Obligations.RotationsAndShiftFlags := by
  refine ⟨fun sz v n old h => ?_, fun s q dn => ⟨shiftCount_imm q s, rfl⟩⟩
  refine ⟨toNat_rol n old h, toNat_ror n old h, withX_roxl n old h, withX_roxr n old h, fun hn => ?_,
    shiftOp_flags n old h⟩
  obtain ⟨m, rfl⟩ := Nat.exists_eq_succ_of_ne_zero hn.ne'
  exact ⟨carry_of_left m old h (fun _ _ => rfl) (toNat_asl m old h),
    carry_of_left m old h (fun _ _ => rfl) (toNat_lsl m old h),
    carry_lsr m old h, carry_asr m old h, carry_rol sz v m old, carry_ror m old h⟩

end Sys2Proof.Machine
end
